-- ==== Sys2Proof/Word.lean ====
section
/-! DEFINITION. The word types of the XS-128 and their plainest arithmetic (R7, R14, R75). -/

namespace Sys2Proof

/-- One byte of memory. -/
abbrev Byte := BitVec 8

/-- One 32-bit vector lane (R7). -/
abbrev Lane := BitVec 32

/-- A scalar, address, predicate or control register (R7, R14, R15, R19). -/
abbrev Word := BitVec 64

/-- One entry of a vector register: 64 lanes of 32 bits (R7). -/
abbrev VReg := Vector Lane 64

/-- The vector entry that reads as zero (R8). -/
def VReg.zero : VReg := Vector.replicate 64 0

/-- All 64 bits of a predicate alike (R102, R229). -/
def allOnes : Word := BitVec.allOnes 64

/-- The one-bit result of a scalar compare, written to all 64 bits (R15, R102). -/
def spread (b : Bool) : Word := if b then allOnes else 0

end Sys2Proof
end

