-- ==== Sys2Proof/Syntax.lean ====
section
/-! DEFINITION. The syntax of the machine: one constructor of `Instr` per row of spec/opcode_table.json.

A slot operation carries the fields of its format class (R48): its guard, its registers, its peek
bits, and the long immediate where the bundle gives it one (R43), so that it means the same whatever
stands in the other slots.  V0/V1 and C0/C1 operations say which of the two slots they stand in.
A device step (the rows without a word) carries what happens in it. -/

namespace Sys2Proof

/-- G of R47: 0 always enabled, 1–12 predicate p(G−1). -/
abbrev Guard := Fin 13
abbrev SReg := Fin 16
abbrev VNum := Fin 16
abbrev AReg := Fin 16
abbrev PReg := Fin 12
abbrev HReg := Fin 16
abbrev NReg := Fin 6
abbrev Tok := Fin 8
abbrev CoreId := Fin 128

/-- A register source with its peek bit (R49). -/
structure QSrc where
  r  : Fin 16
  pk : Bool
deriving DecidableEq, Repr, Inhabited

/-- The B field of class R: a register with its peek bit, or the long immediate (R44, R48). -/
inductive SrcB where
  | reg (r : Fin 16) (pk : Bool)
  | imm (v : BitVec 32)
deriving DecidableEq, Repr, Inhabited

/-- A source without a peek bit, or the long immediate (classes C and CS, R48, R49). -/
inductive SrcC where
  | reg (r : Fin 16)
  | imm (v : BitVec 32)
deriving DecidableEq, Repr, Inhabited

/-- The immediate of class I (R48): I4 with SX, or IMM. -/
inductive ImmI where
  | short (v : BitVec 4) (sx : Bool)
  | long (v : BitVec 32)
deriving DecidableEq, Repr, Inhabited

/-- The displacement of class J (R48): T, or IMM. -/
inductive Disp where
  | short (t : BitVec 10)
  | long (v : BitVec 32)
deriving DecidableEq, Repr, Inhabited

/-- Format class R (R48). -/
structure FR where
  g : Guard
  d : Fin 16
  a : QSrc
  b : SrcB
deriving DecidableEq, Repr, Inhabited

/-- Format class I. -/
structure FI where
  g : Guard
  d : Fin 16
  a : QSrc
  i : ImmI
deriving DecidableEq, Repr, Inhabited

/-- Format class C. -/
structure FC where
  g  : Guard
  p  : PReg
  a  : Fin 16
  b  : SrcC
  cc : BitVec 2
deriving DecidableEq, Repr, Inhabited

/-- Format class L; `imm` is the offset or the control word. -/
structure FL where
  g   : Guard
  d   : Fin 16
  a   : Fin 16
  k   : Tok
  w   : BitVec 3
  imm : Option (BitVec 32)
deriving DecidableEq, Repr, Inhabited

/-- Format class Y; `imm` is the extension word. -/
structure FY where
  g   : Guard
  sc  : BitVec 3
  k   : Tok
  a   : Fin 16
  w   : BitVec 4
  imm : Option (BitVec 32)
deriving DecidableEq, Repr, Inhabited

/-- Format class J. -/
structure FJ where
  g : Guard
  a : Fin 16
  t : Disp
deriving DecidableEq, Repr, Inhabited

/-- Format class P; PD is four bits because PCNT names an s register there (R56). -/
structure FP where
  g  : Guard
  pd : Fin 16
  pa : PReg
  e  : BitVec 6
deriving DecidableEq, Repr, Inhabited

/-- Format class T. -/
structure FT where
  g  : Guard
  h  : Fin 16
  b  : Fin 16
  ac : BitVec 3
  k  : Tok
deriving DecidableEq, Repr, Inhabited

/-- Format class CS; the register number of CSRR and CSRW. -/
structure FCS where
  g : Guard
  s : SrcC
  n : BitVec 10
deriving DecidableEq, Repr, Inhabited

/-- A CSRW whose register number is its constructor's (rows BANKROLE_WRITE to WORLD_WRITE). -/
structure FW where
  g : Guard
  s : SrcC
deriving DecidableEq, Repr, Inhabited

/-- Format class N. -/
structure FN where
  g : Guard
deriving DecidableEq, Repr, Inhabited

/-- MOV with the long immediate: reads a loop-nest counter (R101). -/
structure FMovN where
  g : Guard
  d : Fin 16
  n : NReg
deriving DecidableEq, Repr, Inhabited

/-- VXFER, extract by constant: IMM[8] = 0, lane in IMM[5:0] (R165). -/
structure FXC where
  g    : Guard
  d    : Fin 16
  a    : QSrc
  lane : BitVec 6
deriving DecidableEq, Repr, Inhabited

/-- VXFER, cross-cluster copy: IMM[8] = 1, IMM[5:0] = 0 (R165). -/
structure FXX where
  g : Guard
  d : Fin 16
  a : QSrc
deriving DecidableEq, Repr, Inhabited

/-- A link of R289 and R368. -/
inductive Link where
  | die (a b : Fin 4)
  | base (stack : Fin 8)
  | host
  | peer (l : Fin 12)
deriving DecidableEq, Repr, Inhabited

/-- An agent of containment (R289). -/
inductive Agent where
  | die (d : Fin 4)
  | base (stack : Fin 8)
  | host
  | peer (l : Fin 12)
deriving DecidableEq, Repr, Inhabited

/-- A transfer arriving from a sending core (R213, R371). -/
structure PeerXfer where
  dev   : BitVec 12
  sender : CoreId
  target : CoreId
  off   : BitVec 21
  bytes : List Byte
  flag  : BitVec 6
deriving DecidableEq, Repr, Inhabited

/-- One region-table entry (R364). -/
structure Region where
  v     : Bool
  sec   : Bool
  base  : BitVec 23
  limit : BitVec 24
deriving DecidableEq, Repr, Inhabited

/-- One firmware image as Brozen reads it (R372). -/
structure Image where
  bytes   : List Byte
  sig     : List Byte
  version : Nat
deriving DecidableEq, Repr, Inhabited

/-- An RSA key: its modulus and an exponent (R372, R373). -/
structure RsaKey where
  modulus  : Nat
  exponent : Nat
deriving DecidableEq, Repr, Inhabited

/-- What bring-up meets (R358, R372, R375): the images with their signing key, the digest of that key and the rollback counter in fuses,
the owner's region configuration where signed firmware data supply one, and whether the host port offers 256-byte flits. -/
structure Firmware where
  images   : List Image
  key      : RsaKey
  fuses    : List Byte
  rollback : Nat
  regions  : Option (List Region)
  flit256  : Bool
deriving DecidableEq, Repr, Inhabited

/-- The operations and steps of the machine. -/
inductive Instr where
  -- every slot
  | nop
  -- slot S (R53)
  | add (o : FR) | sub (o : FR) | mul (o : FR) | mulh (o : FR) | mulhu (o : FR)
  | div (o : FR) | divu (o : FR) | rem (o : FR) | remu (o : FR)
  | and (o : FR) | or (o : FR) | xor (o : FR) | andn (o : FR)
  | shl (o : FR) | shr (o : FR) | sra (o : FR) | rol (o : FR)
  | min (o : FR) | max (o : FR) | minu (o : FR) | maxu (o : FR)
  | clz (o : FR) | popc (o : FR) | brev (o : FR) | sel (o : FR)
  | mov (o : FR) | movCounter (o : FMovN) | movi (o : FI) | addi (o : FI)
  | cmpeq (o : FC) | cmpne (o : FC) | cmplt (o : FC) | cmple (o : FC) | cmpltu (o : FC) | cmpleu (o : FC)
  | sfadd (o : FR) | sfsub (o : FR) | sfmul (o : FR) | sfdiv (o : FR)
  | sfcmplt (o : FC) | sfcmpeq (o : FC) | sfcvt (o : FI) | rndc (o : FR)
  | qcfg (o : FI) | qcnt (o : FR) | amov (o : FR) | amovToS (o : FR) | aadd (o : FR)
  | sld (o : FL) | sst (o : FL) | sldl (o : FL) | sstl (o : FL) | slda (o : FL) | sstrl (o : FL)
  | satom (o : FL) | scas (o : FL) | sstp (o : FL)
  -- slots V0 and V1 (R54); v1 = true is slot V1
  | vadd (v1 : Bool) (o : FR) | vsub (v1 : Bool) (o : FR) | vmul (v1 : Bool) (o : FR)
  | vfma (v1 : Bool) (o : FR) | vfms (v1 : Bool) (o : FR) | vmin (v1 : Bool) (o : FR) | vmax (v1 : Bool) (o : FR)
  | vabs (v1 : Bool) (o : FR) | vneg (v1 : Bool) (o : FR) | vdiv (v1 : Bool) (o : FR)
  | vsqrt (v1 : Bool) (o : FR) | vexp2 (v1 : Bool) (o : FR)
  | vhadd (v1 : Bool) (o : FR) | vhmul (v1 : Bool) (o : FR) | vhfma (v1 : Bool) (o : FR)
  | viadd (v1 : Bool) (o : FR) | visub (v1 : Bool) (o : FR) | vimul (v1 : Bool) (o : FR)
  | vimin (v1 : Bool) (o : FR) | vimax (v1 : Bool) (o : FR)
  | vand (v1 : Bool) (o : FR) | vor (v1 : Bool) (o : FR) | vxor (v1 : Bool) (o : FR)
  | vshl (v1 : Bool) (o : FR) | vshr (v1 : Bool) (o : FR) | vsra (v1 : Bool) (o : FR)
  | vcmpf (v1 : Bool) (o : FC) | vcmpi (v1 : Bool) (o : FC)
  | vsel (v1 : Bool) (o : FR) | vcvt (v1 : Bool) (o : FI) (fmt : BitVec 32)
  | vpack (v1 : Bool) (o : FR) | vunpk (v1 : Bool) (o : FR) | vperm (v1 : Bool) (o : FR)
  | vrot (v1 : Bool) (o : FI) | vbcast (v1 : Bool) (o : FR) | viota (v1 : Bool) (o : FI)
  | vscan (v1 : Bool) (o : FI) | vred (v1 : Bool) (o : FI) | vcnz (v1 : Bool) (o : FR)
  | vcomp (v1 : Bool) (o : FR) | vexpd (v1 : Bool) (o : FR) | vmov (v1 : Bool) (o : FR)
  | vld (v1 : Bool) (o : FL) | vst (v1 : Bool) (o : FL) | vldl (v1 : Bool) (o : FL) | vstl (v1 : Bool) (o : FL)
  | vgath (v1 : Bool) (o : FL) | vscat (v1 : Bool) (o : FL) | vldff (v1 : Bool) (o : FL)
  | vldt (v1 : Bool) (o : FL) | vstt (v1 : Bool) (o : FL) | vstp (v1 : Bool) (o : FL)
  | vxfer (v1 : Bool) (o : FR) | vxferConst (v1 : Bool) (o : FXC) | vxferCross (v1 : Bool) (o : FXX)
  | vins (v1 : Bool) (o : FR)
  -- slot M (R55); rep is the header's REP
  | mma (rep : BitVec 12) (o : FT) | mmaz (rep : BitVec 12) (o : FT)
  | mdrn (o : FT) | mfill (o : FT) | mzero (o : FT) | mcfg (o : FR)
  | msync (o : FT) | mldcb (o : FT) | mstat (o : FR)
  -- slot X (R56)
  | pand (o : FP) | por (o : FP) | pxor (o : FP) | pandn (o : FP) | pnot (o : FP) | pmov (o : FP)
  | pset (o : FP) | pclr (o : FP) | pcnt (o : FP) | pfirst (o : FP) | pshl (o : FP)
  | scld (o : FT) | sczero (o : FT)
  -- slots C0 and C1 (R57); c1 = true is slot C1
  | cpy (c1 : Bool) (o : FL) | cpyl (c1 : Bool) (o : FL) | cpyt (c1 : Bool) (o : FL) | cxpose (c1 : Bool) (o : FL)
  | cnest (c1 : Bool) (o : FR) | crun (c1 : Bool) (o : FL) | cstamp (c1 : Bool) (o : FL) | cbclose (c1 : Bool) (o : FN)
  | cfp (c1 : Bool) (o : FL) | ccmp (c1 : Bool) (o : FL) | csum (c1 : Bool) (o : FL) | cxpnd (c1 : Bool) (o : FL)
  | cpush (c1 : Bool) (o : FL) | cpeer (c1 : Bool) (o : FL) | cdisp (c1 : Bool) (o : FL)
  | binit (c1 : Bool) (o : FR) | barrive (c1 : Bool) (o : FR) | bexpect (c1 : Bool) (o : FR)
  | wset (c1 : Bool) (o : FL) | wnext (c1 : Bool) (o : FR) | wdone (c1 : Bool) (o : FR) | wresq (c1 : Bool) (o : FR)
  | tset (c1 : Bool) (o : FR) | tlock (c1 : Bool) (o : FR) | tqry (c1 : Bool) (o : FL) | tbind (c1 : Bool) (o : FL)
  | tcur (c1 : Bool) (o : FR) | tadv (c1 : Bool) (o : FI) | cfill (c1 : Bool) (o : FL)
  -- slot K (R58)
  | br (o : FJ) | bri (o : FJ) | call (o : FJ) | ret (o : FJ) | loop (o : FI) | nest (o : FI) | swapi (o : FJ)
  | trap (o : FI) | rft (o : FN) | waitk (o : FY) | waitb (o : FY) | cbwait (o : FY) | monarm (o : FY)
  | waitmon (o : FY) | ssync (o : FY) | spawn (o : FY) | texit (o : FN) | yield (o : FN) | hbeat (o : FN)
  | fence (o : FY) | pubc (o : FY) | csrr (o : FCS) | csrw (o : FCS) | fevrd (o : FR) | irqh (o : FI) | halt (o : FN)
  -- device steps
  /-- R60: the header's (`hdr`) or the slot's condition, with its reason code of R336. -/
  | illegalBundle (hdr : Bool) (slot : Fin 8) (reason : BitVec 8)
  | tokenCompletion (id : Nat)
  | pageWalk (space : Bool) (va : BitVec 48)
  | pintleCommit (entry : Nat)
  | copyStart (c1 : Bool)
  | copyComplete (id : Nat)
  | shootdownAcknowledge (c1 : Bool)
  | batchRetire (c1 : Bool)
  | stampWrite (id : Nat)
  | barrierUpdate (core : CoreId) (off : BitVec 21)
  | prefetchArrival (point : Nat)
  | pushDelivery (id : Nat)
  | peerTransferReceive (x : PeerXfer)
  | flitReceive (link : Fin 12) (flit : List Byte)
  | linkFailure (l : Link)
  | taskPlacement (task : Nat) (core : CoreId)
  | preemption (task : Nat)
  | parkedTaskReady (task : Nat)
  | dependenceSatisfied (task : Nat)
  | priorityPromotion (task : Nat)
  | taskResume (task : Nat)
  | taskDiscard (task : Nat)
  | superstepComplete (inst : Nat)
  | launch (record : List Byte) (aligned : Bool)
  | launchEnd (lid : BitVec 16)
  | interruptDelivery (vec : BitVec 10)
  | lenable (v : Word)
  | wdreq (secure : Bool) (v : Word)
  | entgo (stack : Fin 8) (v : Word)
  | entgoUpdate (stack : Fin 8)
  | biasreq (stack : Fin 8) (v : Word)
  | biasChangeComplete (page : Nat)
  | mdreg (stack : Fin 8) (v : Word)
  | pool (stack : Fin 8) (v : Word)
  | bankroleWrite (o : FW)
  | stashmapWrite (o : FW)
  | qmodeWrite (o : FW)
  | wdogwinWrite (o : FW)
  | fevlogWrite (o : FW)
  | worldWrite (o : FW)
  | registerWrite (secure : Bool) (off : BitVec 16) (v : Option Word)
  | hostMemAccess (pa : Nat) (n : Nat) (data : Option (List Byte))
  | powerPeriod (demand : List Nat)
  | therm (die : Fin 4)
  | moduleReset (fw : Firmware)
  | mctpMessage (m : List Byte)
  | hostSnoop (pa : Nat)
  | thermClear (die : Fin 4)
  | stagingFetchComplete (id : Nat)
  | accessPerformed (id : Nat)
  -- steps with no operand
  | resultLanding
  | instructionFetch
  | repetitionStart
  | repetitionComplete
  | scaleLanding
  | withdrawalComplete
  | taskEnd
  | taskHalted
  | parking
  | watchdogExpiry
deriving DecidableEq, Repr

end Sys2Proof
end

