-- ==== Sys2Proof/Config.lean ====
section
/-! DEFINITION. What an implementation fixes and what the manual leaves open: constants without a body, so that no
proof can see their values.  A function of a counter gives a fresh free value for each draw (L2). -/

namespace Sys2Proof.Config

/-- DESIGN CHOICE (L2): the clocks that pass, beyond one, before draw n of an operation whose clock the manual
calls unpredictable (R32, R203, R206, R252, R277, R333, R350) is performed. -/
opaque latency : Nat → Nat

/-- DESIGN CHOICE (L2): draw n of a choice the manual leaves open (R305). -/
opaque choice : Nat → Nat

/-- DESIGN CHOICE (L24): a byte read from the register region by an access that is not 8 bytes wide (R361). -/
opaque freeByte : Nat → BitVec 8

/-- DESIGN CHOICE (L2): TRAPSLOT.SLOT of draw n, where the manual names no slot (R60, R339). -/
opaque freeSlot : Nat → BitVec 3

/-- DESIGN CHOICE (L12): the set of a line in its L2 slice, modulo 2,048 (R273). -/
opaque l2Set : Nat → Nat

/-- DESIGN CHOICE (L12): the line that the L2 slices evict at the end of a clock beside those that make room (R411). -/
opaque evicted : Nat → Option Nat

/-- Where an uncorrectable error comes up (R269, R292): in an 8-byte word of a core's SCRATCH, in an accumulator row of a core, or in a
line, of the L2 or dirty in a core. -/
inductive Upset where
  | word (core : Fin 128) (w : Nat)
  | row (core : Fin 128) (r : Nat)
  | line (l : Nat)
deriving DecidableEq, Repr, Inhabited

/-- DESIGN CHOICE (L80): the uncorrectable error that comes up at the end of a clock (R292). -/
opaque upset : Nat → Option Upset

/-- DESIGN CHOICE (L11): the granule a frame pool hands out in draw n (R252). -/
opaque poolPick : Nat → Nat

/-- PRESUMED (L14): CRC-64 of a flit's first 238 bytes; the manual names no polynomial (R368). -/
opaque crc64 : List Byte → Word

/-- PRESUMED (L14): what forward error correction makes of a flit (R368); the code is not given. -/
opaque fec : List Byte → List Byte

/-- PRESUMED (L15): the device identity key that Brozen derives: its modulus and its private exponent (R373). -/
opaque identityKey : RsaKey

/-- PRESUMED (L16): the management controller's answer to a message, given the measurements, and what it signs of it, if it signs it
(R373). -/
opaque mctpReply : List Byte → List (List Byte) → List Byte × Option (List Byte)

/-- DESIGN CHOICE (L17): the demand of a die that the power arbiter measures in a period (R374). -/
opaque demand : Nat → Nat → Nat

/-- DESIGN CHOICE (L17): the share of current granted to a die, from the demand of the four dies and the cap (R374). -/
opaque grant : List Nat → Nat → Nat → Nat

/-- DESIGN CHOICE (L17): the number of clocks, of the next 4,200, in which the clusters of a die are frozen whose demand exceeds its
grant, and where a cluster's series begins (R374). -/
opaque frozenClocks : Nat → Nat → Nat
opaque frozenPhase : Nat → Nat → Nat

/-- DESIGN CHOICE (L17): which clock in eight an overheated module does not freeze (R374). -/
opaque thermPhase : Nat

/-- PRESUMED (L17): the draw in watts that the demand of the four dies gives (R374). -/
opaque wattsOf : List Nat → Nat

/-- PRESUMED (L38): the payloads of the flits that carry a peer transfer, a superstep message, a containment message (R368). -/
opaque peerFlits : PeerXfer → List (List Byte)
opaque superstepFlit : BitVec 16 → Nat → Nat → List Byte
opaque containmentFlit : BitVec 16 → List Byte
/-- PRESUMED (L38): the payload of the flit that acknowledges or refuses the flit of a number (R368). -/
opaque answerPayload : BitVec 10 → Bool → List Byte

/-- PRESUMED (L38): the acknowledgement of a flit, or its refusal, that a payload of type 4 carries (R368). -/
opaque flitAnswer : List Byte → Option (BitVec 10 × Bool)

/-- PRESUMED (L14): the ten bytes of forward error correction of a flit (R368). -/
opaque fecOf : List Byte → List Byte

/-- PRESUMED (L38): the transfer that the payloads of the flits of type 1 received since the last one make up, once they do
(R368, R371). -/
opaque peerTransfer : List (List Byte) → Option PeerXfer

/-- PRESUMED (L38): a superstep message: its FAB value, the arrivals it reports, and the members that have ended (R310). -/
opaque superstepMsg : List Byte → Option (BitVec 16 × Nat × Nat)

/-- PRESUMED (L38): a containment message: the FAB value of a level-4 instance that has lost a member (R313). -/
opaque containmentMsg : List Byte → Option (BitVec 16)

end Sys2Proof.Config
end

