-- ==== Sys2Proof/Machine/Bits.lean ====
section
/-! DEFINITION. Bit fields, sign extension, byte order (little-endian, R197) and the lanes of a vector entry, all
by structural recursion. -/

namespace Sys2Proof.Machine

/-- Bits [lo+n-1:lo] of a natural number. -/
def field (x lo n : Nat) : Nat := x / 2 ^ lo % 2 ^ n

/-- Bit i of a natural number. -/
def bit (x i : Nat) : Bool := x / 2 ^ i % 2 == 1

/-- x with bits [lo+n-1:lo] replaced by the low n bits of v. -/
def setField (x lo n v : Nat) : Nat :=
  x % 2 ^ lo + v % 2 ^ n * 2 ^ lo + x / 2 ^ (lo + n) * 2 ^ (lo + n)

/-- The signed value of the low n bits. -/
def sextInt (x n : Nat) : Int :=
  if x % 2 ^ n < 2 ^ (n - 1) then ((x % 2 ^ n : Nat) : Int) else ((x % 2 ^ n : Nat) : Int) - ((2 ^ n : Nat) : Int)

/-- sext(x, 64) of the low n bits (R39). -/
def sext64 (x n : Nat) : Word := BitVec.ofInt 64 (sextInt x n)

/-- sat(x, lo, hi) of R39. -/
def satInt (x lo hi : Int) : Int := if x < lo then lo else if hi < x then hi else x

/-- The number of ones among the low n bits. -/
def popcount : Nat → Nat → Nat
  | 0, _ => 0
  | n + 1, x => x % 2 + popcount n (x / 2)

/-- The bits of x in reverse order over n bits. -/
def bitrev : Nat → Nat → Nat
  | 0, _ => 0
  | n + 1, x => x % 2 * 2 ^ n + bitrev n (x / 2)

/-- The positions of the ones among the low n bits, ascending, counted from i. -/
def onesFrom : Nat → Nat → Nat → List Nat
  | 0, _, _ => []
  | n + 1, i, x => if x % 2 == 1 then i :: onesFrom n (i + 1) (x / 2) else onesFrom n (i + 1) (x / 2)

def ones (n x : Nat) : List Nat := onesFrom n 0 x

/-- The word whose ones stand at the listed positions. -/
def ofOnes (l : List Nat) : Nat := l.foldl (fun acc i => acc ||| 2 ^ i) 0

/-- n bytes of x, least significant first. -/
def toBytes : Nat → Nat → List Byte
  | 0, _ => []
  | n + 1, x => BitVec.ofNat 8 x :: toBytes n (x / 256)

/-- The number whose bytes are listed, least significant first. -/
def ofBytes : List Byte → Nat
  | [] => 0
  | b :: bs => b.toNat + 256 * ofBytes bs

/-- A list cut into pieces of n (the fuel is its length). -/
def chunksAux {α : Type} (n : Nat) : Nat → List α → List (List α)
  | 0, _ => []
  | f + 1, l => if l.isEmpty then [] else l.take n :: chunksAux n f (l.drop n)

def chunks {α : Type} (n : Nat) (l : List α) : List (List α) := chunksAux n l.length l

/-- The first index below n, counted from i, of which the test holds. -/
def findFrom (p : Nat → Bool) : Nat → Nat → Option Nat
  | 0, _ => none
  | n + 1, i => if p i then some i else findFrom p n (i + 1)

/-! ### Vectors -/

/-- A vector from its elements' numbers. -/
def vtab {α : Type} (n : Nat) (f : Nat → α) : Vector α n :=
  ⟨((List.range n).map f).toArray, by simp⟩

/-- Element i of a vector, by a default beyond its end. -/
def vat {α : Type} [Inhabited α] {n : Nat} (v : Vector α n) (i : Nat) : α := (v.toList[i]?).getD default

/-- A vector from a list, padded with a default. -/
def vofList {α : Type} [Inhabited α] (n : Nat) (l : List α) : Vector α n := vtab n fun i => (l[i]?).getD default

/-- A lane of a vector entry (R7). -/
def vlane (v : VReg) (i : Nat) : Lane := vat v i

/-- A vector entry lane by lane. -/
def vlanes (f : Nat → Lane) : VReg := vtab 64 f

/-- The lanes in order. -/
def vlist (v : VReg) : List Lane := v.toList

def vofLanes (l : List Lane) : VReg := vofList 64 l

/-- Lane i of a predicate or a mask (R15). -/
def plane (p : Word) (i : Nat) : Bool := bit p.toNat i

/-- The predicate whose lane i is f i. -/
def pmask (f : Nat → Bool) : Word := BitVec.ofNat 64 (ofOnes ((List.range 64).filter f))

/-- The 256 bytes of a vector entry, lane 0 first. -/
def vtoBytes (v : VReg) : List Byte := v.toList.flatMap fun l => toBytes 4 l.toNat

/-- A vector entry from 256 bytes. -/
def vofBytes (bs : List Byte) : VReg :=
  vofLanes ((chunks 4 bs).map fun c => BitVec.ofNat 32 (ofBytes c))

/-- The new entry where the mask has a lane, the old one elsewhere (R131). -/
def vblend (mask : Word) (new old : VReg) : VReg :=
  vofLanes (List.zipWith (fun i (p : Lane × Lane) => if plane mask i then p.1 else p.2) (List.range 64)
    (List.zip new.toList old.toList))

/-- Lane-wise maps. -/
def vmap1 (f : Lane → Lane) (a : VReg) : VReg := vofLanes (a.toList.map f)
def vmap2 (f : Lane → Lane → Lane) (a b : VReg) : VReg := vofLanes (List.zipWith f a.toList b.toList)
def vsplat (x : Lane) : VReg := Vector.replicate 64 x

/-- The low and the high half-lane of a packed lane (R75). -/
def loHalf (x : Lane) : Nat := x.toNat % 65536
def hiHalf (x : Lane) : Nat := x.toNat / 65536
def packHalves (lo hi : Nat) : Lane := BitVec.ofNat 32 (lo % 65536 + 65536 * hi)

end Sys2Proof.Machine
end

