-- ==== Sys2Proof/WellFormed.lean ====
section
/-! DEFINITION. Which instructions are well formed: the field ranges of R49 to R51 and R53 to R59 (`fieldsOk`),
the cluster rule R13 (`clusterOk`), the required long immediates of R43 (`immOk`), and the destinations
that R33 compares between the slots of a bundle (`dests`). -/

namespace Sys2Proof

/-- The slot an operation stands in (R5); `none` for the NOP and the device steps. -/
def vslot (v1 : Bool) : Fin 8 := if v1 then 2 else 1
def cslot (c1 : Bool) : Fin 8 := if c1 then 5 else 4

/-- A zero A field with its peek bit clear (R51). -/
def QSrc.isZero (q : QSrc) : Bool := q.r == 0 && !q.pk

/-- A zero B field (R51). -/
def SrcB.isZero : SrcB → Bool
  | .reg r pk => r == 0 && !pk
  | .imm _ => false

def SrcB.isReg : SrcB → Bool
  | .reg _ _ => true
  | .imm _ => false

/-- B names a register that has no peek bit, or is a number (R49). -/
def SrcB.noPeek : SrcB → Bool
  | .reg _ pk => !pk
  | .imm _ => true

/-- I4 alone, with SX clear (R53: "SX zero"). -/
def ImmI.code : ImmI → Option (BitVec 4)
  | .short v false => some v
  | _ => none

def ImmI.isCodeBelow (i : ImmI) (n : Nat) : Bool :=
  match i.code with
  | some v => v.toNat < n
  | none => false

/-- The register numbers of R19. -/
def csrListed (n : BitVec 10) : Bool :=
  n.toNat ≤ 0x00A || (0x010 ≤ n.toNat && n.toNat ≤ 0x027) || (0x030 ≤ n.toNat && n.toNat ≤ 0x035)

/-- The registers whose write has a row of its own: QMODE, BANKROLE, STASHMAP, FEVLOG, WDOGWIN, WORLD. -/
def csrOwnRow (n : BitVec 10) : Bool :=
  n == 0x001 || n == 0x003 || n == 0x004 || n == 0x006 || n == 0x030 || n == 0x035

/-- A core-set descriptor has [31:24] zero (R59). -/
def coreSetOk : Option (BitVec 32) → Bool
  | some c => c.toNat < 2 ^ 24
  | none => true

/-- The control word of SATOM: OPC 0–8, [31:7] zero (R201). -/
def satomOk : Option (BitVec 32) → Bool
  | some c => c.toNat < 2 ^ 7 && c.toNat % 16 ≤ 8
  | none => true

def scasOk : Option (BitVec 32) → Bool
  | some c => c.toNat < 2 ^ 7
  | none => true

/-- VCVT's format word (R77). -/
def fmtOk (f : BitVec 32) : Bool := f.toNat < 2 ^ 8 && f.toNat % 16 < 8 && f.toNat / 16 < 8

/-- The extension word of CBWAIT: 0 or 1–12, [31:4] zero (R230). -/
def cbwaitImmOk : Option (BitVec 32) → Bool
  | some c => c.toNat ≤ 12
  | none => true

def fenceImmOk : Option (BitVec 32) → Bool
  | some c => c.toNat < 2 ^ 16
  | none => true

def FL.plain (o : FL) : Bool := o.w == 0
def FL.noImm (o : FL) : Bool := o.imm == none

/-- R49 to R51 and R53 to R58: every field holds a value its instruction assigns. -/
def Instr.fieldsOk : Instr → Bool
  | .nop => true
  | .add _ | .sub _ | .mul _ | .mulh _ | .mulhu _ | .div _ | .divu _ | .rem _ | .remu _
  | .and _ | .or _ | .xor _ | .andn _ | .shl _ | .shr _ | .sra _ | .rol _
  | .min _ | .max _ | .minu _ | .maxu _ => true
  | .clz o | .popc o | .brev o => o.b.isZero
  | .sel _ => true
  | .mov o => o.b.isZero
  | .movCounter _ => true
  | .movi o => o.a.isZero
  | .addi _ => true
  | .cmpeq o | .cmpne o | .cmplt o | .cmple o | .cmpltu o | .cmpleu o => o.cc == 0
  | .sfadd _ | .sfsub _ | .sfmul _ | .sfdiv _ => true
  | .sfcmplt o | .sfcmpeq o => o.cc == 0
  | .sfcvt o => o.i.isCodeBelow 14
  | .rndc _ => true
  | .qcfg o => o.d != 0 && !o.a.pk && ((o.a.r == 0 && o.i.isCodeBelow 4) || (o.a.r == 1 && o.i.isCodeBelow 2))
  | .qcnt o => o.a.r != 0 && !o.a.pk && (o.b == .reg 0 false || o.b == .reg 1 false)
  | .amov o => o.b == .reg 0 false
  | .amovToS o => o.b == .reg 1 false && !o.a.pk
  | .aadd o => !o.a.pk
  | .sld o => o.w.toNat ≤ 6
  | .sst o => o.w.toNat ≤ 3
  | .sldl o => o.w.toNat ≤ 6
  | .sstl o => o.w.toNat ≤ 3 && o.k == 0
  | .slda o | .sstrl o => o.w.toNat ≤ 4 && o.noImm
  | .satom o => o.w.toNat ≤ 4 && satomOk o.imm
  | .scas o => o.w.toNat ≤ 4 && scasOk o.imm
  | .sstp o => o.plain && coreSetOk o.imm
  | .vadd _ _ | .vsub _ _ | .vmul _ _ | .vfma _ _ | .vfms _ _ | .vmin _ _ | .vmax _ _ => true
  | .vabs _ o | .vneg _ o => o.b.isZero
  | .vdiv _ _ => true
  | .vsqrt _ o | .vexp2 _ o => o.b.isZero
  | .vhadd _ _ | .vhmul _ _ | .vhfma _ _ => true
  | .viadd _ _ | .visub _ _ | .vimul _ _ | .vimin _ _ | .vimax _ _ | .vand _ _ | .vor _ _ | .vxor _ _
  | .vshl _ _ | .vshr _ _ | .vsra _ _ => true
  | .vcmpf _ _ | .vcmpi _ _ => true
  | .vsel _ _ => true
  | .vcvt _ o f => o.i.isCodeBelow 16 && !o.a.pk && fmtOk f
  | .vpack _ o => o.b.isReg
  | .vunpk _ o => o.b.isZero
  | .vperm _ o => o.b.isReg
  | .vrot _ _ => true
  | .vbcast _ o => o.b.isZero
  | .viota _ o => o.a.isZero
  | .vscan _ o | .vred _ o => o.i.isCodeBelow 9
  | .vcnz _ o | .vcomp _ o | .vexpd _ o | .vmov _ o => o.b.isZero
  | .vld _ o | .vst _ o | .vldl _ o => o.plain
  | .vstl _ o => o.plain && o.k == 0
  | .vgath _ _ => true
  | .vscat _ o => o.plain && o.k == 0
  | .vldff _ _ => true
  | .vldt _ o | .vstt _ o => o.w.toNat ≤ 3 && o.noImm
  | .vstp _ o => o.plain && coreSetOk o.imm
  | .vxfer _ o => o.b.isReg
  | .vxferConst _ _ => true
  | .vxferCross _ _ => true
  | .vins _ _ => true
  | .mma _ _ | .mmaz _ _ => true
  | .mdrn o => o.b.val / 4 ≤ 2
  | .mfill o => o.b == 0 && o.k == 0
  | .mzero o => o.h == 0 && o.b == 0 && o.k == 0
  | .mcfg o => o.d == 0 && o.a.isZero
  | .msync o => o.h == 0 && o.b == 0 && o.ac == 0
  | .mldcb o => o.ac == 0 && o.k == 0
  | .mstat o => o.a.isZero && o.b.isZero
  | .pand o | .por o | .pxor o | .pandn o => o.pd.val ≤ 11 && o.e.toNat % 4 == 0 && o.e.toNat / 4 ≤ 11
  | .pnot o | .pmov o => o.pd.val ≤ 11 && o.e == 0
  | .pset o | .pclr o => o.pd.val ≤ 11 && o.pa == 0
  | .pcnt o => o.e == 0
  | .pfirst o => o.pd.val ≤ 11 && o.e == 0
  | .pshl o => o.pd.val ≤ 11
  | .scld o => o.b.val ≤ 1 && o.ac == 0 && o.k == 0
  | .sczero o => o.h == 0 && o.b.val ≤ 1 && o.ac == 0 && o.k == 0
  | .cpy _ o => o.w.toNat % 2 == 0
  | .cpyl _ _ => true
  | .cpyt _ o => o.w.toNat / 2 % 2 == 0
  | .cxpose _ o => o.w.toNat % 4 == 0
  | .cnest _ o => o.d.val ≤ 5
  | .crun _ o => o.w.toNat % 4 != 3
  | .cstamp _ o => o.d == 0 && o.plain
  | .cbclose _ _ => true
  | .cfp _ o | .csum _ o => o.plain
  | .ccmp _ o => o.w != 7
  | .cxpnd _ o => o.plain
  | .cpush _ o => o.d == 0 && o.plain && coreSetOk o.imm
  | .cpeer _ o => o.plain
  | .cdisp _ o => o.d == 0 && o.plain
  | .binit _ o | .barrive _ o | .bexpect _ o => o.d == 0 && !o.a.pk
  | .wset _ o => o.d == 0 && o.plain
  | .wnext _ o => o.a.isZero && o.b.isZero
  | .wdone _ o => o.d == 0 && o.b.isZero
  | .wresq _ o => !o.a.pk
  | .tset _ _ | .tlock _ _ => true
  | .tqry _ o | .tbind _ o => o.plain
  | .tcur _ _ | .tadv _ _ => true
  | .cfill _ _ => true
  | .br o => o.a == 0
  | .bri o => o.t == .short 0
  | .call _ => true
  | .ret o => o.t == .short 0
  | .loop o | .nest o => o.d.val ≤ 5
  | .swapi o => o.a == 0
  | .trap o => o.d == 0 && o.a.isZero
  | .rft _ => true
  | .waitk o => o.sc == 0 && o.a == 0 && o.w == 0 && o.imm == none
  | .waitb o => o.sc.toNat ≤ 4 && o.k == 0 && o.imm == none
  | .cbwait o => o.sc == 0 && o.k == 0 && o.a == 0 && cbwaitImmOk o.imm
  | .monarm o => o.sc.toNat ≤ 4 && o.k == 0 && o.w == 0 && o.imm == none
  | .waitmon o => o.sc.toNat ≤ 4 && o.k == 0 && (o.w == 0 || o.w.toNat ≥ 8) && o.imm == none
  | .ssync o => 1 ≤ o.sc.toNat && o.sc.toNat ≤ 4 && o.k == 0 && o.a == 0 && o.w == 0 && o.imm == none
  | .spawn o => o.sc == 0 && o.w == 0 && o.imm == none
  | .texit _ | .yield _ | .hbeat _ => true
  | .fence o => o.sc == 0 && o.k == 0 && o.a == 0 && o.w == 0 && fenceImmOk o.imm
  | .pubc o => o.sc.toNat ≤ 4 && o.k == 0 && o.a == 0 && o.w == 0 && o.imm == none
  | .csrr o => csrListed o.n && (match o.s with | .reg _ => true | .imm _ => false)
  | .csrw o => csrListed o.n && !csrOwnRow o.n
  | .fevrd o => o.a.isZero && o.b.isZero
  | .irqh o => o.d == 0 && o.a.isZero
  | .halt _ => true
  | .illegalBundle hdr _ r => 1 ≤ r.toNat && r.toNat ≤ 8 && (hdr == (r == 1))
  | .resultLanding | .tokenCompletion _ | .instructionFetch | .pageWalk _ _ => true
  | .repetitionStart | .repetitionComplete | .scaleLanding => true
  | .pintleCommit e => e % 16 == 0
  | .copyStart _ | .copyComplete _ | .shootdownAcknowledge _ | .batchRetire _ | .stampWrite _ => true
  | .barrierUpdate _ off => off.toNat % 16 == 0
  | .prefetchArrival p => p < 65536
  | .pushDelivery _ => true
  | .peerTransferReceive x =>
    x.off.toNat % 8 == 0 && x.bytes.length % 8 == 0 && x.bytes.length ≤ 2 ^ 21
  | .flitReceive _ f => f.length == 256
  | .linkFailure _ => true
  | .watchdogExpiry | .taskPlacement _ _ | .preemption _ | .parking | .parkedTaskReady _
  | .dependenceSatisfied _ | .priorityPromotion _ | .taskEnd | .taskHalted | .taskResume _ | .taskDiscard _
  | .superstepComplete _ => true
  | .launch _ _ | .launchEnd _ | .interruptDelivery _ | .lenable _ | .wdreq _ _ | .withdrawalComplete => true
  | .entgo _ _ | .entgoUpdate _ | .biasreq _ _ | .biasChangeComplete _ | .mdreg _ _ | .pool _ _ => true
  | .bankroleWrite _ | .stashmapWrite _ | .qmodeWrite _ | .wdogwinWrite _ | .fevlogWrite _ | .worldWrite _ => true
  | .registerWrite _ off _ => off.toNat % 8 == 0 || off.toNat < 64
  | .hostMemAccess _ n d => (match d with | some b => b.length == n | none => true)
  | .powerPeriod d => d.length == 4
  | .therm _ | .moduleReset _ | .mctpMessage _ | .hostSnoop _ | .thermClear _ | .stagingFetchComplete _
  | .accessPerformed _ => true

/-- R13 for one vector destination. -/
def vdestOk (v1 : Bool) (d : Fin 16) : Bool := if v1 then d.val == 0 || 8 ≤ d.val else d.val ≤ 7

/-- R13: slot V0 writes only v1–v7, slot V1 only v8–v15; a cross-cluster VXFER is excepted (R165). -/
def Instr.clusterOk : Instr → Bool
  | .vadd v o | .vsub v o | .vmul v o | .vfma v o | .vfms v o | .vmin v o | .vmax v o | .vabs v o | .vneg v o
  | .vdiv v o | .vsqrt v o | .vexp2 v o | .vhadd v o | .vhmul v o | .vhfma v o | .viadd v o | .visub v o
  | .vimul v o | .vimin v o | .vimax v o | .vand v o | .vor v o | .vxor v o | .vshl v o | .vshr v o | .vsra v o
  | .vsel v o | .vpack v o | .vunpk v o | .vperm v o | .vbcast v o | .vcnz v o | .vcomp v o | .vexpd v o
  | .vmov v o | .vins v o => vdestOk v o.d
  | .vcvt v o _ | .vrot v o | .viota v o | .vscan v o | .vred v o => vdestOk v o.d
  | .vld v o | .vldl v o | .vgath v o | .vldff v o | .vldt v o => vdestOk v o.d
  | _ => true

/-- R43: the instructions that require the long immediate have it. -/
def Instr.immOk : Instr → Bool
  | .satom o | .scas o | .sstp o | .vstp _ o | .cpush _ o => o.imm.isSome
  | _ => true

/-- A well-formed instruction: what the decoder may answer. -/
def Instr.wf (i : Instr) : Bool := i.fieldsOk && i.clusterOk && i.immOk

/-- A destination that R33 compares: a register, queue, predicate, address register or handle. -/
inductive DName where
  | s (r : Fin 16) | v (r : Fin 16) | a (r : Fin 16) | p (r : PReg) | h (r : Fin 16)
deriving DecidableEq, Repr

def sD (d : Fin 16) : List DName := if d = 0 then [] else [.s d]
def vD (d : Fin 16) : List DName := if d = 0 then [] else [.v d]
/-- A predicate named in a three-bit field, p0–p7. -/
def pOfW (w : BitVec 3) : PReg := ⟨w.toNat, Nat.lt_trans w.isLt (by decide)⟩
/-- A predicate number below 12, or p0. -/
def pOfNat (n : Nat) : PReg := if h : n < 12 then ⟨n, h⟩ else 0

/-- The destinations an operation names; s0 and v0 are none (R8, R33). -/
def Instr.dests : Instr → List DName
  | .add o | .sub o | .mul o | .mulh o | .mulhu o | .div o | .divu o | .rem o | .remu o | .and o | .or o
  | .xor o | .andn o | .shl o | .shr o | .sra o | .rol o | .min o | .max o | .minu o | .maxu o
  | .clz o | .popc o | .brev o | .sel o | .mov o | .sfadd o | .sfsub o | .sfmul o | .sfdiv o | .rndc o
  | .qcnt o | .amovToS o | .mstat o | .fevrd o => sD o.d
  | .movCounter o => sD o.d
  | .movi o | .addi o | .sfcvt o => sD o.d
  | .cmpeq o | .cmpne o | .cmplt o | .cmple o | .cmpltu o | .cmpleu o | .sfcmplt o | .sfcmpeq o => [.p o.p]
  | .amov o | .aadd o => [.a o.d]
  | .sld o | .sldl o | .slda o | .satom o | .scas o => sD o.d
  | .vadd _ o | .vsub _ o | .vmul _ o | .vfma _ o | .vfms _ o | .vmin _ o | .vmax _ o | .vabs _ o | .vneg _ o
  | .vdiv _ o | .vsqrt _ o | .vexp2 _ o | .vhadd _ o | .vhmul _ o | .vhfma _ o | .viadd _ o | .visub _ o
  | .vimul _ o | .vimin _ o | .vimax _ o | .vand _ o | .vor _ o | .vxor _ o | .vshl _ o | .vshr _ o | .vsra _ o
  | .vsel _ o | .vpack _ o | .vunpk _ o | .vperm _ o | .vbcast _ o | .vcnz _ o | .vcomp _ o | .vexpd _ o
  | .vmov _ o | .vins _ o => vD o.d
  | .vcvt _ o _ | .vrot _ o | .viota _ o | .vscan _ o | .vred _ o => vD o.d
  | .vcmpf _ o | .vcmpi _ o => [.p o.p]
  | .vld _ o | .vldl _ o | .vldt _ o => vD o.d
  | .vgath _ o | .vldff _ o => vD o.d ++ [.p (pOfW o.w)]
  | .vxfer _ o => sD o.d
  | .vxferConst _ o => sD o.d
  | .vxferCross _ o => vD o.d
  | .pand o | .por o | .pxor o | .pandn o | .pnot o | .pmov o | .pset o | .pclr o | .pfirst o | .pshl o =>
    [.p (pOfNat o.pd.val)]
  | .pcnt o => sD o.pd
  | .wnext _ o | .wresq _ o => sD o.d
  | .tqry _ o => sD o.d
  | .tset _ o | .tlock _ o | .tcur _ o => [.h o.d]
  | .tbind _ o => [.h o.d]
  | .tadv _ o => [.h o.d]
  | .call o => [.a o.a]
  | .waitb o => [.p (pOfNat (o.w.toNat % 8))]
  | .waitmon o => if o.w.toNat ≥ 8 then [.p (pOfNat (o.w.toNat % 8))] else []
  | .cbwait o =>
    match o.imm with
    | some c => if c.toNat = 0 ∨ 12 < c.toNat then [] else [.p (pOfNat (c.toNat - 1))]
    | none => []
  | .csrr o => match o.s with | .reg r => sD r | .imm _ => []
  | _ => []

end Sys2Proof
end

