-- ==== Sys2Proof/Decode.lean ====
section
/-! DEFINITION. Decoding a 256-bit bundle (R41 to R60) into its operations, total on any bits and refusing by
the reason codes of R336, and encoding a single operation back into its slot word and long immediate.
Words are natural numbers whose bit 0 is the least significant bit. -/

namespace Sys2Proof

/-- Bits [lo+n-1:lo] of a word. -/
def bitsAt (w lo n : Nat) : Nat := w / 2 ^ lo % 2 ^ n

/-- OP of a slot word (R46). -/
def fOp (w : Nat) : Nat := w / 262144

/-- Why an encoding is no instruction: a header condition, or a condition of a slot with its reason
code of R336 (R60). -/
inductive Reject where
  | header
  | slot (reason : BitVec 8)
deriving DecidableEq, Repr

def fG (w : Nat) : Nat := w / 16384 % 16

/-- R47: the guard of a word; G 13–15 are reserved. -/
def parG (w : Nat) : Except Reject Guard :=
  if h : fG w < 13 then .ok ⟨fG w, h⟩ else .error (.slot 2)

def fin16 (n : Nat) : Fin 16 := ⟨n % 16, Nat.mod_lt _ (by decide)⟩
def fin8 (n : Nat) : Fin 8 := ⟨n % 8, Nat.mod_lt _ (by decide)⟩
def bitAt (w i : Nat) : Bool := w / 2 ^ i % 2 == 1

/-- D, H, PD, P, SC/K of [13:10]; A of [9:6]; B of [5:2]. -/
def f13 (w : Nat) : Nat := w / 1024 % 16
def f9 (w : Nat) : Nat := w / 64 % 16
def f5 (w : Nat) : Nat := w / 4 % 16
def fPka (w : Nat) : Bool := w / 2 % 2 == 1
def fPkb (w : Nat) : Bool := w % 2 == 1
def parA (w : Nat) : QSrc := ⟨fin16 (f9 w), fPka w⟩

/-- A long immediate that the operation does not accept, or that stands beside a field it replaces, is a header condition, whatever
else the word breaks (R43, R60). -/
def takeImm (ok : Bool) (imm : Option (BitVec 32)) : Except Reject Unit :=
  if imm.isSome && !ok then .error .header else .ok ()

/-- B and PKB, or I4 and SX, are zero, as IMM requires in their place. -/
def bClear (w : Nat) : Bool := f5 w == 0 && !fPkb w

/-- Class R (R48). -/
def parR (acc : Bool) (w : Nat) (imm : Option (BitVec 32)) : Except Reject FR := do
  takeImm (acc && bClear w) imm
  let g ← parG w
  return ⟨g, fin16 (f13 w), parA w, match imm with
    | none => .reg (fin16 (f5 w)) (fPkb w)
    | some v => .imm v⟩

/-- Class I: the long immediate replaces I4, with SX zero. -/
def parI (acc : Bool) (w : Nat) (imm : Option (BitVec 32)) : Except Reject FI := do
  takeImm (acc && bClear w) imm
  let g ← parG w
  return ⟨g, fin16 (f13 w), parA w, match imm with
    | none => .short (BitVec.ofNat 4 (f5 w)) (fPkb w)
    | some v => .long v⟩

/-- A predicate number in a four-bit field (R50). -/
def parP12 (n : Nat) : Except Reject PReg := if h : n < 12 then .ok ⟨n, h⟩ else .error (.slot 5)

/-- Class C: the long immediate replaces B. -/
def parC (acc : Bool) (w : Nat) (imm : Option (BitVec 32)) : Except Reject FC := do
  takeImm (acc && f5 w == 0) imm
  let g ← parG w
  let p ← parP12 (f13 w)
  return ⟨g, p, fin16 (f9 w), match imm with
    | none => .reg (fin16 (f5 w))
    | some v => .imm v, BitVec.ofNat 2 w⟩

/-- Class L: the long immediate is an offset or a control word and replaces no field. -/
def parL (acc : Bool) (w : Nat) (imm : Option (BitVec 32)) : Except Reject FL := do
  takeImm acc imm
  let g ← parG w
  return ⟨g, fin16 (f13 w), fin16 (f9 w), fin8 (w / 8), BitVec.ofNat 3 w, imm⟩

/-- Class Y: SC [13:11], K [10:8], A [7:4], W [3:0]. -/
def parY (acc : Bool) (w : Nat) (imm : Option (BitVec 32)) : Except Reject FY := do
  takeImm acc imm
  let g ← parG w
  return ⟨g, BitVec.ofNat 3 (w / 2048), fin8 (w / 256), fin16 (w / 16), BitVec.ofNat 4 w, imm⟩

/-- Class J: A [13:10], T [9:0]; the long immediate replaces T. -/
def parJ (acc : Bool) (w : Nat) (imm : Option (BitVec 32)) : Except Reject FJ := do
  takeImm (acc && w % 1024 == 0) imm
  let g ← parG w
  return ⟨g, fin16 (f13 w), match imm with
    | none => .short (BitVec.ofNat 10 w)
    | some v => .long v⟩

/-- Class P. -/
def parP (_acc : Bool) (w : Nat) (imm : Option (BitVec 32)) : Except Reject FP := do
  takeImm false imm
  let g ← parG w
  let pa ← parP12 (f9 w)
  return ⟨g, fin16 (f13 w), pa, BitVec.ofNat 6 w⟩

/-- Class T: H [13:10], B [9:6], AC [5:3], K [2:0]. -/
def parT (_acc : Bool) (w : Nat) (imm : Option (BitVec 32)) : Except Reject FT := do
  takeImm false imm
  let g ← parG w
  return ⟨g, fin16 (f13 w), fin16 (f9 w), BitVec.ofNat 3 (w / 8), fin8 w⟩

/-- Class CS: S [13:10], N [9:0]; the long immediate replaces S in CSRW. -/
def parCS (acc : Bool) (w : Nat) (imm : Option (BitVec 32)) : Except Reject FCS := do
  takeImm (acc && f13 w == 0) imm
  let g ← parG w
  return ⟨g, match imm with
    | none => .reg (fin16 (f13 w))
    | some v => .imm v, BitVec.ofNat 10 w⟩

/-- Class N: every operand bit is zero. -/
def parN (_acc : Bool) (w : Nat) (imm : Option (BitVec 32)) : Except Reject FN := do
  takeImm false imm
  let g ← parG w
  if w % 16384 == 0 then return ⟨g⟩ else .error (.slot 5)

/-- MOV with the long immediate (R101): A names s0 with PKA 0, B and PKB are replaced by IMM. -/
def movCounterRow (w : Nat) (c : BitVec 32) : Except Reject Instr := do
  takeImm (bClear w) (some c)
  let g ← parG w
  if h : f9 w = 0 ∧ fPka w = false ∧ c.toNat < 6 then
    return .movCounter ⟨g, fin16 (f13 w), ⟨c.toNat, h.2.2⟩⟩
  else .error (.slot 5)

/-- VXFER with the long immediate (R165): IMM[5:0] the lane, IMM[8] the cross-cluster copy, every
other bit zero. -/
def vxferRow (v1 : Bool) (w : Nat) (c : BitVec 32) : Except Reject Instr := do
  takeImm (bClear w) (some c)
  let g ← parG w
  if c.toNat < 64 then return .vxferConst v1 ⟨g, fin16 (f13 w), parA w, BitVec.ofNat 6 c.toNat⟩
  else if c.toNat == 256 then return .vxferCross v1 ⟨g, fin16 (f13 w), parA w⟩
  else .error (.slot 5)

/-- VCVT requires its long immediate (R138): without it the reason is 8, or a lower one that also holds (L6). -/
def vcvtRow (v1 : Bool) (w : Nat) (imm : Option (BitVec 32)) : Except Reject Instr := do
  let o ← parI false w none
  match imm with
  | some f => return .vcvt v1 o f
  | none =>
    let i := Instr.vcvt v1 o 0
    .error (.slot (if !i.fieldsOk then 5 else if !i.clusterOk then 6 else 8))

/-- A word whose opcode its slot does not assign; a reserved guard is the lower reason (R60, L6). -/
def unassigned (w : Nat) (imm : Option (BitVec 32)) : Except Reject Instr := do
  takeImm false imm
  let _ ← parG w
  .error (.slot 4)

/-- A CSRW, under the row of the register it writes. -/
def csrwRow (o : FCS) : Instr :=
  if o.n == 0x001 then .qmodeWrite ⟨o.g, o.s⟩
  else if o.n == 0x003 then .bankroleWrite ⟨o.g, o.s⟩
  else if o.n == 0x004 then .stashmapWrite ⟨o.g, o.s⟩
  else if o.n == 0x006 then .fevlogWrite ⟨o.g, o.s⟩
  else if o.n == 0x030 then .wdogwinWrite ⟨o.g, o.s⟩
  else if o.n == 0x035 then .worldWrite ⟨o.g, o.s⟩
  else .csrw o

/-! The opcode lists of R53 to R58. -/

def decS (w : Nat) (imm : Option (BitVec 32)) : Except Reject Instr :=
  match fOp w with
  | 1 => do let o ← parR true w imm; return .add o
  | 2 => do let o ← parR true w imm; return .sub o
  | 3 => do let o ← parR true w imm; return .mul o
  | 4 => do let o ← parR true w imm; return .mulh o
  | 5 => do let o ← parR true w imm; return .mulhu o
  | 6 => do let o ← parR true w imm; return .div o
  | 7 => do let o ← parR true w imm; return .divu o
  | 8 => do let o ← parR true w imm; return .rem o
  | 9 => do let o ← parR true w imm; return .remu o
  | 10 => do let o ← parR true w imm; return .and o
  | 11 => do let o ← parR true w imm; return .or o
  | 12 => do let o ← parR true w imm; return .xor o
  | 13 => do let o ← parR true w imm; return .andn o
  | 14 => do let o ← parR true w imm; return .shl o
  | 15 => do let o ← parR true w imm; return .shr o
  | 16 => do let o ← parR true w imm; return .sra o
  | 17 => do let o ← parR true w imm; return .rol o
  | 18 => do let o ← parR true w imm; return .min o
  | 19 => do let o ← parR true w imm; return .max o
  | 20 => do let o ← parR true w imm; return .minu o
  | 21 => do let o ← parR true w imm; return .maxu o
  | 22 => do let o ← parR false w imm; return .clz o
  | 23 => do let o ← parR false w imm; return .popc o
  | 24 => do let o ← parR false w imm; return .brev o
  | 25 => do let o ← parR true w imm; return .sel o
  | 26 => match imm with
    | none => do let o ← parR false w imm; return .mov o
    | some c => movCounterRow w c
  | 27 => do let o ← parI true w imm; return .movi o
  | 28 => do let o ← parI true w imm; return .addi o
  | 29 => do let o ← parC true w imm; return .cmpeq o
  | 30 => do let o ← parC true w imm; return .cmpne o
  | 31 => do let o ← parC true w imm; return .cmplt o
  | 32 => do let o ← parC true w imm; return .cmple o
  | 33 => do let o ← parC true w imm; return .cmpltu o
  | 34 => do let o ← parC true w imm; return .cmpleu o
  | 35 => do let o ← parR true w imm; return .sfadd o
  | 36 => do let o ← parR true w imm; return .sfsub o
  | 37 => do let o ← parR true w imm; return .sfmul o
  | 38 => do let o ← parR true w imm; return .sfdiv o
  | 39 => do let o ← parC true w imm; return .sfcmplt o
  | 40 => do let o ← parC true w imm; return .sfcmpeq o
  | 41 => do let o ← parI false w imm; return .sfcvt o
  | 42 => do let o ← parR true w imm; return .rndc o
  | 43 => do let o ← parI false w imm; return .qcfg o
  | 44 => do let o ← parR false w imm; return .qcnt o
  | 45 => do let o ← parR false w imm; return (if o.b = .reg 1 false then .amovToS o else .amov o)
  | 46 => do let o ← parR true w imm; return .aadd o
  | 47 => do let o ← parL true w imm; return .sld o
  | 48 => do let o ← parL true w imm; return .sst o
  | 49 => do let o ← parL true w imm; return .sldl o
  | 50 => do let o ← parL true w imm; return .sstl o
  | 51 => do let o ← parL false w imm; return .slda o
  | 52 => do let o ← parL false w imm; return .sstrl o
  | 53 => do let o ← parL true w imm; return .satom o
  | 54 => do let o ← parL true w imm; return .scas o
  | 55 => do let o ← parL true w imm; return .sstp o
  | _ => unassigned w imm

def decV (v1 : Bool) (w : Nat) (imm : Option (BitVec 32)) : Except Reject Instr :=
  match fOp w with
  | 1 => do let o ← parR true w imm; return .vadd v1 o
  | 2 => do let o ← parR true w imm; return .vsub v1 o
  | 3 => do let o ← parR true w imm; return .vmul v1 o
  | 4 => do let o ← parR true w imm; return .vfma v1 o
  | 5 => do let o ← parR true w imm; return .vfms v1 o
  | 6 => do let o ← parR true w imm; return .vmin v1 o
  | 7 => do let o ← parR true w imm; return .vmax v1 o
  | 8 => do let o ← parR false w imm; return .vabs v1 o
  | 9 => do let o ← parR false w imm; return .vneg v1 o
  | 10 => do let o ← parR true w imm; return .vdiv v1 o
  | 11 => do let o ← parR false w imm; return .vsqrt v1 o
  | 12 => do let o ← parR false w imm; return .vexp2 v1 o
  | 13 => do let o ← parR true w imm; return .vhadd v1 o
  | 14 => do let o ← parR true w imm; return .vhmul v1 o
  | 15 => do let o ← parR true w imm; return .vhfma v1 o
  | 16 => do let o ← parR true w imm; return .viadd v1 o
  | 17 => do let o ← parR true w imm; return .visub v1 o
  | 18 => do let o ← parR true w imm; return .vimul v1 o
  | 19 => do let o ← parR true w imm; return .vimin v1 o
  | 20 => do let o ← parR true w imm; return .vimax v1 o
  | 21 => do let o ← parR true w imm; return .vand v1 o
  | 22 => do let o ← parR true w imm; return .vor v1 o
  | 23 => do let o ← parR true w imm; return .vxor v1 o
  | 24 => do let o ← parR true w imm; return .vshl v1 o
  | 25 => do let o ← parR true w imm; return .vshr v1 o
  | 26 => do let o ← parR true w imm; return .vsra v1 o
  | 27 => do let o ← parC true w imm; return .vcmpf v1 o
  | 28 => do let o ← parC true w imm; return .vcmpi v1 o
  | 29 => do let o ← parR true w imm; return .vsel v1 o
  | 30 => vcvtRow v1 w imm
  | 31 => do let o ← parR false w imm; return .vpack v1 o
  | 32 => do let o ← parR false w imm; return .vunpk v1 o
  | 33 => do let o ← parR false w imm; return .vperm v1 o
  | 34 => do let o ← parI true w imm; return .vrot v1 o
  | 35 => do let o ← parR false w imm; return .vbcast v1 o
  | 36 => do let o ← parI true w imm; return .viota v1 o
  | 37 => do let o ← parI false w imm; return .vscan v1 o
  | 38 => do let o ← parI false w imm; return .vred v1 o
  | 39 => do let o ← parR false w imm; return .vcnz v1 o
  | 40 => do let o ← parR false w imm; return .vcomp v1 o
  | 41 => do let o ← parR false w imm; return .vexpd v1 o
  | 42 => do let o ← parR false w imm; return .vmov v1 o
  | 43 => do let o ← parL true w imm; return .vld v1 o
  | 44 => do let o ← parL true w imm; return .vst v1 o
  | 45 => do let o ← parL true w imm; return .vldl v1 o
  | 46 => do let o ← parL true w imm; return .vstl v1 o
  | 47 => do let o ← parL true w imm; return .vgath v1 o
  | 48 => do let o ← parL true w imm; return .vscat v1 o
  | 49 => do let o ← parL true w imm; return .vldff v1 o
  | 50 => do let o ← parL false w imm; return .vldt v1 o
  | 51 => do let o ← parL false w imm; return .vstt v1 o
  | 52 => do let o ← parL true w imm; return .vstp v1 o
  | 53 => match imm with
    | none => do let o ← parR false w imm; return .vxfer v1 o
    | some c => vxferRow v1 w c
  | 54 => do let o ← parR true w imm; return .vins v1 o
  | _ => unassigned w imm

def decM (rep : BitVec 12) (w : Nat) (imm : Option (BitVec 32)) : Except Reject Instr :=
  match fOp w with
  | 1 => do let o ← parT false w imm; return .mma rep o
  | 2 => do let o ← parT false w imm; return .mmaz rep o
  | 3 => do let o ← parT false w imm; return .mdrn o
  | 4 => do let o ← parT false w imm; return .mfill o
  | 5 => do let o ← parT false w imm; return .mzero o
  | 6 => do let o ← parR true w imm; return .mcfg o
  | 7 => do let o ← parT false w imm; return .msync o
  | 8 => do let o ← parT false w imm; return .mldcb o
  | 9 => do let o ← parR false w imm; return .mstat o
  | _ => unassigned w imm

def decX (w : Nat) (imm : Option (BitVec 32)) : Except Reject Instr :=
  match fOp w with
  | 1 => do let o ← parP false w imm; return .pand o
  | 2 => do let o ← parP false w imm; return .por o
  | 3 => do let o ← parP false w imm; return .pxor o
  | 4 => do let o ← parP false w imm; return .pandn o
  | 5 => do let o ← parP false w imm; return .pnot o
  | 6 => do let o ← parP false w imm; return .pmov o
  | 7 => do let o ← parP false w imm; return .pset o
  | 8 => do let o ← parP false w imm; return .pclr o
  | 9 => do let o ← parP false w imm; return .pcnt o
  | 10 => do let o ← parP false w imm; return .pfirst o
  | 11 => do let o ← parP false w imm; return .pshl o
  | 12 => do let o ← parT false w imm; return .scld o
  | 13 => do let o ← parT false w imm; return .sczero o
  | _ => unassigned w imm

def decC (c1 : Bool) (w : Nat) (imm : Option (BitVec 32)) : Except Reject Instr :=
  match fOp w with
  | 1 => do let o ← parL true w imm; return .cpy c1 o
  | 2 => do let o ← parL true w imm; return .cpyl c1 o
  | 3 => do let o ← parL true w imm; return .cpyt c1 o
  | 4 => do let o ← parL true w imm; return .cxpose c1 o
  | 5 => do let o ← parR true w imm; return .cnest c1 o
  | 6 => do let o ← parL true w imm; return .crun c1 o
  | 7 => do let o ← parL true w imm; return .cstamp c1 o
  | 8 => do let o ← parN false w imm; return .cbclose c1 o
  | 9 => do let o ← parL true w imm; return .cfp c1 o
  | 10 => do let o ← parL true w imm; return .ccmp c1 o
  | 11 => do let o ← parL true w imm; return .csum c1 o
  | 12 => do let o ← parL true w imm; return .cxpnd c1 o
  | 13 => do let o ← parL true w imm; return .cpush c1 o
  | 14 => do let o ← parL true w imm; return .cpeer c1 o
  | 15 => do let o ← parL true w imm; return .cdisp c1 o
  | 16 => do let o ← parR true w imm; return .binit c1 o
  | 17 => do let o ← parR true w imm; return .barrive c1 o
  | 18 => do let o ← parR true w imm; return .bexpect c1 o
  | 19 => do let o ← parL true w imm; return .wset c1 o
  | 20 => do let o ← parR false w imm; return .wnext c1 o
  | 21 => do let o ← parR false w imm; return .wdone c1 o
  | 22 => do let o ← parR true w imm; return .wresq c1 o
  | 23 => do let o ← parR true w imm; return .tset c1 o
  | 24 => do let o ← parR true w imm; return .tlock c1 o
  | 25 => do let o ← parL true w imm; return .tqry c1 o
  | 26 => do let o ← parL true w imm; return .tbind c1 o
  | 27 => do let o ← parR true w imm; return .tcur c1 o
  | 28 => do let o ← parI true w imm; return .tadv c1 o
  | 29 => do let o ← parL true w imm; return .cfill c1 o
  | _ => unassigned w imm

def decK (w : Nat) (imm : Option (BitVec 32)) : Except Reject Instr :=
  match fOp w with
  | 1 => do let o ← parJ true w imm; return .br o
  | 2 => do let o ← parJ false w imm; return .bri o
  | 3 => do let o ← parJ true w imm; return .call o
  | 4 => do let o ← parJ false w imm; return .ret o
  | 5 => do let o ← parI true w imm; return .loop o
  | 6 => do let o ← parI true w imm; return .nest o
  | 7 => do let o ← parJ true w imm; return .swapi o
  | 8 => do let o ← parI true w imm; return .trap o
  | 9 => do let o ← parN false w imm; return .rft o
  | 10 => do let o ← parY false w imm; return .waitk o
  | 11 => do let o ← parY false w imm; return .waitb o
  | 12 => do let o ← parY true w imm; return .cbwait o
  | 13 => do let o ← parY false w imm; return .monarm o
  | 14 => do let o ← parY false w imm; return .waitmon o
  | 15 => do let o ← parY false w imm; return .ssync o
  | 16 => do let o ← parY false w imm; return .spawn o
  | 17 => do let o ← parN false w imm; return .texit o
  | 18 => do let o ← parN false w imm; return .yield o
  | 19 => do let o ← parN false w imm; return .hbeat o
  | 20 => do let o ← parY true w imm; return .fence o
  | 21 => do let o ← parY false w imm; return .pubc o
  | 22 => do let o ← parCS false w imm; return .csrr o
  | 23 => do let o ← parCS true w imm; return csrwRow o
  | 24 => do let o ← parR false w imm; return .fevrd o
  | 25 => do let o ← parI true w imm; return .irqh o
  | 26 => do let o ← parN false w imm; return .halt o
  | _ => unassigned w imm

/-- The checks of R49 to R51, R13 and R43 on a parsed operation, the lowest reason first. -/
def checkInstr (i : Instr) : Except Reject Instr :=
  if !i.fieldsOk then .error (.slot 5)
  else if !i.clusterOk then .error (.slot 6)
  else if !i.immOk then .error (.slot 8)
  else .ok i

/-- OP = 0: the all-zero word is the NOP, any other is none (R46). -/
def nopRow (w : Nat) (imm : Option (BitVec 32)) : Except Reject Instr := do
  takeImm false imm
  let _ ← parG w
  if w = 0 then return .nop else .error (.slot 3)

/-- The operation a slot's word names, before its fields are checked. -/
def parseSlot (slot : Fin 8) (rep : BitVec 12) (w : Nat) (imm : Option (BitVec 32)) : Except Reject Instr :=
  if fOp w = 0 then nopRow w imm
  else match slot with
    | 0 => decS w imm
    | 1 => decV false w imm
    | 2 => decV true w imm
    | 3 => decM rep w imm
    | 4 => decC false w imm
    | 5 => decC true w imm
    | 6 => decK w imm
    | 7 => decX w imm

/-- One slot's word (R46 to R58). -/
def decodeSlot (slot : Fin 8) (rep : BitVec 12) (w : Nat) (imm : Option (BitVec 32)) : Except Reject Instr := do
  checkInstr (← parseSlot slot rep w imm)

/-- A word with a guard and a PA in range, which do not change the destinations it names (R47, R50). -/
def mendWord (slot : Fin 8) (w : Nat) : Nat :=
  let w := w - fG w * 16384
  if slot == 7 && fOp w ≤ 11 && 12 ≤ f9 w then w - f9 w * 64 else w

/-- Contents of a long immediate with which the operation names the same destination: VCVT's required word (R138), the counter form of
MOV as MOV (R101), VXFER's with the bits outside the form it selects clear (R165). -/
def mendImm (slot : Fin 8) (w : Nat) (imm : Option (BitVec 32)) : Option (BitVec 32) :=
  if slot == 1 || slot == 2 then
    if fOp w == 30 then some (imm.getD 0)
    else if fOp w == 53 then imm.map fun c => if c.getLsbD 8 then 256 else BitVec.ofNat 32 (c.toNat % 64)
    else imm
  else if slot == 0 && fOp w == 26 then none else imm

/-- The destinations a slot's word names, whatever else is wrong with it (R33, R60). -/
def namedDests (slot : Fin 8) (rep : BitVec 12) (w : Nat) (imm : Option (BitVec 32)) : List DName :=
  match parseSlot slot rep (mendWord slot w) (mendImm slot w imm) with
  | .ok (.pcnt o) => (Instr.pcnt o).dests
  | .ok i => if slot == 7 && 12 ≤ f13 w then [] else i.dests
  | .error _ => []

/-- A decoded bundle: its operations in slot order, NOPs left out, and BEND. -/
structure Bundle where
  ops  : List Instr
  bend : Bool
deriving DecidableEq, Repr

/-- An illegal bundle (R60): a header condition, or the lowest slot with a condition and its reason. -/
structure Illegal where
  hdr    : Bool
  slot   : Fin 8
  reason : BitVec 8
deriving DecidableEq, Repr

/-- Slot i of a bundle (R41). -/
def slotWord (n : Nat) (i : Fin 8) : Nat := n / 2 ^ (24 * i.val) % 16777216
/-- The header's fields (R42). -/
def hdrOf (n : Nat) : Nat := n / 2 ^ 192 % 2 ^ 64
def hdrImm (n : Nat) : Nat := hdrOf n / 2 ^ 32
def hdrIslot (n : Nat) : Nat := hdrOf n / 2 ^ 29 % 8
def hdrIv (n : Nat) : Bool := hdrOf n / 2 ^ 28 % 2 == 1
def hdrRep (n : Nat) : BitVec 12 := BitVec.ofNat 12 (hdrOf n / 2 ^ 16)
def hdrBend (n : Nat) : Bool := hdrOf n / 2 ^ 15 % 2 == 1
def hdrReserved (n : Nat) : Nat := hdrOf n % 2 ^ 15

/-- The long immediate as slot i reads it (R42, R43). -/
def immFor (n : Nat) (i : Fin 8) : Option (BitVec 32) :=
  if hdrIv n && hdrIslot n == i.val then some (BitVec.ofNat 32 (hdrImm n)) else none

def allSlots : List (Fin 8) := [0, 1, 2, 3, 4, 5, 6, 7]

/-- What each slot's word decodes to. -/
def slotResults (n : Nat) : List (Fin 8 × Except Reject Instr) :=
  allSlots.map fun i => (i, decodeSlot i (hdrRep n) (slotWord n i) (immFor n i))

def Instr.takesRep : Instr → Bool
  | .mma _ _ | .mmaz _ _ => true
  | _ => false

/-- REP is non-zero only with MMA or MMAZ in slot M (R45). -/
def repOk (n : Nat) : Bool :=
  hdrRep n == 0 || fOp (slotWord n 3) == 1 || fOp (slotWord n 3) == 2

def isHeaderReject : Except Reject Instr → Bool
  | .error .header => true
  | _ => false

/-- R60: a header condition of the bundle. -/
def headerBad (n : Nat) : Bool :=
  hdrReserved n != 0 || (!hdrIv n && (hdrIslot n != 0 || hdrImm n != 0)) || !repOk n ||
    (slotResults n).any fun r => isHeaderReject r.2

/-- The lowest slot with a condition of its own. -/
def firstSlotBad : List (Fin 8 × Except Reject Instr) → Option (Fin 8 × BitVec 8)
  | [] => none
  | (i, .error (.slot r)) :: _ => some (i, r)
  | _ :: t => firstSlotBad t

/-- The operations of the slots, with their slots. -/
def slotOps : List (Fin 8 × Except Reject Instr) → List (Fin 8 × Instr)
  | [] => []
  | (i, .ok x) :: t => (i, x) :: slotOps t
  | (_, .error _) :: t => slotOps t

/-- What each slot's word names as its destinations. -/
def slotDests (n : Nat) : List (Fin 8 × List DName) :=
  allSlots.map fun i => (i, namedDests i (hdrRep n) (slotWord n i) (immFor n i))

/-- The lowest slot that names a destination some higher slot names too (R33, R60). -/
def twoWrites : List (Fin 8 × List DName) → Option (Fin 8)
  | [] => none
  | (i, x) :: t =>
    if t.any (fun y => x.any fun d => y.2.contains d) then some i else twoWrites t

/-- The lower of two slot conditions; in one slot the lower reason (R60; L6). -/
def lowerBad (a : Option (Fin 8 × BitVec 8)) (b : Option (Fin 8)) : Option (Fin 8 × BitVec 8) :=
  match a, b with
  | none, none => none
  | some x, none => some x
  | none, some j => some (j, 7)
  | some (i, r), some j =>
    if i.val < j.val then some (i, r) else if j.val < i.val then some (j, 7) else some (i, if r.toNat ≤ 7 then r else 7)

def dropNops (l : List Instr) : List Instr :=
  match l.filter (fun i => decide (i ≠ Instr.nop)) with
  | [] => [Instr.nop]
  | l' => l'

/-- R41 to R60: a bundle's 256 bits as its operations, or why it is illegal. -/
def decodeBundle (n : Nat) : Except Illegal Bundle :=
  if headerBad n then .error ⟨true, 0, 1⟩
  else
    let rs := slotResults n
    match lowerBad (firstSlotBad rs) (twoWrites (slotDests n)) with
    | some (i, r) => .error ⟨false, i, r⟩
    | none => .ok ⟨dropNops ((slotOps rs).map (·.2)), hdrBend n⟩

/-! Bytes, least significant first (R41). -/

/-- A little-endian number. -/
def natOfBytes : List Byte → Nat
  | [] => 0
  | b :: t => b.toNat + 256 * natOfBytes t

/-- The low k bytes of a number, least significant first. -/
def bytesOfNat : Nat → Nat → List Byte
  | 0, _ => []
  | k + 1, n => BitVec.ofNat 8 n :: bytesOfNat k (n / 256)

/-- R41: the bundle in 32 bytes of memory. -/
def decodeBytes (bs : List Byte) : Except Illegal Bundle := decodeBundle (natOfBytes (bs.take 32))

/-! The encoder, from the same tables. -/

/-- One operation's encoding: its slot, its word, its long immediate and REP. -/
structure Enc where
  slot : Fin 8
  w    : Nat
  imm  : Option (BitVec 32)
  rep  : BitVec 12
deriving DecidableEq, Repr

def b2n (b : Bool) : Nat := if b then 1 else 0

/-- OP and G of a word (R46). -/
def encOG (op : Nat) (g : Guard) : Nat := op * 262144 + g.val * 16384

def encR (slot : Fin 8) (op : Nat) (o : FR) : Enc :=
  let base := encOG op o.g + o.d.val * 1024 + o.a.r.val * 64 + b2n o.a.pk * 2
  match o.b with
  | .reg r pk => ⟨slot, base + r.val * 4 + b2n pk, none, 0⟩
  | .imm v => ⟨slot, base, some v, 0⟩

def encI (slot : Fin 8) (op : Nat) (o : FI) : Enc :=
  let base := encOG op o.g + o.d.val * 1024 + o.a.r.val * 64 + b2n o.a.pk * 2
  match o.i with
  | .short v sx => ⟨slot, base + v.toNat * 4 + b2n sx, none, 0⟩
  | .long v => ⟨slot, base, some v, 0⟩

def encC (slot : Fin 8) (op : Nat) (o : FC) : Enc :=
  let base := encOG op o.g + o.p.val * 1024 + o.a.val * 64 + o.cc.toNat
  match o.b with
  | .reg r => ⟨slot, base + r.val * 4, none, 0⟩
  | .imm v => ⟨slot, base, some v, 0⟩

def encL (slot : Fin 8) (op : Nat) (o : FL) : Enc :=
  ⟨slot, encOG op o.g + o.d.val * 1024 + o.a.val * 64 + o.k.val * 8 + o.w.toNat, o.imm, 0⟩

def encY (op : Nat) (o : FY) : Enc :=
  ⟨6, encOG op o.g + o.sc.toNat * 2048 + o.k.val * 256 + o.a.val * 16 + o.w.toNat, o.imm, 0⟩

def encJ (op : Nat) (o : FJ) : Enc :=
  match o.t with
  | .short t => ⟨6, encOG op o.g + o.a.val * 1024 + t.toNat, none, 0⟩
  | .long v => ⟨6, encOG op o.g + o.a.val * 1024, some v, 0⟩

def encP (op : Nat) (o : FP) : Enc :=
  ⟨7, encOG op o.g + o.pd.val * 1024 + o.pa.val * 64 + o.e.toNat, none, 0⟩

def encT (slot : Fin 8) (op : Nat) (o : FT) (rep : BitVec 12) : Enc :=
  ⟨slot, encOG op o.g + o.h.val * 1024 + o.b.val * 64 + o.ac.toNat * 8 + o.k.val, none, rep⟩

def encCS (op : Nat) (o : FCS) : Enc :=
  match o.s with
  | .reg r => ⟨6, encOG op o.g + r.val * 1024 + o.n.toNat, none, 0⟩
  | .imm v => ⟨6, encOG op o.g + o.n.toNat, some v, 0⟩

def encN (slot : Fin 8) (op : Nat) (o : FN) : Enc := ⟨slot, encOG op o.g, none, 0⟩

def encMovN (op : Nat) (o : FMovN) : Enc :=
  ⟨0, encOG op o.g + o.d.val * 1024, some (BitVec.ofNat 32 o.n.val), 0⟩

def encVcvt (slot : Fin 8) (op : Nat) (o : FI) (f : BitVec 32) : Enc :=
  { encI slot op o with imm := some f }

def encXC (slot : Fin 8) (op : Nat) (o : FXC) : Enc :=
  ⟨slot, encOG op o.g + o.d.val * 1024 + o.a.r.val * 64 + b2n o.a.pk * 2, some (BitVec.ofNat 32 o.lane.toNat), 0⟩

def encXX (slot : Fin 8) (op : Nat) (o : FXX) : Enc :=
  ⟨slot, encOG op o.g + o.d.val * 1024 + o.a.r.val * 64 + b2n o.a.pk * 2, some 256, 0⟩

/-- The slot word of an operation; `none` for a device step, which has no word. -/
def encode : Instr → Option Enc
  | .nop => some ⟨0, 0, none, 0⟩
  | .add o => some (encR 0 1 o)
  | .sub o => some (encR 0 2 o)
  | .mul o => some (encR 0 3 o)
  | .mulh o => some (encR 0 4 o)
  | .mulhu o => some (encR 0 5 o)
  | .div o => some (encR 0 6 o)
  | .divu o => some (encR 0 7 o)
  | .rem o => some (encR 0 8 o)
  | .remu o => some (encR 0 9 o)
  | .and o => some (encR 0 10 o)
  | .or o => some (encR 0 11 o)
  | .xor o => some (encR 0 12 o)
  | .andn o => some (encR 0 13 o)
  | .shl o => some (encR 0 14 o)
  | .shr o => some (encR 0 15 o)
  | .sra o => some (encR 0 16 o)
  | .rol o => some (encR 0 17 o)
  | .min o => some (encR 0 18 o)
  | .max o => some (encR 0 19 o)
  | .minu o => some (encR 0 20 o)
  | .maxu o => some (encR 0 21 o)
  | .clz o => some (encR 0 22 o)
  | .popc o => some (encR 0 23 o)
  | .brev o => some (encR 0 24 o)
  | .sel o => some (encR 0 25 o)
  | .mov o => some (encR 0 26 o)
  | .movCounter o => some (encMovN 26 o)
  | .movi o => some (encI 0 27 o)
  | .addi o => some (encI 0 28 o)
  | .cmpeq o => some (encC 0 29 o)
  | .cmpne o => some (encC 0 30 o)
  | .cmplt o => some (encC 0 31 o)
  | .cmple o => some (encC 0 32 o)
  | .cmpltu o => some (encC 0 33 o)
  | .cmpleu o => some (encC 0 34 o)
  | .sfadd o => some (encR 0 35 o)
  | .sfsub o => some (encR 0 36 o)
  | .sfmul o => some (encR 0 37 o)
  | .sfdiv o => some (encR 0 38 o)
  | .sfcmplt o => some (encC 0 39 o)
  | .sfcmpeq o => some (encC 0 40 o)
  | .sfcvt o => some (encI 0 41 o)
  | .rndc o => some (encR 0 42 o)
  | .qcfg o => some (encI 0 43 o)
  | .qcnt o => some (encR 0 44 o)
  | .amov o => some (encR 0 45 o)
  | .amovToS o => some (encR 0 45 o)
  | .aadd o => some (encR 0 46 o)
  | .sld o => some (encL 0 47 o)
  | .sst o => some (encL 0 48 o)
  | .sldl o => some (encL 0 49 o)
  | .sstl o => some (encL 0 50 o)
  | .slda o => some (encL 0 51 o)
  | .sstrl o => some (encL 0 52 o)
  | .satom o => some (encL 0 53 o)
  | .scas o => some (encL 0 54 o)
  | .sstp o => some (encL 0 55 o)
  | .vadd v1 o => some (encR (vslot v1) 1 o)
  | .vsub v1 o => some (encR (vslot v1) 2 o)
  | .vmul v1 o => some (encR (vslot v1) 3 o)
  | .vfma v1 o => some (encR (vslot v1) 4 o)
  | .vfms v1 o => some (encR (vslot v1) 5 o)
  | .vmin v1 o => some (encR (vslot v1) 6 o)
  | .vmax v1 o => some (encR (vslot v1) 7 o)
  | .vabs v1 o => some (encR (vslot v1) 8 o)
  | .vneg v1 o => some (encR (vslot v1) 9 o)
  | .vdiv v1 o => some (encR (vslot v1) 10 o)
  | .vsqrt v1 o => some (encR (vslot v1) 11 o)
  | .vexp2 v1 o => some (encR (vslot v1) 12 o)
  | .vhadd v1 o => some (encR (vslot v1) 13 o)
  | .vhmul v1 o => some (encR (vslot v1) 14 o)
  | .vhfma v1 o => some (encR (vslot v1) 15 o)
  | .viadd v1 o => some (encR (vslot v1) 16 o)
  | .visub v1 o => some (encR (vslot v1) 17 o)
  | .vimul v1 o => some (encR (vslot v1) 18 o)
  | .vimin v1 o => some (encR (vslot v1) 19 o)
  | .vimax v1 o => some (encR (vslot v1) 20 o)
  | .vand v1 o => some (encR (vslot v1) 21 o)
  | .vor v1 o => some (encR (vslot v1) 22 o)
  | .vxor v1 o => some (encR (vslot v1) 23 o)
  | .vshl v1 o => some (encR (vslot v1) 24 o)
  | .vshr v1 o => some (encR (vslot v1) 25 o)
  | .vsra v1 o => some (encR (vslot v1) 26 o)
  | .vcmpf v1 o => some (encC (vslot v1) 27 o)
  | .vcmpi v1 o => some (encC (vslot v1) 28 o)
  | .vsel v1 o => some (encR (vslot v1) 29 o)
  | .vcvt v1 o f => some (encVcvt (vslot v1) 30 o f)
  | .vpack v1 o => some (encR (vslot v1) 31 o)
  | .vunpk v1 o => some (encR (vslot v1) 32 o)
  | .vperm v1 o => some (encR (vslot v1) 33 o)
  | .vrot v1 o => some (encI (vslot v1) 34 o)
  | .vbcast v1 o => some (encR (vslot v1) 35 o)
  | .viota v1 o => some (encI (vslot v1) 36 o)
  | .vscan v1 o => some (encI (vslot v1) 37 o)
  | .vred v1 o => some (encI (vslot v1) 38 o)
  | .vcnz v1 o => some (encR (vslot v1) 39 o)
  | .vcomp v1 o => some (encR (vslot v1) 40 o)
  | .vexpd v1 o => some (encR (vslot v1) 41 o)
  | .vmov v1 o => some (encR (vslot v1) 42 o)
  | .vld v1 o => some (encL (vslot v1) 43 o)
  | .vst v1 o => some (encL (vslot v1) 44 o)
  | .vldl v1 o => some (encL (vslot v1) 45 o)
  | .vstl v1 o => some (encL (vslot v1) 46 o)
  | .vgath v1 o => some (encL (vslot v1) 47 o)
  | .vscat v1 o => some (encL (vslot v1) 48 o)
  | .vldff v1 o => some (encL (vslot v1) 49 o)
  | .vldt v1 o => some (encL (vslot v1) 50 o)
  | .vstt v1 o => some (encL (vslot v1) 51 o)
  | .vstp v1 o => some (encL (vslot v1) 52 o)
  | .vxfer v1 o => some (encR (vslot v1) 53 o)
  | .vxferConst v1 o => some (encXC (vslot v1) 53 o)
  | .vxferCross v1 o => some (encXX (vslot v1) 53 o)
  | .vins v1 o => some (encR (vslot v1) 54 o)
  | .mma rep o => some (encT 3 1 o rep)
  | .mmaz rep o => some (encT 3 2 o rep)
  | .mdrn o => some (encT 3 3 o 0)
  | .mfill o => some (encT 3 4 o 0)
  | .mzero o => some (encT 3 5 o 0)
  | .mcfg o => some (encR 3 6 o)
  | .msync o => some (encT 3 7 o 0)
  | .mldcb o => some (encT 3 8 o 0)
  | .mstat o => some (encR 3 9 o)
  | .pand o => some (encP 1 o)
  | .por o => some (encP 2 o)
  | .pxor o => some (encP 3 o)
  | .pandn o => some (encP 4 o)
  | .pnot o => some (encP 5 o)
  | .pmov o => some (encP 6 o)
  | .pset o => some (encP 7 o)
  | .pclr o => some (encP 8 o)
  | .pcnt o => some (encP 9 o)
  | .pfirst o => some (encP 10 o)
  | .pshl o => some (encP 11 o)
  | .scld o => some (encT 7 12 o 0)
  | .sczero o => some (encT 7 13 o 0)
  | .cpy c1 o => some (encL (cslot c1) 1 o)
  | .cpyl c1 o => some (encL (cslot c1) 2 o)
  | .cpyt c1 o => some (encL (cslot c1) 3 o)
  | .cxpose c1 o => some (encL (cslot c1) 4 o)
  | .cnest c1 o => some (encR (cslot c1) 5 o)
  | .crun c1 o => some (encL (cslot c1) 6 o)
  | .cstamp c1 o => some (encL (cslot c1) 7 o)
  | .cbclose c1 o => some (encN (cslot c1) 8 o)
  | .cfp c1 o => some (encL (cslot c1) 9 o)
  | .ccmp c1 o => some (encL (cslot c1) 10 o)
  | .csum c1 o => some (encL (cslot c1) 11 o)
  | .cxpnd c1 o => some (encL (cslot c1) 12 o)
  | .cpush c1 o => some (encL (cslot c1) 13 o)
  | .cpeer c1 o => some (encL (cslot c1) 14 o)
  | .cdisp c1 o => some (encL (cslot c1) 15 o)
  | .binit c1 o => some (encR (cslot c1) 16 o)
  | .barrive c1 o => some (encR (cslot c1) 17 o)
  | .bexpect c1 o => some (encR (cslot c1) 18 o)
  | .wset c1 o => some (encL (cslot c1) 19 o)
  | .wnext c1 o => some (encR (cslot c1) 20 o)
  | .wdone c1 o => some (encR (cslot c1) 21 o)
  | .wresq c1 o => some (encR (cslot c1) 22 o)
  | .tset c1 o => some (encR (cslot c1) 23 o)
  | .tlock c1 o => some (encR (cslot c1) 24 o)
  | .tqry c1 o => some (encL (cslot c1) 25 o)
  | .tbind c1 o => some (encL (cslot c1) 26 o)
  | .tcur c1 o => some (encR (cslot c1) 27 o)
  | .tadv c1 o => some (encI (cslot c1) 28 o)
  | .cfill c1 o => some (encL (cslot c1) 29 o)
  | .br o => some (encJ 1 o)
  | .bri o => some (encJ 2 o)
  | .call o => some (encJ 3 o)
  | .ret o => some (encJ 4 o)
  | .loop o => some (encI 6 5 o)
  | .nest o => some (encI 6 6 o)
  | .swapi o => some (encJ 7 o)
  | .trap o => some (encI 6 8 o)
  | .rft o => some (encN 6 9 o)
  | .waitk o => some (encY 10 o)
  | .waitb o => some (encY 11 o)
  | .cbwait o => some (encY 12 o)
  | .monarm o => some (encY 13 o)
  | .waitmon o => some (encY 14 o)
  | .ssync o => some (encY 15 o)
  | .spawn o => some (encY 16 o)
  | .texit o => some (encN 6 17 o)
  | .yield o => some (encN 6 18 o)
  | .hbeat o => some (encN 6 19 o)
  | .fence o => some (encY 20 o)
  | .pubc o => some (encY 21 o)
  | .csrr o => some (encCS 22 o)
  | .csrw o => some (encCS 23 o)
  | .qmodeWrite o => some (encCS 23 ⟨o.g, o.s, 0x001⟩)
  | .bankroleWrite o => some (encCS 23 ⟨o.g, o.s, 0x003⟩)
  | .stashmapWrite o => some (encCS 23 ⟨o.g, o.s, 0x004⟩)
  | .fevlogWrite o => some (encCS 23 ⟨o.g, o.s, 0x006⟩)
  | .wdogwinWrite o => some (encCS 23 ⟨o.g, o.s, 0x030⟩)
  | .worldWrite o => some (encCS 23 ⟨o.g, o.s, 0x035⟩)
  | .fevrd o => some (encR 6 24 o)
  | .irqh o => some (encI 6 25 o)
  | .halt o => some (encN 6 26 o)
  | _ => none

/-- The 256 bits of the bundle whose only operation is the encoded one (R41, R42). -/
def Enc.bundle (e : Enc) : Nat :=
  let hdr := match e.imm with
    | some v => v.toNat * 2 ^ 32 + e.slot.val * 2 ^ 29 + 2 ^ 28
    | none => 0
  e.w * 2 ^ (24 * e.slot.val) + (hdr + e.rep.toNat * 2 ^ 16) * 2 ^ 192

/-- The operation of a bundle that holds one. -/
def onlyOp (n : Nat) : Option Instr :=
  match decodeBundle n with
  | .ok ⟨[i], false⟩ => some i
  | _ => none

/-- The first slot, in the order S, V0, M, C0, K, X, whose list decodes the 24-bit word (L3). -/
def firstSlotOf (w : Nat) : List (Fin 8) → Option (Fin 8)
  | [] => none
  | i :: t =>
    match onlyOp (w * 2 ^ (24 * i.val)) with
    | some _ => some i
    | none => firstSlotOf w t

/-- The slots the opcode table's words are tried in. -/
def tableSlots : List (Fin 8) := [0, 1, 3, 4, 6, 7]

/-- A table word as the bundle that holds it: 24 bits are a slot word, more are a whole bundle. -/
def tableBundle (nbits w : Nat) : Option Nat :=
  if nbits ≤ 24 then (firstSlotOf (w % 2 ^ 24) tableSlots).map fun i => w % 2 ^ 24 * 2 ^ (24 * i.val)
  else some (w % 2 ^ 256)

/-- The instruction the decoder reads from a word of the opcode table. -/
def decodeTableWord (nbits w : Nat) : Option Instr := (tableBundle nbits w).bind onlyOp

end Sys2Proof
end

