-- ==== Sys2Proof/Machine/State.lean ====
section
/-! DEFINITION. The state of the whole device as plain data: 128 cores held as a zipper around the core whose turn
it is, the memories, the tensor metadata, the schedulers, the host interface and the platform, the queue of external
inputs, and the bundle being issued; and the state right after module reset. -/

namespace Sys2Proof.Machine

/-- What would stop the machine for good: nothing does.  Every fault of the manual is an exception, which is taken, or an error that a
wait delivers; and a module whose bring-up has halted still answers management messages (R372). -/
inductive Fault
deriving DecidableEq, Repr

/-- Why an instruction has no meaning here. -/
inductive Refusal where
  /-- Raised by an arm of `exec` whose instruction has no meaning yet.  Safe: nothing can be proved of it. -/
  | notModelled (mnemonic : String)
deriving DecidableEq, Repr

/-! ### Traps -/

/-- What an error status is delivered from (R228, R230, R232): a token, an engine's batches, a superstep. -/
inductive WaitSrc where
  | token (k : Tok)
  | engine (c1 : Bool)
  | superstep
deriving DecidableEq, Repr, Inhabited

/-- One condition of a bundle (R336, R337): its code, its DETAIL, its slot (none where no slot and no header causes
it, the header counted below slot 0), what an error status is delivered from, and whether a fetch met it. -/
structure Cause where
  code   : BitVec 8
  detail : BitVec 48
  slot   : Option (Fin 8)
  hdr    : Bool
  wait   : Option WaitSrc
  fetch  : Bool
deriving DecidableEq, Repr, Inhabited

/-- An error code with its DETAIL, as a token or a batch keeps it (R16, R342). -/
structure Err where
  code   : BitVec 8
  detail : BitVec 48
deriving DecidableEq, Repr, Inhabited

/-! ### Registers -/

/-- A wait token (R16). -/
structure Token where
  count : Nat
  err   : Option Err
deriving DecidableEq, Repr, Inhabited

/-- A bound handle (R17): the descriptor copy, the linear address it was bound from, the cursor. -/
structure Handle where
  desc   : BitVec 1024
  addr   : Word
  cursor : Vector (BitVec 32) 6
deriving DecidableEq, Repr, Inhabited

/-- Where an exact result lands (R31). -/
inductive Dest where
  | s (r : Fin 16)
  | v (r : Fin 16)
  | a (r : Fin 16)
  | p (r : PReg)
deriving DecidableEq, Repr, Inhabited

/-- A value in flight. -/
inductive Val where
  | w (x : Word)
  | v (x : VReg)
deriving DecidableEq, Repr, Inhabited

/-- An exceptional result offered to FEVLOG (R27): its cause and its lane or element. -/
structure Fev where
  cause : BitVec 2
  lane  : Nat
deriving DecidableEq, Repr, Inhabited

/-- An exact result in flight (R31 to R34): it lands in clock `due`; `mask` holds the active lanes (R131).  A `record` is what is
left of a result whose value a replay entry holds: its offer to FEVLOG (L19). -/
structure Flight where
  due   : Nat
  issue : Nat
  slot  : Fin 8
  baddr : BitVec 48
  dest  : Dest
  val   : Val
  mask  : Word
  fev   : Option Fev
  record : Bool
deriving DecidableEq, Repr, Inhabited

/-- A result that has landed in a clock: its destination, the clock its bundle issued in, and the lanes it wrote (R33). -/
structure Landed where
  clock : Nat
  dest  : Dest
  issue : Nat
  mask  : Word
deriving DecidableEq, Repr, Inhabited

/-- A replay entry (R29) with its payload and lane mask (R132), and the clock its result's bundle issued in (R33). -/
structure Replay where
  word    : Word
  payload : VReg
  mask    : Word
  issue   : Nat
deriving DecidableEq, Repr, Inhabited

/-- The loop state of R114: counters, reload values, active levels innermost first, pending levels in issue order,
the captured body with its start address, the position in it, and the target of a SWAPI that has not issued (R113). -/
structure LoopState where
  n       : Vector (BitVec 32) 6
  reload  : Vector (BitVec 32) 6
  levels  : List NReg
  pending : List NReg
  /-- a pending level has a count of 0 or below (R115, R117) -/
  dead    : Bool
  start   : BitVec 48
  body    : List (BitVec 256)
  pos     : Nat
  swap    : Option (BitVec 48)
deriving DecidableEq, Repr, Inhabited

/-- The control and status registers that hold a value of their own (R20 to R30); COREID, EVSEQ and CYCLE are
read from the core's number and the device. -/
structure Csr where
  ptrap     : Bool
  qmode     : Word
  scr       : Bool
  bankrole  : Word
  stashmap  : Word
  quota     : BitVec 10
  inuse     : BitVec 10
  refused   : BitVec 32
  fevlog    : Word
  fevRank   : Option (Nat × Nat × Nat)
  trapvec   : Word
  trapcause : Word
  trappc    : Word
  trapslot  : Word
  replay    : Vector Replay 24
  wdwin     : BitVec 32
  wdfired   : Bool
  domn      : BitVec 40
  task      : BitVec 32
  prio      : BitVec 2
  launch    : BitVec 16
  sec       : Bool
deriving DecidableEq, Repr

/-! ### Memory accesses -/

/-- A translation (R346 to R350): `space` is true for the secure space. -/
structure Xl where
  space : Bool
  va    : Nat
  size  : Nat
  pa    : Nat
  w     : Bool
  x     : Bool
  coh   : BitVec 2
deriving DecidableEq, Repr, Inhabited

/-- A linear access as it was translated at issue: its first byte, its pages, and its world. -/
structure Lin where
  va  : Nat
  xs  : List Xl
  sec : Bool
deriving DecidableEq, Repr, Inhabited

/-- A line a publication may cover (R234): of device memory, or of the instruction scratchpad. -/
inductive LineRef where
  | mem (line : Nat)
  | ih (line : Nat)
deriving DecidableEq, Repr, Inhabited

/-- A pin of a version (R254): the stack of its tensor, the entry's address, its VER and its GADDR. -/
structure Pin where
  home  : Nat
  entry : Nat
  ver   : Nat
  gaddr : Nat
deriving DecidableEq, Repr, Inhabited

/-- The kinds of token-guarded operation (R32), with what each captured at issue. -/
inductive TokKind where
  | sld (a : Lin) (w : BitVec 3) (d : Fin 16)
  | sst (a : Lin) (n : Nat) (x : Word)
  | slda (a : Lin) (scope : BitVec 3) (d : Fin 16)
  | sstrl (a : Lin) (scope : BitVec 3) (x : Word)
  | satom (a : Lin) (ctl : BitVec 7) (scope : BitVec 3) (x : Word) (d : Fin 16)
  | scas (a : Lin) (ctl : BitVec 7) (scope : BitVec 3) (cmp new : Word) (d : Fin 16)
  | sstp (a : Lin) (x : Word) (cores : BitVec 24)
  | vld (a : Lin) (act : Word) (d : Fin 16)
  | vst (a : Lin) (act : Word) (x : VReg)
  | vldff (a : Lin) (valid : Word) (d : Fin 16) (p : PReg)
  | vstp (a : Lin) (act : Word) (x : VReg) (cores : BitVec 24)
  | local (l : List (Dest × Val × Word))
  | vldt (h : Handle) (wide : Bool) (act : Word) (d : Fin 16)
  | vstt (h : Handle) (wide : Bool) (act : Word) (x : VReg)
  | tqry (h : Handle) (d : Fin 16)
  | tbind (h : Fin 16) (addr : Word) (a : Lin)
  | wset (a : Lin) (hs : Vector (Option Handle) 16)
  | spawn (a : Lin)
  /-- a VLDT that has pinned its tiles and read them: the value to land, and its pins (R254) -/
  | pinned (d : Fin 16) (act : Word) (x : VReg) (pins : List Pin)
  /-- a push whose store is performed and whose deliveries are not all made (R162) -/
  | pushing (left : List CoreId)
  /-- a write-back whose tiles have not all committed: the scope of its tensor, the ids of its updates (R160) -/
  | committing (scope : Nat) (left : List Nat)
  /-- a token-guarded matrix operation that still reads or writes tensors, with the class of its second operand; none for one on
  staged operands, which are read at its issue (R175).  It completes with the unit's operation of the same id (R170) -/
  | matrix (cls2 : Option (BitVec 4))
  /-- an MDRN whose rows are read: the elements to write back, with their tiles and in-tile offsets (R182) -/
  | drained (h : Handle) (elems : List (Option (Nat × Nat) × BitVec 32))
  /-- MSYNC: the widest scope of the MDRN writes it covers, and the matrix operations issued before it, each with the number of its
  repetitions that are not held (R185) -/
  | msync (scope : Nat) (left : List (Nat × Nat))
  /-- IRQH: its record is held until the accesses before it are performed (R129) -/
  | irqh (code : BitVec 32)
  /-- FENCE of a mask: performed once the accesses before it are, and every later access of its classes waits for it (R233,
  R279) -/
  | fence (mask : BitVec 16)
  /-- PUBC with the lines of the copies observed before it (R234) -/
  | pubc (scope : BitVec 3) (lines : List LineRef)
  /-- an operation that ended in error and has landed its zeros: its token falls in a later clock (R32) -/
  | ended
deriving DecidableEq, Repr

/-- An outstanding operation; IRQH and PUBC name no token.  It may be performed from clock `issue + 1 + latency draw` on, once
no operation of `after` is outstanding (R37, R199, R233). -/
structure TokOp where
  id    : Nat
  draw  : Nat
  issue : Nat
  slot  : Fin 8
  baddr : BitVec 48
  k     : Option Tok
  cls   : BitVec 4
  /-- the world it was issued in (R346) -/
  sec   : Bool
  after : List Nat
  err   : Option Err
  kind  : TokKind
deriving DecidableEq, Repr

/-- A held access without a token (R192, R200, R226) or the acceptance of the scope checker. -/
structure Hold where
  id   : Nat
  draw : Nat
  since : Nat
  slot : Fin 8
  after : List Nat
  done : Bool
  /-- the line the access is performed at, and the containment error of a link that failed while it was held (R290) -/
  line : Option Nat
  err  : Option Err
deriving DecidableEq, Repr, Inhabited

/-! ### Copy engines -/

/-- A level of the shape record (R319). -/
structure NestLevel where
  bound : BitVec 32
  sstr  : BitVec 32
  dstr  : BitVec 32
  rank  : BitVec 3
deriving DecidableEq, Repr, Inhabited

/-- A barrier by owning core and offset (R218). -/
structure BarAddr where
  core : CoreId
  off  : BitVec 21
deriving DecidableEq, Repr, Inhabited

/-- The copies of R203; addresses keep their class bits. -/
inductive CopyKind where
  | cpy (dst src : Word) (len : Nat) (vfy : Bool)
  | cpyl (out : Bool) (dst src : Word) (len : Nat) (vfy : Bool)
  | cpytIn (h : Handle) (src : Word) (cnt : Nat)
  | cpytOut (dst : Word) (h : Handle) (cnt : Nat)
  | cxpose (dst src : Word) (ctl : BitVec 32)
  | cfill (dst x : Word) (width len : Nat)
  | crun (kind : BitVec 2) (dst src : Word) (len : Nat) (nest : Vector NestLevel 6)
  | cstamp (dst : Word) (count : BitVec 63) (covers : List Nat)
  | cfp (res src : Word) (len : Nat)
  | csum (res src : Word) (len : Nat)
  | ccmp (b a : Word) (len : Nat) (res : Word)
  | cxpnd (dst src : Word) (limit : Nat)
  | cpush (a : Word) (cores : BitVec 24) (left : Option (List CoreId))
  | cpeer (d src : Word) (len : Nat)
  | cdisp (rec : Word)
deriving DecidableEq, Repr

/-- One side of a copy of bytes: linear or local. -/
inductive Side where
  | lin (va : Nat)
  | loc (off : Nat)
deriving DecidableEq, Repr, Inhabited

/-- The translations that a copy holds of the pages it is in, and of these the ones that a pending request withdraws (R326, R327). -/
structure Held where
  xls : List Xl
  old : List Xl
deriving DecidableEq, Repr, Inhabited

def Held.none : Held := ⟨[], []⟩

/-- A copy of n bytes that a CRUN has emitted or a row that a CDISP copies, in progress (R320, R328); the flag word that follows a
residual row, with its address. -/
structure SubCopy where
  dst  : Side
  src  : Side
  n    : Nat
  pos  : Nat
  pages : Held
  flag : Option (Nat × Nat)
  /-- its number among the copies that its CRUN emits (R318, R320); 0 for a row -/
  no : Nat
deriving DecidableEq, Repr, Inhabited

/-- How far a copy has come (R205, R206, R317, R326). -/
structure CopyProgress where
  /-- the bytes, bundles or choices done of the copy -/
  pos  : Nat
  /-- the copies a CRUN has emitted -/
  emit : Nat
  /-- bytes read that wait to be written -/
  held : List Byte
  /-- the checksum, the fingerprint, the first difference; CXPND: bytes of the body consumed; CDISP: 1 once it has added -/
  acc  : Nat
  pages : Held
  /-- its credits that have not been applied -/
  owed : List Nat
  /-- its copies and rows in progress, in order, and the error that has stopped it from starting more (R209, R329) -/
  subs : List SubCopy
  fail : Option Err
  /-- the versions a CPYT `.out` has pinned (R254) -/
  pins : List Pin
deriving DecidableEq, Repr, Inhabited

def CopyProgress.start : CopyProgress := ⟨0, 0, [], 0, .none, [], [], none, []⟩

/-- A copy in an engine's command queue (R317). -/
structure Copy where
  id      : Nat
  draw    : Nat
  issue   : Nat
  k       : Tok
  kind    : CopyKind
  counted : Option BarAddr
  sec     : Bool
  after   : List Nat
  started : Bool
  baddr   : BitVec 48
  /-- updates of tiles its write-back still waits for (CPYT `.in`, R160) -/
  commits : Option (List Nat)
  err     : Option Err
  prog    : CopyProgress
deriving DecidableEq, Repr

/-- A batch's or the accumulator's status (R217, R322): ERROR with its first error, POISON, OK. -/
structure BStat where
  poison : Bool
  err    : Option Err
deriving DecidableEq, Repr, Inhabited

/-- A batch: its copies that have not completed, and its status so far. -/
structure Batch where
  ids  : List Nat
  pend : List Nat
  st   : BStat
deriving DecidableEq, Repr, Inhabited

/-- A copy engine (R317 to R324). -/
structure Engine where
  queue   : List Copy
  open_   : Batch
  closed  : List Batch
  acc     : BStat
  /-- copies of the batches retired since the engine's last CBWAIT -/
  retired : List Nat
  stamp   : BitVec 63
  since   : List Nat
  failed  : List Nat
  nest    : Vector NestLevel 6
  counted : Option BarAddr
  /-- paused at a page boundary for a withdrawal (R327) -/
  acked   : Bool
  /-- the first clock in which it may read and write a piece again (R317) -/
  freeAt  : Nat
deriving DecidableEq, Repr

/-! ### Tensors and the matrix unit -/

/-- One version of an s-tile as a load took it (R254): each element stored, or absent. -/
structure Tile where
  entry : Nat
  elems : List (Option (BitVec 32))
deriving DecidableEq, Repr, Inhabited

/-- A tile staged in the OPBUF banks (R175): its entry, the version it holds, and its bytes there. -/
structure Staged where
  entry : Nat
  ver   : BitVec 8
  bytes : Nat
  tile  : Tile
deriving DecidableEq, Repr, Inhabited

/-- A matrix operation. -/
inductive MKind where
  | mma (zero : Bool)
  | mdrn (ov : BitVec 2) (clr : Bool)
  | fill (x : BitVec 32)
deriving DecidableEq, Repr, Inhabited

/-- A repetition in the stage or past it (R170): the clock its rows complete, and what it read when it started. -/
structure Rep where
  j    : Nat
  start : Nat
  /-- the clock it leaves the input stage -/
  leave : Nat
  due  : Nat
  /-- the codebook slots captured: handle and slot (R186) -/
  caps : List (Fin 16 × Bool)
  scA  : Vector (BitVec 16) 128
  scB  : Vector (BitVec 16) 96
  cbA  : BitVec 256
  cbB  : BitVec 256
  tiles : List Tile
  /-- the pins of its streamed tiles, until it is complete -/
  pins : List Pin
  bad  : Option Err
deriving DecidableEq, Repr

/-- An operation in the matrix unit, in issue order (R170, R172, R177). -/
structure MOp where
  id     : Nat
  kind   : MKind
  k      : Option Tok
  cfg    : BitVec 7
  issue  : Nat
  baddr  : BitVec 48
  base   : Nat
  reps   : Nat
  next   : Nat
  nextAt : Nat
  run    : List Rep
  hA     : Handle
  hB     : Handle
  /-- the handles whose MLDCB reaches the repetitions not started (R186) -/
  hAn    : Option (Fin 16)
  hBn    : Option (Fin 16)
  tiles  : List Tile
  after  : List Nat
  draw   : Nat
  held   : Bool
  /-- issued before the last freeze, so that the return from its handler does not wait for it (R120, R172) -/
  prior  : Bool
  err    : Option Err
deriving DecidableEq, Repr

/-- A pending scale load (R193). -/
structure ScaleLoad where
  isB   : Bool
  due   : Nat
  issue : Nat
  held  : Bool
  xs    : List (BitVec 16)
deriving DecidableEq, Repr

structure Matrix where
  cfg       : BitVec 7
  ops       : List MOp
  scA       : Vector (BitVec 16) 128
  scB       : Vector (BitVec 16) 96
  loads     : List ScaleLoad
  /-- an exact operation's error no MSYNC has collected (R185) -/
  err       : Option Err
  /-- the rows of the accumulator store that are not zero (R38) -/
  acc       : List (Nat × BitVec 512)
  /-- accumulator rows with an uncorrectable error (R269) -/
  badRows   : List Nat
deriving DecidableEq, Repr

/-- A tile fetch of the staging path (R175). -/
structure Fetch where
  id    : Nat
  draw  : Nat
  since : Nat
  h     : Handle
  tile  : Nat
deriving DecidableEq, Repr

/-! ### The Tumbler -/

/-- The iteration set of R221 and R330 to R335. -/
structure TumSet where
  count   : Nat
  ntile   : Nat
  defer   : Nat
  table   : Word
  map     : BitVec 21
  hs      : Vector (Option Handle) 16
  visited : List Nat
  handed  : List Nat
  ready   : List Nat
  counts  : List Nat
  sec     : Bool
deriving DecidableEq, Repr

/-- A tile prefetch of a point (R333) in flight since a clock: its word of the tile table. -/
structure Prefetch where
  point : Nat
  word  : Nat
  draw  : Nat
  since : Nat
deriving DecidableEq, Repr, Inhabited

structure Tumbler where
  set      : Option TumSet
  /-- points whose first prefetch was issued (R222) -/
  fetched  : List Nat
  inflight : List Prefetch
  /-- prefetches waiting for one of the 64 places: point and word -/
  queued   : List (Nat × Nat)
  /-- a stalled WNEXT has seen an arrival or a due point (R222) -/
  arrived  : Bool
  passDone : Bool
deriving DecidableEq, Repr

/-! ### Core memories -/

/-- The state of a line in a CACHE bank or a STASH slot (R275, R279). -/
inductive LineSt where
  | s | e | m | sp
  /-- SELFINV clean, with bytes and the mask of the bytes held -/
  | v (data : BitVec 1024) (held : BitVec 128)
  /-- SELFINV dirty, with bytes, the masks of the bytes held and of the bytes written, and the numbers of
  its first and its last write in store order -/
  | d (data : BitVec 1024) (held written : BitVec 128) (first last : Nat)
deriving DecidableEq, Repr, Inhabited

/-- A line held in a set of a CACHE bank, or in a stash slot of a bank; the list is ordered by use, most recent
first.  `line` is the physical address divided by 128. -/
structure CLine where
  line : Nat
  bank : Fin 32
  slot : Fin 512
  st   : LineSt
deriving DecidableEq, Repr, Inhabited

/-- What a completed copy wrote and no wait has observed yet. -/
structure Unobs where
  id    : Nat
  k     : Tok
  c1    : Bool
  bar   : Option BarAddr
  lines : List LineRef
deriving DecidableEq, Repr

/-- Why a bundle waits (R6). -/
inductive Stall where
  | queueDrain
  | inflight
  | tokenFull
  | bank
  | walk (space : Bool) (va : Nat)
  | hold
  | staging
  | stage
  | loopFetch (va : BitVec 48)
  | swap
  | tbind
  | wset
  | wnext
  | batches
  | commandQueue
  | drain
  | codebook
  | ordered
  | publication
  | waitk (k : Tok)
  | waitb (b : BarAddr) (ph : Bool)
  | cbwait (c1 : Bool) (n : Nat)
  | waitmon
  | ssync (level : BitVec 3)
deriving DecidableEq, Repr, Inhabited

/-- Why a running task is stopping (R124, R130, R338, R343). -/
inductive Leave where
  | exit
  | inError (e : Err)
  | halt (code : BitVec 8) (detail : Word)
  /-- a halt whose save has begun (R343 step 1) -/
  | haltSave (code : BitVec 8) (detail : Word)
  /-- for a READY task (R307) -/
  | preempt (for_ : Nat)
  /-- for a READY task (R308) -/
  | park (for_ : Nat)
  | yield
deriving DecidableEq, Repr, Inhabited

/-- What the core does: nothing, a preload that waits, a task's bundles, or what is left of a task that leaves it; `saved` marks a saved context. -/
inductive CStat where
  | idle
  /-- a task has been placed, and its preload waits for a page whose bias is changing (R286, R296) -/
  | loading
  | running
  | leaving (why : Leave)
  | saved
deriving DecidableEq, Repr, Inhabited

/-- One entry of the grant table (R370). -/
structure Grant where
  src   : BitVec 16
  score : BitVec 8
  base  : BitVec 32
  len   : BitVec 32
  flag  : BitVec 32
deriving DecidableEq, Repr, Inhabited

/-- The monitor (R231). -/
structure Monitor where
  addr : Word
  pa   : Nat
  was  : Word
deriving DecidableEq, Repr, Inhabited

/-- The claims of the placed task (R294, R296). -/
structure Claim where
  banks : BitVec 32
  rows  : BitVec 32
  ilo   : Bool
  ihi   : Bool
  ctx   : Word
  grants : List Grant
deriving DecidableEq, Repr

/-- The register part of a core. -/
structure Regs where
  s : Vector (List Word) 16
  v : Vector (List VReg) 16
  a : Vector Word 16
  p : Vector Word 12
  k : Vector Token 8
  h : Vector (Option Handle) 16
deriving DecidableEq, Repr

/-- The memories of a core. -/
structure CoreMem where
  /-- SCRATCH bytes that are not zero, by offset -/
  sram    : List Host.Cell
  /-- bytes of ILO (0 up) and IHI (65,536 up) that are not zero -/
  ih      : List Host.Cell
  /-- lines 0–1,023 of the halves whose CLEAN bit is 1 -/
  ihClean : List Nat
  activeHi : Bool
  lines   : List CLine
  stash   : List CLine
  icache  : List Nat
  tlb     : List Xl
  opbuf   : List Staged
  /-- tile-table lines cached (R352) -/
  ttc     : List Nat
  /-- 8-byte words of SCRATCH with an uncorrectable error (R292) -/
  badWords : List Nat
deriving DecidableEq, Repr

/-- One core. -/
structure Core where
  id      : CoreId
  stat    : CStat
  task    : Option Nat
  pc      : BitVec 48
  /-- the first clock in which the next bundle may issue (R110) -/
  readyAt : Nat
  /-- a bundle has issued, or has been stalled, in this clock -/
  issued  : Bool
  /-- clocks of an RFT's wait: the return is pending (R120) -/
  returning : Bool
  inHandler : Bool
  /-- no bundle has committed since the last RFT, so that no pre-emption is taken (R340) -/
  resumed : Bool
  regs    : Regs
  csr     : Csr
  loopSt  : LoopState
  shadow  : Option LoopState
  /-- the task was halted at the entry of a trap, which moved its loop state to the shadow (R339) -/
  trapHalt : Bool
  skip    : Nat
  flights : List Flight
  landed  : List Landed
  ops     : List TokOp
  holds   : List Hold
  walkFails : List (Bool × Nat × BitVec 8)
  fetches : List Fetch
  mx      : Matrix
  eng0    : Engine
  eng1    : Engine
  tum     : Tumbler
  mon     : Option Monitor
  mem     : CoreMem
  claim   : Claim
  wrote   : List LineRef
  /-- lines of copies whose completion a wait has observed since the last PUBC (R234) -/
  obs     : List LineRef
  unobs   : List Unobs
  /-- tokens under which an operation of cluster scope or wider has completed that no WAITK has observed (R228) -/
  owed    : List Tok
  stamps  : List (Nat × List Nat)
  wdcount : Nat
  stall   : Option Stall
  /-- clocks spent in the present architectural wait (R308) -/
  waited  : Nat
  bankWait : Nat
  /-- SSYNC has arrived at this level and waits (R232) -/
  arrived : Option (BitVec 3)
  /-- the superstep the waiting SSYNC belonged to has completed -/
  released : Bool
  /-- the arrival of an SSYNC whose bundle a trap has interrupted: its level, and whether its superstep has completed (R232, R312) -/
  kept    : Option (BitVec 3 × Bool)
  /-- a watchdog trap is due at the task's next bundle boundary (R315) -/
  alarm   : Bool
  frozen  : Bool
  /-- banks that are draining on their way out of SCRATCH (R263, R264) -/
  draining : BitVec 32
deriving DecidableEq, Repr

/-! ### Tasks -/

/-- A task record (R294). -/
structure TaskRec where
  addr    : Word
  entry   : Word
  ctx     : Word
  depAddr : Word
  depVal  : Word
  doneAddr : Word
  roles   : Word
  banks   : BitVec 32
  rows    : BitVec 32
  wdog    : BitVec 32
  quota   : BitVec 16
  flags   : BitVec 16
  domn    : BitVec 40
  r69     : BitVec 24
  task    : BitVec 32
  place   : BitVec 16
  r78     : BitVec 16
  mcnt    : Word
  ipre    : Word
  r96     : List Word
  args    : List Word
deriving DecidableEq, Repr

/-- The states of a task (R299). -/
inductive TState where
  | dependent
  | ready
  | running (c : CoreId)
  | parked
  | halted
  /-- discarded, with copies that the engines still carry out (R300, R325) -/
  | discarded
deriving DecidableEq, Repr, Inhabited

/-- A task in a pool (R299): its saved context is the core as it was saved (R343 to R345). -/
structure Task where
  id     : Nat
  die    : Fin 4
  lid    : BitVec 16
  record : TaskRec
  st     : TState
  home   : Option CoreId
  prio   : BitVec 2
  aged   : Bool
  since  : Nat
  promo  : Nat
  placedAt : Nat
  ctx    : Option Core
deriving DecidableEq, Repr

/-- What identifies a domain instance (R310). -/
structure InstKey where
  level : BitVec 3
  lid   : BitVec 16
  die   : Fin 4
  val   : BitVec 16
deriving DecidableEq, Repr, Inhabited

/-- A domain instance (R310 to R313). -/
structure Inst where
  key      : InstKey
  count    : BitVec 16
  expected : Nat
  /-- arrivals of other devices at this level-4 instance in the current superstep -/
  remote   : Nat
  /-- arrivals of this superstep of which the other devices have been told (R369) -/
  told     : Nat
  lost     : Bool
  cluster  : Option Nat
deriving DecidableEq, Repr

/-- A live launch (R301 to R303). -/
structure Launch where
  lid    : BitVec 16
  irq    : Bool
  vec    : BitVec 10
  win    : Nat
  status : Nat
  errs   : Nat
deriving DecidableEq, Repr

/-! ### Device -/

/-- An update of a tile-table entry that waits for its write lock (R252). -/
structure Update where
  id     : Nat
  draw   : Nat
  since  : Nat
  core   : CoreId
  opId   : Nat
  baddr  : BitVec 48
  slot   : Fin 8
  entry  : Nat
  tileNo : Nat
  desc   : BitVec 1024
  /-- the descriptor's address as the handle has it, and as it translates (R250) -/
  descVa : Nat
  /-- or the code its walk failed with (R348) -/
  descPa : Sum (BitVec 8) Nat
  /-- the elements the write-back carries: in-tile offset and stored pattern -/
  elems  : List (Nat × BitVec 32)
deriving DecidableEq, Repr

/-- A frame that a version names or that is retired (R255): first granule, granules. -/
structure Frame where
  addr : Nat
  size : Nat
  pins : Nat
deriving DecidableEq, Repr, Inhabited

/-- The metadata window of a base die (R363). -/
structure MdWin where
  mdreg   : Word
  pool    : Word
  entaddr : Word
  entdata0 : Word
  entdata1 : Word
  biasst  : Word
  /-- the ENTGO writes that wait for their entries, in order -/
  entgo   : List (Nat × BitVec 128)
  used    : List Frame
  retired : List Frame
deriving DecidableEq, Repr, Inhabited

/-- A message of the barrier network (R219), or a credit (R205). -/
inductive BarMsg where
  | binit (count : BitVec 16)
  | arrive (count : Nat)
  | expect (count : BitVec 32)
  | credit (bytes : Nat) (forced : Bool)
deriving DecidableEq, Repr

structure BarPost where
  id    : Nat
  draw  : Nat
  since : Nat
  src   : CoreId
  dst   : BarAddr
  after : List Nat
  msg   : BarMsg
deriving DecidableEq, Repr

/-- A barrier that a message has reached: the sources of its present and its last completed generation (R229), the clock of
its last update, and whether its fields have changed since the unit last tested them (R218, R220). -/
structure BarSrc where
  bar  : BarAddr
  cur  : List CoreId
  last : List CoreId
  at_  : Nat
  /-- the first clock in which the unit looks at the fields without a message -/
  again : Option Nat
deriving DecidableEq, Repr, Inhabited

/-- Bytes of memory (0), of SCRATCH (1) or of an instruction-scratchpad half (2) that a copy of a core has written while an earlier one of
that core had still to write, in the order of the copies and of the emitted copies of one CRUN (R318). -/
structure CopyWrite where
  core  : CoreId
  copy  : Nat
  no    : Nat
  space : Nat
  at_   : Nat
  len   : Nat
deriving DecidableEq, Repr, Inhabited

/-- A push delivery in flight (R162, R277). -/
structure Push where
  id    : Nat
  draw  : Nat
  since : Nat
  src   : CoreId
  opId  : Nat
  isCopy : Bool
  dst   : CoreId
  line  : Nat
  va    : Nat
deriving DecidableEq, Repr

/-- The scope checker's record of a line (R200). -/
structure ScopeRec where
  line : Nat
  core : CoreId
  scope : BitVec 3
deriving DecidableEq, Repr

/-- The write of an event record on its way to memory: its number, where it goes, its bytes, and the interrupt that comes after it, with
its window (R304, R367). -/
structure EvWrite where
  seq   : Word
  at_   : Nat
  bytes : List Byte
  since : Nat
  draw  : Nat
  irq   : Option (BitVec 10 × Nat)
deriving DecidableEq, Repr

/-- An interrupt held for its coalescing window (R304). -/
structure HeldIrq where
  vec : BitVec 10
  due : Nat
deriving DecidableEq, Repr

/-- A withdrawal request taken and not complete (R353, R354). -/
structure Wdr where
  all   : Bool
  space : Bool
  page  : Nat
  npg   : Nat
  /-- per core, the ids of the accesses issued before the request was taken -/
  waits : List (CoreId × List Nat)
deriving DecidableEq, Repr

/-- The bias of a page that is not plainly DEVICE (R286). -/
inductive Bias where
  | host
  | toHost (since : Nat) (draw : Nat) (status : Nat)
  | toDevice (since : Nat) (draw : Nat) (status : Nat)
deriving DecidableEq, Repr, Inhabited

/-- Where bring-up stands (R375). -/
inductive BringUp where
  | reset
  | rejected (image : Nat)
  | done
deriving DecidableEq, Repr, Inhabited

/-- The memories outside the cores, and what the L2 and the memories keep with each line. -/
structure Store where
  /-- bytes that are not zero, by physical address -/
  bytes  : List Host.Cell
  /-- PW of each line whose PW is not empty; 128 stands for EXT (R283) -/
  pw     : List (Nat × List Nat)
  scopes : List ScopeRec
  /-- the lines the L2 slices hold (R273), and of these the lines brought in during this clock -/
  l2     : List Nat
  fresh  : List Nat
  poison : List Nat
  /-- lines that a dead agent held in M (R291) -/
  lost   : List Nat
  /-- lines of saved instruction-scratchpad halves that restore with CLEAN 1 (R344) -/
  cleanHalves : List Nat
  hostCopies : List Nat
  bias   : List (Nat × Bias)
deriving DecidableEq, Repr

/-- The launch port, the event ring, interrupts and the translation control page. -/
structure HostPort where
  root0    : Word
  root1    : Word
  wdTaken  : Word
  wdDone   : Word
  wdrs     : List Wdr
  evbase   : Word
  evsize   : Word
  evhead   : Word
  evtail   : Word
  evdrop   : Word
  evvec    : Word
  evseq    : Word
  /-- records that have their numbers and have not arrived in memory (R367) -/
  records  : List EvWrite
  ltaken   : Word
  lrefused : Word
  ldiscard : Word
  lenable  : Bool
  hdrop    : Word
  held     : List HeldIrq
  irqs     : List (BitVec 10 × Nat)
  /-- the last answer of a host read: its bytes, and whether it was poisoned -/
  reply    : List Byte × Bool
  mctp     : List Byte
  /-- host accesses and launch records that wait for a bias change (R288, R376), first come first -/
  pending  : List Instr
deriving DecidableEq, Repr

/-- A link's state (R368, R369). -/
structure LinkSt where
  up      : Bool
  failed  : Bool
  retries : BitVec 24
  /-- refusals in a row of the flit awaited, and its sequence number -/
  refused : Nat
  seq     : BitVec 10
  /-- payloads of flits of a peer transfer that is not yet whole -/
  parts   : List (List Byte)
  /-- the acknowledgements and refusals sent, oldest first: flits of type 4 -/
  answers : List (List Byte)
  /-- flits the peer has not acknowledged, oldest first: the first 512 are in the replay buffer, the others wait to be sent -/
  out     : List (List Byte)
  /-- the number of the next flit, and the refusals in a row of the oldest in the buffer -/
  next    : BitVec 10
  replays : Nat
deriving DecidableEq, Repr, Inhabited

/-- Power, links, worlds and bring-up. -/
structure Platform where
  devnum  : Word
  rtbase  : Word
  links   : Vector LinkSt 12
  dieLinks : List (Fin 4 × Fin 4)
  baseLinks : List (Fin 8)
  hostLink : Bool
  dead    : List Agent
  pcap    : Word
  pdraw   : Word
  frozenCount : Vector Nat 16
  /-- the clocks in which each cluster is frozen in the present period -/
  freezes : Vector (List Nat) 16
  therm   : List (Fin 4)
  periods : Nat
  regions : List Region
  bringup : BringUp
  measures : List (List Byte)
  /-- the device identity key, once Brozen has derived it (R373) -/
  idKey   : RsaKey
deriving DecidableEq, Repr

/-- Tasks, launches and domains. -/
structure Sched where
  tasks    : List Task
  launches : List Launch
  insts    : List Inst
  nextId   : Nat
deriving DecidableEq, Repr

/-! ### The bundle being issued -/

/-- A change of a handle that later bundles see (R156, R182, R186, R225, R226). -/
inductive CurUpd where
  | add (h : Fin 16) (dim : Fin 6) (n : BitVec 32)
  | set (h : Fin 16) (dim : Fin 6) (n : BitVec 32)
  /-- bits of the handle's descriptor copy from `lo` up (TSET, TLOCK, MLDCB) -/
  | desc (h : Fin 16) (lo n v : Nat)
deriving DecidableEq, Repr

/-- A local write of the bundle, performed after its local reads (R151). -/
structure LocalWr where
  off   : Nat
  bytes : List Byte
deriving DecidableEq, Repr

/-- What the bundle has gathered so far; it takes effect when the bundle commits.  `old` is the core before the
bundle, to which a trap or a stall returns. -/
structure Issue where
  old     : Core
  bend    : Bool
  /-- the destinations of the enabled operations, with their slots (R10) -/
  dests   : List (Fin 8 × DName)
  /-- the conditions met (kinds F and W), and the traps after commit (kind T) -/
  causes  : List Cause
  post    : List Cause
  stall   : Option Stall
  lands   : List Flight
  ops     : List TokOp
  curs    : List CurUpd
  qmode   : Option Word
  lwr     : List LocalWr
  /-- what the bundle asks of the banks (R152): bank, true for a row, its number -/
  banks   : List (Nat × Bool × Nat)
  copies  : List (Bool × Copy)
  posts   : List BarPost
  scopes  : List ScopeRec
  /-- lines read at their home -/
  reads   : List Nat
  /-- the target of a taken transfer -/
  next    : Option (BitVec 48)
  swap    : Bool
  newLoop : Option LoopState
  /-- a CSRW to BANKROLE, STASHMAP or WORLD: its number and value -/
  csrw    : Option (BitVec 10 × Word)
  /-- descriptor fields TSET and TLOCK write: the access, the first bit, the bits, the value -/
  descs   : List (Lin × Nat × Nat × Nat)
  leave   : Option Leave
  rft     : Bool
  /-- the clocks of a skipped loop body (R117) -/
  skip    : Nat
  /-- what a stalled bundle leaves behind -/
  newHolds : List Hold
  newFetches : List Fetch
  closes  : List Bool
  tum     : Option Tumbler
  arrive  : Option (BitVec 3)
  drain   : Option (BitVec 32)
deriving DecidableEq, Repr

/-- The whole device. -/
structure State where
  clock   : Nat
  /-- cores that have had their turn in this clock, last first -/
  before  : List Core
  core    : Core
  after   : List Core
  store   : Store
  md      : Vector MdWin 8
  updates : List Update
  posts   : List BarPost
  barSrcs : List BarSrc
  pushes  : List Push
  copyWrites : List CopyWrite
  sched   : Sched
  host    : HostPort
  plat    : Platform
  /-- shared TLBs of the four dies -/
  stlb    : Vector (List Xl) 4
  /-- the next id of an operation, a copy or a message -/
  nextId  : Nat
  /-- the number of free values drawn (the model's own, L2) -/
  draws   : Nat
  /-- what the host and the platform have done and the device has not yet taken -/
  inputs  : List Instr
  iss     : Option Issue
deriving DecidableEq, Repr

/-! ### Reset -/

def Replay.empty : Replay := ⟨0, VReg.zero, 0, 0⟩

/-- R29, R20 to R30, R40. -/
def Csr.reset : Csr where
  ptrap := false
  qmode := 0
  scr := false
  bankrole := 0xFFFF555500000000
  stashmap := 0
  quota := 0
  inuse := 0
  refused := 0
  fevlog := 0
  fevRank := none
  trapvec := 0
  trapcause := 0
  trappc := 0
  trapslot := 0
  replay := Vector.replicate 24 Replay.empty
  wdwin := 0
  wdfired := false
  domn := 0xFFFFFFFFFF
  task := 0
  prio := 0
  launch := 0
  sec := false

/-- R40: register mode, reading zero; nothing counted, nothing bound. -/
def Regs.reset : Regs where
  s := Vector.replicate 16 []
  v := Vector.replicate 16 []
  a := Vector.replicate 16 0
  p := Vector.replicate 12 0
  k := Vector.replicate 8 ⟨0, none⟩
  h := Vector.replicate 16 none

def LoopState.reset : LoopState where
  n := Vector.replicate 6 0
  reload := Vector.replicate 6 0
  levels := []
  pending := []
  dead := false
  start := 0
  body := []
  pos := 0
  swap := none

/-- R167, R173. -/
def Matrix.reset : Matrix where
  cfg := 0
  ops := []
  scA := Vector.replicate 128 0x3F80
  scB := Vector.replicate 96 0x3F80
  loads := []
  err := none
  acc := []
  badRows := []

def BStat.ok : BStat := ⟨false, none⟩
def Batch.empty : Batch := ⟨[], [], BStat.ok⟩

/-- R209, R319: bound 0, strides 0, RANK the level's own number. -/
def nestReset : Vector NestLevel 6 := #v[⟨0, 0, 0, 0⟩, ⟨0, 0, 0, 1⟩, ⟨0, 0, 0, 2⟩, ⟨0, 0, 0, 3⟩, ⟨0, 0, 0, 4⟩, ⟨0, 0, 0, 5⟩]

def Engine.reset : Engine where
  queue := []
  open_ := Batch.empty
  closed := []
  acc := BStat.ok
  retired := []
  stamp := 0
  since := []
  failed := []
  nest := nestReset
  counted := none
  acked := false
  freeAt := 0

def Tumbler.reset : Tumbler where
  set := none
  fetched := []
  inflight := []
  queued := []
  arrived := false
  passDone := false

def CoreMem.reset : CoreMem where
  sram := []
  ih := []
  ihClean := []
  activeHi := false
  lines := []
  stash := []
  icache := []
  tlb := []
  opbuf := []
  ttc := []
  badWords := []

def Claim.none : Claim := ⟨0, 0, false, false, 0, []⟩

/-- A core before its first placement (R40). -/
def Core.reset (c : CoreId) : Core where
  id := c
  stat := .idle
  task := none
  pc := 0
  readyAt := 0
  issued := false
  returning := false
  inHandler := false
  resumed := false
  regs := Regs.reset
  csr := Csr.reset
  loopSt := LoopState.reset
  shadow := none
  trapHalt := false
  skip := 0
  flights := []
  landed := []
  ops := []
  holds := []
  walkFails := []
  fetches := []
  mx := Matrix.reset
  eng0 := Engine.reset
  eng1 := Engine.reset
  tum := Tumbler.reset
  mon := none
  mem := CoreMem.reset
  claim := Claim.none
  wrote := []
  obs := []
  unobs := []
  owed := []
  stamps := []
  wdcount := 0
  stall := none
  waited := 0
  bankWait := 0
  arrived := none
  released := false
  kept := none
  alarm := false
  frozen := false
  draining := 0

def MdWin.reset : MdWin := ⟨0, 0, 0, 0, 0, 0, [], [], []⟩

/-- R375 step 2: CLEAN 1 and PW empty everywhere, the L2 and the directory empty. -/
def Store.reset : Store := ⟨[], [], [], [], [], [], [], [], [], []⟩

/-- R353, R362, R366. -/
def HostPort.reset : HostPort where
  root0 := 0
  root1 := 0
  wdTaken := 0
  wdDone := 0
  wdrs := []
  evbase := 0
  evsize := 0
  evhead := 0
  evtail := 0
  evdrop := 0
  evvec := 0
  evseq := 0
  records := []
  ltaken := 0
  lrefused := 0
  ldiscard := 0
  lenable := false
  hdrop := 0
  held := []
  irqs := []
  reply := ([], false)
  mctp := []
  pending := []

def LinkSt.reset : LinkSt := ⟨false, false, 0, 0, 0, [], [], [], 0, 0⟩

/-- R364: entry 0 covers all device memory and is secure; LIMIT counts 64 KiB units. -/
def regionsReset : List Region := [⟨true, true, 0, 0x800000⟩]

def Platform.reset : Platform where
  devnum := 0
  rtbase := 0
  links := Vector.replicate 12 LinkSt.reset
  dieLinks := []
  baseLinks := []
  hostLink := false
  dead := []
  pcap := 2000
  pdraw := 0
  frozenCount := Vector.replicate 16 0
  freezes := Vector.replicate 16 []
  therm := []
  periods := 0
  regions := regionsReset
  bringup := .reset
  measures := []
  idKey := ⟨0, 0⟩

/-- The cores 1 to 127. -/
def otherCores : List Core := (List.range 127).map fun i => Core.reset (Fin.ofNat 128 (i + 1))

/-- The machine right after module reset (R40, R364, R375): every core idle, nothing in memory, core 0 in focus. -/
def State.reset : State where
  clock := 0
  before := []
  core := Core.reset 0
  after := otherCores
  store := Store.reset
  md := Vector.replicate 8 MdWin.reset
  updates := []
  posts := []
  barSrcs := []
  pushes := []
  copyWrites := []
  sched := ⟨[], [], [], 0⟩
  host := HostPort.reset
  plat := Platform.reset
  stlb := Vector.replicate 4 []
  nextId := 0
  draws := 0
  inputs := []
  iss := none

end Sys2Proof.Machine
end

