-- ==== Sys2Proof/Machine/Memory.lean ====
section
/-! DEFINITION. Memory as a list of addressed values in one canonical form: addresses strictly rising, and no entry
that holds the value an unlisted address reads as.  Bytes unlisted read 0 (L1). -/

namespace Sys2Proof.Machine

/-- The value at an address; an unlisted address reads `z`. -/
def cellGet {α : Type} (z : α) : List (Nat × α) → Nat → α
  | [], _ => z
  | (b, v) :: l, a => if a = b then v else if a < b then z else cellGet z l a

/-- Writing an address: the canonical form is kept, so writing `z` removes the entry. -/
def cellPut {α : Type} [DecidableEq α] (z : α) : List (Nat × α) → Nat → α → List (Nat × α)
  | [], a, x => if x = z then [] else [(a, x)]
  | (b, v) :: l, a, x =>
    if a = b then (if x = z then l else (a, x) :: l)
    else if a < b then (if x = z then (b, v) :: l else (a, x) :: (b, v) :: l)
    else (b, v) :: cellPut z l a x

/-- The canonical form above a bound. -/
def cellsFrom {α : Type} [DecidableEq α] (z : α) : Nat → List (Nat × α) → Bool
  | _, [] => true
  | n, (b, v) :: l => n ≤ b && v != z && cellsFrom z (b + 1) l

def cellsWf {α : Type} [DecidableEq α] (z : α) (l : List (Nat × α)) : Bool := cellsFrom z 0 l

/-- The canonical form of a byte memory. -/
def Memory.wf (l : List Host.Cell) : Bool := cellsWf (0 : Byte) l

def rd8 (l : List Host.Cell) (a : Nat) : Byte := cellGet 0 l a
def wr8 (l : List Host.Cell) (a : Nat) (b : Byte) : List Host.Cell := cellPut 0 l a b

/-- n bytes from an address up. -/
def rdBytes (l : List Host.Cell) : Nat → Nat → List Byte
  | _, 0 => []
  | a, n + 1 => rd8 l a :: rdBytes l (a + 1) n

/-- Bytes written from an address up. -/
def wrBytes (l : List Host.Cell) : Nat → List Byte → List Host.Cell
  | _, [] => l
  | a, b :: bs => wrBytes (wr8 l a b) (a + 1) bs

/-- n bytes read as one little-endian number. -/
def rdNat (l : List Host.Cell) (a n : Nat) : Nat := ofBytes (rdBytes l a n)

def wrNat (l : List Host.Cell) (a n x : Nat) : List Host.Cell := wrBytes l a (toBytes n x)

/-- An accumulator row (R38); an unlisted row is zero (R269, L1). -/
def accRow (m : Matrix) (r : Nat) : BitVec 512 := cellGet 0 m.acc r
def setAccRow (m : Matrix) (r : Nat) (x : BitVec 512) : Matrix := { m with acc := cellPut 0 m.acc r x }

/-- A line number of each byte of a range, each once, in order (128-byte lines). -/
def linesOf (a n : Nat) : List Nat :=
  if n = 0 then [] else (List.range ((a + n - 1) / 128 - a / 128 + 1)).map fun i => a / 128 + i

/-- An element added at the front unless it is listed. -/
def insertNew {α : Type} [DecidableEq α] (x : α) (l : List α) : List α := if l.contains x then l else x :: l

/-- The elements of a list added, each once. -/
def insertAll {α : Type} [DecidableEq α] (xs l : List α) : List α := xs.foldl (fun acc x => insertNew x acc) l

end Sys2Proof.Machine
end

