-- ==== Sys2Proof/Machine/Cores.lean ====
section
/-! DEFINITION. The 128 cores around the one in focus, their numbers, clusters and dies (R1), scopes (R196), the claims
and roles of local memory (R23, R36, R38), and the physical map with its worlds (R273, R360, R364). -/

namespace Sys2Proof.Machine

def dieOf (c : CoreId) : Nat := c.val / 32
def clusterOf (c : CoreId) : Nat := c.val / 8

/-- The first of two errors (R16). -/
def orErr (a b : Option Err) : Option Err := match a with
  | some e => some e
  | none => b

/-- Every core once. -/
def State.cores (s : State) : List Core := s.before ++ s.core :: s.after

/-- A change made to every core. -/
def State.mapCores (s : State) (f : Core → Core) : State :=
  { s with before := s.before.map f, core := f s.core, after := s.after.map f }

/-- A change made to one core. -/
def State.modCore (s : State) (c : CoreId) (f : Core → Core) : State :=
  s.mapCores fun k => if k.id = c then f k else k

/-- The core of a number; the core in focus stands in for a number not listed. -/
def State.coreAt (s : State) (c : CoreId) : Core :=
  (s.cores.find? fun k => k.id = c && k.stat != .saved).getD s.core

/-- A change of the core in focus. -/
def State.onCore (s : State) (f : Core → Core) : State := { s with core := f s.core }

/-- Another core put in the place of the one of its number, in a list. -/
def swapIn (c : CoreId) (k : Core) (l : List Core) : List Core := l.map fun x => if x.id = c then k else x

/-- A change made as a core of a number would make it: that core is in focus for it. -/
def State.asCore (s : State) (c : CoreId) (f : State → State) : State :=
  if s.core.id = c && s.core.stat != .saved then f s
  else match (s.before ++ s.after).find? fun k => k.id = c with
    | none => s
    | some k =>
      let me := s.core
      let r := f { s with before := swapIn c me s.before, core := k, after := swapIn c me s.after }
      match (r.before ++ r.after).find? fun x => x.id = me.id with
      | none => r
      | some m => { r with before := swapIn me.id r.core r.before, core := m, after := swapIn me.id r.core r.after }

/-! ### Saved contexts (R325) -/

/-- A task that has left its core keeps its outstanding operations and copies in its saved context. -/
def Task.saved (t : Task) (c : CoreId) : Option Core := match t.ctx with
  | some g => if g.id = c then some g else none
  | none => none

/-- The saved contexts of a core's tasks. -/
def State.ghosts (s : State) (c : CoreId) : List Core := s.sched.tasks.filterMap fun t => t.saved c

/-- Every core and every saved context. -/
def State.contexts (s : State) : List Core := s.cores ++ s.sched.tasks.filterMap (·.ctx)

/-- A change made to every core and every saved context. -/
def State.mapContexts (s : State) (f : Core → Core) : State :=
  let s := s.mapCores f
  { s with sched := { s.sched with tasks := s.sched.tasks.map fun (t : Task) => { t with ctx := t.ctx.map f } } }

/-- A change of a core and of the contexts saved from it. -/
def State.modOwner (s : State) (c : CoreId) (f : Core → Core) : State :=
  let s := s.modCore c f
  { s with sched := { s.sched with tasks := s.sched.tasks.map fun t =>
      if (t.saved c).isSome then { t with ctx := t.ctx.map f } else t } }

/-- In a saved context only SCRATCH banks keep their role: its engines reach everything else at the home. -/
def ghostRoles (roles : Word) : Word :=
  BitVec.ofNat 64 (ofDigits4 ((List.range 32).map fun n => if field roles.toNat (2 * n) 2 = 1 then 1 else 3))
where
  ofDigits4 : List Nat → Nat
    | [] => 0
    | d :: l => d + 4 * ofDigits4 l

/-- A saved context as its engines see it. -/
def ghostCore (g : Core) : Core := { g with csr := { g.csr with bankrole := ghostRoles g.csr.bankrole } }

/-- What the engines and the memory path of a core do for a saved task (R325): its context is in focus, and the core itself is one of
the others. -/
def State.asGhost (s : State) (task : Nat) (f : State → State) : State :=
  match (s.sched.tasks.find? fun t => t.id == task).bind (·.ctx) with
  | none => s
  | some g => s.asCore g.id fun s =>
    let me := s.core
    let r := f { s with before := me :: s.before, core := ghostCore g }
    let g' : Core := { r.core with
      csr := { r.core.csr with bankrole := g.csr.bankrole }
      mem := { r.core.mem with tlb := [], lines := [], stash := [], icache := [], ttc := [] }
      walkFails := [] }
    { r with
      core := (r.before.headD me)
      before := r.before.drop 1
      sched := { r.sched with tasks := r.sched.tasks.map fun t => if t.id == task then { t with ctx := some g' } else t } }

/-- R196: scope s issued by core c includes core d (0 core, 1 cluster, 2 die, 3 device, 4 system). -/
def scopeIncludes (sc : Nat) (c d : CoreId) : Bool :=
  match sc with
  | 0 => c == d
  | 1 => clusterOf c == clusterOf d
  | 2 => dieOf c == dieOf d
  | _ => true

/-! ### Local memory -/

/-- R218: a local write to the bytes of a barrier, an object to which a message has come (L76); its unit acts on them from the next
clock. -/
def State.touchBars (s : State) (core : CoreId) (off n : Nat) : State :=
  { s with barSrcs := s.barSrcs.map fun b =>
      if b.bar.core == core && b.bar.off.toNat < off + n && off < b.bar.off.toNat + 16 then
        { b with again := some (min (b.again.getD (s.clock + 1)) (s.clock + 1)) }
      else b }

/-- The role of a bank (R23): 0 CACHE, 1 SCRATCH, 2 STASH, 3 OPBUF. -/
def roleOf (roles : Word) (n : Nat) : Nat := field roles.toNat (2 * n) 2
def Core.role (c : Core) (n : Nat) : Nat := roleOf c.csr.bankrole n
def Core.isScratch (c : Core) (off : Nat) : Bool := off < 2097152 && c.role (off / 65536) == 1
/-- The banks of a role, ascending. -/
def Core.banksOf (c : Core) (r : Nat) : List Nat := (List.range 32).filter fun n => c.role n == r

/-- The first offset of a range that lies outside SCRATCH. -/
def Core.badLocal (c : Core) (off n : Nat) : Option Nat :=
  (findFrom (fun i => !c.isScratch (off + i)) n 0).map fun i => off + i

/-- The claimed accumulator ranges of a ROWS field, as (first row, length) (R294). -/
def rowRanges (rows : Nat) : List (Nat × Nat) :=
  [(field rows 0 8 * 256, field rows 8 8 * 256), (field rows 16 8 * 256, field rows 24 8 * 256)].filter fun p => p.2 != 0

def Core.rowClaimed (c : Core) (r : Nat) : Bool :=
  (rowRanges c.claim.rows.toNat).any fun p => p.1 ≤ r && r < p.1 + p.2

def Core.bankClaimed (c : Core) (n : Nat) : Bool := bit c.claim.banks.toNat n

/-! ### Instruction scratchpad (R271) -/

def iloBase : Nat := 0xFFFFFFFE0000

/-- The offset into the two halves of a virtual address: below 65,536 ILO, from there IHI. -/
def ihOffset (va : Nat) : Option Nat := if iloBase ≤ va ∧ va < iloBase + 131072 then some (va - iloBase) else none

/-- Whether the half of an offset is claimed. -/
def Core.halfClaimed (c : Core) (off : Nat) : Bool := if off < 65536 then c.claim.ilo else c.claim.ihi
/-- Whether the half of an offset is the active one. -/
def Core.halfActive (c : Core) (off : Nat) : Bool := c.mem.activeHi == (65536 ≤ off : Bool)

/-! ### The physical map -/

def deviceEnd : Nat := 2 ^ 39
def regBase : Nat := 0x8000000000
def isDevice (pa : Nat) : Bool := pa < deviceEnd
def isReg (pa : Nat) : Bool := regBase ≤ pa && pa < regBase + 65536

/-- The launch port, which a core reads as 0 at any width (R361). -/
def isPort (pa : Nat) : Bool := regBase ≤ pa && pa < regBase + 4096
def isHost (pa : Nat) : Bool := 0x100000000000 ≤ pa && pa < 0x200000000000
/-- R360: the address exists. -/
def present (pa : Nat) : Bool := isDevice pa || isReg pa || isHost pa

def stackOf (pa : Nat) : Fin 8 := Fin.ofNat 8 (pa / 2 ^ 36)
/-- The home die of a device address (R273). -/
def homeDie (pa : Nat) : Nat := (stackOf pa).val / 2

/-- R364: the address lies in a secure region. -/
def State.secureAddr (s : State) (pa : Nat) : Bool :=
  isDevice pa && s.plat.regions.any fun r =>
    r.v && r.sec && r.base.toNat * 65536 ≤ pa && pa < r.limit.toNat * 65536

/-- A BASE and LIMIT pair of a metadata window (R363). -/
def winBase (w : Word) : Nat := field w.toNat 16 23 * 65536
def winLimit (w : Word) : Nat := field w.toNat 40 24 * 65536
def inWin (w : Word) (pa : Nat) : Bool := winBase w ≤ pa && pa < winLimit w

/-- R243: the address lies in a frame pool or in a metadata region. -/
def State.hidden (s : State) (pa : Nat) : Bool :=
  isDevice pa && s.md.toList.any fun m => inWin m.mdreg pa || inWin m.pool pa

/-- The bias of the page of an address (R286); plain DEVICE when nothing is listed. -/
def State.biasOf (s : State) (pa : Nat) : Option Bias := (s.store.bias.find? fun p => p.1 == pa / 4096).map (·.2)
def State.hostBiased (s : State) (pa : Nat) : Bool := isDevice pa && s.biasOf pa == some .host
/-- The page is changing its bias, so that new accesses wait (R286). -/
def State.biasChanging (s : State) (pa : Nat) : Bool :=
  match s.biasOf pa with
  | some (.toHost _ _ _) | some (.toDevice _ _ _) => true
  | _ => false

/-- R289, R291: the agent that homes an address is dead, or the line was held in M by one that is. -/
def State.deadHome (s : State) (pa : Nat) : Bool :=
  if s.store.lost.contains (pa / 128) then true
  else if isDevice pa then s.plat.dead.contains (.die (Fin.ofNat 4 (homeDie pa))) || s.plat.dead.contains (.base (stackOf pa))
  else isHost pa && s.plat.dead.contains .host

def State.deadCore (s : State) (c : CoreId) : Bool := s.plat.dead.contains (.die (Fin.ofNat 4 (dieOf c)))

/-- A free value of the model (L2): the next draw's number. -/
def State.draw (s : State) : Nat × State := (s.draws, { s with draws := s.draws + 1 })
def State.newId (s : State) : Nat × State := (s.nextId, { s with nextId := s.nextId + 1 })

end Sys2Proof.Machine
end

