-- ==== Sys2Proof/Machine/Coherence.lean ====
section
/-! DEFINITION. The states of lines in the cores and what reads and writes do to them (R262, R266, R267, R275 to R283,
R286).  The bytes of DIR, UNC and host lines stand in one place, their home, because every such write is performed at
every scope at once (R405); SELFINV lines keep copies of their own (R279). -/

namespace Sys2Proof.Machine

/-- A coherence attribute of R347. -/
inductive Coh where
  | dir | selfinv | unc
deriving DecidableEq, Repr, Inhabited

def cohOf (n : Nat) : Coh := if n = 1 then .selfinv else if n = 2 then .unc else .dir

/-- R283: a data write to a line of device memory: the writer (128 for EXT) joins PW, and CLEAN is 0. -/
def markWritten (st : Store) (who line : Nat) : Store :=
  if line < deviceEnd / 128 then
    match st.pw.find? fun p => p.1 == line with
    | some p => { st with pw := (line, insertNew who p.2) :: st.pw.filter fun q => q.1 != line }
    | none => { st with pw := (line, [who]) :: st.pw }
  else st

/-- R283: CLEAN is 1 exactly when PW is empty. -/
def isClean (st : Store) (line : Nat) : Bool := !(st.pw.any fun p => p.1 == line)

/-- A writer leaves PW. -/
def clearWriter (st : Store) (who line : Nat) : Store :=
  { st with pw := (st.pw.map fun p => if p.1 == line then (p.1, p.2.filter (· != who)) else p).filter fun p => p.2 != [] }

/-- The L2 slice of a line, over all dies: its home die and the slice within it (R273). -/
def sliceOf (line : Nat) : Nat :=
  let pa := 128 * line
  16 * homeDie pa + (field pa 7 4 ^^^ field pa 11 4 ^^^ field pa 15 4 ^^^ field pa 19 4)

/-- The lines that compete for the 16 ways of one set: a slice of 4 MiB has 2,048 sets (R273, L12). -/
def sameSet (a b : Nat) : Bool := sliceOf a == sliceOf b && Config.l2Set a % 2048 == Config.l2Set b % 2048

/-- A device line is brought into its L2 slice (R273). -/
def touchL2 (st : Store) (line : Nat) : Store :=
  if deviceEnd / 128 ≤ line || st.l2.contains line then st else { st with l2 := line :: st.l2, fresh := line :: st.fresh }

def touchAll (st : Store) (ls : List Nat) : Store := ls.foldl touchL2 st

def State.inL2 (s : State) (line : Nat) : Bool := s.store.l2.contains line

/-- The states the directory tracks. -/
def LineSt.isDir : LineSt → Bool
  | .s | .e | .m | .sp => true
  | _ => false

/-- A change of INUSE by the SP lines that leave it (R276). -/
def fixInuse (c : Core) : Core :=
  { c with csr := { c.csr with inuse := BitVec.ofNat 10 (c.mem.lines.filter fun l => l.st == .sp).length } }

/-- R276, R352: an invalidate: the data copies and the instruction copy of a directory line are dropped. -/
def dropLine (line : Nat) (c : Core) : Core :=
  fixInuse { c with mem := { c.mem with
    lines := c.mem.lines.filter fun l => !(l.line == line && l.st.isDir)
    stash := c.mem.stash.filter fun l => !(l.line == line && l.st.isDir)
    icache := c.mem.icache.filter (· != line)
    ttc := c.mem.ttc.filter (· != line) } }

/-- R276: a read by another party: E and M become S. -/
def downLine (line : Nat) (c : Core) : Core :=
  let f (l : CLine) : CLine := if l.line == line && (l.st == .e || l.st == .m) then { l with st := .s } else l
  { c with mem := { c.mem with lines := c.mem.lines.map f, stash := c.mem.stash.map f } }

def holdsLine (line : Nat) (c : Core) : Bool :=
  (c.mem.lines ++ c.mem.stash).any fun l => l.line == line && l.st.isDir

/-- The directory lists the core for a copy of any kind (R274, R352). -/
def listsLine (line : Nat) (c : Core) : Bool := holdsLine line c || c.mem.icache.contains line || c.mem.ttc.contains line

/-- R278: every other copy is invalidated before a write is performed; `keep` keeps its own data copy. -/
def State.invalidateOthers (s : State) (line : Nat) (keep : Option CoreId) : State :=
  s.mapCores fun c =>
    if some c.id == keep then { c with mem := { c.mem with icache := c.mem.icache.filter (· != line) } }
    else if listsLine line c then dropLine line c else c

def State.downgradeOthers (s : State) (line : Nat) (keep : Option CoreId) : State :=
  s.mapCores fun c => if some c.id == keep || !holdsLine line c then c else downLine line c

/-- A line is read at its home: E and M copies become S, and the host's copy is recalled (R276, R278, R286). -/
def State.readHome (s : State) (line : Nat) : State :=
  { s with store := { touchL2 s.store line with hostCopies := s.store.hostCopies.filter (· != line) } }.downgradeOthers line none

/-- A read at the home on behalf of the core in focus, whose own copy stays as it is: another core's E or M copy becomes S, and the
host's copy is recalled (R200, R276, R286). -/
def State.readFor (s : State) (line : Nat) : State :=
  { s with store := { touchL2 s.store line with hostCopies := s.store.hostCopies.filter (· != line) } }.downgradeOthers line (some s.core.id)

/-- R274: a line leaves the L2: every copy the directory tracks is recalled first, and the checker's record is lost. -/
def State.evictL2 (s : State) (line : Nat) : State :=
  let s := s.invalidateOthers line none
  { s with store := { s.store with
      l2 := s.store.l2.filter (· != line)
      hostCopies := s.store.hostCopies.filter (· != line)
      scopes := s.store.scopes.filter fun r => r.line != line } }

/-- Bytes written at the home of a line, by writer `who` (R278, R283); host copies are recalled (R286). -/
def State.homeWrite (s : State) (who pa : Nat) (bs : List Byte) : State :=
  let ls := linesOf pa bs.length
  let st := ls.foldl (fun st l => touchL2 (markWritten st who l) l) s.store
  { s with store := { st with bytes := wrBytes st.bytes pa bs
                              hostCopies := st.hostCopies.filter fun l => !ls.contains l
                              cleanHalves := st.cleanHalves.filter fun l => !ls.contains l
                              poison := st.poison.filter fun l => !(ls.contains l && pa ≤ 128 * l && 128 * l + 128 ≤ pa + bs.length) } }

/-! ### SELFINV lines (R279) -/

def bytesOfLine (d : BitVec 1024) : List Byte := toBytes 128 d.toNat
def lineOfBytes (bs : List Byte) : BitVec 1024 := BitVec.ofNat 1024 (ofBytes bs)

/-- The marked bytes of a dirty line, written to the home; a line marked whole is written whole (R292). -/
def State.writeBack (s : State) (who line : Nat) (d : BitVec 1024) (written : BitVec 128) : State :=
  let s := s.invalidateOthers line none
  if written = BitVec.allOnes 128 then s.homeWrite who (128 * line) (bytesOfLine d)
  else (ones 128 written.toNat).foldl (fun (s : State) i =>
    s.homeWrite who (128 * line + i) [BitVec.ofNat 8 (d.toNat / 256 ^ i)]) s

def firstWrite (l : CLine) : Nat :=
  match l.st with
  | .d _ _ _ f _ => f
  | _ => 0

def insertByWrite (k : CLine) : List CLine → List CLine
  | [] => [k]
  | l :: ls => if firstWrite k ≤ firstWrite l then k :: l :: ls else l :: insertByWrite k ls

/-- The dirty SELFINV lines of the core in focus, in store order. -/
def dirtyLines (c : Core) : List CLine :=
  ((c.mem.lines ++ c.mem.stash).filter fun l => match l.st with
    | .d _ _ _ _ _ => true
    | _ => false).foldr insertByWrite []

/-- A dirty line is written through and becomes V with the bytes it holds. -/
def State.flushLine (s : State) (l : CLine) : State :=
  match l.st with
  | .d d h w _ _ =>
    let s := s.writeBack s.core.id.val l.line d w
    let f (k : CLine) : CLine := if k.line == l.line && k.bank == l.bank then { k with st := .v d h } else k
    s.onCore fun c => { c with mem := { c.mem with lines := c.mem.lines.map f, stash := c.mem.stash.map f } }
  | _ => s

/-- R279: a release of cluster scope or wider writes every dirty line through, in store order. -/
def State.flushAll (s : State) : State := (dirtyLines s.core).foldl State.flushLine s

def dropV (l : CLine) : Option CLine :=
  match l.st with
  | .v _ _ => none
  | .d d h w f t => some { l with st := .d d (h &&& w) w f t }
  | _ => some l

/-- R279: an acquire of cluster scope or wider drops V lines, and of D lines all but the written bytes. -/
def acquireCore (c : Core) : Core :=
  { c with mem := { c.mem with lines := c.mem.lines.filterMap dropV, stash := c.mem.stash.filterMap dropV } }

def State.acquire (s : State) (scope : Nat) : State := if scope = 0 then s else s.onCore acquireCore
def State.release (s : State) (scope : Nat) : State := if scope = 0 then s else s.flushAll

/-- R201, R277: before an access is performed at the home, the core's SELFINV copy of the line is written through and
dropped. -/
def State.leaveLine (s : State) (line : Nat) : State :=
  let s := ((dirtyLines s.core).filter fun l => l.line == line).foldl State.flushLine s
  s.onCore fun c => { c with mem := { c.mem with
    lines := c.mem.lines.filter fun l => !(l.line == line && !l.st.isDir)
    stash := c.mem.stash.filter fun l => !(l.line == line && !l.st.isDir) } }

/-- The stash lines among some are recalled from the core in focus: what a dirty one has marked is written back (R263, R267, R287). -/
def State.recallStash (s : State) (p : CLine → Bool) : State :=
  let s := ((dirtyLines s.core).filter fun l => p l && s.core.mem.stash.contains l).foldl State.flushLine s
  s.onCore fun c => { c with mem := { c.mem with stash := c.mem.stash.filter fun l => !(p l) } }

/-! ### Ways and slots -/

/-- The eviction of a line from the core in focus (R262, R279). -/
def State.evict (s : State) (l : CLine) : State :=
  let s := match l.st with
    | .d _ _ _ _ last => ((dirtyLines s.core).filter fun k => firstWrite k ≤ last).foldl State.flushLine s
    | _ => s
  s.onCore fun c => fixInuse { c with mem := { c.mem with
    lines := c.mem.lines.filter fun k => !(k.line == l.line && k.bank == l.bank) } }

/-- The set of a line in the CACHE banks (R261). -/
def cacheSet (line : Nat) : Fin 512 := Fin.ofNat 512 line

/-- The bank that takes a fill of a line: a free way of its set, else the least recently used (R261, R262). -/
def fillBank (c : Core) (line : Nat) (ok : CLine → Bool) : Option (Nat × Option CLine) :=
  let ways := c.banksOf 0
  let held := c.mem.lines.filter fun l => l.slot == cacheSet line
  match ways.find? fun b => !(held.any fun l => l.bank.val == b) with
  | some b => some (b, none)
  | none => match (held.filter ok).getLast? with
    | some l => some (l.bank.val, some l)
    | none => none

/-- A slot of the stash: its bank, and its place in the bank. -/
abbrev StashSlot := Fin 32 × Fin 512

/-- The banks of the active stash window, and its first address; none where there is no window (R24). -/
def stashWindow (c : Core) : Option (Nat × List Nat) :=
  let m := c.csr.stashmap.toNat
  if m % 2 == 1 then some (field m 16 32 * 65536, c.banksOf 2) else none

/-- The stash slot that a linear address selects (R24, R266). -/
def stashSlot (c : Core) (va : Nat) : Option StashSlot :=
  match stashWindow c with
  | none => none
  | some (base, banks) =>
    if base ≤ va && va < base + 65536 * banks.length && ihOffset va == none then
      (banks[(va - base) / 65536]?).map fun b => (Fin.ofNat 32 b, Fin.ofNat 512 ((va - base) % 65536 / 128))
    else none

/-- The line put in its way or slot, as the most recently used; what a slot held before leaves it. -/
def State.install (s : State) (line : Nat) (slot : Option StashSlot) (st : LineSt) : State :=
  match slot with
  | some (b, n) =>
    let s := s.recallStash fun l => l.bank == b && l.slot == n && l.line != line
    s.onCore fun c => fixInuse { c with mem := { c.mem with
      lines := c.mem.lines.filter (·.line != line)
      stash := ⟨line, b, n, st⟩ :: c.mem.stash.filter (·.line != line) } }
  | none =>
    let s := s.onCore fun c => { c with mem := { c.mem with stash := c.mem.stash.filter (·.line != line) } }
    match s.core.mem.lines.find? (·.line == line) with
    | some l => s.onCore fun c => fixInuse { c with mem := { c.mem with
        lines := { l with st := st } :: c.mem.lines.filter (·.line != line) } }
    | none =>
      match fillBank s.core line fun _ => true with
      | none => s
      | some (b, v) =>
        let s := match v with
          | some l => s.evict l
          | none => s
        s.onCore fun c => fixInuse { c with mem := { c.mem with lines := ⟨line, Fin.ofNat 32 b, cacheSet line, st⟩ :: c.mem.lines } }

/-- How an access of the core in focus reaches a line: at its home, or through the core's CACHE or STASH banks. -/
inductive Via where
  | home
  | dir (slot : Option StashSlot)
  | selfinv (slot : Option StashSlot)
deriving DecidableEq, Repr, Inhabited

/-- The state of a line in the core's CACHE or STASH banks. -/
def lineStOf (c : Core) (line : Nat) : Option LineSt := ((c.mem.lines ++ c.mem.stash).find? (·.line == line)).map (·.st)

/-- R261, R262, R266, R280, R286: the way of an access; `slots` is false for copy engines, which use no stash and reach a stash line
at its home.  Host memory is held in a core through DIR pages only. -/
def viaOf (s : State) (coh : Coh) (va pa : Nat) (slots : Bool) : Via :=
  let stash := if slots then stashSlot s.core va else none
  let other := !slots && s.core.mem.stash.any fun l => l.line == pa / 128
  if coh == .unc || s.hostBiased pa || isReg pa || other || (isHost pa && coh != .dir) then .home
  else if stash == none && (s.core.banksOf 0).isEmpty then .home
  else if coh == .selfinv then .selfinv stash
  else .dir stash

/-- The bytes of a line with those of its home where it holds none. -/
def fillBytes (s : State) (line : Nat) (d : BitVec 1024) (h : BitVec 128) : BitVec 1024 :=
  lineOfBytes (List.zipWith (fun i (p : Byte × Byte) => if bit h.toNat i then p.1 else p.2) (List.range 128)
    (List.zip (bytesOfLine d) (rdBytes s.store.bytes (128 * line) 128)))

/-- What a load does to the line it reads (R276, R279 to R281). -/
def State.touchRead (s : State) (via : Via) (pa : Nat) : State :=
  let line := pa / 128
  match via with
  | .home => s.readHome line
  | .dir slot =>
    let s := s.leaveLine line
    let others := s.cores.any fun c => (c.id != s.core.id && holdsLine line c) || c.mem.icache.contains line
    let st : LineSt := match lineStOf s.core line with
      | some .m => .m
      | some .e => .e
      | some .s | some .sp => .s
      | _ => if others then .s else .e
    ({ s with store := touchL2 s.store line }.downgradeOthers line (some s.core.id)).install line slot st
  | .selfinv slot =>
    match lineStOf s.core line with
    | some (.v d h) => { s with store := touchL2 s.store line }.install line slot (.v (fillBytes s line d h) (BitVec.allOnes 128))
    | some (.d d h w f t) =>
      { s with store := touchL2 s.store line }.install line slot (.d (fillBytes s line d h) (BitVec.allOnes 128) w f t)
    | _ => (s.readHome line).install line slot (.v (fillBytes s line 0 0) (BitVec.allOnes 128))

/-- The bytes a load of the core in focus sees after `touchRead`; they lie in one line. -/
def State.seenBytes (s : State) (via : Via) (pa n : Nat) : List Byte :=
  let own (d : BitVec 1024) (h : BitVec 128) : List Byte := (List.range n).map fun i =>
    if bit h.toNat (pa % 128 + i) then BitVec.ofNat 8 (d.toNat / 256 ^ (pa % 128 + i)) else rd8 s.store.bytes (pa + i)
  match via, lineStOf s.core (pa / 128) with
  | .selfinv _, some (.v d h) => own d h
  | .selfinv _, some (.d d h _ _ _) => own d h
  | _, _ => rdBytes s.store.bytes pa n

/-- A word as the core in focus has it at its point of coherence: the bytes it has written in a dirty SELFINV line, and else those of
the home (R37, R231, R279). -/
def State.ownWord (s : State) (pa : Nat) : Nat :=
  match lineStOf s.core (pa / 128) with
  | some (.d d _ w _ _) => ofBytes ((List.range 8).map fun i =>
      if bit w.toNat (pa % 128 + i) then BitVec.ofNat 8 (d.toNat / 256 ^ (pa % 128 + i)) else rd8 s.store.bytes (pa + i))
  | _ => rdNat s.store.bytes pa 8

/-- A store of the core in focus, within one line (R276, R278, R279, R281). -/
def State.storeLine (s : State) (via : Via) (pa : Nat) (bs : List Byte) : State :=
  let line := pa / 128
  let me := s.core.id
  match via with
  | .home => (s.invalidateOthers line none).homeWrite me.val pa bs
  | .dir slot => (((s.leaveLine line).invalidateOthers line (some me)).homeWrite me.val pa bs).install line slot .m
  | .selfinv slot =>
    let mask := ofOnes ((List.range bs.length).map fun i => pa % 128 + i)
    let put (d : Nat) : Nat := ofBytes ((toBytes 128 d).take (pa % 128) ++ bs ++ (toBytes 128 d).drop (pa % 128 + bs.length))
    let n := s.nextId
    let s := { s with nextId := n + 1 }
    let dirty (d : BitVec 1024) (h w : BitVec 128) (first : Nat) : LineSt :=
      .d (BitVec.ofNat 1024 (put d.toNat)) (h ||| BitVec.ofNat 128 mask) (w ||| BitVec.ofNat 128 mask) first n
    match lineStOf s.core line with
    | some (.v d h) => s.install line slot (dirty d h 0 n)
    | some (.d d h w f _) => s.install line slot (dirty d h w f)
    | _ => s.install line slot (dirty 0 0 0 n)

/-! ### Pushes (R163, R276, R277, R282) -/

/-- R163: a refused line is counted. -/
def State.refuse (s : State) : State :=
  s.onCore fun c =>
    let n := if c.csr.refused = BitVec.allOnes 32 then c.csr.refused else c.csr.refused + 1
    { c with csr := { c.csr with refused := n } }

/-- A delivery of a pushed line to the core in focus; `stash` says whether the line lies in its stash window, where
every push is refused (R163, R235, R293, L72).  Elsewhere a receiver that holds the line keeps it (R277). -/
def State.deliver (s : State) (line : Nat) (stash : Bool) : State :=
  let c := s.core
  if stash then s.refuse
  else if holdsLine line c then s
  else if c.csr.quota.toNat ≤ c.csr.inuse.toNat then s.refuse
  else match fillBank c line fun l => l.st == .s || l.st == .e with
    | none => s.refuse
    | some (b, v) =>
      let s := match v with
        | some l => s.evict l
        | none => s
      (s.readHome line).onCore fun c =>
        fixInuse { c with mem := { c.mem with lines := ⟨line, Fin.ofNat 32 b, cacheSet line, .sp⟩ :: c.mem.lines } }

end Sys2Proof.Machine
end

