-- ==== Sys2Proof/Machine/Access.lean ====
section
/-! DEFINITION. Linear translation (R346 to R351, R365): page-table walks, the TLBs, and the checks an access makes of
its pages. -/

namespace Sys2Proof.Machine

/-- A walk's end: a translation, or the code of the fault it ends in (R348, R365). -/
inductive Walk where
  | ok (x : Xl)
  | fail (code : BitVec 8)
deriving DecidableEq, Repr, Inhabited

/-- The 8-byte entry of a table, where a walk of this world may read it. -/
def State.tableEntry (s : State) (sec : Bool) (pa : Nat) : Except (BitVec 8) Nat :=
  if !isDevice pa || (!sec && s.secureAddr pa) then .error 0x1A
  else if s.deadHome pa then .error 0x2D
  else if s.store.poison.contains (pa / 128) then .error 0x1F
  else .ok (rdNat s.store.bytes pa 8)

/-- A valid entry's fixed zeros (R347): [7:6], [55:52], COH not 3. -/
def entryOk (e : Nat) : Bool := e % 2 == 1 && field e 6 2 == 0 && field e 52 4 == 0 && field e 3 2 != 3

/-- A table entry of levels 0 to 2: W, X, COH, C64 and PS zero. -/
def tableOk (e : Nat) : Bool := entryOk e && field e 1 5 == 0 && !bit e 8

def leafXl (sec : Bool) (va size e : Nat) : Xl :=
  ⟨sec, va / size * size, size, field e 12 40 * 4096 / size * size, bit e 1, bit e 2, BitVec.ofNat 2 (field e 3 2)⟩

/-- R349: the 16 neighbours form a 64 KiB translation. -/
def State.group64 (s : State) (t idx e : Nat) : Bool :=
  (List.range 16).all fun i =>
    let n := rdNat s.store.bytes (t + 8 * (idx / 16 * 16 + i)) 8
    entryOk n && bit n 5 && !bit n 8 && field n 1 4 == field e 1 4 &&
      field n 12 40 == (field e 12 40) / 16 * 16 + i

/-- A walk of one world's space (R346 to R349). -/
def State.walk (s : State) (sec : Bool) (va : Nat) : Walk :=
  let root := (if sec then s.host.root1 else s.host.root0).toNat / 4096 * 4096
  let step (t lo : Nat) : Except (BitVec 8) Nat := s.tableEntry sec (t + 8 * field va lo 9)
  let r : Except (BitVec 8) Xl := do
    let e0 ← step root 39
    if !tableOk e0 then throw 0x1A
    let e1 ← step (field e0 12 40 * 4096) 30
    if !tableOk e1 then throw 0x1A
    let e2 ← step (field e1 12 40 * 4096) 21
    if bit e2 8 then
      if entryOk e2 && !bit e2 5 && field e2 12 9 == 0 then return leafXl sec va 2097152 e2 else throw 0x1A
    if !tableOk e2 then throw 0x1A
    let t := field e2 12 40 * 4096
    let e3 ← step t 12
    if !entryOk e3 || bit e3 8 then throw 0x1A
    if bit e3 5 && s.group64 t (field va 12 9) e3 then return leafXl sec va 65536 e3
    return leafXl sec va 4096 e3
  match r with
  | .ok x => .ok x
  | .error c => .fail c

/-- The lines a walk reads from a table on, level by level; a level that ends the walk is the last (R348). -/
def State.walkFrom (s : State) (sec : Bool) (va : Nat) : Nat → List Nat → List Nat
  | _, [] => []
  | t, lo :: l =>
    let pa := t + 8 * field va lo 9
    match s.tableEntry sec pa with
    | .error c => if c = 0x1F then [pa / 128] else []
    | .ok e => pa / 128 :: if tableOk e then s.walkFrom sec va (field e 12 40 * 4096) l else []

/-- The lines a walk reads, for their effect on the directory. -/
def State.walkLines (s : State) (sec : Bool) (va : Nat) : List Nat :=
  s.walkFrom sec va ((if sec then s.host.root1 else s.host.root0).toNat / 4096 * 4096) [39, 30, 21, 12]

/-- A translation that covers an address, in a list of them. -/
def findXl (l : List Xl) (sec : Bool) (va : Nat) : Option Xl :=
  l.find? fun x => x.space == sec && x.va ≤ va && va < x.va + x.size

def Core.tlbFind (c : Core) (sec : Bool) (va : Nat) : Option Xl := findXl c.mem.tlb sec va

/-- The physical address of a virtual address under a translation. -/
def Xl.paOf (x : Xl) (va : Nat) : Nat := x.pa + (va - x.va)

/-- What an access finds at an address (R351, R365). -/
inductive Probe where
  | ok (x : Xl)
  | walk
  | fault (code : BitVec 8)
deriving DecidableEq, Repr, Inhabited

/-- The checks of a data access under a translation. -/
def State.allows (s : State) (sec write : Bool) (va : Nat) (x : Xl) : Probe :=
  let pa := x.paOf va
  if !present pa || (!sec && s.secureAddr pa) then .fault 0x1A
  else if write && !x.w then .fault 0x1B
  else if s.hidden pa then .fault 0x1C
  else .ok x

/-- The checks of a data access of the core in focus in a world. -/
def State.probe (s : State) (sec write : Bool) (va : Nat) : Probe :=
  match s.core.tlbFind sec va with
  | some x => s.allows sec write va x
  | none =>
    match s.core.walkFails.find? fun f => f.1 == sec && f.2.1 == va / 4096 with
    | some f => .fault f.2.2
    | none => .walk

/-- PAGE_WALK's effect: the core TLB is filled from the shared TLB or by a walk, or the failure is kept for the
stalled access (R348, R350). -/
def State.doWalk (s : State) (sec : Bool) (va : Nat) : State :=
  let d := dieOf s.core.id
  let fill (s : State) (x : Xl) : State :=
    s.onCore fun c => { c with mem := { c.mem with tlb := (x :: c.mem.tlb).take 512 } }
  match findXl (vat s.stlb d) sec va with
  | some x => fill s x
  | none =>
    let r := s.walk sec va
    let s := (s.walkLines sec va).foldl State.readHome s
    match r with
    | .ok x => fill { s with stlb := vtab 4 fun i => if i = d then (x :: vat s.stlb i).take 16384 else vat s.stlb i } x
    | .fail code => s.onCore fun c => { c with walkFails := (sec, va / 4096, code) :: c.walkFails }

/-- The translation of an address in the space of the core in focus: as its TLB holds it, else as a walk finds it. -/
def State.mapping (s : State) (va : Nat) : Option Xl :=
  match s.core.tlbFind s.core.csr.sec va with
  | some x => some x
  | none => match s.walk s.core.csr.sec va with
    | .ok x => some x
    | .fail _ => none

/-- The line lies in the stash window of the core in focus (R24, R163). -/
def State.inStash (s : State) (line : Nat) : Bool :=
  match stashWindow s.core with
  | none => false
  | some (base, banks) => (List.range (16 * banks.length)).any fun i =>
      (stashSlot s.core (base + 4096 * i)).isSome && match s.mapping (base + 4096 * i) with
        | some x => x.paOf (base + 4096 * i) / 4096 == line / 32
        | none => false

/-- A translation of a listed access, by the page an address lies in. -/
def Lin.xl (l : Lin) (va : Nat) : Option Xl := findXl l.xs l.sec va

/-- The pieces of a byte range, cut at the lines. -/
def linePieces (va n : Nat) : List (Nat × Nat) :=
  (linesOf va n).map fun l =>
    let a := if 128 * l < va then va else 128 * l
    let b := if va + n < 128 * l + 128 then va + n else 128 * l + 128
    (a, b - a)

/-- The pages of 4 KiB of a byte range. -/
def pagesOf (va n : Nat) : List Nat :=
  if n = 0 then [] else (List.range ((va + n - 1) / 4096 - va / 4096 + 1)).map fun i => va / 4096 + i

/-- The page of an address has been changing its bias since a clock (R286). -/
def State.biasSince (s : State) (pa : Nat) : Option Nat :=
  match s.biasOf pa with
  | some (.toHost t _ _) | some (.toDevice t _ _) => some t
  | _ => none

/-- The first physical addresses of the pages of an access. -/
def Lin.pas (l : Lin) : List Nat := l.xs.map fun x => x.paOf (if x.va ≤ l.va then l.va else x.va)

/-- An access issued in a clock waits for a page whose bias was changing then; one already in flight goes on (R287, R288). -/
def State.linWaits (s : State) (l : Lin) (issue : Nat) : Bool :=
  l.pas.any fun pa => match s.biasSince pa with
    | some t => t ≤ issue
    | none => false

end Sys2Proof.Machine
end

