-- ==== Sys2Proof/Machine/Flags.lean ====
section
/-! DEFINITION. The first-event log FEVLOG (R26, R27), the landing of exact results at queues, registers and
predicates (R7, R15, R31, R33, R131), and the replay entries (R29, R35, R132). -/

namespace Sys2Proof.Machine

/-! ### FEVLOG -/

/-- The rank of R27: the bundle's issue clock, the slot, the lane or element. -/
abbrev FevRank := Nat × Nat × Nat

def rankLt (a b : FevRank) : Bool :=
  a.1 < b.1 || (a.1 == b.1 && (a.2.1 < b.2.1 || (a.2.1 == b.2.1 && a.2.2 < b.2.2)))

/-- FEVLOG's word for a record (R26). -/
def fevWord (cause : BitVec 2) (baddr : BitVec 48) (slot : Fin 8) : Word :=
  BitVec.ofNat 64 (1 + 2 * cause.toNat + baddr.toNat / 32 * 32 + slot.val * 2 ^ 48)

/-- fev(cause) of R39: a record is kept when none is held, or when it ranks before the one held (R27).  A record a
CSRW or a restore put there has no rank, and ranks before every result. -/
def offerFev (c : Csr) (rank : FevRank) (cause : BitVec 2) (baddr : BitVec 48) (slot : Fin 8) : Csr :=
  let take := { c with fevlog := fevWord cause baddr slot, fevRank := some rank }
  if c.fevlog.toNat % 2 = 0 then take
  else match c.fevRank with
    | some r => if rankLt rank r then take else c
    | none => c

/-! ### Queue modes (R7, R21) -/

def sMode (q : Word) (r : Nat) : Nat := field q.toNat (2 * r) 2
def vMode (q : Word) (r : Nat) : Nat := field q.toNat (32 + r) 1
/-- s0 and v0 have no mode (R8). -/
def sQueue (q : Word) (r : Fin 16) : Bool := r != 0 && sMode q r.val != 0
def vQueue (q : Word) (r : Fin 16) : Bool := r != 0 && vMode q r.val != 0
def sDepth (q : Word) (r : Nat) : Nat := if r = 0 then 1 else sMode q r + 1
def vDepth (q : Word) (r : Nat) : Nat := if r = 0 then 1 else vMode q r + 1

/-! ### Landing -/

/-- The lanes of a mask that no later-issued result of the same clock has written (R33). -/
def lanesLeft (mask : Word) (newer : List Word) : Word := newer.foldl (fun m o => m &&& ~~~o) mask

/-- A value reaches a destination, by register-mode write or push according to its mode (R7, R8, R15, R31, R131).  `newer` holds the
lanes of the later-issued results that have landed there in the same clock: a push goes before theirs, and a write leaves theirs
(R33). -/
def landVal (q : Word) (g : Regs) (d : Dest) (x : Val) (mask : Word) (newer : List Word) : Regs :=
  match d, x with
  | .s r, .w w =>
    if r = 0 then g
    else if sQueue q r then { g with s := g.s.set r (pushUnder (g.s.get r) w) }
    else if newer.isEmpty then { g with s := g.s.set r [w] } else g
  | .v r, .v v =>
    if r = 0 then g
    else if vQueue q r then { g with v := g.v.set r (pushUnder (g.v.get r) (vblend mask v VReg.zero)) }
    else { g with v := g.v.set r [vblend (lanesLeft mask newer) v ((g.v.get r).headD VReg.zero)] }
  | .a r, .w w => if newer.isEmpty then { g with a := g.a.set r w } else g
  | .p r, .w w =>
    let m := lanesLeft mask newer
    { g with p := g.p.set r ((w &&& m) ||| (g.p.get r &&& ~~~m)) }
  | _, _ => g
where
  pushUnder {α : Type} (l : List α) (x : α) : List α :=
    l.take (l.length - newer.length) ++ x :: l.drop (l.length - newer.length)

/-- A result of a bundle that issued in a clock lands in this one (R31, R33). -/
def landAs (c : Core) (clock issue : Nat) (d : Dest) (x : Val) (mask : Word) : Core :=
  let now := c.landed.filter (·.clock == clock)
  let newer := (now.filter fun l => l.dest == d && decide (issue < l.issue)).map (·.mask)
  { c with regs := landVal c.csr.qmode c.regs d x mask newer, landed := ⟨clock, d, issue, mask⟩ :: now }

/-- One result lands, with its record (R31, R128); a record alone writes nothing. -/
def landFlight (clock : Nat) (c : Core) (f : Flight) : Core :=
  let c := if f.record then c else landAs c clock f.issue f.dest f.val f.mask
  match f.fev with
  | some e => { c with csr := offerFev c.csr (f.issue, f.slot.val, e.lane) e.cause f.baddr f.slot }
  | none => c

/-- RESULT_LANDING: everything due lands, in issue order and within a bundle in slot order (R33). -/
def landDue (c : Core) (clock : Nat) : Core :=
  (c.flights.filter fun f => f.due ≤ clock).foldl (landFlight clock)
    { c with flights := c.flights.filter fun f => clock < f.due }

/-! ### Replay entries -/

def destKind : Dest → Nat × Nat
  | .s r => (0, r.val)
  | .v r => (1, r.val)
  | .p r => (2, r.val)
  | .a r => (3, r.val)

def payloadOf : Val → VReg
  | .v v => v
  | .w w => vlanes fun i => if i = 0 then BitVec.ofNat 32 w.toNat else if i = 1 then BitVec.ofNat 32 (w.toNat / 2 ^ 32) else 0

def wordOf (v : VReg) : Word := BitVec.ofNat 64 ((vlane v 0).toNat + 2 ^ 32 * (vlane v 1).toNat)

/-- Whether a destination is a queue. -/
def destQueue (q : Word) : Dest → Bool
  | .s r => sQueue q r
  | .v r => vQueue q r
  | _ => false

/-- The replay entry of a result with the clocks still due (R29). -/
def toReplay (q : Word) (f : Flight) (remain : Nat) : Replay :=
  let k := destKind f.dest
  ⟨BitVec.ofNat 64 (1 + 2 * k.1 + 16 * k.2 + (if destQueue q f.dest then 256 else 0) + 512 * f.slot.val + 4096 * (remain % 64)),
    payloadOf f.val, f.mask, f.issue⟩

/-- The result a valid entry holds, landing REMAIN clocks after a clock; KINDs 4 to 7 are discarded (R29), and so is KIND 2 with an
INDEX that names no predicate (L64). -/
def fromReplay (r : Replay) (clock : Nat) (baddr : BitVec 48) : Option Flight :=
  let w := r.word.toNat
  let i := field w 4 4
  let mk (d : Dest) (x : Val) : Option Flight :=
    some ⟨clock + field w 12 6, r.issue, Fin.ofNat 8 (field w 9 3), baddr, d, x, r.mask, none, false⟩
  if w % 2 = 0 then none
  else match field w 1 3 with
    | 0 => mk (.s (Fin.ofNat 16 i)) (.w (wordOf r.payload))
    | 1 => mk (.v (Fin.ofNat 16 i)) (.v r.payload)
    | 2 => if h : i < 12 then mk (.p ⟨i, h⟩) (.w (wordOf r.payload)) else none
    | 3 => mk (.a (Fin.ofNat 16 i)) (.w (wordOf r.payload))
    | _ => none

/-- The entries of the freeze put into the free places, the lowest first (R35). -/
def fillReplay : List Replay → List Replay → List Replay
  | old, [] => old
  | [], _ => []
  | o :: os, n :: ns => if o.word.toNat % 2 = 1 then o :: fillReplay os (n :: ns) else n :: fillReplay os ns

/-- R35: the results in flight become replay entries, with the clocks to their landing, `extra` added; their records stay in
flight and land at their own clocks (L19). -/
def freezeFlights (c : Core) (clock extra : Nat) : Core :=
  let go := c.flights.filter fun f => !f.record
  { c with
    csr := { c.csr with replay := vofList 24 (fillReplay c.csr.replay.toList
      (go.map fun f => toReplay c.csr.qmode f (f.due + extra - clock))) }
    flights := c.flights.filterMap fun f => if f.fev.isSome then some { f with record := true } else none }

end Sys2Proof.Machine
end

