-- ==== Sys2Proof/Machine/Ops.lean ====
section
/-! DEFINITION. Issuing a bundle (R5, R6, R9 to R12): the monad in which an operation gathers what its bundle will do,
the closing of a bundle (it stalls, takes a trap or commits), taking a trap (R337, R339) and returning from one
(R120), and the order of accesses (R37, R199, R233). -/

namespace Sys2Proof.Machine

abbrev Out := Host.Outcome State Fault Refusal

/-- An operation of the bundle being issued; it stops at its first condition, which the bundle keeps. -/
abbrev IssM := EStateM Unit State

def Issue.start (c : Core) (bend : Bool) : Issue where
  old := c
  bend := bend
  dests := []
  causes := []
  post := []
  stall := none
  lands := []
  ops := []
  curs := []
  qmode := none
  lwr := []
  banks := []
  copies := []
  posts := []
  scopes := []
  reads := []
  next := none
  swap := false
  newLoop := none
  csrw := none
  descs := []
  leave := none
  rft := false
  skip := 0
  newHolds := []
  newFetches := []
  closes := []
  tum := none
  arrive := none
  drain := none

def openBundle (s : State) (bend : Bool) : State := { s with iss := some (Issue.start s.core bend) }

/-- The bundle being issued; outside one, an empty bundle. -/
def State.issue (s : State) : Issue := s.iss.getD (Issue.start s.core false)

def modIss (f : Issue → Issue) : IssM Unit := modify fun s => { s with iss := s.iss.map f }
def modCore (f : Core → Core) : IssM Unit := modify fun s => { s with core := f s.core }
def getCore : IssM Core := return (← get).core
def getIss : IssM Issue := return (← get).issue

/-- trap(cause) of R39 for a slot: the condition is kept, and the operation ends. -/
def trapWith {α : Type} (c : Cause) : IssM α := do
  modIss fun i => { i with causes := i.causes ++ [c] }
  throw ()

def trapF {α : Type} (slot : Fin 8) (code detail : Nat) : IssM α :=
  trapWith ⟨BitVec.ofNat 8 code, BitVec.ofNat 48 detail, some slot, false, none, false⟩

/-- Checks of which every condition counts, so that the lowest decides (R337); the operation ends after them if one was met. -/
def checkAll : List (IssM Unit) → IssM Unit
  | [] => pure ()
  | a :: l => do
    let ok ← tryCatch (do a; pure true) fun _ => pure false
    checkAll l
    if !ok then throw ()

/-- A stall of R6: the whole bundle waits. -/
def stallFor {α : Type} (st : Stall) : IssM α := do
  modIss fun i => { i with stall := some (i.stall.getD st) }
  throw ()

def freshId : IssM Nat := modifyGet fun s => (s.nextId, { s with nextId := s.nextId + 1 })
def freshDraw : IssM Nat := modifyGet fun s => (s.draws, { s with draws := s.draws + 1 })

/-! ### Results -/

/-- land_at(t + lat, d, x) of R39. -/
def landAt (slot : Fin 8) (lat : Nat) (d : Dest) (x : Val) (mask : Word) (fev : Option Fev) : IssM Unit :=
  modify fun s => { s with iss := s.iss.map fun i => { i with lands := i.lands ++
    [⟨s.clock + lat, s.clock, slot, s.core.pc, d, x, mask, fev, false⟩] } }

def landS (slot : Fin 8) (lat : Nat) (d : Fin 16) (x : Word) : IssM Unit := landAt slot lat (.s d) (.w x) allOnes none
def landA (slot : Fin 8) (lat : Nat) (d : Fin 16) (x : Word) : IssM Unit := landAt slot lat (.a d) (.w x) allOnes none
def landP (slot : Fin 8) (lat : Nat) (d : PReg) (x : Word) : IssM Unit := landAt slot lat (.p d) (.w x) allOnes none

/-! ### Order among accesses -/

/-- The kinds whose access is a tensor or a linear one, and so takes part in class order; a local load has been
performed at its issue (R151). -/
def TokKind.ordered : TokKind → Bool
  | .local _ | .msync _ _ | .spawn _ | .irqh _ | .fence _ | .ended | .matrix none => false
  | _ => true

/-- An operation that takes one of the 2,048 entries of the request table (R3, L65): it reaches memory itself. -/
def TokKind.isRequest : TokKind → Bool
  | .local _ | .msync _ _ | .irqh _ | .fence _ | .pubc _ _ | .matrix _ | .ended => false
  | _ => true

/-- Entries of the request table that operations take; an MDRN takes none, and neither does the write-back of its rows (L65). -/
def requestsOf (l : List TokOp) : Nat := (l.filter fun o => o.slot != 3 && o.kind.isRequest).length

/-- The entries taken in the table of the core in focus: by its task, and by operations that saved tasks have left there (R325). -/
def State.requests (s : State) : Nat := requestsOf s.core.ops + requestsOf ((s.ghosts s.core.id).flatMap (·.ops))

/-- ORD of an atomic's control word (R201): 1 acquire, 2 release, 3 both. -/
def ordOf (ctl : BitVec 7) : Nat := field ctl.toNat 5 2

def TokKind.isAcquire : TokKind → Bool
  | .slda _ _ _ => true
  | .satom _ ctl _ _ _ => ordOf ctl % 2 == 1
  | .scas _ ctl _ _ _ _ => ordOf ctl % 2 == 1
  | .pubc _ _ => true
  | _ => false

/-- The linear access of an operation. -/
def TokKind.lin : TokKind → Option Lin
  | .sld a _ _ | .sst a _ _ | .slda a _ _ | .sstrl a _ _ | .satom a _ _ _ _ | .scas a _ _ _ _ _ | .sstp a _ _ | .vld a _ _
  | .vst a _ _ | .vldff a _ _ _ | .vstp a _ _ _ | .tbind _ _ a | .wset a _ | .spawn a => some a
  | _ => none

def Engine.ids (e : Engine) : List Nat := e.queue.map (·.id)
def Core.copyIds (c : Core) : List Nat := c.eng0.ids ++ c.eng1.ids

/-- What every later access waits for: acquires and publications (R199, R201, R234). -/
def acquireIds (c : Core) : List Nat := (c.ops.filter fun o => o.kind.isAcquire).map (·.id)

/-- The outstanding fences of a class (R233). -/
def fenceIds (c : Core) (cls : Nat) : List Nat := (c.ops.filter fun o => match o.kind with
  | .fence m => bit m.toNat cls
  | _ => false).map (·.id)

/-- An operation is an access of a class (R37); a streamed matrix operation reads in the classes of both its operands. -/
def TokOp.inClass (o : TokOp) (cls : Nat) : Bool :=
  o.kind.ordered && (o.cls.toNat == cls || match o.kind with
    | .matrix (some b) => b.toNat == cls
    | _ => false)

/-- What an access of a class waits for: earlier accesses of the class, acquires, and fences (R37, R199, R233). -/
def classAfter (c : Core) (cls : Nat) : List Nat :=
  (c.ops.filter fun o => o.inClass cls).map (·.id) ++ acquireIds c ++
    fenceIds c cls

def CopyKind.isPush : CopyKind → Bool
  | .cpush _ _ _ => true
  | _ => false

/-- What a release waits for: every access the slots issued, and every push (R164, R199). -/
def releaseAfter (c : Core) : List Nat :=
  (c.ops.filter fun o => match o.kind with
    | .msync _ _ | .matrix none | .ended => false
    | _ => true).map (·.id) ++ ((c.eng0.queue ++ c.eng1.queue).filter fun k => k.kind.isPush).map (·.id)

/-- The repetitions of a matrix operation that are left are all held (R172): nothing waits for them. -/
def Core.heldMatrix (c : Core) (id : Nat) : Bool := c.mx.ops.any fun m => m.id == id && m.held && m.run.isEmpty

/-- An operation is not performed yet. -/
def Core.isOpen (c : Core) (id : Nat) : Bool :=
  c.ops.any (fun o => o.id == id && o.kind != .ended && !c.heldMatrix id) || (c.copyIds).contains id

def Core.settled (c : Core) (after : List Nat) : Bool := after.all fun i => !c.isOpen i

/-- The operations of a core are performed, those of its saved tasks among them (R325). -/
def State.settledAt (s : State) (c : CoreId) (after : List Nat) : Bool :=
  (s.coreAt c).settled after && (s.ghosts c).all fun g => g.settled after

/-- ORDERING CLASS of an address (R14). -/
def classOf (a : Word) : Nat := field a.toNat 60 4
def vaOf (a : Word) : Nat := a.toNat % 2 ^ 48

/-! ### Token-guarded operations -/

/-- Operations counted on a token by this bundle. -/
def Issue.counted (i : Issue) (k : Tok) : Nat :=
  (i.ops.filter fun o => o.k == some k).length + (i.copies.filter fun p => p.2.k == k).length

/-- R16: an operation that would raise its token's count above 2,048 stalls. -/
def tokenRoom (k : Tok) : IssM Unit := do
  let s ← get
  if 2048 ≤ (s.core.regs.k.get k).count + s.issue.counted k then stallFor .tokenFull

/-- An operation joins the outstanding ones, with an error it is already known to end in (R16, R32); a full token or
a full request table stalls (R6). -/
def issueErr (slot : Fin 8) (k : Option Tok) (cls : Nat) (after : List Nat) (kind : TokKind) (err : Option Err) : IssM Nat := do
  let s ← get
  let i := s.issue
  match k with
  | some t => tokenRoom t
  | none => pure ()
  if kind.isRequest && 2048 ≤ s.requests + requestsOf i.ops then stallFor .tokenFull
  let id ← freshId
  let n ← freshDraw
  modIss fun i => { i with ops := i.ops ++
    [⟨id, n, s.clock, slot, s.core.pc, k, BitVec.ofNat 4 cls, s.core.csr.sec, after, err, kind⟩] }
  return id

def issueTok (slot : Fin 8) (k : Option Tok) (cls : Nat) (after : List Nat) (kind : TokKind) : IssM Nat :=
  issueErr slot k cls after kind none

/-- A held access without a token, of a line if it has one: the bundle stalls until ACCESS_PERFORMED (R192, R200, R226).  A link that
failed meanwhile may have left the containment error (R290). -/
def holdFor (slot : Fin 8) (after : List Nat) (line : Option Nat) : IssM Unit := do
  let c ← getCore
  match c.holds.find? fun h => h.slot == slot with
  | some h =>
    if h.done then
      match h.err with
      | some e => trapF slot e.code.toNat e.detail.toNat
      | none => pure ()
    else stallFor .hold
  | none =>
    let id ← freshId
    let n ← freshDraw
    let t := (← get).clock
    modIss fun i => { i with newHolds := i.newHolds ++ [⟨id, n, t, slot, after, false, line, none⟩] }
    stallFor .hold

/-! ### The matrix unit at a freeze (R172) -/

def holdMatrix (m : Matrix) (clock extra : Nat) : Matrix :=
  { m with
    ops := m.ops.map fun o =>
      if o.next < o.reps && !o.held then { o with prior := true, held := true, nextAt := max 1 (o.nextAt + extra - clock) }
      else { o with prior := true }
    loads := m.loads.map fun l => if l.held then l else { l with held := true, due := max 1 (l.due + extra - clock) } }

def resumeMatrix (m : Matrix) (clock : Nat) : Matrix :=
  { m with
    ops := m.ops.map fun o =>
      if o.held then { o with prior := false, held := false, nextAt := clock + o.nextAt } else { o with prior := false }
    loads := m.loads.map fun l => if l.held then { l with held := false, due := clock + l.due } else l }

/-! ### Taking a trap -/

/-- The key of R337: group, then slot with the header lowest, then code.  A claim violation that a fetch meets is of group 1
(R336). -/
def causeGroup (c : Cause) : Nat :=
  if c.fetch && c.code == 0x14 then 1
  else match c.code.toNat with
  | 0x08 | 0x09 | 0x0A => 1
  | 0x10 => 2
  | 0x11 | 0x12 | 0x13 | 0x1D | 0x1E | 0x20 | 0x25 | 0x2A => 3
  | 0x14 | 0x18 | 0x19 | 0x21 | 0x22 | 0x26 | 0x27 | 0x28 | 0x29 => 4
  | 0x1A | 0x1B | 0x1C => 5
  | 0x1F | 0x23 | 0x24 | 0x2B | 0x2C | 0x2D => 6
  | _ => 7

def causeSlot (c : Cause) : Nat := if c.hdr then 0 else match c.slot with
  | some s => s.val + 1
  | none => 0

def causeLt (a b : Cause) : Bool :=
  let ga := causeGroup a
  let gb := causeGroup b
  ga < gb || (ga == gb && (causeSlot a < causeSlot b || (causeSlot a == causeSlot b && a.code.toNat < b.code.toNat)))

/-- The bundle's cause (R337): the least one, the first met on a tie. -/
def chooseCause : List Cause → Option Cause
  | [] => none
  | c :: cs => match chooseCause cs with
    | none => some c
    | some d => if causeLt d c then some d else some c

def trapCauseWord (c : Cause) : Word :=
  let tok := match c.wait with
    | some (.token k) => k.val
    | _ => 0
  BitVec.ofNat 64 (c.code.toNat + (if c.wait.isSome then 256 else 0) + 512 * tok + 65536 * c.detail.toNat)

/-- Delivery of an error status consumes it (R228, R230). -/
def deliverWait (c : Core) : Option WaitSrc → Core
  | some (.token k) => { c with regs := { c.regs with k := c.regs.k.set k { c.regs.k.get k with err := none } } }
  | some (.engine e) =>
    let f (g : Engine) : Engine := { g with acc := BStat.ok }
    if e then { c with eng1 := f c.eng1 } else { c with eng0 := f c.eng0 }
  | _ => c

/-- R35, R114, R172: the freeze in a clock; `extra` is 1 where the bundle of that clock did not commit and issues again after the
return, so that every result keeps its distance to it (L10).  A drain of R263 that the bundle waited for is given up with it. -/
def freezeCore (c : Core) (clock extra : Nat) : Core :=
  let c := freezeFlights c clock extra
  { c with mx := holdMatrix c.mx clock extra, draining := 0 }

/-- R114: the loop state goes to the shadow, and no loop is active and no level pending. -/
def shadowLoop (c : Core) : Core :=
  { c with shadow := some c.loopSt, loopSt := { c.loopSt with levels := [], pending := [], dead := false, body := [], pos := 0, swap := none } }

/-- Trap entry (R339, R121, R338) for a cause at an address; `extra` as in `freezeCore`.  After a double trap the exact results land
(R121, L59). -/
def enterTrap (s : State) (c : Cause) (pc : BitVec 48) (extra : Nat) : State :=
  let slot := match c.slot, c.hdr with
    | some k, false => k.val
    | _, _ => (Config.freeSlot s.draws).toNat
  let core := deliverWait s.core c.wait
  let csr := { core.csr with
    trapcause := trapCauseWord c
    trapslot := BitVec.ofNat 64 (slot + (if c.hdr then 8 else 0))
    trappc := BitVec.ofNat 64 (pc.toNat / 32 * 32) }
  let core := { core with csr := csr, stall := none, waited := 0, bankWait := 0, walkFails := [], holds := [], issued := true, draining := 0 }
  let s := { s with iss := none, draws := s.draws + 1 }
  if core.inHandler then
    { s with core := { shadowLoop core with trapHalt := true, stat := .leaving (.halt 0x50 0), pc := pc } }
  else
    let core := shadowLoop (freezeCore core s.clock extra)
    if core.csr.trapvec.toNat % 2 = 0 then
      { s with core := { core with trapHalt := true, stat := .leaving (.halt 0x52 core.csr.trapcause), pc := pc } }
    else
      { s with core := { core with
          inHandler := true
          kept := core.arrived.map fun l => (l, core.released)
          arrived := none
          released := false
          pc := BitVec.ofNat 48 (core.csr.trapvec.toNat / 32 * 32)
          readyAt := s.clock + 2 } }

/-- R217: the open batch is closed; an empty one stays open. -/
def closeBatch (e : Engine) : Engine :=
  if e.open_.ids.isEmpty then e else { e with closed := e.closed ++ [e.open_], open_ := Batch.empty }

def closeOn (c : Core) (e : Bool) : Core :=
  if e then { c with eng1 := closeBatch c.eng1 } else { c with eng0 := closeBatch c.eng0 }

/-- A precise fault or an error status of the bundle at pc: the core as it was before the bundle takes the trap; a batch that its
CBWAIT closed stays closed (R230). -/
def takeFault (s : State) (c : Cause) : State :=
  let old := s.issue.closes.foldl closeOn s.issue.old
  enterTrap { s with core := old } c old.pc 1

/-! ### Returning from a trap (R120) -/

/-- The entries a queue holds. -/
def occupancy (c : Core) : DName → Nat
  | .s r => (c.regs.s.get r).length
  | .v r => (c.regs.v.get r).length
  | _ => 0

def Dest.name : Dest → DName
  | .s r => .s r
  | .v r => .v r
  | .a r => .a r
  | .p r => .p r

/-- The register results an outstanding operation will land. -/
def TokKind.dests : TokKind → List DName
  | .sld _ _ d | .slda _ _ d | .satom _ _ _ _ d | .scas _ _ _ _ _ d | .tqry _ d => [.s d]
  | .vld _ _ d | .vldt _ _ _ d => [.v d]
  | .vldff _ _ d p => [.v d, .p p]
  | .pinned d _ _ _ => [.v d]
  | .local l => l.map fun x => x.1.name
  | _ => []

/-- Results in flight to a destination (R10): fixed-latency and token-guarded alike. -/
def inFlightTo (c : Core) (d : DName) : Nat :=
  (c.flights.filter fun f => !f.record && f.dest.name == d).length +
    (c.ops.filter fun o => o.kind.dests.contains d).length

/-- A PUSH entry that would raise its queue's reservation above the depth (R10, R120). -/
def replayOverflows (c : Core) (fs : List Flight) : Bool :=
  fs.any fun f =>
    let n := inFlightTo c f.dest.name + (fs.filter fun g => g.dest == f.dest).length
    match f.dest with
    | .s r => sQueue c.csr.qmode r && sDepth c.csr.qmode r.val < occupancy c (.s r) + n
    | .v r => vQueue c.csr.qmode r && vDepth c.csr.qmode r.val < occupancy c (.v r) + n
    | _ => false

/-- R120 steps 3 to 6, in the RFT clock: TRAPPC, the shadow loop state, the replay entries, the held matrix
work.  With no loop state in the shadow the one that runs stays (L83). -/
def resumeAt (s : State) : State :=
  let c := s.core
  let pc := BitVec.ofNat 48 c.csr.trappc.toNat
  let fs := c.csr.replay.toList.filterMap fun r => fromReplay r s.clock pc
  let csr := { c.csr with replay := vtab 24 fun i =>
    let r := vat c.csr.replay i
    { r with word := BitVec.ofNat 64 (r.word.toNat / 2 * 2) } }
  let c' := { c with
    csr := csr, returning := false, inHandler := false, resumed := true, pc := pc, readyAt := s.clock + 1
    loopSt := c.shadow.getD c.loopSt
    shadow := none
    arrived := c.kept.map (·.1)
    released := (c.kept.map (·.2)).getD false
    kept := none
    flights := c.flights ++ fs
    mx := resumeMatrix c.mx s.clock }
  if replayOverflows c fs then { s with core := { c with returning := false, stat := .leaving (.halt 0x50 0) } }
  else { s with core := c' }

/-- R34: the exact results in flight. -/
def liveFlights (l : List Flight) : Nat := (l.filter fun f => !f.record).length

/-- Exact results of the matrix unit and scale loads that no freeze holds are still to come (R31, R169, R193). -/
def exactMatrix (m : Matrix) : Bool := m.ops.any (fun o => o.k.isNone && !o.held) || m.loads.any fun l => !l.held

/-- Every exact result has landed. -/
def exactDone (c : Core) : Bool := liveFlights c.flights == 0 && !exactMatrix c.mx

/-- Exact results of the matrix unit issued since the last freeze are still to come. -/
def exactSince (m : Matrix) : Bool := m.ops.any (fun o => o.k.isNone && !o.held && !o.prior) || m.loads.any fun l => !l.held

/-- R120 step 2: the return is made once every exact result issued since the trap has landed. -/
def returnDue (c : Core) : Bool := c.returning && liveFlights c.flights == 0 && !exactSince c.mx

def finishReturn (s : State) : State := if returnDue s.core then resumeAt s else s

/-! ### Committing a bundle -/

def isQueue (q : Word) : DName → Bool
  | .s r => sQueue q r
  | .v r => vQueue q r
  | _ => false

def depthOf (q : Word) : DName → Nat
  | .s r => sDepth q r.val
  | .v r => vDepth q r.val
  | _ => 1

/-- The mode field of a queue differs between two values of QMODE (R12). -/
def fieldChanged (q q' : Word) : DName → Bool
  | .s r => sMode q r.val != sMode q' r.val
  | .v r => vMode q r.val != vMode q' r.val
  | _ => false

/-- DETAIL of the queue traps (R336). -/
def queueDetail : DName → Nat
  | .s r => r.val
  | .v r => 16 + r.val
  | _ => 0

/-- R10's overflow conditions, under the mode the bundle leaves (R12), removals taken first. -/
def overflowCauses (c : Core) (q : Word) : List (Fin 8 × DName) → List DName → List Cause
  | [], _ => []
  | (slot, d) :: l, seen =>
    let occ := if fieldChanged c.csr.qmode q d then 0 else occupancy c d
    let res := occ + inFlightTo c d + (seen.filter (· == d)).length
    if isQueue q d && depthOf q d < res + 1 then
      ⟨0x12, BitVec.ofNat 48 (queueDetail d), some slot, false, none, false⟩ :: overflowCauses c q l (d :: seen)
    else overflowCauses c q l (d :: seen)

/-- R152: the greatest cost of a bank. -/
def bankCost (l : List (Nat × Bool × Nat)) : Nat :=
  let ds := insertAll l []
  ((List.range 32).map fun n => (ds.filter fun x => x.1 == n).length).foldl max 0

/-- The stalls that the bundle as a whole meets: QMODE (R12), the banks (R152), the limit of 24 (R34). -/
def lateStall (s : State) (i : Issue) : Option Stall :=
  let c := s.core
  let changing (d : DName) : Bool := match i.qmode with
    | some q => fieldChanged c.csr.qmode q d && inFlightTo c d != 0
    | none => false
  if (List.range 16).any fun r => changing (.s (Fin.ofNat 16 r)) || changing (.v (Fin.ofNat 16 r)) then some .queueDrain
  else if c.bankWait + 1 < bankCost i.banks then some .bank
  else if 24 < liveFlights (c.flights ++ i.lands) then some .inflight
  else none

/-- The architectural waits of R308. -/
def Stall.isWait : Stall → Bool
  | .waitk _ | .waitb _ _ | .cbwait _ _ | .waitmon | .ssync _ => true
  | _ => false

def Core.waiting (c : Core) : Bool := match c.stall with
  | some st => st.isWait
  | none => false

/-- A stalled bundle: nothing commits but what the stall itself leaves behind (R6, R221, R230, R232); an SSYNC that arrives
writes its SELFINV lines through (R279). -/
def stallBundle (s : State) (st : Stall) : State :=
  let i := s.issue
  let c := i.closes.foldl closeOn i.old
  let s := { s with
    iss := none
    draws := s.draws + 1
    core := { c with
      issued := true
      stall := some st
      waited := if st.isWait then c.waited + 1 else 0
      bankWait := if st == .bank then c.bankWait + 1 else c.bankWait
      holds := c.holds ++ i.newHolds
      fetches := c.fetches ++ i.newFetches
      tum := i.tum.getD c.tum
      arrived := if i.arrive.isSome then i.arrive else c.arrived
      draining := i.drain.getD c.draining } }
  if i.arrive.isSome then s.flushAll else s

/-- R12: changed queues are emptied. -/
def setQmode (c : Core) (q : Word) : Core :=
  { c with
    csr := { c.csr with qmode := q }
    regs := { c.regs with
      s := vtab 16 fun r => if sMode c.csr.qmode r != sMode q r then [] else vat c.regs.s r
      v := vtab 16 fun r => if vMode c.csr.qmode r != vMode q r then [] else vat c.regs.v r } }

/-- R156, R182, R225, R226: a cursor's coordinate changes modulo 2^32; a policy field or a codebook of the copy changes. -/
def applyCur (g : Regs) (u : CurUpd) : Regs :=
  let upd (h : Fin 16) (f : Handle → Handle) : Regs := { g with h := g.h.set h ((g.h.get h).map f) }
  match u with
  | .add h d n => upd h fun x => { x with cursor := x.cursor.set d (x.cursor.get d + n) }
  | .set h d n => upd h fun x => { x with cursor := x.cursor.set d n }
  | .desc h lo n v => upd h fun x => { x with desc := BitVec.ofNat 1024 (setField x.desc.toNat lo n v) }

/-- A token counts the operations issued under it (R16). -/
def countTok (g : Regs) (k : Tok) : Regs :=
  { g with k := g.k.set k { g.k.get k with count := (g.k.get k).count + 1 } }

/-- R203: a copy takes an entry and joins its engine's open batch. -/
def addCopy (e : Engine) (k : Copy) : Engine :=
  { e with queue := e.queue ++ [k]
           open_ := { e.open_ with ids := e.open_.ids ++ [k.id], pend := e.open_.pend ++ [k.id] }
           since := e.since ++ [k.id] }

def commitCopy (c : Core) (p : Bool × Copy) : Core :=
  let c := { c with regs := countTok c.regs p.2.k }
  if p.1 then { c with eng1 := addCopy c.eng1 p.2 } else { c with eng0 := addCopy c.eng0 p.2 }

/-- The position in the body of an active loop; none where the program counter lies outside it, as RFT may leave it (R114, R120,
L41). -/
def LoopState.posOf (l : LoopState) (pc : BitVec 48) : Option Nat :=
  let k := (pc.toNat - l.start.toNat) / 32
  if !l.levels.isEmpty && l.start.toNat ≤ pc.toNat && k < l.body.length then some k else none

/-- The loop after a bundle of its body (R117): the address, the state, and the clock of the next bundle follow. -/
def loopNext (l : LoopState) (pc : BitVec 48) : LoopState × BitVec 48 :=
  match l.posOf pc with
  | none => (l, pc + 32)
  | some k =>
  if k + 1 < l.body.length then ({ l with pos := k + 1 }, pc + 32)
  else
    match l.levels.findIdx? fun n => 1 < (l.n.get n).toNat with
    | none =>
      ({ l with n := l.levels.foldl (fun v (k : NReg) => v.set k 0) l.n, levels := [], body := [], pos := 0 }, pc + 32)
    | some i =>
      let k : NReg := l.levels.getD i 0
      let n := (l.levels.take i).foldl (fun v (j : NReg) => v.set j (l.reload.get j)) (l.n.set k (l.n.get k - 1))
      ({ l with n := n, pos := 0 }, l.start)

/-- Where the next bundle stands after this one commits (R110, R117, R118). -/
def advancePc (c : Core) (i : Issue) (clock : Nat) : Core :=
  match i.next with
  | some t =>
    { c with pc := t, readyAt := clock + 2
             loopSt := { c.loopSt with levels := [], pending := [], dead := false, body := [], pos := 0
                                       swap := if i.swap then some t else none } }
  | none =>
    match i.newLoop with
    | some l =>
      if i.skip = 0 then { c with loopSt := l, pc := l.start, readyAt := clock + 1 }
      else { c with loopSt := l, pc := c.pc + 32 + BitVec.ofNat 48 (32 * i.skip), readyAt := clock + 1 + i.skip }
    | none =>
      let n := loopNext c.loopSt c.pc
      { c with loopSt := n.1, pc := n.2, readyAt := clock + 1 }

/-! ### Writes of BANKROLE and STASHMAP (R263, R268) -/

def dropStash (s : State) : State := s.recallStash fun _ => true

def changedBanks (a b : Word) : List Nat := (List.range 32).filter fun n => roleOf a n != roleOf b n

/-- The newest staged tiles that fit in a number of bytes (L55). -/
def newestFit (cap : Nat) : Nat → List Staged → List Staged
  | _, [] => []
  | used, t :: l => if used + t.bytes ≤ cap then t :: newestFit cap (used + t.bytes) l else []

/-- The drain's effect when it ends, and the new roles; the tiles of OPBUF banks that keep their role stay. -/
def applyBankrole (s : State) (w : Word) : State :=
  let old := s.core.csr.bankrole
  let ch := changedBanks old w
  let left (r : Nat) : List Nat := ch.filter fun n => roleOf old n == r
  let enter := ch.filter fun n => roleOf w n == 1
  let s := ((dirtyLines s.core).filter fun l => (left 0).contains l.bank.val).foldl State.flushLine s
  let s := s.onCore fun c => fixInuse { c with mem := { c.mem with
    lines := c.mem.lines.filter fun l => !(left 0).contains l.bank.val } }
  let s := if (left 2).isEmpty then s else dropStash s
  let stay := (List.range 32).filter fun n => roleOf old n == 3 && roleOf w n == 3
  let s := if (left 3).isEmpty then s
    else s.onCore fun c => { c with mem := { c.mem with opbuf := newestFit (65536 * stay.length) 0 c.mem.opbuf } }
  s.onCore fun c => { c with
    draining := 0
    csr := { c.csr with bankrole := w }
    mem := { c.mem with
      sram := c.mem.sram.filter fun p => !enter.contains (p.1 / 65536)
      badWords := c.mem.badWords.filter fun n => !enter.contains (n / 8192) } }

/-- The CSRWs whose effect reaches beyond the core's registers. -/
def applyCsrw (s : State) (w : BitVec 10 × Word) : State :=
  if w.1 = 0x003 then applyBankrole s w.2
  else if w.1 = 0x004 then
    (dropStash s).onCore fun c => { c with csr := { c.csr with stashmap := w.2 &&& 0x0000FFFFFFFF0001 } }
  else s.onCore fun c => { c with csr := { c.csr with sec := w.2.toNat % 2 == 1 } }

/-- Bytes a slot writes through a translated access: the line, PW and the lines a publication will cover. -/
def State.storeBytes (s : State) (l : Lin) (va : Nat) (bs : List Byte) : State :=
  match l.xl va with
  | none => s
  | some x =>
    let pa := x.paOf va
    let s := s.storeLine (viaOf s (cohOf x.coh.toNat) va pa true) pa bs
    s.onCore fun c => { c with wrote := insertNew (.mem (pa / 128)) c.wrote }

/-- R226: policy fields of the descriptor, written at its point of coherence: from bit `lo`, n bits. -/
def applyDesc (s : State) (d : Lin × Nat × Nat × Nat) : State :=
  match d.1.xl d.1.va with
  | none => s
  | some x =>
    let pa := x.paOf d.1.va
    let line := pa / 128
    let s := (s.leaveLine line).invalidateOthers line none
    let lo := d.2.1
    let a := pa + lo / 8
    let b := setField (rd8 s.store.bytes a).toNat (lo % 8) d.2.2.1 d.2.2.2
    (s.homeWrite s.core.id.val a [BitVec.ofNat 8 b]).onCore fun c => { c with wrote := insertNew (.mem line) c.wrote }

/-- R229: the poison trap is taken after the wait's predicate has landed (L36). -/
def landPoison (s : State) : State :=
  let now (f : Flight) : Bool := f.issue == s.clock && f.slot == 6 && match f.dest with
    | .p _ => true
    | _ => false
  let c := s.core
  { s with core := (c.flights.filter now).foldl (landFlight s.clock) { c with flights := c.flights.filter fun f => !now f } }

/-- A bundle without conditions commits: its results are in flight, its operations outstanding, and the next
bundle's place is known. -/
def commitBundle (s : State) : State :=
  let i := s.issue
  let c := s.core
  let c := match i.qmode with
    | some q => setQmode c q
    | none => c
  let regs := (i.ops.filterMap (·.k)).foldl countTok (i.curs.foldl applyCur c.regs)
  let c := { c with
    regs := regs
    flights := c.flights ++ i.lands
    ops := c.ops ++ i.ops
    mem := { c.mem with sram := i.lwr.foldl (fun m w => wrBytes m w.off w.bytes) c.mem.sram }
    stall := none, waited := 0, bankWait := 0, walkFails := [], holds := [], arrived := none, released := false
    issued := true, resumed := false }
  let c := i.copies.foldl commitCopy c
  let c := advancePc c i s.clock
  let c := { c with returning := i.rft }
  let c := match i.leave with
    | some why =>
      if why == .yield then { freezeCore c s.clock 0 with stat := .leaving why }
      else { c with stat := .leaving why, loopSt := { c.loopSt with pending := [], dead := false } }
    | none => c
  let s := { s with iss := none, core := c, posts := s.posts ++ i.posts
                    store := { s.store with scopes := i.scopes ++ s.store.scopes.filter fun r => !(i.scopes.any fun k => k.line == r.line) } }
  let s := i.reads.foldl State.readFor s
  let s := i.lwr.foldl (fun (s : State) w => s.touchBars s.core.id w.off w.bytes.length) s
  let s := i.descs.foldl applyDesc s
  let s := match i.csrw with
    | some w => applyCsrw s w
    | none => s
  let s := finishReturn s
  match chooseCause i.post with
  | some k => enterTrap (if k.code = 0x30 then landPoison s else s) k s.core.pc 0
  | none => s

/-- The end of issue: the bundle stalls, takes its trap, or commits (R6, R10, R337). -/
def closeBundle (s : State) : State :=
  let i := s.issue
  match i.stall with
  | some st => stallBundle s st
  | none =>
    match lateStall s i with
    | some st => stallBundle s st
    | none =>
      match chooseCause (i.causes ++ overflowCauses s.core (i.qmode.getD s.core.csr.qmode) i.dests []) with
      | some c => takeFault s c
      | none => commitBundle s

/-! ### Guards and the frame of every slot operation -/

/-- The guard of the S, M, C, K and X slots (R15). -/
def guardOn (c : Core) (g : Guard) : Bool := if h : g.val = 0 then true else bit (c.regs.p.get ⟨g.val - 1, by omega⟩).toNat 0

/-- The predicate of a vector operation: all lanes for G = 0 (R131). -/
def activeMask (c : Core) (g : Guard) : Word := if h : g.val = 0 then allOnes else c.regs.p.get ⟨g.val - 1, by omega⟩

/-- The guard of the V slots (R15). -/
def vguardOn (c : Core) (g : Guard) : Bool := activeMask c g != 0

/-- An enabled operation runs in its slot; a guarded-off one does nothing (R11). -/
def issueOp (i : Instr) (slot : Fin 8) (on : Core → Bool) (body : IssM Unit) (s : State) : State :=
  if on s.core then
    let s := { s with iss := s.iss.map fun k => { k with dests := k.dests ++ i.dests.map fun d => (slot, d) } }
    match body s with
    | .ok _ s => s
    | .error _ s => s
  else s

/-- The meaning of a slot operation: within a bundle it adds to it; alone it is the bundle's only operation. -/
def runOp (i : Instr) (slot : Fin 8) (on : Core → Bool) (body : IssM Unit) (s : State) : Out :=
  match s.iss with
  | some _ => .next (issueOp i slot on body s)
  | none => .next (closeBundle (issueOp i slot on body (openBundle s false)))

end Sys2Proof.Machine
end

