-- ==== Sys2Proof/Machine/Pool.lean ====
section
/-! DEFINITION. The task pools' questions: which core a task may take and which ready task comes first (R298, R299, R305 to
R308, R311), and domain instances (R310). -/

namespace Sys2Proof.Machine

def Sched.task (d : Sched) (id : Nat) : Option Task := d.tasks.find? fun t => t.id == id

/-- A change of one task. -/
def Sched.modTask (d : Sched) (id : Nat) (f : Task → Task) : Sched :=
  { d with tasks := d.tasks.map fun t => if t.id == id then f t else t }

/-- PLACE of a record (R294). -/
def placeDie (r : TaskRec) : Fin 4 := Fin.ofNat 4 (r.place.toNat % 4)
def placePin (r : TaskRec) : Bool := bit r.place.toNat 2
def placeCore (r : TaskRec) : Nat := field r.place.toNat 3 5
/-- The core a pinned task runs on. -/
def pinCore (r : TaskRec) : CoreId := Fin.ofNat 128 (32 * (placeDie r).val + placeCore r)

/-- A task's membership at levels 1 to 4: the DOMN field, unless it names none (R30). -/
def domnOf (domn : BitVec 40) (level : Nat) : Option Nat :=
  let d := domn.toNat
  match level with
  | 1 => if field d 0 8 = 0xFF then none else some (field d 0 8)
  | 2 => if field d 8 8 = 0xFF then none else some (field d 8 8)
  | 3 => if field d 16 8 = 0xFF then none else some (field d 16 8)
  | 4 => if field d 24 16 = 0xFFFF then none else some (field d 24 16)
  | _ => none

/-- What identifies the instance of a level (R310). -/
def instKey (lid : BitVec 16) (die : Fin 4) (level v : Nat) : InstKey :=
  match level with
  | 3 => ⟨3, lid, 0, BitVec.ofNat 16 v⟩
  | 4 => ⟨4, 0, 0, BitVec.ofNat 16 v⟩
  | n => ⟨BitVec.ofNat 3 n, lid, die, BitVec.ofNat 16 v⟩

def Task.key (t : Task) (level : Nat) : Option InstKey := (domnOf t.record.domn level).map (instKey t.lid t.die level)

def Sched.inst (d : Sched) (k : InstKey) : Option Inst := d.insts.find? fun i => i.key == k
def Sched.modInst (d : Sched) (k : InstKey) (f : Inst → Inst) : Sched :=
  { d with insts := d.insts.map fun i => if i.key == k then f i else i }

/-- R305, R311: the core may take the task. -/
def eligible (d : Sched) (t : Task) (c : CoreId) : Bool :=
  dieOf c == t.die.val &&
    match t.home with
    | some h => h == c
    | none =>
      if placePin t.record then pinCore t.record == c
      else match (t.key 1).bind d.inst with
        | some i => match i.cluster with
          | some n => clusterOf c == n
          | none => true
        | none => true

/-- The task a core runs. -/
def State.taskOf (s : State) (c : Core) : Option Task := c.task.bind s.sched.task

/-- R125: a READY task may be placed on this core with a priority at or above the task's own. -/
def State.yieldable (s : State) : Bool :=
  let own := match s.taskOf s.core with
    | some t => t.prio.toNat
    | none => 0
  s.sched.tasks.any fun t => t.st == .ready && eligible s.sched t s.core.id && own ≤ t.prio.toNat

end Sys2Proof.Machine
end

