-- ==== Sys2Proof/Machine/Events.lean ====
section
/-! DEFINITION. What the device itself writes (event records, status lines, completion counters), the event ring (R366, R367) and
interrupts with their coalescing (R304, R366). -/

namespace Sys2Proof.Machine

/-- A memory exists at an address: device or host memory. -/
def isMemory (pa : Nat) : Bool := isDevice pa || isHost pa

/-- Bytes a unit of the device writes: at the home, every copy invalidated first, no writer recorded (R278, R283, L35). -/
def State.devWrite (s : State) (pa : Nat) (bs : List Byte) : State :=
  let ls := linesOf pa bs.length
  let s := ls.foldl (fun s l => s.invalidateOthers l none) s
  { s with store := { touchAll s.store ls with
      bytes := wrBytes s.store.bytes pa bs
      cleanHalves := s.store.cleanHalves.filter fun l => !ls.contains l
      hostCopies := s.store.hostCopies.filter fun l => !ls.contains l } }

/-- One µs in clocks: 4 µs are 4,200 clocks (R374). -/
def usClocks : Nat := 1050

/-! ### Interrupts -/

/-- R304: an interrupt due on a vector joins the one held, is held for its window, or is delivered at once; one without a
window joins one that is held (L90). -/
def State.raiseIrq (s : State) (vec : BitVec 10) (win : Nat) : State :=
  let h := s.host
  if h.held.any fun i => i.vec == vec then s
  else if win = 0 then { s with host := { h with irqs := h.irqs ++ [(vec, s.clock)] } }
  else { s with host := { h with held := h.held ++ [⟨vec, s.clock + win * usClocks⟩] } }

/-- INTERRUPT_DELIVERY (R304): the window of a vector has run out. -/
def execInterruptDelivery (vec : BitVec 10) (s : State) : Out :=
  let h := s.host
  if h.held.any fun i => i.vec == vec && i.due ≤ s.clock then
    .next { s with host := { h with held := h.held.filter fun i => i.vec != vec, irqs := h.irqs ++ [(vec, s.clock)] } }
  else .next s

/-- The interrupt of a launch's record, on its vector with its window (R304). -/
def State.launchIrq (s : State) (lid : BitVec 16) : State :=
  match s.sched.launches.find? fun l => l.lid == lid with
  | some l => s.raiseIrq l.vec l.win
  | none => s

/-! ### Event records -/

/-- What a record says beside its number (R366). -/
structure EvRec where
  kind   : Nat
  code   : Nat
  lid    : BitVec 16
  task   : BitVec 32
  core   : Nat
  agent  : Nat
  detail : Word
deriving DecidableEq, Repr

/-- The 32 bytes of a record. -/
def EvRec.bytes (e : EvRec) (seq : Word) : List Byte :=
  toBytes 8 seq.toNat ++ toBytes 1 e.kind ++ toBytes 1 e.code ++ toBytes 2 e.lid.toNat ++ toBytes 4 e.task.toNat ++
    toBytes 1 e.core ++ toBytes 1 e.agent ++ toBytes 6 0 ++ toBytes 8 e.detail.toNat

/-- The ring's size in records, if EVSIZE names one (R366). -/
def ringSize (h : HostPort) : Option Nat :=
  let n := h.evsize.toNat % 32
  if 6 ≤ n ∧ n ≤ 20 then some (2 ^ n) else none

/-- The record of a number arrives in its slot (R367). -/
def State.writeRecord (s : State) (seq : Word) (pa : Nat) (bs : List Byte) : State :=
  let s := { s with host := { s.host with evhead := seq } }
  if isMemory pa && !s.deadHome pa then s.devWrite pa bs else s

/-- R367: the next number is assigned; the slot of its record, or none where the record is dropped. -/
def State.assignEvent (s : State) : State × Option Nat :=
  let h := s.host
  let n := h.evseq + 1
  let s := { s with host := { h with evseq := n } }
  let drop : State := { s with host := { s.host with evdrop := s.host.evdrop + 1 } }
  match ringSize h with
  | none => (drop, none)
  | some size =>
    if size ≤ (n - h.evtail).toNat then (drop, none)
    else (s, some (4096 * (h.evbase.toNat / 4096) + 32 * (n.toNat % size)))

/-- An event whose record is in memory before anything that follows from it. -/
def State.raiseEvent (s : State) (e : EvRec) : State :=
  let r := s.assignEvent
  match r.2 with
  | none => r.1
  | some pa => r.1.writeRecord r.1.host.evseq pa (e.bytes r.1.host.evseq)

/-- An event whose record is on its way to memory; the interrupt that goes with it comes once it has arrived (R304, R367). -/
def State.postEvent (s : State) (e : EvRec) (irq : Option (BitVec 10 × Nat)) : State :=
  let r := s.assignEvent
  match r.2, irq with
  | none, some v => r.1.raiseIrq v.1 v.2
  | none, none => r.1
  | some pa, _ => { r.1 with
      draws := r.1.draws + 1
      host := { r.1.host with records := r.1.host.records ++
        [⟨r.1.host.evseq, pa, e.bytes r.1.host.evseq, r.1.clock, r.1.draws, irq⟩] } }

def EvWrite.due (r : EvWrite) (clock : Nat) : Bool := r.since + Config.latency r.draw ≤ clock

/-- The records that arrive by the end of a clock, in whatever order their writes take (R367). -/
def State.writeRecords (s : State) : State :=
  let due := s.host.records.filter fun r => r.due s.clock
  due.foldl (fun (s : State) r =>
    let s := s.writeRecord r.seq r.at_ r.bytes
    match r.irq with
    | some v => s.raiseIrq v.1 v.2
    | none => s) { s with host := { s.host with records := s.host.records.filter fun r => !r.due s.clock } }

/-- The interrupt of a launch. -/
def State.irqOf (s : State) (lid : BitVec 16) : Option (BitVec 10 × Nat) :=
  (s.sched.launches.find? fun l => l.lid == lid).map fun l => (l.vec, l.win)

/-- The record of a task, with the interrupt of its launch. -/
def State.taskEvent (s : State) (t : Task) (kind code : Nat) (core : CoreId) (detail : Word) (irq : Bool) : State :=
  s.postEvent ⟨kind, code, t.lid, t.record.task, core.val, 0, detail⟩ (if irq then s.irqOf t.lid else none)

/-- R366: the number of an agent. -/
def agentCode : Agent → Nat
  | .die d => d.val
  | .base b => 4 + b.val
  | .host => 12
  | .peer l => 0x80 + l.val

/-- A record of KIND 2 or 7, with the interrupt EVVEC names (R304, R366). -/
def State.agentEvent (s : State) (kind code : Nat) (a : Agent) (detail : Word) : State :=
  let v := s.host.evvec.toNat
  s.postEvent ⟨kind, code, 0, 0, 0xFF, agentCode a, detail⟩ (if bit v 15 then some (BitVec.ofNat 10 v, field v 16 16) else none)

/-- The record of an access that a core's trap reports nothing of: HDROP rises (R359, R362, R363). -/
def State.hdropped (s : State) : State := { s with host := { s.host with hdrop := s.host.hdrop + 1 } }

end Sys2Proof.Machine
end

