-- ==== Sys2Proof/Machine/Fabric.lean ====
section
/-! DEFINITION. The sending side of the fabric's links (R368, R369): flits with their numbers, the replay buffer, and the routes. -/

namespace Sys2Proof.Machine

def State.modLink (s : State) (l : Fin 12) (f : LinkSt → LinkSt) : State :=
  { s with plat := { s.plat with links := s.plat.links.set l (f (s.plat.links.get l)) } }

/-- The link toward a device (R369); none where it is unreachable. -/
def State.routeTo (s : State) (dev : Nat) : Option (Fin 12) :=
  let l := (rd8 s.store.bytes (s.plat.rtbase.toNat + dev)).toNat
  if 12 ≤ l || s.plat.dead.contains (.peer (Fin.ofNat 12 l)) || !(vat s.plat.links l).up then none else some (Fin.ofNat 12 l)

/-- The first bytes of a list, completed with zeros to n. -/
def fitted (n : Nat) (bs : List Byte) : List Byte := (bs ++ List.replicate n 0).take n

/-- A flit of a number and a type (R368). -/
def flitOf (seq : BitVec 10) (kind : Nat) (payload : List Byte) : List Byte :=
  let body := toBytes 2 (seq.toNat + 1024 * kind) ++ fitted 236 payload
  let f := body ++ toBytes 8 (Config.crc64 body).toNat
  f ++ fitted 10 (Config.fecOf f)

/-- A flit is sent, and kept until the peer has acknowledged it. -/
def sendFlit (kind : Nat) (k : LinkSt) (payload : List Byte) : LinkSt :=
  { k with out := k.out ++ [flitOf k.next kind payload], next := k.next + 1 }

/-- An acknowledgement or a refusal of the flit of a number is sent: a flit of type 4, which takes no number of its own and is not kept
(R368, L60). -/
def answerFlit (n : BitVec 10) (ok : Bool) (k : LinkSt) : LinkSt :=
  { k with answers := k.answers ++ [flitOf n 4 (Config.answerPayload n ok)] }

def State.sendFlits (s : State) (l : Fin 12) (kind : Nat) (ps : List (List Byte)) : State :=
  s.modLink l fun k => ps.foldl (sendFlit kind) k

/-- The number of a flit. -/
def flitNumber (f : List Byte) : BitVec 10 := BitVec.ofNat 10 (ofBytes (f.take 2))

/-- The flits up to an acknowledged one leave the buffer; flits are delivered in order. -/
def ackedFlits (n : BitVec 10) (l : List (List Byte)) : List (List Byte) :=
  match (l.take 512).findIdx? fun f => flitNumber f == n with
  | some i => l.drop (i + 1)
  | none => l

/-- A message to the other devices goes on every link that a route uses (R369). -/
def State.tellFabric (s : State) (kind : Nat) (payload : List Byte) : State :=
  let ls := ((List.range 4096).filter (· != s.plat.devnum.toNat)).foldl (fun (ls : List (Fin 12)) d => match s.routeTo d with
    | some l => insertNew l ls
    | none => ls) []
  ls.foldl (fun (s : State) l => s.sendFlits l kind [payload]) s

end Sys2Proof.Machine
end

