-- ==== Sys2Proof/Machine/Float.lean ====
section
/-! DEFINITION. Number formats, exact arithmetic, rounding, conversions, VEXP2 and the reduction trees (R73 to R88).
A floating-point value is a sign, a natural significand and a power of two, so every operation is exact until
its one rounding. -/

namespace Sys2Proof.Machine

/-- A floating-point value: (−1)^neg × m × 2^e; m = 0 is the zero of that sign. -/
inductive FV where
  | nan
  | inf (neg : Bool)
  | fin (neg : Bool) (m : Nat) (e : Int)
deriving DecidableEq, Repr, Inhabited

/-- R73: a format by its field widths, bias, largest finite magnitude and default NaN; `infs` is false for E4M3. -/
structure Fmt where
  ebits  : Nat
  fbits  : Nat
  bias   : Int
  maxFin : Nat
  nanPat : Nat
  infs   : Bool
deriving DecidableEq, Repr, Inhabited

def fp32 : Fmt := ⟨8, 23, 127, 0x7F7FFFFF, 0x7FC00000, true⟩
def bf16 : Fmt := ⟨8, 7, 127, 0x7F7F, 0x7FC0, true⟩
def fp16 : Fmt := ⟨5, 10, 15, 0x7BFF, 0x7E00, true⟩
def e4m3 : Fmt := ⟨4, 3, 7, 0x7E, 0x7F, false⟩
def e5m2 : Fmt := ⟨5, 2, 15, 0x7B, 0x7E, true⟩

/-- The pattern of +infinity. -/
def Fmt.infPat (f : Fmt) : Nat := f.maxFin + 1
def Fmt.signBit (f : Fmt) : Nat := 2 ^ (f.ebits + f.fbits)
/-- The exponent of the last place of a subnormal. -/
def Fmt.emin (f : Fmt) : Int := 1 - f.bias - (f.fbits : Int)

/-- The value of a pattern (R73). -/
def fdec (f : Fmt) (x : Nat) : FV :=
  let neg := x / f.signBit % 2 == 1
  let mag := x % f.signBit
  if f.maxFin < mag then (if f.infs && mag == f.infPat then .inf neg else .nan)
  else
    let ef := mag / 2 ^ f.fbits
    let fr := mag % 2 ^ f.fbits
    if ef = 0 then .fin neg fr f.emin else .fin neg (fr + 2 ^ f.fbits) (f.emin + (ef : Int) - 1)

/-- The rounding modes of R78. -/
inductive Rm where
  | rne | rtz | rup | rdn
deriving DecidableEq, Repr, Inhabited

/-- m / 2^d rounded to an integer by a mode; the sign decides the directed modes. -/
def roundShift (rm : Rm) (neg : Bool) (m d : Nat) : Nat :=
  let q := m / 2 ^ d
  let r := m % 2 ^ d
  let up := match rm with
    | .rne => 2 ^ d < 2 * r || (2 * r == 2 ^ d && q % 2 == 1)
    | .rtz => false
    | .rup => !neg && r != 0
    | .rdn => neg && r != 0
  if up then q + 1 else q

/-- The magnitude pattern of m × 2^e rounded to a format whose exponent range has no upper limit (R79). -/
def roundMag (f : Fmt) (rm : Rm) (neg : Bool) (m : Nat) (e : Int) : Nat :=
  if m = 0 then 0
  else
    let top : Int := (Nat.log2 m : Int) + e
    let q : Int := if top - (f.fbits : Int) < f.emin then f.emin else top - (f.fbits : Int)
    let r := if q ≤ e then m * 2 ^ (e - q).toNat else roundShift rm neg m (q - e).toNat
    (q - f.emin).toNat * 2 ^ f.fbits + r

/-- The causes of R26 as FEVLOG holds them. -/
def fevInvalid : BitVec 2 := 0
def fevOverflow : BitVec 2 := 1
def fevDivZero : BitVec 2 := 2
def fevSat : BitVec 2 := 3

/-- A result's pattern with the record it offers. -/
abbrev FRes := Nat × Option (BitVec 2)

def withSign (f : Fmt) (neg : Bool) (mag : Nat) : Nat := if neg then f.signBit + mag else mag

/-- An arithmetic result rounded to a format, to nearest even; an overflow gives the infinity (R82). -/
def fround (f : Fmt) : FV → FRes
  | .nan => (f.nanPat, none)
  | .inf neg => (withSign f neg f.infPat, none)
  | .fin neg m e =>
    let mag := roundMag f .rne neg m e
    if f.maxFin < mag then (withSign f neg f.infPat, some fevOverflow) else (withSign f neg mag, none)

/-- The signed significand of a finite value at exponent e' ≤ e. -/
def alignTo (neg : Bool) (m : Nat) (e e' : Int) : Int :=
  let x : Int := ((m * 2 ^ (e - e').toNat : Nat) : Int)
  if neg then -x else x

/-- The finite value of a signed significand; `z` is the sign of an exact zero. -/
def ofSigned (z : Bool) (x : Int) (e : Int) : FV :=
  if x = 0 then .fin z 0 0 else .fin (x < 0) x.natAbs e

/-- The exact sum (R82). -/
def faddV : FV → FV → FV
  | .nan, _ => .nan
  | _, .nan => .nan
  | .inf a, .inf b => if a == b then .inf a else .nan
  | .inf a, .fin _ _ _ => .inf a
  | .fin _ _ _, .inf b => .inf b
  | .fin na ma ea, .fin nb mb eb =>
    let e := if ea < eb then ea else eb
    ofSigned (na && nb) (alignTo na ma ea e + alignTo nb mb eb e) e

def fnegV : FV → FV
  | .nan => .nan
  | .inf a => .inf (!a)
  | .fin n m e => .fin (!n) m e

/-- The exact product. -/
def fmulV : FV → FV → FV
  | .nan, _ => .nan
  | _, .nan => .nan
  | .inf a, .inf b => .inf (a != b)
  | .inf a, .fin n m _ => if m = 0 then .nan else .inf (a != n)
  | .fin n m _, .inf b => if m = 0 then .nan else .inf (n != b)
  | .fin na ma ea, .fin nb mb eb => .fin (na != nb) (ma * mb) (ea + eb)

/-- A quotient with a sticky last bit, precise enough for one rounding to FP32. -/
def fdivV : FV → FV → FV
  | .nan, _ => .nan
  | _, .nan => .nan
  | .inf _, .inf _ => .nan
  | .inf a, .fin n _ _ => .inf (a != n)
  | .fin n _ _, .inf b => .fin (n != b) 0 0
  | .fin na ma ea, .fin nb mb eb =>
    if mb = 0 then (if ma = 0 then .nan else .inf (na != nb))
    else
      let k := 64 + Nat.log2 mb
      let q := ma * 2 ^ k / mb
      let r := ma * 2 ^ k % mb
      .fin (na != nb) (2 * q + (if r = 0 then 0 else 1)) (ea - eb - (k : Int) - 1)

/-- The integer square root, bit by bit from bit n − 1 down. -/
def isqrtAux (x : Nat) : Nat → Nat → Nat
  | 0, r => r
  | n + 1, r => let r' := r + 2 ^ n; if r' * r' ≤ x then isqrtAux x n r' else isqrtAux x n r

/-- A square root with a sticky last bit (R82). -/
def fsqrtV : FV → FV
  | .nan => .nan
  | .inf neg => if neg then .nan else .inf false
  | .fin neg m e =>
    if m = 0 then .fin neg 0 0
    else if neg then .nan
    else
      let m' := if e % 2 = 0 then m else 2 * m
      let e' := if e % 2 = 0 then e else e - 1
      let x := m' * 2 ^ 64
      let r := isqrtAux x (Nat.log2 x / 2 + 1) 0
      .fin false (2 * r + (if r * r = x then 0 else 1)) (e' / 2 - 33)

def FV.isNan : FV → Bool
  | .nan => true
  | _ => false

def FV.isZero : FV → Bool
  | .fin _ m _ => m == 0
  | _ => false

/-- A rounded result whose NaN is recorded as invalid when no operand is a NaN (R82, R84). -/
def fresult (f : Fmt) (ops : List FV) (r : FV) : FRes :=
  match r with
  | .nan => (f.nanPat, if ops.any FV.isNan then none else some fevInvalid)
  | v => fround f v

/-! ### The operations of R82 and R83 on patterns -/

def fpAdd (f : Fmt) (a b : Nat) : FRes :=
  let x := fdec f a; let y := fdec f b
  fresult f [x, y] (faddV x y)

def fpSub (f : Fmt) (a b : Nat) : FRes :=
  let x := fdec f a; let y := fdec f b
  fresult f [x, y] (faddV x (fnegV y))

def fpMul (f : Fmt) (a b : Nat) : FRes :=
  let x := fdec f a; let y := fdec f b
  fresult f [x, y] (fmulV x y)

/-- a × b + d, rounded once. -/
def fpFma (f : Fmt) (a b d : Nat) : FRes :=
  let x := fdec f a; let y := fdec f b; let z := fdec f d
  fresult f [x, y, z] (faddV (fmulV x y) z)

/-- a × b − d, rounded once. -/
def fpFms (f : Fmt) (a b d : Nat) : FRes :=
  let x := fdec f a; let y := fdec f b; let z := fdec f d
  fresult f [x, y, z] (faddV (fmulV x y) (fnegV z))

/-- R82: a finite non-zero value over a zero records a division by zero. -/
def fpDiv (f : Fmt) (a b : Nat) : FRes :=
  let x := fdec f a; let y := fdec f b
  match x, y with
  | .fin na ma _, .fin nb mb _ =>
    if mb = 0 ∧ ma ≠ 0 then (withSign f (na != nb) f.infPat, some fevDivZero)
    else fresult f [x, y] (fdivV x y)
  | _, _ => fresult f [x, y] (fdivV x y)

def fpSqrt (f : Fmt) (a : Nat) : FRes :=
  let x := fdec f a
  fresult f [x] (fsqrtV x)

/-- The total order of two values that are not NaNs: −0 below +0 (R82). -/
def fkey (f : Fmt) (x : Nat) : Int :=
  let mag : Int := ((x % f.signBit : Nat) : Int)
  if x / f.signBit % 2 == 1 then -mag - 1 else mag

def fpMin (f : Fmt) (a b : Nat) : Nat :=
  if (fdec f a).isNan || (fdec f b).isNan then f.nanPat else if fkey f b < fkey f a then b else a

def fpMax (f : Fmt) (a b : Nat) : Nat :=
  if (fdec f a).isNan || (fdec f b).isNan then f.nanPat else if fkey f a < fkey f b then b else a

/-- The numeric comparisons: false on a NaN, and zeros equal. -/
def fvLt : FV → FV → Bool
  | .nan, _ => false
  | _, .nan => false
  | .inf a, .inf b => a && !b
  | .inf a, .fin _ _ _ => a
  | .fin _ _ _, .inf b => !b
  | .fin na ma ea, .fin nb mb eb =>
    let e := if ea < eb then ea else eb
    alignTo na ma ea e < alignTo nb mb eb e

def fvEq : FV → FV → Bool
  | .nan, _ => false
  | _, .nan => false
  | .inf a, .inf b => a == b
  | .inf _, .fin _ _ _ => false
  | .fin _ _ _, .inf _ => false
  | .fin na ma ea, .fin nb mb eb =>
    let e := if ea < eb then ea else eb
    alignTo na ma ea e == alignTo nb mb eb e

def fpLt (f : Fmt) (a b : Nat) : Bool := fvLt (fdec f a) (fdec f b)
def fpEq (f : Fmt) (a b : Nat) : Bool := fvEq (fdec f a) (fdec f b)

/-! ### Conversions (R77 to R81, R95) -/

/-- What a conversion gives: a pattern of the target's width with its record, or the conversion trap. -/
inductive Conv where
  | ok (x : Nat) (fev : Option (BitVec 2))
  | trap
deriving DecidableEq, Repr, Inhabited

/-- The value rounded to an integer by a mode. -/
def roundInt (rm : Rm) (neg : Bool) (m : Nat) (e : Int) : Int :=
  let a := if 0 ≤ e then m * 2 ^ e.toNat else roundShift rm neg m (-e).toNat
  if neg then -(a : Int) else (a : Int)

/-- Two's complement over n bits. -/
def toTwos (n : Nat) (x : Int) : Nat := (x % ((2 ^ n : Nat) : Int)).toNat

/-- R79 rule 2 with R80, for a source that is not a NaN of the same format. -/
def convFloat (g : Fmt) (rm : Rm) (ov : Nat) : FV → Conv
  | .nan => .ok g.nanPat none
  | .inf neg =>
    if g.infs then .ok (withSign g neg g.infPat) none
    else if ov = 0 then .ok (withSign g neg g.maxFin) (some fevSat)
    else if ov = 3 then .trap
    else .ok g.nanPat (some fevOverflow)
  | .fin neg m e =>
    let mag := roundMag g rm neg m e
    if mag ≤ g.maxFin then .ok (withSign g neg mag) none
    else if ov = 0 then .ok (withSign g neg g.maxFin) (some fevSat)
    else if ov = 1 then .ok (if g.infs then withSign g neg g.infPat else g.nanPat) (some fevOverflow)
    else if ov = 2 then .ok g.nanPat (some fevOverflow)
    else .trap

/-- R79 rule 3 with R80: to an n-bit integer. -/
def convInt (n : Nat) (rm : Rm) (ov : Nat) : FV → Conv
  | .nan => if ov = 3 then .trap else .ok 0 (some fevInvalid)
  | .inf neg =>
    if ov = 3 then .trap
    else .ok (if neg then 2 ^ (n - 1) else 2 ^ (n - 1) - 1) (some fevSat)
  | .fin neg m e =>
    let x := roundInt rm neg m e
    let lo : Int := -((2 ^ (n - 1) : Nat) : Int)
    let hi : Int := ((2 ^ (n - 1) : Nat) : Int) - 1
    if lo ≤ x ∧ x ≤ hi then .ok (toTwos n x) none
    else if ov = 3 then .trap
    else .ok (toTwos n (satInt x lo hi)) (some fevSat)

/-- The value of an n-bit integer. -/
def intV (n x : Nat) : FV :=
  let i := sextInt x n
  .fin (i < 0) i.natAbs 0

/-- The formats of R77. -/
inductive NumFmt where
  | f (g : Fmt)
  | i (n : Nat)
deriving DecidableEq, Repr, Inhabited

def numFmt : Nat → NumFmt
  | 0 => .f fp32
  | 1 => .f bf16
  | 2 => .f fp16
  | 3 => .f e4m3
  | 4 => .f e5m2
  | 5 => .i 8
  | 6 => .i 16
  | _ => .i 32

def NumFmt.width : NumFmt → Nat
  | .f g => 1 + g.ebits + g.fbits
  | .i n => n

def NumFmt.value (t : NumFmt) (x : Nat) : FV :=
  match t with
  | .f g => fdec g (x % (2 * g.signBit))
  | .i n => intV n x

/-- A conversion between two formats of R77: equal formats keep the source, but for NaNs (R79 rule 4). -/
def convert (s d : NumFmt) (rm : Rm) (ov : Nat) (x : Nat) : Conv :=
  if s = d then
    match s with
    | .f g => if (fdec g (x % (2 * g.signBit))).isNan then .ok g.nanPat none else .ok (x % (2 * g.signBit)) none
    | .i n => .ok (x % 2 ^ n) none
  else
    match d with
    | .f g => convFloat g rm ov (s.value x)
    | .i n => convInt n rm ov (s.value x)

/-- A converted pattern in a container (R75): integers sign-extended to n bits, floats zero-extended. -/
def container (d : NumFmt) (n : Nat) (x : Nat) : Nat :=
  match d with
  | .f _ => x
  | .i w => toTwos n (sextInt x w)

def rmOf : Nat → Rm
  | 0 => .rne
  | 1 => .rtz
  | 2 => .rup
  | _ => .rdn

/-- R81: SFCVT's conversion of the 64 source bits; the result as the s register receives it. -/
def sfConvert (code : Nat) (x : Nat) : FRes :=
  let go (s d : NumFmt) (rm : Rm) : FRes :=
    match convert s d rm 0 x with
    | .ok y f => (container d 64 y, f)
    | .trap => (0, none)
  match code with
  | 0 => go (.f fp32) (.i 32) .rtz
  | 1 => go (.f fp32) (.i 64) .rtz
  | 2 => go (.i 32) (.f fp32) .rne
  | 3 => go (.i 64) (.f fp32) .rne
  | 4 => go (.f fp32) (.f bf16) .rne
  | 5 => go (.f bf16) (.f fp32) .rne
  | 6 => go (.f fp32) (.f fp16) .rne
  | 7 => go (.f fp16) (.f fp32) .rne
  | 8 => go (.f fp32) (.f e4m3) .rne
  | 9 => go (.f e4m3) (.f fp32) .rne
  | 10 => go (.f fp32) (.f e5m2) .rne
  | 11 => go (.f e5m2) (.f fp32) .rne
  | 12 => go (.f fp32) (.i 32) .rne
  | _ => go (.f fp32) (.i 64) .rne

/-! ### VEXP2 (R85) -/

/-- The largest x whose 64th power is at most y, searched from bit n − 1 down. -/
def root64Aux (y : Nat) : Nat → Nat → Nat
  | 0, r => r
  | n + 1, r => let r' := r + 2 ^ n; if r' ^ 64 ≤ y then root64Aux y n r' else root64Aux y n r

/-- T[j] = round_rne(2^(j/64), FP32): the 64th root with one bit to spare, which is never a tie. -/
def exp2Table (j : Nat) : Nat :=
  let x := root64Aux (2 ^ (j + 24 * 64)) 25 0
  0x3F800000 + ((x + 1) / 2 - 2 ^ 23)

def exp2c1 : Nat := 0x3F317218
def exp2c2 : Nat := 0x3E75FDF0
def exp2c3 : Nat := 0x3D635847

/-- 2^x for one FP32 lane, step by step. -/
def fpExp2 (x : Nat) : FRes :=
  match fdec fp32 x with
  | .nan => (fp32.nanPat, none)
  | .inf neg => (if neg then 0 else fp32.infPat, none)
  | .fin neg m e =>
    if !fvLt (.fin neg m e) (.fin false 1 7) then (fp32.infPat, some fevOverflow)
    else if fvLt (.fin neg m e) (.fin true 5 5) then (0, none)
    else
      let n := roundInt .rne neg m (e + 6)
      let j := (n % 64).toNat
      let k := (n - (j : Int)) / 64
      let fv := faddV (.fin neg m e) (fnegV (.fin (n < 0) n.natAbs (-6)))
      let f := (fround fp32 fv).1
      let q0 := (fpFma fp32 f exp2c3 exp2c2).1
      let q1 := (fpFma fp32 f q0 exp2c1).1
      let q2 := (fpMul fp32 f q1).1
      let t := exp2Table j
      let w := (fpFma fp32 t q2 t).1
      match fdec fp32 w with
      | .fin wn wm we => fround fp32 (.fin wn wm (we + k))
      | v => fround fp32 v

/-! ### Reductions and scans (R86 to R88) -/

/-- Signed minimum and maximum of lanes. -/
def imin32 (a b : Nat) : Nat := if sextInt b 32 < sextInt a 32 then b else a
def imax32 (a b : Nat) : Nat := if sextInt a 32 < sextInt b 32 then b else a

/-- The operation of a code of R86 on two lanes, with its record. -/
def redOp (code : Nat) (a b : Nat) : FRes :=
  match code with
  | 0 => fpAdd fp32 a b
  | 1 => (fpMax fp32 a b, none)
  | 2 => (fpMin fp32 a b, none)
  | 3 => ((a + b) % 2 ^ 32, none)
  | 4 => (imax32 a b, none)
  | 5 => (imin32 a b, none)
  | 6 => (a &&& b, none)
  | 7 => (a ||| b, none)
  | _ => (a ^^^ b, none)

/-- The identity of R86. -/
def redId (code : Nat) : Nat :=
  match code with
  | 0 => 0x80000000
  | 1 => 0xFF800000
  | 2 => 0x7F800000
  | 3 => 0
  | 4 => 0x80000000
  | 5 => 0x7FFFFFFF
  | 6 => 0xFFFFFFFF
  | _ => 0

/-- One level of the pairwise tree: neighbours combined; the element number of a record is that of the result. -/
def redLevel (code : Nat) : List Nat → List FRes
  | a :: b :: l => redOp code a b :: redLevel code l
  | [a] => [(a, none)]
  | [] => []

/-- The first record of a level, with its element. -/
def firstFevAux (i : Nat) : List FRes → Option (BitVec 2 × Nat)
  | [] => none
  | (_, some c) :: _ => some (c, i)
  | (_, none) :: l => firstFevAux (i + 1) l

def firstFev (l : List FRes) : Option (BitVec 2 × Nat) := firstFevAux 0 l

/-- The record with the lower element number of two (R27, R144); of two of one lane on different levels, the earlier level's (L82). -/
def lowerFev : Option (BitVec 2 × Nat) → Option (BitVec 2 × Nat) → Option (BitVec 2 × Nat)
  | none, y => y
  | x, none => x
  | some (c, i), some (d, k) => if k < i then some (d, k) else some (c, i)

/-- Levels of the tree until the fuel is spent: the values left and the record of lowest element. -/
def redTree (code : Nat) : Nat → List Nat → Option (BitVec 2 × Nat) → List Nat × Option (BitVec 2 × Nat)
  | 0, l, f => (l, f)
  | n + 1, l, f =>
    let r := redLevel code l
    redTree code n (r.map Prod.fst) (lowerFev f (firstFev r))

/-- VRED of 64 lanes (R87). -/
def vreduce (code : Nat) (l : List Nat) : Nat × Option (BitVec 2 × Nat) :=
  let r := redTree code 6 l none
  (r.1.headD 0, r.2)

/-- One step of the scan at distance d (R88). -/
def scanStep (code d : Nat) (l : List Nat) : List FRes :=
  (l.take d).map (fun x => (x, none)) ++ List.zipWith (redOp code) l (l.drop d)

def scanSteps (code : Nat) : List Nat → List Nat → Option (BitVec 2 × Nat) → List Nat × Option (BitVec 2 × Nat)
  | [], l, f => (l, f)
  | d :: ds, l, f =>
    let r := scanStep code d l
    scanSteps code ds (r.map Prod.fst) (lowerFev f (firstFev r))

/-- VSCAN of 64 lanes (R88). -/
def vscanAll (code : Nat) (l : List Nat) : List Nat × Option (BitVec 2 × Nat) :=
  scanSteps code [1, 2, 4, 8, 16, 32] l none

end Sys2Proof.Machine
end

