-- ==== Sys2Proof/Machine/Tensor.lean ====
section
/-! DEFINITION. Tensors in memory: element types (R236), descriptors (R237, R238), the layout of elements and s-tiles (R239, R240),
tile-table entries (R241, R242), non-zeros and the four encodings (R245 to R248), and the structure decision (R250). -/

namespace Sys2Proof.Machine

abbrev Desc := BitVec 1024

/-! ### Fields of a descriptor (R237) -/

def dfield (d : Desc) (lo n : Nat) : Nat := field d.toNat lo n

def dEtype (d : Desc) : Nat := dfield d 16 4
def dRank (d : Desc) : Nat := dfield d 20 3
def dMask (d : Desc) : Nat := dfield d 24 4
def dHyst (d : Desc) : Nat := dfield d 28 4
def dLock (d : Desc) : Bool := dfield d 32 1 == 1
def dHome (d : Desc) : Nat := dfield d 33 3
def dCoh (d : Desc) : Nat := dfield d 36 2
def dClass (d : Desc) : Nat := dfield d 38 4
def dWorld (d : Desc) : Bool := dfield d 42 1 == 1
/-- SCP as a scope of R196. -/
def dScope (d : Desc) : Nat := match dfield d 43 3 with
  | 0 => 3
  | 1 => 0
  | 2 => 1
  | 3 => 2
  | _ => 4
def dScv (d : Desc) : Bool := dfield d 46 1 == 1
def dSctid (d : Desc) : Nat := dfield d 48 16
def dTid (d : Desc) : Nat := dfield d 0 16
def dTtaddr (d : Desc) : Nat := dfield d 64 48
def dExt (d : Desc) (i : Nat) : Nat := dfield d (128 + 32 * i) 32
def dTl (d : Desc) (i : Nat) : Nat := dfield d (320 + 8 * i) 8
/-- A codebook slot's 16 entries (R76). -/
def dCb (d : Desc) (slot : Bool) : BitVec 256 := BitVec.ofNat 256 (dfield d (if slot then 640 else 384) 256)
def dCbv (d : Desc) (slot : Bool) : BitVec 8 := BitVec.ofNat 8 (dfield d (if slot then 904 else 896) 8)
def dCbact (d : Desc) : Bool := dfield d 912 1 == 1

def setDesc (d : Desc) (lo n v : Nat) : Desc := BitVec.ofNat 1024 (setField d.toNat lo n v)

/-- R236: the bits of an element. -/
def elemBits (et : Nat) : Nat := match et with
  | 0 | 7 => 32
  | 1 | 2 | 6 => 16
  | 8 => 4
  | _ => 8

/-- The dimensions below the rank. -/
def dDims (d : Desc) : List Nat := List.range (dRank d)

/-- All of TL0 to TL5 zero: the default shape (R238). -/
def dDefault (d : Desc) : Bool := (List.range 6).all fun i => dTl d i == 0

/-- log2 of the s-tile's length along a dimension (R238). -/
def dLog (d : Desc) (i : Nat) : Nat :=
  if dDefault d then (if dRank d = 1 then (if i = 0 then 10 else 0) else if i = 0 then 6 else if i = 1 then 4 else 0)
  else dTl d i

def dT (d : Desc) (i : Nat) : Nat := 2 ^ dLog d i
/-- The s-tiles along a dimension (R239). -/
def dG (d : Desc) (i : Nat) : Nat := (dExt d i + dT d i - 1) / dT d i

def prodOf (l : List Nat) : Nat := l.foldl (· * ·) 1

/-- R238. -/
def descOk (d : Desc) : Bool :=
  let dims := dDims d
  let above := (List.range 6).filter fun i => dRank d ≤ i
  dEtype d ≤ 8 && 1 ≤ dRank d && dRank d ≤ 6 && dCoh d != 3 && dfield d 43 3 ≤ 4 && dMask d != 15 &&
  dfield d 23 1 == 0 && dfield d 47 1 == 0 && dfield d 112 16 == 0 && dfield d 368 16 == 0 && dfield d 913 111 == 0 &&
  dTtaddr d != 0 && dfield d 64 7 == 0 &&
  (!dScv d || dEtype d == 3 || dEtype d == 4) &&
  dims.all (fun i => 1 ≤ dExt d i) && above.all (fun i => dExt d i == 0) &&
  (dDefault d || (above.all (fun i => dTl d i == 0) && 4 ≤ dTl d 0 && (dims.foldl (fun a i => a + dTl d i) 0) == 10)) &&
  prodOf (dims.map (dG d)) ≤ 2 ^ 28

/-! ### Layout (R239, R240) -/

/-- A sum weighted by the products of the lengths below: dimension 0 is fastest. -/
def mixed : List (Nat × Nat) → Nat
  | [] => 0
  | (q, g) :: l => q + g * mixed l

/-- The s-tile and the in-tile offset of a cursor inside the extent; none outside (R239, R240). -/
def locate (d : Desc) (x : Nat → Nat) : Option (Nat × Nat) :=
  if (dDims d).all fun i => x i < dExt d i then
    some (mixed ((dDims d).map fun i => (x i / dT d i, dG d i)), mixed ((dDims d).map fun i => (x i % dT d i, dT d i)))
  else none

/-- The parts of a number in mixed radix. -/
def unmix : List Nat → Nat → List Nat
  | [], _ => []
  | g :: l, n => n % g :: unmix l (n / g)

/-- R240: the offset is a padding position of the tile. -/
def isPad (d : Desc) (tile off : Nat) : Bool :=
  let q := unmix ((dDims d).map (dG d)) tile
  let o := unmix ((dDims d).map (dT d)) off
  ((dDims d).zip (q.zip o)).any fun p => dExt d p.1 ≤ p.2.1 * dT d p.1 + p.2.2

/-- The tiles of the grid. -/
def tileCount (d : Desc) : Nat := prodOf ((dDims d).map (dG d))

/-- The coordinate of a handle's cursor, moved by n along dimension 0. -/
def cursorAt (h : Handle) (n : Nat) (i : Nat) : Nat := (vat h.cursor i).toNat + if i = 0 then n else 0

/-- The elements of a run of n from the cursor along dimension 0: tile and offset, none outside the extent. -/
def runPlaces (h : Handle) (n : Nat) : List (Option (Nat × Nat)) :=
  (List.range n).map fun e => locate h.desc (cursorAt h e)

/-- The tiles of some places, each once, in order. -/
def tilesOf (l : List (Option (Nat × Nat))) : List Nat :=
  l.foldl (fun acc p => match p with
    | some (t, _) => if acc.contains t then acc else acc ++ [t]
    | none => acc) []

def entryOf (d : Desc) (tile : Nat) : Nat := dTtaddr d + 16 * tile

/-! ### Entries (R241) -/

structure Entry where
  gaddr : Nat
  size  : Nat
  ver   : Nat
  tag   : Nat
  psn   : Bool
  wlk   : Bool
  pin   : Nat
  nnz   : Nat
deriving DecidableEq, Repr, Inhabited

def Entry.ofNat (n : Nat) : Entry :=
  ⟨field n 0 42, field n 42 8, field n 50 8, field n 58 2, bit n 60, bit n 61, field n 64 16, field n 80 11⟩

def Entry.toNat (e : Entry) : Nat :=
  e.gaddr + e.size * 2 ^ 42 + e.ver % 256 * 2 ^ 50 + e.tag * 2 ^ 58 + (if e.psn then 2 ^ 60 else 0) +
    (if e.wlk then 2 ^ 61 else 0) + e.pin * 2 ^ 64 + e.nnz * 2 ^ 80

/-! ### Non-zeros (R245) -/

/-- A stored pattern is zero; `cb` is the codebook active at the write-back. -/
def patZero (et : Nat) (cb : BitVec 256) (x : Nat) : Bool :=
  match et with
  | 0 => x % 2 ^ 31 == 0
  | 1 | 2 => x % 2 ^ 15 == 0
  | 3 | 4 => x % 2 ^ 7 == 0
  | 8 => x == 0 && cb.toNat % 2 ^ 15 == 0
  | _ => x == 0

/-! ### Decoding frames (R246, R247) -/

/-- 1,024 elements by offset: stored patterns, or absent. -/
abbrev Elems := List (Option (BitVec 32))

def pat (n eb pos : Nat) : Option (BitVec 32) := some (BitVec.ofNat 32 (field n pos eb))

def decBitmap (n eb : Nat) : Nat → Nat → Nat → Elems
  | 0, _, _ => []
  | f + 1, off, k =>
    if bit n off then pat n eb (1024 + eb * k) :: decBitmap n eb f (off + 1) (k + 1)
    else none :: decBitmap n eb f (off + 1) k

/-- The bytes of a run of elements (R246). -/
def runBytes (eb l : Nat) : Nat := (eb * l + 7) / 8

def decRle (n eb : Nat) : Nat → Nat → Nat → Elems
  | 0, _, _ => []
  | f + 1, p, count =>
    if 1024 ≤ count then []
    else
      let w := field n (8 * p) 16
      let z := w % 32
      let l := w / 32 % 32
      if w = 0 then []
      else List.replicate z none ++ (List.range l).map (fun i => pat n eb (8 * (p + 2) + eb * i)) ++
        decRle n eb f (p + 2 + runBytes eb l) (count + z + l)

/-- The pairs of a COO frame. -/
def cooPairs (n eb : Nat) : List (Nat × Option (BitVec 32)) :=
  let vb := if eb = 4 then 1 else eb / 8
  (List.range (field n 0 16)).map fun i =>
    let p := 8 * (2 + i * (2 + vb))
    (field n p 10, pat n eb (p + 16))

def padTo (n : Nat) (l : Elems) : Elems := l.take n ++ List.replicate (n - l.length) none

/-- A frame's 1,024 positions; a padding position holds no element (R240). -/
def decodeFrame (tag et : Nat) (pad : Nat → Bool) (n : Nat) : Elems :=
  let eb := elemBits et
  match tag with
  | 0 => (List.range 1024).map fun i => if pad i then none else pat n eb (eb * i)
  | 1 => decBitmap n eb 1024 0 0
  | 2 => padTo 1024 (decRle n eb 1100 0 0)
  | _ => let ps := cooPairs n eb
    (List.range 1024).map fun i => ((ps.find? fun p => p.1 == i).map (·.2)).getD none

/-! ### Encoding frames (R246, R248) -/

/-- Elements packed in their size, a nibble pair with the even one low. -/
def packElems (eb : Nat) : List Nat → List Byte
  | [] => []
  | [x] => toBytes ((eb + 7) / 8) x
  | x :: y :: l =>
    if eb = 4 then BitVec.ofNat 8 (x % 16 + 16 * (y % 16)) :: packElems eb l
    else toBytes (eb / 8) x ++ toBytes (eb / 8) y ++ packElems eb l

/-- The leading elements of a list that meet a test, at most n of them. -/
def spanN {α : Type} (p : α → Bool) : Nat → List α → List α × List α
  | 0, l => ([], l)
  | _, [] => ([], [])
  | n + 1, x :: l => if p x then let r := spanN p n l; (x :: r.1, r.2) else ([], x :: l)

/-- The canonical RLE words of the remaining positions: the zero run and the literals of each (R246). -/
def rleWords : Nat → List (Option Nat) → List (Nat × List Nat)
  | 0, _ => []
  | _, [] => []
  | f + 1, l =>
    if l.all (·.isNone) then [(0, [])]
    else
      let z := spanN (·.isNone) 31 l
      let v := spanN (·.isSome) 31 z.2
      (z.1.length, v.1.filterMap id) :: rleWords f v.2

def rleBytes (eb : Nat) (ws : List (Nat × List Nat)) : List Byte :=
  ws.flatMap fun w => toBytes 2 (w.1 + 32 * w.2.length) ++ packElems eb w.2

/-- The non-zero elements with their offsets, from the contents with zeros marked absent. -/
def nonZeros (l : List (Option Nat)) : List (Nat × Nat) :=
  (l.zip (List.range l.length)).filterMap fun p => p.1.map fun x => (p.2, x)

/-- The bytes of a tile under a structure; `all` are the patterns, `nz` the same with zeros absent. -/
def encodeFrame (tag eb : Nat) (all : List Nat) (nz : List (Option Nat)) : List Byte :=
  match tag with
  | 0 => packElems eb all
  | 1 => toBytes 128 (ofOnes ((nonZeros nz).map (·.1))) ++ packElems eb ((nonZeros nz).map (·.2))
  | 2 => rleBytes eb (rleWords 1025 nz)
  | _ => toBytes 2 (nonZeros nz).length ++
    (nonZeros nz).flatMap fun p => toBytes 2 p.1 ++ toBytes (if eb = 4 then 1 else eb / 8) p.2

/-- R248: the encoded size in granules. -/
def sizeUnder (tag eb : Nat) (all : List Nat) (nz : List (Option Nat)) : Nat :=
  if tag != 0 && (nonZeros nz).isEmpty then 0 else ((encodeFrame tag eb all nz).length + 63) / 64

/-! ### The structure decision (R250) -/

/-- The tag of least size among some, the current one on a tie if `keep`, then the lowest. -/
def bestTag (sz : Nat → Nat) (cur : Nat) (keep : Bool) (a : List Nat) : Nat :=
  let least := (a.map sz).foldl min (a.headD 0 |> sz)
  if keep && a.contains cur && sz cur == least then cur else (a.find? fun s => sz s == least).getD cur

def decideTag (mask hyst : Nat) (lock : Bool) (cur : Nat) (sz : Nat → Nat) : Nat :=
  let a := (List.range 4).filter fun s => !bit mask s
  if lock || a.isEmpty then cur
  else if !a.contains cur then bestTag sz cur false a
  else
    let best := bestTag sz cur true a
    if 16 * sz best ≤ (16 - hyst) * sz cur then best else cur

end Sys2Proof.Machine
end

