-- ==== Sys2Proof/Machine/Pintle.lean ====
section
/-! DEFINITION. Tile-table entries in memory, pins and the data of pinned versions (R251, R254, R255, R258), the frame pool (R252,
R255, R257) and the commit of one update by the Pintle (R249 to R253, R257 to R259). -/

namespace Sys2Proof.Machine

/-- Every copy of a line that a core holds, of a SELFINV page's too. -/
def dropCopies (line : Nat) (c : Core) : Core :=
  let c := if listsLine line c then dropLine line c else c
  { c with mem := { c.mem with lines := c.mem.lines.filter (·.line != line), stash := c.mem.stash.filter (·.line != line) } }

/-- Bytes of metadata or of a frame, written at the home: every copy of their lines is invalidated first (R244, R251, R352), and no
code-clean bit is concerned (R283). -/
def State.rawWrite (s : State) (pa : Nat) (bs : List Byte) : State :=
  let ls := linesOf pa bs.length
  let s := ls.foldl (fun (s : State) l => s.mapCores (dropCopies l)) s
  { s with store := { touchAll s.store ls with
      bytes := wrBytes s.store.bytes pa bs
      hostCopies := s.store.hostCopies.filter fun l => !ls.contains l
      cleanHalves := s.store.cleanHalves.filter fun l => !ls.contains l
      poison := s.store.poison.filter fun l => !(ls.contains l && pa ≤ 128 * l && 128 * l + 128 ≤ pa + bs.length) } }

def State.entryAt (s : State) (pa : Nat) : Entry := Entry.ofNat (rdNat s.store.bytes pa 16)
def State.setEntry (s : State) (pa : Nat) (e : Entry) : State := s.rawWrite pa (toBytes 16 e.toNat)

/-- R175: a new version invalidates every staged copy of the tile. -/
def State.dropStaged (s : State) (pa : Nat) : State :=
  s.mapCores fun c => { c with mem := { c.mem with opbuf := c.mem.opbuf.filter fun t => t.entry != pa } }

/-- A new version of an entry. -/
def State.newVersion (s : State) (pa : Nat) (e : Entry) : State := (s.setEntry pa e).dropStaged pa

/-! ### Access to entries and frames -/

/-- The error of an access to n bytes of a tensor's metadata or frame (R259, R291, R365); these have physical addresses only (L73). -/
def State.tensorErr (s : State) (d : Desc) (pa n : Nat) : Option Err :=
  if s.plat.dead.contains (.base (Fin.ofNat 8 (dHome d))) || s.plat.dead.contains (.die (Fin.ofNat 4 (dHome d / 2))) then
    some ⟨0x2D, BitVec.ofNat 48 (pa / 128 * 128)⟩
  else if !isDevice pa || !isDevice (pa + n - 1) || (!dWorld d && (s.secureAddr pa || s.secureAddr (pa + n - 1))) then
    some ⟨0x1A, BitVec.ofNat 48 pa⟩
  else none

def State.poisoned (s : State) (pa n : Nat) : Bool := (linesOf pa n).any fun l => s.store.poison.contains l

/-- What a pin of a tile finds: the entry, or the status it returns. -/
def State.pinEntry (s : State) (d : Desc) (tile : Nat) : Except Err Entry :=
  let pa := entryOf d tile
  match s.tensorErr d pa 16 with
  | some e => .error e
  | none =>
    if s.poisoned pa 16 then .error ⟨0x1F, BitVec.ofNat 48 pa⟩
    else if (s.entryAt pa).psn then .error ⟨0x24, BitVec.ofNat 48 tile⟩
    else .ok (s.entryAt pa)

/-- R258: a frame with uncorrectable data poisons its tile; the frame is kept. -/
def State.poisonTile (s : State) (d : Desc) (tile : Nat) : State :=
  let pa := entryOf d tile
  let e := s.entryAt pa
  s.newVersion pa { e with psn := true, ver := (e.ver + 1) % 256 }

def frameAddr (e : Entry) : Nat := 64 * e.gaddr

/-- The elements of the version an entry names. -/
def State.frameElems (s : State) (d : Desc) (tile : Nat) (e : Entry) : Elems :=
  if e.size = 0 then List.replicate 1024 none
  else decodeFrame e.tag (dEtype d) (isPad d tile) (rdNat s.store.bytes (frameAddr e) (64 * e.size))

/-- A pinned read of one tile: its version's elements, or an error with every element absent (R254, R258).  DESIGN CHOICE: the lines
read are held in the L2, and fill no CACHE bank (R244, L93). -/
def State.readTile (s : State) (d : Desc) (tile : Nat) : State × Tile × Option Err :=
  let pa := entryOf d tile
  let nothing : Tile := ⟨pa, List.replicate 1024 none⟩
  let s := s.readHome (pa / 128)
  match s.pinEntry d tile with
  | .error e => (s, nothing, some e)
  | .ok e =>
    if e.size = 0 then (s, nothing, none)
    else match s.tensorErr d (frameAddr e) (64 * e.size) with
      | some x => (s, nothing, some x)
      | none =>
        if s.poisoned (frameAddr e) (64 * e.size) then (s.poisonTile d tile, nothing, some ⟨0x24, BitVec.ofNat 48 tile⟩)
        else
          let s := (linesOf (frameAddr e) (64 * e.size)).foldl State.readHome s
          (s, ⟨pa, s.frameElems d tile e⟩, none)

/-- The lines of the frames that a load of tiles reads. -/
def State.framesRead (s : State) (d : Desc) (ts : List Nat) : List Nat := ts.flatMap fun t => match s.pinEntry d t with
  | .ok e => linesOf (frameAddr e) (64 * e.size)
  | .error _ => []

/-- The tiles of a load, each at one version; the first error. -/
def State.readTiles (s : State) (d : Desc) : List Nat → State × List Tile × Option Err
  | [] => (s, [], none)
  | t :: ts =>
    let r := s.readTile d t
    let q := r.1.readTiles d ts
    (q.1, r.2.1 :: q.2.1, match r.2.2 with
      | some e => some e
      | none => q.2.2)

/-- An element of a load's tiles; absent elements and places outside the extent are none (R157, R240). -/
def elemIn (d : Desc) (tiles : List Tile) : Option (Nat × Nat) → Option (BitVec 32)
  | none => none
  | some (t, off) => match tiles.find? fun x => x.entry == entryOf d t with
    | some x => (x.elems[off]?).getD none
    | none => none

/-! ### The tile-table cache (R352) -/

/-- The tile-table cache of a core takes the lines of entries it reads that the L2 holds, 256 in all (R352, R411, L74). -/
def cacheEntries (s : State) (ls : List Nat) (c : Core) : Core :=
  { c with mem := { c.mem with ttc := (insertAll (ls.filter s.inL2) c.mem.ttc).take 256 } }

/-! ### Pins -/

/-- A pin of the version an entry names. -/
def State.addPin (s : State) (pa : Nat) : State :=
  let e := s.entryAt pa
  s.setEntry pa { e with pin := e.pin + 1 }

/-- The pins of the tiles of a load. -/
def State.pinsOf (s : State) (d : Desc) (ts : List Nat) : List Pin :=
  ts.map fun t => ⟨dHome d, entryOf d t, (s.entryAt (entryOf d t)).ver, (s.entryAt (entryOf d t)).gaddr⟩

def State.addPins (s : State) (ps : List Pin) : State := ps.foldl (fun (s : State) p => s.addPin p.entry) s

/-- The entries that the pins of a load's tiles add to. -/
def State.pinnable (s : State) (d : Desc) (ts : List Nat) : List Nat :=
  (ts.map (entryOf d)).filter fun pa => (s.tensorErr d pa 16).isNone

/-- No pin of these entries takes PIN above the full count (R254). -/
def State.pinRoom (s : State) (es : List Nat) : Bool :=
  es.all fun pa => (s.entryAt pa).pin + (es.filter (· == pa)).length ≤ 65535

/-- The count of the first frame of an address falls, and at 0 it leaves the list. -/
def lowerFirst (addr : Nat) : List Frame → List Frame
  | [] => []
  | f :: l => if f.addr == addr then (if f.pins ≤ 1 then l else { f with pins := f.pins - 1 } :: l) else f :: lowerFirst addr l

/-- R255: the count a frame was retired with falls; at 0 the frame is free. -/
def lowerRetired (m : MdWin) (addr : Nat) : MdWin := { m with retired := lowerFirst addr m.retired }

/-- The number that the pins of a replaced version carry: no version has it. -/
def oldVer : Nat := 256

/-- The pins of the version that an entry has named are those of a retired one now (R255, R363). -/
def retirePins (pa : Nat) (c : Core) : Core :=
  let pin (p : Pin) : Pin := if p.entry == pa then { p with ver := oldVer } else p
  let op (o : TokOp) : TokOp := match o.kind with
    | .pinned d a x ps => { o with kind := .pinned d a x (ps.map pin) }
    | _ => o
  let eng (e : Engine) : Engine := { e with queue := e.queue.map fun k => { k with prog := { k.prog with pins := k.prog.pins.map pin } } }
  { c with
    ops := c.ops.map op
    mx := { c.mx with ops := c.mx.ops.map fun o => { o with run := o.run.map fun r => { r with pins := r.pins.map pin } } }
    eng0 := eng c.eng0, eng1 := eng c.eng1 }

/-- An unpin of a version: of the current one, PIN falls; of a retired one, its frame's count falls.  A tile poisoned meanwhile has
kept its frame, and with it PIN (R258). -/
def State.unpin (s : State) (p : Pin) : State :=
  let e := s.entryAt p.entry
  let lower : State := s.setEntry p.entry { e with pin := e.pin - 1 }
  if e.ver == p.ver && e.gaddr == p.gaddr then lower
  else if (vat s.md p.home).retired.any fun f => f.addr == 64 * p.gaddr then
    { s with md := vtab 8 fun i => if i = p.home then lowerRetired (vat s.md i) (64 * p.gaddr) else vat s.md i }
  else if e.psn && e.gaddr == p.gaddr && p.ver != oldVer then lower
  else s

def State.unpinAll (s : State) (ps : List Pin) : State := ps.foldl State.unpin s

/-! ### The frame pool -/

/-- The pins of the reads in progress of a context. -/
def Core.pins (c : Core) : List Pin :=
  (c.ops.flatMap fun o => match o.kind with
    | .pinned _ _ _ ps => ps
    | _ => []) ++ (c.mx.ops.flatMap fun o => o.run.flatMap (·.pins)) ++ (c.eng0.queue ++ c.eng1.queue).flatMap fun k => k.prog.pins

def State.modMd (s : State) (stack : Nat) (f : MdWin → MdWin) : State :=
  { s with md := vtab 8 fun i => if i = stack then f (vat s.md i) else vat s.md i }

/-- Frames that may not be handed out. -/
def MdWin.frames (m : MdWin) : List Frame := m.used ++ m.retired

/-- R411: a pinned load or a streamed fetch holds a frame line, so that the L2 keeps it. -/
def State.holdsFrame (s : State) (line : Nat) : Bool :=
  (s.contexts.flatMap Core.pins).any fun p => (vat s.md p.home).frames.any fun f =>
    f.addr == 64 * p.gaddr && (linesOf f.addr (64 * f.size)).contains line

/-- A line brought into a set that has no way left: another one of the set, or else the line itself, leaves the L2, but none that is held
(R273, R411, L12). -/
def State.makeRoom (s : State) (line : Nat) : State :=
  let set := s.store.l2.filter (sameSet line)
  if set.length ≤ 16 then s
  else
    let out := set.filter fun l => l != line && !s.holdsFrame l
    let s := { s with draws := s.draws + 1 }
    match out[Config.choice s.draws % out.length]? with
    | some l => s.evictL2 l
    | none => if s.holdsFrame line then s else s.evictL2 line

/-- The L2 slices at the end of a clock: what has come in takes its ways, and a line may leave (R273, R274, R411, L12). -/
def State.settleL2 (s : State) : State :=
  let s := s.store.fresh.reverse.foldl State.makeRoom { s with store := { s.store with fresh := [] } }
  match Config.evicted s.clock with
  | some l => if s.inL2 l && !s.holdsFrame l then s.evictL2 l else s
  | none => s

/-- The run of granules at an address lies in the pool and is free. -/
def runFree (m : MdWin) (addr size : Nat) : Bool :=
  winBase m.pool ≤ addr && addr + 64 * size ≤ winLimit m.pool &&
    m.frames.all fun f => addr + 64 * size ≤ f.addr || f.addr + 64 * f.size ≤ addr

/-- R252 step 4: the device does not fix which free run a pool hands out (L11). -/
def allocFrame (m : MdWin) (draw size : Nat) : Option Nat :=
  let n := (winLimit m.pool - winBase m.pool) / 64
  let pick := winBase m.pool + 64 * (Config.poolPick draw % n)
  if runFree m pick size then some pick
  else (winBase m.pool :: m.frames.map fun f => f.addr + 64 * f.size).find? fun a => runFree m a size

/-- A range put in its place among ranges in the order of their first places. -/
def insertRange (x : Nat × Nat) : List (Nat × Nat) → List (Nat × Nat)
  | [] => [x]
  | y :: l => if x.1 ≤ y.1 then x :: y :: l else y :: insertRange x l

/-- How much ordered ranges cover from a place on, each place once. -/
def covered : Nat → List (Nat × Nat) → Nat
  | _, [] => 0
  | n, (a, b) :: l => (max b n - max a n) + covered (max b n) l

/-- The free granules of a pool: no granule counts twice that both a current and a retired version name (R363). -/
def MdWin.freeGranules (m : MdWin) : Nat :=
  let lo := winBase m.pool / 64
  let hi := winLimit m.pool / 64
  let range (f : Frame) : Nat × Nat := (max lo (min hi (f.addr / 64)), max lo (min hi (f.addr / 64 + f.size)))
  (hi - lo) - covered lo ((m.frames.map range).foldr insertRange [])

/-- R252 step 5: the old version's frame leaves with the live PIN count, and is free at once at 0. -/
def retireFrame (m : MdWin) (e : Entry) : MdWin :=
  if e.size = 0 then m
  else
    let used := m.used.filter fun f => f.addr != frameAddr e
    if e.pin = 0 then { m with used := used }
    else { m with used := used, retired := m.retired ++ [⟨frameAddr e, e.size, e.pin⟩] }

/-- R255: the retire list is full, so that a commit waits. -/
def MdWin.retireFull (m : MdWin) : Bool := 4096 ≤ m.retired.length

/-! ### Commit -/

/-- An ENTGO waits for the entry (R363). -/
def State.entgoWaits (s : State) (pa : Nat) : Bool := s.md.toList.any fun m => m.entgo.any fun g => g.1 == pa

/-- The write lock after an update of an entry: held when another waits (R252 step 5); an ENTGO that waits goes first, and the lock
falls for it (R363, R376). -/
def State.lockNext (s : State) (pa : Nat) : State :=
  let e := s.entryAt pa
  s.setEntry pa { e with wlk := !s.entgoWaits pa && s.updates.any fun u => u.entry == pa }

/-- An update arrives: it is served at once where nothing holds the lock and no ENTGO waits. -/
def State.lockFor (s : State) (pa : Nat) : State :=
  if (s.entryAt pa).wlk || s.entgoWaits pa then s else s.lockNext pa

/-- An element of the merged contents: the write-back's, else the current version's (R252 step 2). -/
def mergeElems (old : Elems) (new : List (Nat × BitVec 32)) : Elems :=
  (List.range 1024).map fun i => match new.find? fun p => p.1 == i with
    | some p => some p.2
    | none => (old[i]?).getD none

/-- The contents as the Pintle counts and writes them: every pattern, and the non-zero ones (R245, R246). -/
def contents (d : Desc) (tile : Nat) (l : Elems) : List Nat × List (Option Nat) :=
  let et := dEtype d
  let cb := dCb d (dCbact d)
  let all := (l.zip (List.range 1024)).map fun p => if isPad d tile p.2 then 0 else (p.1.getD 0).toNat
  (all, (all.zip (List.range 1024)).map fun p => if isPad d tile p.2 || patZero et cb p.1 then none else some p.1)

/-- Steps 2 to 5 of R252 for an update that holds the lock, with the error the write-back carries (R257, R258). -/
def State.commitTile (s : State) (u : Update) : State × Option Err :=
  let d := u.desc
  let home := dHome d
  match s.pinEntry d u.tileNo with
  | .error e => (s, some e)
  | .ok e =>
    let n := frameAddr e
    match (if e.size = 0 then none else s.tensorErr d n (64 * e.size)) with
    | some x => (s, some x)
    | none =>
      if e.size != 0 && s.poisoned n (64 * e.size) then (s.poisonTile d u.tileNo, some ⟨0x24, BitVec.ofNat 48 u.tileNo⟩)
      else match u.descPa with
        | .inl code => (s, some ⟨code, BitVec.ofNat 48 u.descVa⟩)
        | .inr dpa =>
          let c := contents d u.tileNo (mergeElems (s.frameElems d u.tileNo e) u.elems)
          let w := rdNat s.store.bytes dpa 8
          let eb := elemBits (dEtype d)
          let sz (t : Nat) : Nat := sizeUnder t eb c.1 c.2
          let tag := decideTag (field w 24 4) (field w 28 4) (bit w 32) e.tag sz
          let size := sz tag
          let draw := s.draws
          let s := { s with draws := draw + 1 }
          match (if size = 0 then some 0 else allocFrame (vat s.md home) draw size) with
          | none => (s, some ⟨0x44, BitVec.ofNat 48 u.tileNo⟩)
          | some a =>
            let s := if size = 0 then s else s.rawWrite a (encodeFrame tag eb c.1 c.2)
            let e' : Entry := ⟨a / 64, size, (e.ver + 1) % 256, tag, false, false, 0, (nonZeros c.2).length⟩
            let s := s.newVersion u.entry e'
            let add (m : MdWin) : MdWin := if size = 0 then m else { m with used := ⟨a, size, 0⟩ :: m.used }
            (s.modMd home fun m => add (retireFrame m e), none)

/-- An update the Pintle has done with is taken off its write-back, with the error it met. -/
def noteUpdate (id opId : Nat) (err : Option Err) (c : Core) : Core :=
  let first (old : Option Err) : Option Err := match old with
    | some e => some e
    | none => err
  let op (o : TokOp) : TokOp := if o.id != opId then o else match o.kind with
    | .committing w l => { o with kind := .committing w (l.filter (· != id)), err := first o.err }
    | _ => o
  let cp (k : Copy) : Copy := if k.id != opId then k else { k with commits := k.commits.map fun l => l.filter (· != id), err := first k.err }
  { c with ops := c.ops.map op, eng0 := { c.eng0 with queue := c.eng0.queue.map cp }
           eng1 := { c.eng1 with queue := c.eng1.queue.map cp } }

/-- The first update that waits at an entry. -/
def State.updateAt (s : State) (pa : Nat) : Option Update := s.updates.find? fun u => u.entry == pa

/-- The update in turn may be done with: its clock has come, it holds the lock, and the retire list has room for the version it
replaces, if it comes to step 5 (R252, R255). -/
def State.commitDue (s : State) (u : Update) : Bool :=
  u.since + 1 + Config.latency u.draw ≤ s.clock && match s.tensorErr u.desc u.entry 16 with
    | some _ => true
    | none => (s.entryAt u.entry).wlk && (!(vat s.md (dHome u.desc)).retireFull || (s.commitTile u).2.isSome)

/-- R252: the update in turn at an entry is committed or fails, and the lock passes on. -/
def State.pintle (s : State) (pa : Nat) : State :=
  match s.updateAt pa with
  | none => s
  | some u =>
    let s := { s with updates := s.updates.filter fun v => v.id != u.id }
    let r := s.commitTile u
    let dead := match s.tensorErr u.desc pa 16 with
      | some _ => true
      | none => false
    (if dead then r.1 else r.1.lockNext pa).modOwner u.core (noteUpdate u.id u.opId r.2)

/-- PINTLE_COMMIT (R252). -/
def execPintleCommit (entry : Nat) (s : State) : Out :=
  .next (match s.updateAt entry with
    | some u => if s.commitDue u then s.pintle entry else s
    | none => s)

/-! ### Starting a write-back -/

/-- The physical address of a handle's descriptor in the space of the write-back's world, by a walk, which reads at the home, or
the code it fails with (R226, R250, R346, R348). -/
def State.descAddr (s : State) (h : Handle) (sec : Bool) : State × Sum (BitVec 8) Nat :=
  ((s.walkLines sec (vaOf h.addr)).foldl State.readHome s, match s.walk sec (vaOf h.addr) with
    | .ok x => .inr (x.paOf (vaOf h.addr))
    | .fail code => .inl code)

/-- The elements of a write-back grouped by tile, places outside the extent left out (R159, R240). -/
def groupByTile (l : List (Option (Nat × Nat) × BitVec 32)) : List (Nat × List (Nat × BitVec 32)) :=
  (tilesOf (l.map (·.1))).map fun t => (t, l.filterMap fun p => match p.1 with
    | some (u, off) => if u = t then some (off, p.2) else none
    | none => none)

/-- One update per touched tile arrives at the home base die and waits for the lock (R160, R252 step 1). -/
def State.queueUpdates (s : State) (core : CoreId) (opId : Nat) (baddr : BitVec 48) (slot : Fin 8) (d : Desc) (dva : Nat) (dpa : Sum (BitVec 8) Nat) :
    List (Nat × List (Nat × BitVec 32)) → State × List Nat
  | [] => (s, [])
  | (t, es) :: l =>
    let pa := entryOf d t
    let u : Update := ⟨s.nextId, s.draws, s.clock, core, opId, baddr, slot, pa, t, d, dva, dpa, es⟩
    let s := { s with nextId := s.nextId + 1, draws := s.draws + 1, updates := s.updates ++ [u] }
    let s := match s.tensorErr d pa 16 with
      | some _ => s
      | none => s.lockFor pa
    let r := s.queueUpdates core opId baddr slot d dva dpa l
    (r.1, u.id :: r.2)

end Sys2Proof.Machine
end

