-- ==== Sys2Proof/Machine/Registers.lean ====
section
/-! DEFINITION. The register region (R353, R361 to R364, R366, R369, R374): what a read of a register answers and what a write
does, withdrawals (R353, R354), updates of entries by system software and bias changes (R287, R363). -/

namespace Sys2Proof.Machine

/-! ### Reads -/

def linkWord (l : LinkSt) : Word :=
  BitVec.ofNat 64 ((if l.up then 1 else 0) + (if l.failed then 2 else 0) + 256 * l.retries.toNat)

/-- R364: the two words of a region-table entry. -/
def regionWord (r : Region) (hi : Bool) : Word :=
  if hi then BitVec.ofNat 64 (r.limit.toNat * 2 ^ 16)
  else BitVec.ofNat 64 ((if r.v then 1 else 0) + (if r.sec then 2 else 0) + r.base.toNat * 2 ^ 16)

def regionAt (l : List Region) (i : Nat) : Region := (l[i]?).getD ⟨false, false, 0, 0⟩

/-- The platform page; the manual gives its registers no offsets (L21). -/
def powerRead (s : State) (o : Nat) : Word :=
  match o with
  | 0x000 => s.plat.pcap
  | 0x008 => s.plat.pdraw
  | 0x010 => if s.plat.therm.isEmpty then 0 else 1
  | 0x018 => s.host.hdrop
  | _ => if 0x020 ≤ o ∧ o < 0x0A0 then BitVec.ofNat 64 (vat s.plat.frozenCount ((o - 0x020) / 8)) else 0

def windowRead (m : MdWin) (o : Nat) : Word :=
  match o with
  | 0x000 => m.mdreg
  | 0x008 => m.pool
  | 0x010 => m.entaddr
  | 0x018 => m.entdata0
  | 0x020 => m.entdata1
  | 0x038 => m.biasst
  | 0x040 => BitVec.ofNat 64 m.freeGranules
  | 0x048 => BitVec.ofNat 64 m.retired.length
  | _ => 0

/-- A core's 8-byte read of a register, in a world (R361). -/
def State.regRead (s : State) (sec : Bool) (off : Nat) : Word :=
  let o := off % 4096
  match off / 4096 with
  | 1 => match o with
    | 0x000 => s.host.root0
    | 0x008 => if sec then s.host.root1 else 0
    | 0x018 => s.host.wdTaken
    | 0x020 => s.host.wdDone
    | _ => 0
  | 2 => match o with
    | 0x000 => s.host.evbase
    | 0x008 => s.host.evsize
    | 0x010 => s.host.evhead
    | 0x018 => s.host.evtail
    | 0x020 => s.host.evdrop
    | 0x028 => s.host.evvec
    | _ => 0
  | 3 => match o with
    | 0x000 => s.plat.devnum
    | 0x008 => s.plat.rtbase
    | _ => if 0x010 ≤ o ∧ o < 0x070 then linkWord (vat s.plat.links ((o - 0x010) / 8)) else 0
  | 4 => powerRead s o
  | 5 => if sec && o < 1024 then regionWord (regionAt s.plat.regions (o / 16)) (o % 16 == 8) else 0
  | n => if 8 ≤ n ∧ n < 16 then windowRead (vat s.md (n - 8)) o else 0

/-! ### Who reaches them -/

/-- The host reaches the registers while its link is up: BAR0 opens with it (R289, R358, R375). -/
def State.hostOpen (s : State) : Bool := s.plat.hostLink && !s.plat.dead.contains .host

/-- Who asks can reach the registers: the host, which is not secure, over its link, or a core once bring-up is done. -/
def State.regsOpen (s : State) (secure : Bool) : Bool := if secure then s.plat.bringup == .done else s.hostOpen

/-! ### Withdrawals (R353, R354) -/

/-- A withdrawal covers a byte range of a space. -/
def Wdr.covers (w : Wdr) (space : Bool) (va size : Nat) : Bool :=
  w.space == space && (w.all || (va < (w.page + w.npg) * 4096 && w.page * 4096 < va + size))

/-- The address of a copy's linear sides (R326). -/
def CopyKind.linear : CopyKind → Bool
  | .cpeer _ _ _ => false
  | _ => true

/-- An engine has a copy in progress in a space. -/
def Engine.inSpace (e : Engine) (space : Bool) : Bool :=
  e.queue.any fun k => k.started && k.sec == space && k.kind.linear

/-- The translations of the engine's copies that the request withdraws: no copy takes them again, and what is left of their pages is
done with them first (R326, R327). -/
def Wdr.mark (w : Wdr) (e : Engine) : Engine :=
  let held (h : Held) : Held := { h with old := h.xls.filter fun x => h.old.contains x || w.covers x.space x.va x.size }
  { e with queue := e.queue.map fun k => { k with prog := { k.prog with
      pages := held k.prog.pages
      subs := k.prog.subs.map fun q => { q with pages := held q.pages } } } }

/-- The accesses of a context whose translations were taken in a space; of a write-back that commits, that of its descriptor (R354). -/
def linIds (space : Bool) (c : Core) : List Nat :=
  ((c.ops.filter fun o => match o.kind.lin, o.kind with
    | some l, _ => l.sec == space
    | none, .committing _ _ => o.sec == space
    | none, _ => false).map (·.id)) ++
  ((c.eng0.queue ++ c.eng1.queue).filter fun k => k.commits.isSome && k.sec == space).map (·.id)

/-- An access is still to be performed: an operation's, or the read of a descriptor by an update (R250). -/
def State.accessing (s : State) (g : Core) (id : Nat) : Bool := g.ops.any (fun o => o.id == id) || s.updates.any fun u => u.opId == id

/-- R354 steps 1 and 2: the request is taken. -/
def State.wdreq (s : State) (sec : Bool) (v : Word) : State :=
  let n := v.toNat
  let space := bit n 1
  if space && !sec then s
  else
    let w : Wdr := ⟨bit n 0, space, field n 12 36, field n 4 8 + 1, s.cores.map fun c => (c.id, (c :: s.ghosts c.id).flatMap (linIds space))⟩
    let keep (x : Xl) : Bool := !w.covers x.space x.va x.size
    let s := s.mapCores fun c => { c with
      mem := { c.mem with tlb := c.mem.tlb.filter keep }
      walkFails := c.walkFails.filter fun f => f.1 != space }
    let s := s.mapContexts fun c => { c with eng0 := w.mark c.eng0, eng1 := w.mark c.eng1 }
    { s with
      stlb := vtab 4 fun i => (vat s.stlb i).filter keep
      host := { s.host with wdTaken := s.host.wdTaken + 1, wdrs := s.host.wdrs ++ [w] } }

def execWdreq (secure : Bool) (v : Word) (s : State) : Out := .next (if s.regsOpen secure then s.wdreq secure v else s)

/-- An engine that has to acknowledge the first request (R327). -/
def mustAck (w : Wdr) (e : Engine) : Bool := e.inSpace w.space && !e.acked

/-- R354 step 4: every core and engine has acknowledged the first request. -/
def State.withdrawalDue (s : State) : Bool :=
  match s.host.wdrs with
  | [] => false
  | w :: _ => s.cores.all fun c => (c :: s.ghosts c.id).all fun g => !mustAck w g.eng0 && !mustAck w g.eng1 &&
      ((w.waits.find? fun p => p.1 == c.id).map fun p => p.2.all fun i => !s.accessing g i).getD true


/-- WITHDRAWAL_COMPLETE (R353, R354). -/
def execWithdrawalComplete (s : State) : Out :=
  if s.withdrawalDue then
    let s := s.mapContexts fun c => { c with eng0 := { c.eng0 with acked := false }, eng1 := { c.eng1 with acked := false } }
    .next { s with host := { s.host with wdDone := s.host.wdDone + 1, wdrs := s.host.wdrs.drop 1 } }
  else .next s

/-! ### Metadata windows (R363) -/

/-- A handle of a tensor of the stack. -/
def bindsStack (stack : Nat) (c : Core) : Bool :=
  c.regs.h.toList.any fun h => match h with
    | some x => dHome x.desc == stack
    | none => false

/-- R363: a tensor of the stack is bound, on a core or in a saved context. -/
def State.stackBound (s : State) (stack : Nat) : Bool :=
  s.cores.any (bindsStack stack) || s.sched.tasks.any fun t => match t.ctx with
    | some c => bindsStack stack c
    | none => false

def winMask : Word := 0xFFFFFF7FFFFF0000

/-- Two address windows have no address in common. -/
def apart (a b : Word) : Bool := !(winBase a < winLimit b && winBase b < winLimit a)

/-- MDREG of a stack; refused while a tensor is bound, or where it would overlap POOL (L40). -/
def State.setMdreg (s : State) (stack : Nat) (v : Word) : State :=
  let w := v &&& winMask
  if s.stackBound stack || !apart w (vat s.md stack).pool then s.hdropped else s.modMd stack fun m => { m with mdreg := w }

/-- POOL of a stack, refused likewise. -/
def State.setPool (s : State) (stack : Nat) (v : Word) : State :=
  let w := v &&& winMask
  if s.stackBound stack || !apart w (vat s.md stack).mdreg then s.hdropped else s.modMd stack fun m => { m with pool := w }

def execMdreg (stack : Fin 8) (v : Word) (s : State) : Out := .next (if s.hostOpen then s.setMdreg stack.val v else s)

def execPool (stack : Fin 8) (v : Word) (s : State) : Out := .next (if s.hostOpen then s.setPool stack.val v else s)

/-- ENTGO: the update waits for the entry (R363). -/
def State.entgo (s : State) (stack : Nat) (v : Word) : State :=
  if v.toNat % 2 = 0 then s
  else s.modMd stack fun m => { m with
    entgo := m.entgo ++ [(m.entaddr.toNat, BitVec.ofNat 128 (m.entdata0.toNat + 2 ^ 64 * m.entdata1.toNat))] }

def execEntgo (stack : Fin 8) (v : Word) (s : State) : Out := .next (if s.hostOpen then s.entgo stack.val v else s)

/-- The first waiting write that may be made: WLK is 0 and the retire list has room (R255, R363). -/
def State.entgoDue (s : State) (stack : Nat) : Option (Nat × BitVec 128) :=
  if (vat s.md stack).retireFull then none else (vat s.md stack).entgo.find? fun g => !(s.entryAt g.1).wlk

/-- R363: GADDR, SIZE, VER, TAG, PSN and NNZ as given, PIN 0; the old version is retired; the lock passes on. -/
def State.entgoUpdate (s : State) (stack : Nat) : State :=
  match s.entgoDue stack with
  | some (pa, d) =>
    let old := s.entryAt pa
    let e := Entry.ofNat d.toNat
    let s := (s.newVersion pa { e with pin := 0, wlk := false }).mapContexts (retirePins pa)
    let add (m : MdWin) : MdWin := if e.size = 0 then m else { m with used := ⟨frameAddr e, e.size, 0⟩ :: m.used }
    (s.modMd stack fun m => add { (retireFrame m old) with entgo := m.entgo.erase (pa, d) }).lockNext pa
  | none => s

def execEntgoUpdate (stack : Fin 8) (s : State) : Out := .next (s.entgoUpdate stack.val)

/-! ### Page bias (R286 to R288) -/

/-- R287: the request's status word. -/
def State.biasStatus (s : State) (addr code : Nat) : State :=
  if isMemory addr && !s.deadHome addr then s.devWrite addr (toBytes 8 code) else s

def setBias (st : Store) (page : Nat) (b : Option Bias) : Store :=
  let l := st.bias.filter fun p => p.1 != page
  { st with bias := match b with
      | some x => (page, x) :: l
      | none => l }

/-- BIASREQ: a change begins, or is refused with 0x80; a page that has the bias already answers at once (L22). -/
def State.biasreq (s : State) (stack : Nat) (v : Word) : State :=
  let toHost := bit v.toNat 0
  let page := field v.toNat 12 27
  let addr := (vat s.md stack).biasst.toNat
  let pa := 4096 * page
  if s.biasChanging pa || s.hidden pa then s.biasStatus addr 0x80
  else if s.hostBiased pa == toHost then s.biasStatus addr (if toHost then 2 else 1)
  else
    let b : Bias := if toHost then .toHost s.clock s.draws addr else .toDevice s.clock s.draws addr
    { s with draws := s.draws + 1, store := setBias s.store page (some b) }

def execBiasreq (stack : Fin 8) (v : Word) (s : State) : Out := .next (if s.hostOpen then s.biasreq stack.val v else s)

def pageLines (page : Nat) : List Nat := (List.range 32).map fun i => 32 * page + i

/-- The stash lines of some lines are recalled from every core (R287, R293). -/
def State.recallFrom (s : State) (ls : List Nat) : State :=
  s.cores.foldl (fun (s : State) c =>
    if c.mem.stash.any fun l => ls.contains l.line then s.asCore c.id fun s => s.recallStash fun l => ls.contains l.line else s) s

/-- R287 steps 3 and 4: every copy of the page's lines is invalidated, stash lines of SELFINV pages among them, and its L2 lines are
dropped. -/
def State.dropPage (s : State) (page : Nat) : State :=
  let ls := pageLines page
  let s := s.recallFrom ls
  let s := s.mapCores fun c => ls.foldl (fun c l => if listsLine l c then dropLine l c else c) c
  { s with store := { s.store with
      l2 := s.store.l2.filter fun l => !ls.contains l
      scopes := s.store.scopes.filter fun r => !ls.contains r.line } }

/-- An access issued before a clock, whose turn in its order has come, is in flight to the page. -/
def flyingTo (page clock : Nat) (c : Core) : Bool :=
  c.ops.any fun o => o.issue < clock && c.settled o.after && match o.kind.lin with
    | some l => l.pas.any fun pa => pa / 4096 == page
    | none => false

/-- The change's last steps. -/
def State.biasComplete (s : State) (page : Nat) : State :=
  match s.biasOf (4096 * page) with
  | some (.toHost _ _ addr) =>
    let s := s.dropPage page
    { s with store := setBias s.store page (some .host) }.biasStatus addr 2
  | some (.toDevice _ _ addr) =>
    let ls := pageLines page
    let s := { s with store := { s.store with hostCopies := s.store.hostCopies.filter fun l => !ls.contains l } }
    { s with store := setBias s.store page none }.biasStatus addr 1
  | _ => s

/-! ### Writes -/

/-- LENABLE (R362): 1 is taken only when ROOT0 is set and a ring is named. -/
def State.writeLenable (s : State) (v : Word) : State :=
  if v.toNat % 2 = 0 then { s with host := { s.host with lenable := false } }
  else if s.host.root0 != 0 && (ringSize s.host).isSome then { s with host := { s.host with lenable := true } }
  else s.hdropped

def execLenable (v : Word) (s : State) : Out := .next (if s.hostOpen then s.writeLenable v else s)

/-- A written PCAP lies in 500 to 2,000 W; the manual does not say what another value leaves (L23). -/
def pcapOf (s : State) (v : Word) : Word :=
  if 500 ≤ v.toNat ∧ v.toNat ≤ 2000 then v else BitVec.ofNat 64 (500 + Config.choice s.draws % 1501)

/-- R364: one word of the region table. -/
def setRegion (l : List Region) (i : Nat) (hi : Bool) (v : Word) : List Region :=
  (List.range 64).map fun k =>
    let r := regionAt l k
    if k != i then r
    else if hi then { r with limit := BitVec.ofNat 24 (field v.toNat 16 23) }
    else { r with v := bit v.toNat 0, sec := bit v.toNat 1, base := BitVec.ofNat 23 (field v.toNat 16 23) }

/-- The registers of a metadata window that have no row of their own. -/
def windowWrite (m : MdWin) (o : Nat) (v : Word) : MdWin :=
  match o with
  | 0x010 => { m with entaddr := v &&& 0x0000007FFFFFFFF0 }
  | 0x018 => { m with entdata0 := v }
  | 0x020 => { m with entdata1 := v }
  | 0x038 => { m with biasst := v &&& 0x0000007FFFFFFFF8 }
  | _ => m

/-- An 8-byte write to a register that has no row of its own, in a world (R353, R361, R363, R364, R366, R369, R374). -/
def State.plainRegWrite (s : State) (sec : Bool) (off : Nat) (v : Word) : State :=
  let o := off % 4096
  match off / 4096 with
  | 1 => match o with
    | 0x000 => { s with host := { s.host with root0 := v &&& 0x000FFFFFFFFFF000 } }
    | 0x008 => if sec then { s with host := { s.host with root1 := v &&& 0x000FFFFFFFFFF000 } } else s
    | _ => s
  | 2 => match o with
    | 0x000 => { s with host := { s.host with evbase := v &&& 0x000FFFFFFFFFF000 } }
    | 0x008 => { s with host := { s.host with evsize := v &&& 0x1F } }
    | 0x018 => { s with host := { s.host with evtail := v } }
    | 0x028 => { s with host := { s.host with evvec := v &&& 0xFFFF83FF } }
    | _ => s
  | 3 => if !sec then s else match o with
    | 0x000 => { s with plat := { s.plat with devnum := v &&& 0xFFF } }
    | 0x008 => { s with plat := { s.plat with rtbase := v &&& 0x0000007FFFFFF000 } }
    | _ => s
  | 4 => if sec && o == 0 then { s with draws := s.draws + 1, plat := { s.plat with pcap := pcapOf s v } } else s
  | 5 => if sec && o < 1024 then { s with plat := { s.plat with regions := setRegion s.plat.regions (o / 16) (o % 16 == 8) v } } else s
  | n => if 8 ≤ n ∧ n < 16 then s.modMd (n - 8) fun m => windowWrite m o v else s

/-- The launch port's registers as the host reads them (R362). -/
def launchPortRead (h : HostPort) (o : Nat) : Word := match o with
  | 0x040 => h.ltaken
  | 0x048 => h.lrefused
  | 0x050 => h.ldiscard
  | 0x058 => if h.lenable then 1 else 0
  | _ => 0

/-- What a read at BAR0 + off answers (R361); LAUNCH is not readable, and an access that is not 8 bytes wide answers free bytes (L24). -/
def State.hostRegRead (s : State) (secure : Bool) (off : Nat) : List Byte :=
  if off % 8 != 0 || off < 64 then (List.range 8).map fun i => Config.freeByte (s.draws + i)
  else toBytes 8 (if off < 4096 && !secure then launchPortRead s.host off else s.regRead secure off).toNat

/-- REGISTER_WRITE, or a read of the host at BAR0 where no word is written; a write to LAUNCH that is not one whole record is discarded
and counted (R301, R361, R362). -/
def execRegisterWrite (secure : Bool) (off : BitVec 16) (v : Option Word) (s : State) : Out :=
  .next (if !s.regsOpen secure then s
    else match v with
      | none => { s with draws := s.draws + 8, host := { s.host with reply := (s.hostRegRead secure off.toNat, false) } }
      | some w =>
        if off.toNat < 64 then (if secure then s else { s with host := { s.host with ldiscard := s.host.ldiscard + 1 } })
        else if off.toNat % 8 != 0 then s
        else s.plainRegWrite secure off.toNat w)

/-- A core's 8-byte write to a register of any kind (R361): the launch port takes none. -/
def State.regWrite (s : State) (sec : Bool) (off : Nat) (v : Word) : State :=
  let n := off / 4096
  let k := n - 8
  if n = 1 ∧ off % 4096 = 0x010 then s.wdreq sec v
  else if 8 ≤ n ∧ n < 16 then
    match off % 4096 with
    | 0x000 => s.setMdreg k v
    | 0x008 => s.setPool k v
    | 0x028 => s.entgo k v
    | 0x030 => s.biasreq k v
    | _ => s.plainRegWrite sec off v
  else s.plainRegWrite sec off v

end Sys2Proof.Machine
end

