-- ==== Sys2Proof/Machine/Operands.lean ====
section
/-! DEFINITION. Every operand form: register sources with removal and peek (R9, R10, R49), long immediates (R44), address
formation and translation (R14, R36, R148, R150, R197, R272), handles (R17, R224), core sets (R59) and the scope
checker (R200). -/

namespace Sys2Proof.Machine

/-! ### Register sources -/

/-- A read of an s register (R8, R9, R10): a queue's head is removed unless the read is a peek. -/
def readS (slot : Fin 8) (r : Fin 16) (pk : Bool) : IssM Word := do
  let c ← getCore
  if r = 0 then return 0
  else if sQueue c.csr.qmode r then
    match c.regs.s.get r with
    | [] => trapF slot 0x11 r.val
    | x :: l =>
      if !pk then modCore fun c => { c with regs := { c.regs with s := c.regs.s.set r l } }
      return x
  else return (c.regs.s.get r).headD 0

def readV (slot : Fin 8) (r : Fin 16) (pk : Bool) : IssM VReg := do
  let c ← getCore
  if r = 0 then return VReg.zero
  else if vQueue c.csr.qmode r then
    match c.regs.v.get r with
    | [] => trapF slot 0x11 (16 + r.val)
    | x :: l =>
      if !pk then modCore fun c => { c with regs := { c.regs with v := c.regs.v.set r l } }
      return x
  else return (c.regs.v.get r).headD VReg.zero

def readSq (slot : Fin 8) (q : QSrc) : IssM Word := readS slot q.r q.pk
def readVq (slot : Fin 8) (q : QSrc) : IssM VReg := readV slot q.r q.pk

/-- A long immediate sign-extended to 64 bits (R44). -/
def immW (v : BitVec 32) : Word := v.signExtend 64

/-- The B operand of class R in the S, M and C slots (R44). -/
def srcBs (slot : Fin 8) : SrcB → IssM Word
  | .reg r pk => readS slot r pk
  | .imm v => return immW v

/-- The B operand of class R in the V slots: IMM unchanged in all 64 lanes (R44). -/
def srcBv (slot : Fin 8) : SrcB → IssM VReg
  | .reg r pk => readV slot r pk
  | .imm v => return vsplat v

/-- The B operand of class C: no peek bit (R49). -/
def srcCs (slot : Fin 8) : SrcC → IssM Word
  | .reg r => readS slot r false
  | .imm v => return immW v

def srcCv (slot : Fin 8) : SrcC → IssM VReg
  | .reg r => readV slot r false
  | .imm v => return vsplat v

/-- The immediate of class I, signed (R48). -/
def immInt : ImmI → Int
  | .short v sx => if sx then sextInt v.toNat 4 else (v.toNat : Int)
  | .long v => v.toInt

/-- The immediate where the entry zero-extends it (R119, R129); SX of a short one has no effect (L68). -/
def immNat : ImmI → Nat
  | .short v _ => v.toNat
  | .long v => v.toNat

/-- I4 as a code. -/
def immCode : ImmI → Nat
  | .short v _ => v.toNat
  | .long _ => 0

def immOff (i : Option (BitVec 32)) : Word := immW (i.getD 0)

/-! ### Handles -/

/-- A TBIND of the handle is outstanding. -/
def Core.binding (c : Core) (h : Fin 16) : Bool := c.ops.any fun o => match o.kind with
  | .tbind k _ _ => k == h
  | _ => false

/-- R224: an operation on a handle waits for its TBIND. -/
def needBound (h : Fin 16) : IssM Unit := do
  if (← getCore).binding h then stallFor .tbind

/-- The handle an operation names (R17, R224). -/
def bound (slot : Fin 8) (h : Fin 16) : IssM Handle := do
  needBound h
  match (← getCore).regs.h.get h with
  | some x => return x
  | none => trapF slot 0x20 h.val

/-! ### Linear addresses -/

/-- R14: bits [59:48] of a formed address are zero. -/
def checkForm (slot : Fin 8) (e : Word) : IssM Unit :=
  if field e.toNat 48 12 != 0 then trapF slot 0x18 (vaOf e) else pure ()

/-- R272: a byte of an unclaimed half of the instruction scratchpad. -/
def checkClaimed (slot : Fin 8) (as : List Nat) : IssM Unit := do
  let c ← getCore
  match as.find? fun a => match ihOffset a with
      | some off => !c.halfClaimed off
      | none => false with
  | some a => trapF slot 0x14 a
  | none => pure ()

/-- A formed linear address: its form, and its alignment to n bytes (R197, R148); `as` are the first bytes of the pages that the access
reaches, for a claim violation decides over an address-form fault (R337). -/
def linAddr (slot : Fin 8) (e : Word) (n : Nat) (as : List Nat) : IssM Nat := do
  checkForm slot e
  if e.toNat % n != 0 then
    checkClaimed slot as
    trapF slot 0x18 (vaOf e)
  return vaOf e

/-- The translation of the page of an accessed byte (R148, R272, R350, R351). -/
def translateOne (slot : Fin 8) (write : Bool) (a : Nat) : IssM Xl := do
  let s ← get
  if 2 ^ 48 ≤ a then trapF slot 0x1A a
  match ihOffset a with
  | some off => if s.core.halfClaimed off then trapF slot 0x19 a else trapF slot 0x14 a
  | none =>
    match s.probe s.core.csr.sec write a with
    | .fault code => trapF slot code.toNat a
    | .walk => stallFor (.walk s.core.csr.sec (a % 2 ^ 48))
    | .ok x => return x

/-- What an operation gives, or none where it has met a condition. -/
def attempt {α : Type} (m : IssM α) : IssM (Option α) := tryCatch (some <$> m) fun _ => pure none

/-- The translations of the pages whose first accessed bytes are listed; the conditions of every page count (R337). -/
def translate (slot : Fin 8) (write : Bool) : List Nat → IssM (List Xl)
  | [] => return []
  | a :: l => do
    let x ← attempt (translateOne slot write a)
    let xs ← translate slot write l
    match x with
    | some x => return x :: xs
    | none => throw ()

/-- The first byte of each page of a range. -/
def firstBytes (va n : Nat) : List Nat := (pagesOf va n).map fun p => max va (4096 * p)

/-- A checked access of n bytes (R148). -/
def access (slot : Fin 8) (write : Bool) (va n : Nat) : IssM Lin := do
  let xs ← translate slot write (firstBytes va n)
  return ⟨va, xs, (← getCore).csr.sec⟩

/-- The first active byte of each page that lanes touch, lane i at va + 4i. -/
def laneFirsts (va : Nat) (act : Word) : List Nat :=
  let as := (ones 64 act.toNat).map fun i => va + 4 * i
  as.foldl (fun l a => if l.any fun b => b / 4096 == a / 4096 then l else l ++ [a]) []

/-! ### Local addresses -/

/-- A formed local offset (R14, R150, R197). -/
def localAddr (slot : Fin 8) (e : Word) (n : Nat) : IssM Nat := do
  if field e.toNat 21 39 != 0 || e.toNat % n != 0 then trapF slot 0x18 (vaOf e)
  return field e.toNat 0 21

/-- R36: every byte lies in a SCRATCH bank. -/
def checkLocal (slot : Fin 8) (off n : Nat) : IssM Unit := do
  match (← getCore).badLocal off n with
  | some o => trapF slot 0x19 o
  | none => pure ()

def addBanks (l : List (Nat × Bool × Nat)) : IssM Unit := modIss fun i => { i with banks := i.banks ++ l }

/-- The rows of a range of local bytes (R152). -/
def rowsOf (off n : Nat) : List (Nat × Bool × Nat) :=
  if n = 0 then [] else ((List.range ((off + n - 1) / 256 - off / 256 + 1)).map fun i => off / 256 + i).map fun r => (r / 256, true, r)

def localBytes (c : Core) (off n : Nat) : List Byte := rdBytes c.mem.sram off n

def localWrite (off : Nat) (bs : List Byte) : IssM Unit := modIss fun i => { i with lwr := i.lwr ++ [⟨off, bs⟩] }

/-- The word with an uncorrectable error that a local range touches (R292). -/
def badWordIn (c : Core) (off n : Nat) : Option Nat :=
  c.mem.badWords.find? fun w => off < 8 * w + 8 && 8 * w < off + n

/-- A local access waits for the accesses of its class issued before it, for acquires, and for the fences of its class (R37, R199, R233,
L66); one that names no address register carries class 0 (L81). -/
def localTurn (cls : Nat) : IssM Unit := do
  let c ← getCore
  if !c.settled (classAfter c cls) then stallFor .hold

/-- A local result lands at t + lat, or through the token with LANDMODE.SCR = 1 (R22); a token-guarded one ends in
error where its words do (R292), and then lands zero (R32). -/
def landLocal (slot : Fin 8) (k : Tok) (cls lat : Nat) (bad : Option Nat) (l : List (Dest × Val × Word)) : IssM Unit := do
  localTurn cls
  if (← getCore).csr.scr then
    let zero (x : Val) : Val := match x with
      | .w _ => .w 0
      | .v _ => .v VReg.zero
    let l := match bad with
      | some _ => l.map fun r => (r.1, zero r.2.1, r.2.2)
      | none => l
    let _ ← issueErr slot (some k) cls [] (.local l) (bad.map fun w => ⟨0x1F, BitVec.ofNat 48 (8 * w)⟩)
  else
    match bad with
    | some w => trapF slot 0x1F (8 * w)
    | none => l.forM fun r => landAt slot lat r.1 r.2.1 r.2.2 none

/-! ### Core sets and scopes -/

/-- The cores of a core-set descriptor (R59), ascending. -/
def coreSet (w : BitVec 24) : List CoreId :=
  (List.range 128).filterMap fun c =>
    if bit w.toNat (c % 8) && bit w.toNat (8 + c / 8) then some (Fin.ofNat 128 c) else none

/-- The checker's record of a line (R200, R411). -/
def scopeRecord (s : State) (line : Nat) : Option ScopeRec := s.store.scopes.find? fun r => r.line == line

/-- R200: a synchronising access of a scope to a line is accepted, or takes the scope trap; a line without an L2 slice has a
record too (L84). -/
def syncCheck (slot : Fin 8) (scope : Nat) (va pa : Nat) : IssM Unit := do
  let s ← get
  match scopeRecord s (pa / 128) with
  | some r => if !scopeIncludes scope s.core.id r.core then trapF slot 0x2B (va / 128 * 128)
  | none => pure ()
  modIss fun i => { i with scopes := ⟨pa / 128, s.core.id, BitVec.ofNat 3 scope⟩ :: i.scopes }

/-- The physical address of a translated access's first byte. -/
def Lin.pa (l : Lin) : Nat := match l.xl l.va with
  | some x => x.paOf l.va
  | none => 0

end Sys2Proof.Machine
end

