-- ==== Sys2Proof/Machine/ScalarMem.lean ====
section
/-! DEFINITION. The scalar loads and stores, synchronising accesses, atomics and push stores of slot S (R196 to R202):
what they do at issue.  What they do when they are performed stands in Perform.lean. -/

namespace Sys2Proof.Machine

/-- The width of a scalar access in bytes (the table before R197). -/
def widthOf (w : BitVec 3) : Nat := 2 ^ (w.toNat % 4)

/-- ext of R197: zero- or sign-extended by W. -/
def extW (w : BitVec 3) (x : Nat) : Word :=
  let n := 8 * widthOf w
  if 4 ≤ w.toNat then sext64 x n else BitVec.ofNat 64 (x % 2 ^ n)

/-- The address of a class-L operation: its address register and its byte offset (R14, R44). -/
def addrL (o : FL) : IssM Word := return (← getCore).regs.a.get o.a + immOff o.imm

/-- The address register alone: IMM is a control word (R201, R202, R162). -/
def addrA (o : FL) : IssM Word := return (← getCore).regs.a.get o.a

/-- SLD (R197, R198). -/
def execSld (o : FL) (s : State) : Out :=
  runOp (.sld o) 0 (guardOn · o.g) (do
    let e ← addrL o
    let va ← linAddr 0 e (widthOf o.w) (firstBytes (vaOf e) (widthOf o.w))
    let l ← access 0 false va (widthOf o.w)
    let _ ← issueTok 0 (some o.k) (classOf e) (classAfter (← getCore) (classOf e)) (.sld l o.w o.d)) s

/-- SST (R197, R198). -/
def execSst (o : FL) (s : State) : Out :=
  runOp (.sst o) 0 (guardOn · o.g) (do
    let x ← readS 0 o.d false
    let e ← addrL o
    let va ← linAddr 0 e (widthOf o.w) (firstBytes (vaOf e) (widthOf o.w))
    let l ← access 0 true va (widthOf o.w)
    let _ ← issueTok 0 (some o.k) (classOf e) (classAfter (← getCore) (classOf e)) (.sst l (widthOf o.w) x)) s

/-- SLDL (R197, R198, R150 to R152). -/
def execSldl (o : FL) (s : State) : Out :=
  runOp (.sldl o) 0 (guardOn · o.g) (do
    let e ← addrL o
    let n := widthOf o.w
    let off ← localAddr 0 e n
    addBanks (rowsOf off n)
    checkLocal 0 off n
    let c ← getCore
    landLocal 0 o.k (classOf e) 6 (badWordIn c off n)
      [(.s o.d, .w (extW o.w (ofBytes (localBytes c off n))), allOnes)]) s

/-- SSTL (R197, R198, R150 to R152). -/
def execSstl (o : FL) (s : State) : Out :=
  runOp (.sstl o) 0 (guardOn · o.g) (do
    let x ← readS 0 o.d false
    let e ← addrL o
    let n := widthOf o.w
    let off ← localAddr 0 e n
    addBanks (rowsOf off n)
    checkLocal 0 off n
    localTurn (classOf e)
    localWrite off (toBytes n x.toNat)) s

/-! ### Synchronising accesses (R199 to R201) -/

/-- A synchronising access: the bundle holds until the checker has accepted it (R200), while a page under change
makes it wait (R288), and a dead home is a precise error, as is a write that a failing link cuts (R290, R291). -/
def synchronise (slot : Fin 8) (scope : BitVec 3) (write : Bool) (l : Lin) : IssM Unit := do
  holdFor slot [] (if write then some (l.pa / 128) else none)
  let s ← get
  if s.linWaits l s.clock then stallFor .hold
  if s.deadHome l.pa then trapF slot 0x2D (l.pa / 128 * 128)
  syncCheck slot scope.toNat l.va l.pa

/-- SLDA (R199). -/
def execSlda (o : FL) (s : State) : Out :=
  runOp (.slda o) 0 (guardOn · o.g) (do
    let e ← addrA o
    let va ← linAddr 0 e 8 (firstBytes (vaOf e) 8)
    let l ← access 0 false va 8
    synchronise 0 o.w false l
    let _ ← issueTok 0 (some o.k) (classOf e) (classAfter (← getCore) (classOf e)) (.slda l o.w o.d)) s

/-- SSTRL (R199). -/
def execSstrl (o : FL) (s : State) : Out :=
  runOp (.sstrl o) 0 (guardOn · o.g) (do
    let x ← readS 0 o.d false
    let e ← addrA o
    let va ← linAddr 0 e 8 (firstBytes (vaOf e) 8)
    let l ← access 0 true va 8
    synchronise 0 o.w true l
    let _ ← issueTok 0 (some o.k) (classOf e) (releaseAfter (← getCore)) (.sstrl l o.w x)) s

/-- The order an atomic keeps: its class, and with ORD 2 or 3 everything a release waits for (R201). -/
def atomAfter (c : Core) (ctl : BitVec 7) (cls : Nat) : List Nat :=
  if 2 ≤ ordOf ctl then releaseAfter c else classAfter c cls

/-- The size of an atomic's word (R201). -/
def atomSize (ctl : BitVec 7) : Nat := if bit ctl.toNat 4 then 8 else 4

/-- The control word of an atomic. -/
def ctlOf (o : FL) : BitVec 7 := BitVec.ofNat 7 (o.imm.getD 0).toNat

/-- SATOM (R201). -/
def execSatom (o : FL) (s : State) : Out :=
  runOp (.satom o) 0 (guardOn · o.g) (do
    let x ← readS 0 o.d false
    let e ← addrA o
    let va ← linAddr 0 e (atomSize (ctlOf o)) (firstBytes (vaOf e) (atomSize (ctlOf o)))
    let l ← access 0 true va (atomSize (ctlOf o))
    synchronise 0 o.w true l
    let _ ← issueTok 0 (some o.k) (classOf e) (atomAfter (← getCore) (ctlOf o) (classOf e))
      (.satom l (ctlOf o) o.w x o.d)) s

/-- SCAS (R201): D is read first, then sN. -/
def execScas (o : FL) (s : State) : Out :=
  runOp (.scas o) 0 (guardOn · o.g) (do
    let cmp ← readS 0 o.d false
    let new ← readS 0 (Fin.ofNat 16 ((ctlOf o).toNat % 16)) false
    let e ← addrA o
    let va ← linAddr 0 e (atomSize (ctlOf o)) (firstBytes (vaOf e) (atomSize (ctlOf o)))
    let l ← access 0 true va (atomSize (ctlOf o))
    synchronise 0 o.w true l
    let _ ← issueTok 0 (some o.k) (classOf e) (atomAfter (← getCore) (ctlOf o) (classOf e))
      (.scas l (ctlOf o) o.w cmp new o.d)) s

/-- The core set of a push's control word (R59). -/
def setOf (o : FL) : BitVec 24 := BitVec.ofNat 24 (o.imm.getD 0).toNat

/-- SSTP (R202). -/
def execSstp (o : FL) (s : State) : Out :=
  runOp (.sstp o) 0 (guardOn · o.g) (do
    let x ← readS 0 o.d false
    let e ← addrA o
    let va ← linAddr 0 e 8 (firstBytes (vaOf e) 8)
    let l ← access 0 true va 8
    let _ ← issueTok 0 (some o.k) (classOf e) (classAfter (← getCore) (classOf e)) (.sstp l x (setOf o))) s

end Sys2Proof.Machine
end

