-- ==== Sys2Proof/Machine/Vector.lean ====
section
/-! DEFINITION. The vector instructions that touch no memory (R131 to R146, R165, R166). -/

namespace Sys2Proof.Machine

/-- Lane results with the record of the lowest active lane that has one (R27, R131, R132). -/
def laneFev (mask : Word) (l : List FRes) : Option Fev :=
  (firstFev (List.zipWith (fun i (r : FRes) => if plane mask i then r else (r.1, none)) (List.range 64) l)).map
    fun x => ⟨x.1, x.2⟩

def resV (l : List FRes) : VReg := vofLanes (l.map fun r => BitVec.ofNat 32 r.1)

/-- An exact vector result under a mask (R131, R132). -/
def landV (v1 : Bool) (lat : Nat) (d : Fin 16) (x : VReg) (mask : Word) (fev : Option Fev) : IssM Unit :=
  landAt (vslot v1) lat (.v d) (.v x) mask fev

/-- The frame of an enabled vector operation: the body is given its active lanes. -/
def runV (i : Instr) (v1 : Bool) (g : Guard) (body : Word → IssM Unit) (s : State) : Out :=
  runOp i (vslot v1) (vguardOn · g) (do body (activeMask (← getCore) g)) s

/-- One source, lane by lane. -/
def lane1 (i : Instr) (v1 : Bool) (o : FR) (lat : Nat) (f : Nat → FRes) (s : State) : Out :=
  runV i v1 o.g (fun m => do
    let a ← readVq (vslot v1) o.a
    let r := a.toList.map fun x => f x.toNat
    landV v1 lat o.d (resV r) m (laneFev m r)) s

/-- Two sources, lane by lane. -/
def lane2 (i : Instr) (v1 : Bool) (o : FR) (lat : Nat) (f : Nat → Nat → FRes) (s : State) : Out :=
  runV i v1 o.g (fun m => do
    let a ← readVq (vslot v1) o.a
    let b ← srcBv (vslot v1) o.b
    let r := List.zipWith (fun (x y : Lane) => f x.toNat y.toNat) a.toList b.toList
    landV v1 lat o.d (resV r) m (laneFev m r)) s

/-- Three sources: D is read last, with removal in queue mode (R133). -/
def lane3 (i : Instr) (v1 : Bool) (o : FR) (lat : Nat) (f : Nat → Nat → Nat → FRes) (s : State) : Out :=
  runV i v1 o.g (fun m => do
    let a ← readVq (vslot v1) o.a
    let b ← srcBv (vslot v1) o.b
    let d ← readV (vslot v1) o.d false
    let r := List.zipWith (fun (x : Lane) (p : Lane × Lane) => f x.toNat p.1.toNat p.2.toNat) a.toList
      (List.zip b.toList d.toList)
    landV v1 lat o.d (resV r) m (laneFev m r)) s

def exact (x : Nat) : FRes := (x, none)

/-! ### FP32 (R133) -/

def execVadd (v1 : Bool) (o : FR) (s : State) : Out := lane2 (.vadd v1 o) v1 o 4 (fpAdd fp32) s
def execVsub (v1 : Bool) (o : FR) (s : State) : Out := lane2 (.vsub v1 o) v1 o 4 (fpSub fp32) s
def execVmul (v1 : Bool) (o : FR) (s : State) : Out := lane2 (.vmul v1 o) v1 o 4 (fpMul fp32) s
def execVfma (v1 : Bool) (o : FR) (s : State) : Out := lane3 (.vfma v1 o) v1 o 4 (fpFma fp32) s
def execVfms (v1 : Bool) (o : FR) (s : State) : Out := lane3 (.vfms v1 o) v1 o 4 (fpFms fp32) s
def execVmin (v1 : Bool) (o : FR) (s : State) : Out := lane2 (.vmin v1 o) v1 o 2 (fun a b => exact (fpMin fp32 a b)) s
def execVmax (v1 : Bool) (o : FR) (s : State) : Out := lane2 (.vmax v1 o) v1 o 2 (fun a b => exact (fpMax fp32 a b)) s
def execVabs (v1 : Bool) (o : FR) (s : State) : Out := lane1 (.vabs v1 o) v1 o 2 (fun a => exact (a % 2 ^ 31)) s
def execVneg (v1 : Bool) (o : FR) (s : State) : Out := lane1 (.vneg v1 o) v1 o 2 (fun a => exact (a ^^^ 2 ^ 31)) s
def execVdiv (v1 : Bool) (o : FR) (s : State) : Out := lane2 (.vdiv v1 o) v1 o 14 (fpDiv fp32) s
def execVsqrt (v1 : Bool) (o : FR) (s : State) : Out := lane1 (.vsqrt v1 o) v1 o 14 (fpSqrt fp32) s
def execVexp2 (v1 : Bool) (o : FR) (s : State) : Out := lane1 (.vexp2 v1 o) v1 o 10 fpExp2 s

/-! ### Packed BF16 (R134) -/

/-- Two elements of a lane; the lane's record is the first element's, else the second's. -/
def packRes (lo hi : FRes) : FRes :=
  (lo.1 % 65536 + 65536 * hi.1, match lo.2 with
    | some c => some c
    | none => hi.2)

def lo16 (x : Nat) : Nat := x % 65536
def hi16 (x : Nat) : Nat := x / 65536

def half2 (f : Nat → Nat → FRes) (a b : Nat) : FRes := packRes (f (lo16 a) (lo16 b)) (f (hi16 a) (hi16 b))

def execVhadd (v1 : Bool) (o : FR) (s : State) : Out := lane2 (.vhadd v1 o) v1 o 4 (half2 (fpAdd bf16)) s
def execVhmul (v1 : Bool) (o : FR) (s : State) : Out := lane2 (.vhmul v1 o) v1 o 4 (half2 (fpMul bf16)) s
def execVhfma (v1 : Bool) (o : FR) (s : State) : Out :=
  lane3 (.vhfma v1 o) v1 o 4
    (fun a b d => packRes (fpFma bf16 (lo16 a) (lo16 b) (lo16 d)) (fpFma bf16 (hi16 a) (hi16 b) (hi16 d))) s

/-! ### INT32 and logic (R135) -/

def execViadd (v1 : Bool) (o : FR) (s : State) : Out := lane2 (.viadd v1 o) v1 o 2 (fun a b => exact ((a + b) % 2 ^ 32)) s
def execVisub (v1 : Bool) (o : FR) (s : State) : Out := lane2 (.visub v1 o) v1 o 2 (fun a b => exact ((a + 2 ^ 32 - b) % 2 ^ 32)) s
def execVimul (v1 : Bool) (o : FR) (s : State) : Out := lane2 (.vimul v1 o) v1 o 4 (fun a b => exact (a * b % 2 ^ 32)) s
def execVimin (v1 : Bool) (o : FR) (s : State) : Out := lane2 (.vimin v1 o) v1 o 2 (fun a b => exact (imin32 a b)) s
def execVimax (v1 : Bool) (o : FR) (s : State) : Out := lane2 (.vimax v1 o) v1 o 2 (fun a b => exact (imax32 a b)) s
def execVand (v1 : Bool) (o : FR) (s : State) : Out := lane2 (.vand v1 o) v1 o 2 (fun a b => exact (a &&& b)) s
def execVor (v1 : Bool) (o : FR) (s : State) : Out := lane2 (.vor v1 o) v1 o 2 (fun a b => exact (a ||| b)) s
def execVxor (v1 : Bool) (o : FR) (s : State) : Out := lane2 (.vxor v1 o) v1 o 2 (fun a b => exact (a ^^^ b)) s
def execVshl (v1 : Bool) (o : FR) (s : State) : Out := lane2 (.vshl v1 o) v1 o 2 (fun a b => exact (a * 2 ^ (b % 32) % 2 ^ 32)) s
def execVshr (v1 : Bool) (o : FR) (s : State) : Out := lane2 (.vshr v1 o) v1 o 2 (fun a b => exact (a / 2 ^ (b % 32))) s
def execVsra (v1 : Bool) (o : FR) (s : State) : Out := lane2 (.vsra v1 o) v1 o 2 (fun a b => exact (toTwos 32 (sextInt a 32 / ((2 ^ (b % 32) : Nat) : Int)))) s

/-! ### Compares and selects -/

/-- R136: the bits of the active lanes land; the others are kept. -/
def cmpV (i : Instr) (v1 : Bool) (o : FC) (f : Nat → Nat → Bool) (s : State) : Out :=
  runV i v1 o.g (fun m => do
    let a ← readV (vslot v1) o.a false
    let b ← srcCv (vslot v1) o.b
    let y := pmask fun i => f (vlane a i).toNat (vlane b i).toNat
    landAt (vslot v1) 2 (.p o.p) (.w y) m none) s

/-- R50, R136: EQ, LT, LE and UNORD. -/
def condF (cc : BitVec 2) (a b : Nat) : Bool :=
  match cc.toNat with
  | 0 => fpEq fp32 a b
  | 1 => fpLt fp32 a b
  | 2 => fpLt fp32 a b || fpEq fp32 a b
  | _ => (fdec fp32 a).isNan || (fdec fp32 b).isNan

/-- R50, R136: EQ, LT and LE signed, LT unsigned. -/
def condI (cc : BitVec 2) (a b : Nat) : Bool :=
  match cc.toNat with
  | 0 => a == b
  | 1 => sextInt a 32 < sextInt b 32
  | 2 => sextInt a 32 ≤ sextInt b 32
  | _ => a < b

def execVcmpf (v1 : Bool) (o : FC) (s : State) : Out := cmpV (.vcmpf v1 o) v1 o (condF o.cc) s
def execVcmpi (v1 : Bool) (o : FC) (s : State) : Out := cmpV (.vcmpi v1 o) v1 o (condI o.cc) s

/-- R137: always enabled, and every lane is written. -/
def execVsel (v1 : Bool) (o : FR) (s : State) : Out :=
  runOp (.vsel v1 o) (vslot v1) (fun _ => true) (do
    let a ← readVq (vslot v1) o.a
    let b ← srcBv (vslot v1) o.b
    landV v1 2 o.d (vblend (activeMask (← getCore) o.g) a b) allOnes none) s

/-! ### Conversion and packing -/

/-- R138: OV and RM of I4 = cat(OV, RM). -/
def cvtOv (o : FI) : Nat := immCode o.i / 4
def cvtRm (o : FI) : Rm := rmOf (immCode o.i % 4)

def convRes (d : NumFmt) : Conv → FRes
  | .ok x f => (container d 32 x, f)
  | .trap => (0, none)

def execVcvt (v1 : Bool) (o : FI) (fmt : BitVec 32) (s : State) : Out :=
  runV (.vcvt v1 o fmt) v1 o.g (fun m => do
    let a ← readVq (vslot v1) o.a
    let sf := numFmt (fmt.toNat % 16)
    let df := numFmt (fmt.toNat / 16 % 16)
    let cs := a.toList.map fun x => convert sf df (cvtRm o) (cvtOv o) x.toNat
    match findFrom (fun i => plane m i && cs[i]? == some Conv.trap) 64 0 with
    | some i => trapF (vslot v1) 0x2C i
    | none =>
      let r := cs.map (convRes df)
      landV v1 4 o.d (resV r) m (laneFev m r)) s

/-- FP32 to BF16 under R79 with policy 0. -/
def toBf16 (x : Nat) : FRes :=
  match convert (.f fp32) (.f bf16) .rne 0 x with
  | .ok y f => (y, f)
  | .trap => (0, none)

/-- R139: packed element e comes from a, and from b for e from 64 up. -/
def execVpack (v1 : Bool) (o : FR) (s : State) : Out :=
  runV (.vpack v1 o) v1 o.g (fun m => do
    let a ← readVq (vslot v1) o.a
    let b ← srcBv (vslot v1) o.b
    let e := (a.toList ++ b.toList).map fun x => toBf16 x.toNat
    let r := (List.range 64).map fun i => packRes (e.getD (2 * i) (0, none)) (e.getD (2 * i + 1) (0, none))
    landV v1 3 o.d (resV r) m (laneFev m r)) s

/-- R140: the exact FP32 values of packed elements 0 to 63. -/
def execVunpk (v1 : Bool) (o : FR) (s : State) : Out :=
  runV (.vunpk v1 o) v1 o.g (fun m => do
    let a ← readVq (vslot v1) o.a
    let half (i : Nat) : Nat := if i % 2 = 0 then loHalf (vlane a (i / 2)) else hiHalf (vlane a (i / 2))
    let r := (List.range 64).map fun i => convRes (.f fp32) (convert (.f bf16) (.f fp32) .rne 0 (half i))
    landV v1 3 o.d (resV r) m none) s

/-! ### Lane movement -/

/-- R141. -/
def execVperm (v1 : Bool) (o : FR) (s : State) : Out :=
  runV (.vperm v1 o) v1 o.g (fun m => do
    let a ← readVq (vslot v1) o.a
    let b ← srcBv (vslot v1) o.b
    landV v1 3 o.d (vlanes fun i => vlane a ((vlane b i).toNat % 64)) m none) s

def execVrot (v1 : Bool) (o : FI) (s : State) : Out :=
  runV (.vrot v1 o) v1 o.g (fun m => do
    let a ← readVq (vslot v1) o.a
    landV v1 2 o.d (vlanes fun i => vlane a (((i : Int) + immInt o.i) % 64).toNat) m none) s

/-- R142. -/
def execVbcast (v1 : Bool) (o : FR) (s : State) : Out :=
  runV (.vbcast v1 o) v1 o.g (fun m => do
    let a ← readSq (vslot v1) o.a
    landV v1 2 o.d (vsplat (BitVec.ofNat 32 a.toNat)) m none) s

def execViota (v1 : Bool) (o : FI) (s : State) : Out :=
  runV (.viota v1 o) v1 o.g (fun m =>
    landV v1 1 o.d (vlanes fun i => BitVec.ofInt 32 (immInt o.i + (i : Int))) m none) s

def execVmov (v1 : Bool) (o : FR) (s : State) : Out := lane1 (.vmov v1 o) v1 o 1 exact s

/-! ### Reductions, scans, counts, compaction -/

/-- The lanes with the identity where the predicate has none (R86). -/
def withId (code : Nat) (m : Word) (a : VReg) : List Nat :=
  List.zipWith (fun i (x : Lane) => if plane m i then x.toNat else redId code) (List.range 64) a.toList

/-- R143: the one result goes to every lane; a record names lane 2j for node j of its level (R144). -/
def execVred (v1 : Bool) (o : FI) (s : State) : Out :=
  runV (.vred v1 o) v1 o.g (fun m => do
    let a ← readVq (vslot v1) o.a
    let r := vreduce (immCode o.i) (withId (immCode o.i) m a)
    landV v1 8 o.d (vsplat (BitVec.ofNat 32 r.1)) allOnes (r.2.map fun x => ⟨x.1, 2 * x.2⟩)) s

def execVscan (v1 : Bool) (o : FI) (s : State) : Out :=
  runV (.vscan v1 o) v1 o.g (fun m => do
    let a ← readVq (vslot v1) o.a
    let r := vscanAll (immCode o.i) (withId (immCode o.i) m a)
    landV v1 8 o.d (vofLanes (r.1.map (BitVec.ofNat 32))) m (r.2.map fun x => ⟨x.1, x.2⟩)) s

/-- R145: a lane is non-zero when it is active and holds neither zero. -/
def nonZeroLane (m : Word) (a : VReg) (i : Nat) : Bool := plane m i && (vlane a i).toNat % 2 ^ 31 != 0

def blockMask (m : Word) (a : VReg) (b : Nat) : Nat := ofOnes ((List.range 16).filter fun j => nonZeroLane m a (16 * b + j))

def execVcnz (v1 : Bool) (o : FR) (s : State) : Out :=
  runV (.vcnz v1 o) v1 o.g (fun m => do
    let a ← readVq (vslot v1) o.a
    landV v1 3 o.d (vlanes fun i =>
      if i < 4 then BitVec.ofNat 32 (popcount 16 (blockMask m a i))
      else if i < 8 then BitVec.ofNat 32 (blockMask m a (i - 4)) else 0) allOnes none) s

/-- R146: always enabled; every lane is written. -/
def execVcomp (v1 : Bool) (o : FR) (s : State) : Out :=
  runOp (.vcomp v1 o) (vslot v1) (fun _ => true) (do
    let a ← readVq (vslot v1) o.a
    let q := activeMask (← getCore) o.g
    landV v1 3 o.d (vofLanes ((ones 64 q.toNat).map fun i => vlane a i)) allOnes none) s

def execVexpd (v1 : Bool) (o : FR) (s : State) : Out :=
  runOp (.vexpd v1 o) (vslot v1) (fun _ => true) (do
    let a ← readVq (vslot v1) o.a
    let q := activeMask (← getCore) o.g
    landV v1 3 o.d (vlanes fun i => if plane q i then vlane a (popcount i q.toNat) else 0) allOnes none) s

/-! ### Lane transfers -/

/-- R165: the extract forms write the whole s register. -/
def execVxfer (v1 : Bool) (o : FR) (s : State) : Out :=
  runV (.vxfer v1 o) v1 o.g (fun _ => do
    let a ← readVq (vslot v1) o.a
    let b ← srcBs (vslot v1) o.b
    landS (vslot v1) 3 o.d (BitVec.ofNat 64 (vlane a (b.toNat % 64)).toNat)) s

def execVxferConst (v1 : Bool) (o : FXC) (s : State) : Out :=
  runV (.vxferConst v1 o) v1 o.g (fun _ => do
    let a ← readVq (vslot v1) o.a
    landS (vslot v1) 3 o.d (BitVec.ofNat 64 (vlane a o.lane.toNat).toNat)) s

def execVxferCross (v1 : Bool) (o : FXX) (s : State) : Out :=
  runV (.vxferCross v1 o) v1 o.g (fun m => do
    let a ← readVq (vslot v1) o.a
    landV v1 3 o.d a m none) s

/-- R166: only lane L is written, when it is active. -/
def execVins (v1 : Bool) (o : FR) (s : State) : Out :=
  runV (.vins v1 o) v1 o.g (fun m => do
    let a ← readSq (vslot v1) o.a
    let b ← srcBs (vslot v1) o.b
    let l := b.toNat % 64
    landV v1 2 o.d (vsplat (BitVec.ofNat 32 a.toNat)) (if plane m l then BitVec.ofNat 64 (2 ^ l) else 0) none) s

end Sys2Proof.Machine
end

