-- ==== Sys2Proof/Machine/VectorMem.lean ====
section
/-! DEFINITION. The vector accesses to linear and local memory (R147 to R155) and the vector push store (R162): what they do
at issue. -/

namespace Sys2Proof.Machine

/-- The address of a linear vector access under its lanes (R147, R148). -/
def vaddr (slot : Fin 8) (e : Word) (n : Nat) (m : Word) : IssM Nat := linAddr slot e n (laneFirsts (vaOf e) m)

/-- The checked access of the active lanes (R148). -/
def laneAccess (slot : Fin 8) (write : Bool) (va : Nat) (act : Word) : IssM Lin := do
  let xs ← translate slot write (laneFirsts va act)
  return ⟨va, xs, (← getCore).csr.sec⟩

/-- VLD (R147 to R149). -/
def execVld (v1 : Bool) (o : FL) (s : State) : Out :=
  runV (.vld v1 o) v1 o.g (fun m => do
    let e ← addrL o
    let va ← vaddr (vslot v1) e 4 m
    let l ← laneAccess (vslot v1) false va m
    let _ ← issueTok (vslot v1) (some o.k) (classOf e) (classAfter (← getCore) (classOf e)) (.vld l m o.d)) s

/-- VST (R147 to R149). -/
def execVst (v1 : Bool) (o : FL) (s : State) : Out :=
  runV (.vst v1 o) v1 o.g (fun m => do
    let x ← readV (vslot v1) o.d false
    let e ← addrL o
    let va ← vaddr (vslot v1) e 4 m
    let l ← laneAccess (vslot v1) true va m
    let _ ← issueTok (vslot v1) (some o.k) (classOf e) (classAfter (← getCore) (classOf e)) (.vst l m x)) s

/-- R155: the translations of the pages up to the first with a page fault or a frame-access fault, with the address it faults at;
another fault is precise, as a VLD's. -/
def translateFF (slot : Fin 8) : List Nat → IssM (List Xl × Option Nat)
  | [] => return ([], none)
  | a :: l => do
    let s ← get
    if a < 2 ^ 48 then
      match ihOffset a with
      | some off => if s.core.halfClaimed off then trapF slot 0x19 a else trapF slot 0x14 a
      | none =>
        match s.probe s.core.csr.sec false a with
        | .fault code => if code = 0x1A || code = 0x1C then return ([], some a) else trapF slot code.toNat a
        | .walk => stallFor (.walk s.core.csr.sec a)
        | .ok x => do
          let r ← translateFF slot l
          return (x :: r.1, r.2)
    else return ([], some a)

/-- VLDFF (R155). -/
def execVldff (v1 : Bool) (o : FL) (s : State) : Out :=
  runV (.vldff v1 o) v1 o.g (fun m => do
    let e ← addrL o
    let va ← vaddr (vslot v1) e 4 m
    let firsts := laneFirsts va m
    let x ← translate (vslot v1) false (firsts.take 1)
    let r ← translateFF (vslot v1) (firsts.drop 1)
    let valid := pmask fun i => plane m i && (match r.2 with
      | some a => decide (va + 4 * i < a)
      | none => true)
    let l : Lin := ⟨va, x ++ r.1, (← getCore).csr.sec⟩
    let _ ← issueTok (vslot v1) (some o.k) (classOf e) (classAfter (← getCore) (classOf e))
      (.vldff l valid o.d (pOfW o.w))) s

/-- The active lanes. -/
def lanesOf (m : Word) : List Nat := ones 64 m.toNat

/-- The rows that active lanes touch (R152); an offset at or beyond 2 MiB names no bank (L52). -/
def rowBanks (m : Word) (off : Nat) : List (Nat × Bool × Nat) :=
  ((lanesOf m).filter fun i => off + 4 * i < 2097152).flatMap fun i => rowsOf (off + 4 * i) 4

/-- R150: the local offset, and every active lane in a SCRATCH bank; the rows the lanes touch join the bank count. -/
def vlocal (slot : Fin 8) (e : Word) (m : Word) : IssM Nat := do
  let off ← localAddr slot e 4
  addBanks (rowBanks m off)
  let c ← getCore
  match (lanesOf m).find? fun i => (c.badLocal (off + 4 * i) 4).isSome with
  | some i => trapF slot 0x19 (off + 4 * i)
  | none => pure ()
  return off

/-- The word of a lane in local memory. -/
def localLane (c : Core) (off : Nat) : Lane := BitVec.ofNat 32 (ofBytes (localBytes c off 4))

/-- The first word with an uncorrectable error among the lanes' words (R292). -/
def badLane (c : Core) (offs : List Nat) : Option Nat := (offs.filterMap fun o => badWordIn c o 4).head?

/-- VLDL (R150 to R152). -/
def execVldl (v1 : Bool) (o : FL) (s : State) : Out :=
  runV (.vldl v1 o) v1 o.g (fun m => do
    let e ← addrL o
    let off ← vlocal (vslot v1) e m
    let c ← getCore
    let x := vlanes fun i => if plane m i then localLane c (off + 4 * i) else 0
    landLocal (vslot v1) o.k (classOf e) 6 (badLane c ((lanesOf m).map fun i => off + 4 * i)) [(.v o.d, .v x, m)]) s

/-- VSTL (R150 to R152). -/
def execVstl (v1 : Bool) (o : FL) (s : State) : Out :=
  runV (.vstl v1 o) v1 o.g (fun m => do
    let x ← readV (vslot v1) o.d false
    let e ← addrL o
    let off ← vlocal (vslot v1) e m
    localTurn (classOf e)
    (lanesOf m).forM fun i => localWrite (off + 4 * i) (toBytes 4 (vlane x i).toNat)) s

/-- The local offset of each lane of a gather or scatter (R153). -/
def laneOffs (a : VReg) (imm : Option (BitVec 32)) : Nat → Nat := fun i => (vlane a i + imm.getD 0).toNat

/-- R153: a lane's offset is valid. -/
def offValid (c : Core) (x : Nat) : Bool := x % 4 == 0 && x < 2097152 && c.isScratch x

/-- The 8-byte words asked for by active lanes (R152); an offset at or beyond 2 MiB names no bank (L52). -/
def wordBanks (m : Word) (off : Nat → Nat) : List (Nat × Bool × Nat) :=
  ((lanesOf m).filter fun i => off i < 2097152).map fun i => (off i / 65536, false, off i / 8)

/-- VGATH (R152, R153); no address register gives it a class, and it carries class 0 (L81). -/
def execVgath (v1 : Bool) (o : FL) (s : State) : Out :=
  runV (.vgath v1 o) v1 o.g (fun m => do
    let a ← readV (vslot v1) o.a false
    let c ← getCore
    let off := laneOffs a o.imm
    let f := ((lanesOf m).find? fun i => !offValid c (off i)).getD 64
    addBanks (wordBanks m off)
    if (lanesOf m).head? == some f then trapF (vslot v1) 0x19 (off f)
    let valid := pmask fun i => plane m i && decide (i < f)
    let x := vlanes fun i => if plane valid i then localLane c (off i) else 0
    let bad := badLane c ((lanesOf valid).map off)
    let p := if c.csr.scr && bad.isSome then 0 else valid
    landLocal (vslot v1) o.k 0 8 bad [(.v o.d, .v x, valid), (.p (pOfW o.w), .w p, allOnes)]) s

/-- VSCAT (R152, R154), of class 0 (L81). -/
def execVscat (v1 : Bool) (o : FL) (s : State) : Out :=
  runV (.vscat v1 o) v1 o.g (fun m => do
    let a ← readV (vslot v1) o.a false
    let d ← readV (vslot v1) o.d false
    let c ← getCore
    let off := laneOffs a o.imm
    addBanks (wordBanks m off)
    match (lanesOf m).find? fun i => !offValid c (off i) with
    | some i => trapF (vslot v1) 0x19 (off i)
    | none => pure ()
    localTurn 0
    (lanesOf m).forM fun i => localWrite (off i) (toBytes 4 (vlane d i).toNat)) s

/-- VSTP (R162). -/
def execVstp (v1 : Bool) (o : FL) (s : State) : Out :=
  runV (.vstp v1 o) v1 o.g (fun m => do
    let x ← readV (vslot v1) o.d false
    let e ← addrA o
    let va ← vaddr (vslot v1) e 256 m
    let l ← laneAccess (vslot v1) true va m
    let _ ← issueTok (vslot v1) (some o.k) (classOf e) (classAfter (← getCore) (classOf e)) (.vstp l m x (setOf o))) s

end Sys2Proof.Machine
end

