-- ==== Sys2Proof/Machine/TensorOps.lean ====
section
/-! DEFINITION. The instructions on tensor handles: VLDT and VSTT (R156 to R161), TBIND (R224), TCUR and TADV (R225), TSET and
TLOCK (R226) and TQRY (R227): what they do at issue. -/

namespace Sys2Proof.Machine

/-- R161: a non-secure task names a secure tensor. -/
def checkWorld (slot : Fin 8) (h : Fin 16) (x : Handle) : IssM Unit := do
  if dWorld x.desc && !(← getCore).csr.sec then trapF slot 0x22 h.val

/-- A handle whose tensor is accessed (R17, R161). -/
def tensorHandle (slot : Fin 8) (h : Fin 16) : IssM Handle := do
  let x ← bound slot h
  checkWorld slot h x
  return x

/-- The CPYT `.in` of a class whose commits are outstanding (R160, R249). -/
def cpytIds (c : Core) (cls : Nat) : List Nat :=
  ((c.eng0.queue ++ c.eng1.queue).filter fun k => match k.kind with
    | .cpytIn h _ _ => dClass h.desc == cls
    | _ => false).map (·.id)

/-- What a tensor access of a class waits for: the earlier accesses of the class, the write-backs of copies among them (R37, R158,
R160). -/
def tensorAfter (c : Core) (cls : Nat) : List Nat := classAfter c cls ++ cpytIds c cls

/-! ### VLDT and VSTT -/

/-- W[0]: the widened form; W[1]: advance. -/
def wideOf (o : FL) : Bool := bit o.w.toNat 0
def advOf (o : FL) : Bool := bit o.w.toNat 1

/-- The widened form differs from the natural one (R156). -/
def widens (et : Nat) : Bool := et != 0 && et != 7

/-- The elements in a lane and in a run (R156). -/
def perLane (et : Nat) (wide : Bool) : Nat := if wide then 1 else 32 / elemBits et
def runLength (et : Nat) (wide : Bool) : Nat := 64 * perLane et wide

/-- The tensor of a run: bound, in its world, and with a widened form where one is asked for (R161). -/
def runHandle (slot : Fin 8) (o : FL) : IssM Handle := do
  let x ← bound slot o.a
  if wideOf o && dEtype x.desc == 8 then trapF slot 0x21 o.a.val
  checkWorld slot o.a x
  return x

/-- `.adv`: the cursor moves by the run length for later bundles (R156). -/
def advance (o : FL) (x : Handle) : IssM Unit := do
  if advOf o then
    modIss fun i => { i with curs := i.curs ++ [.add o.a 0 (BitVec.ofNat 32 (runLength (dEtype x.desc) (wideOf o)))] }

/-- VLDT (R156 to R158, R161). -/
def execVldt (v1 : Bool) (o : FL) (s : State) : Out :=
  runV (.vldt v1 o) v1 o.g (fun m => do
    let x ← runHandle (vslot v1) o
    let cls := dClass x.desc
    let _ ← issueTok (vslot v1) (some o.k) cls (tensorAfter (← getCore) cls) (.vldt x (wideOf o) m o.d)
    advance o x) s

/-- VSTT (R156, R159 to R161). -/
def execVstt (v1 : Bool) (o : FL) (s : State) : Out :=
  runV (.vstt v1 o) v1 o.g (fun m => do
    let v ← readV (vslot v1) o.d false
    let x ← runHandle (vslot v1) o
    let cls := dClass x.desc
    let _ ← issueTok (vslot v1) (some o.k) cls (tensorAfter (← getCore) cls) (.vstt x (wideOf o) m v)
    advance o x) s

/-- The elements of a vector under a lane mask, with their places in the run (R156, R159). -/
def placesOf (h : Handle) (wide : Bool) (act : Word) : List (Nat × Nat × Option (Nat × Nat)) :=
  let et := dEtype h.desc
  let p := perLane et (wide && widens et)
  (ones 64 act.toNat).flatMap fun l => (List.range p).map fun j => (l, j, locate h.desc (cursorAt h (p * l + j)))

/-- An element as a widened lane holds it: FP32 exactly, or INT32 (R156). -/
def widen (et : Nat) (x : Nat) : Nat :=
  match numFmt et with
  | .f g => match convert (.f g) (.f fp32) .rne 0 x with
    | .ok y _ => y
    | .trap => 0
  | .i n => toTwos 32 (sextInt x n)

/-- A widened lane converted to the element type, with its record (R159). -/
def narrow (et : Nat) (x : Nat) : FRes :=
  let src : NumFmt := match numFmt et with
    | .f _ => .f fp32
    | .i _ => .i 32
  match convert src (numFmt et) .rne 0 x with
  | .ok y f => (y, f)
  | .trap => (0, none)

/-- The vector a VLDT lands, from its elements (R156, R157). -/
def gatherLanes (h : Handle) (wide : Bool) (act : Word) (elem : Option (Nat × Nat) → Option (BitVec 32)) : VReg :=
  let et := dEtype h.desc
  let w := wide && widens et
  let eb := if w then 32 else elemBits et
  let p := perLane et w
  vlanes fun l => if plane act l then
      BitVec.ofNat 32 (((List.range p).map fun j =>
        let x := ((elem (locate h.desc (cursorAt h (p * l + j)))).getD 0).toNat
        (if w then widen et x else x) * 2 ^ (eb * j)).foldl (· + ·) 0)
    else 0

/-- The elements a VSTT writes with their places, and the records of those inside the extent, by lane (R159). -/
def scatterLanes (h : Handle) (wide : Bool) (act : Word) (v : VReg) :
    List (Option (Nat × Nat) × BitVec 32) × List (Nat × BitVec 2) :=
  let et := dEtype h.desc
  let w := wide && widens et
  let eb := elemBits et
  let rs := (placesOf h wide act).map fun p =>
    let x := (vlane v p.1).toNat
    let r : FRes := if w then narrow et x else (field x (eb * p.2.1) eb, none)
    (p, r)
  (rs.map fun q => (q.1.2.2, BitVec.ofNat 32 q.2.1), rs.filterMap fun q => if q.1.2.2.isSome then q.2.2.map fun f => (q.1.1, f) else none)

/-! ### The copy slots' command queues (R317) -/

/-- Entries that TBIND, TQRY and WSET of a slot hold, until their tokens fall. -/
def queueOps (c : Core) (slot : Fin 8) : Nat :=
  (c.ops.filter fun o => o.slot == slot && match o.kind with
    | .tbind _ _ _ | .tqry _ _ | .wset _ _ | .ended => true
    | _ => false).length

/-- The entries of an engine that a core and its saved tasks hold (R317, R325). -/
def State.entries (s : State) (c1 : Bool) : Nat :=
  ((s.core :: s.ghosts s.core.id).map fun c => (if c1 then c.eng1 else c.eng0).queue.length + queueOps c (cslot c1)).foldl (· + ·) 0

/-- R317: an operation that would take a 65th entry stalls. -/
def needEntry (c1 : Bool) : IssM Unit := do
  let s ← get
  if 64 ≤ s.entries c1 then stallFor .commandQueue

/-! ### TBIND, TCUR, TADV -/

/-- TBIND (R224): its effect stands in Perform.lean. -/
def execTbind (c1 : Bool) (o : FL) (s : State) : Out :=
  runOp (.tbind c1 o) (cslot c1) (guardOn · o.g) (do
    let e ← addrL o
    let va ← linAddr (cslot c1) e 128 (firstBytes (vaOf e) 128)
    let l ← access (cslot c1) false va 128
    needBound o.d
    needEntry c1
    let _ ← issueTok (cslot c1) (some o.k) (classOf e) (classAfter (← getCore) (classOf e)) (.tbind o.d e l)) s

/-- R225: the coordinate of a bound handle; DETAIL holds the dimension beside the handle (R336). -/
def coordinate (slot : Fin 8) (h : Fin 16) (a : Word) : IssM (Fin 6) := do
  needBound h
  if h6 : a.toNat < 6 ∧ ((← getCore).regs.h.get h).isSome then return ⟨a.toNat, h6.1⟩
  else trapF slot 0x20 (h.val + 256 * (a.toNat % 8))

/-- TCUR (R225). -/
def execTcur (c1 : Bool) (o : FR) (s : State) : Out :=
  runOp (.tcur c1 o) (cslot c1) (guardOn · o.g) (do
    let a ← readSq (cslot c1) o.a
    let b ← srcBs (cslot c1) o.b
    let d ← coordinate (cslot c1) o.d a
    modIss fun i => { i with curs := i.curs ++ [.set o.d d (BitVec.ofNat 32 b.toNat)] }) s

/-- TADV (R225). -/
def execTadv (c1 : Bool) (o : FI) (s : State) : Out :=
  runOp (.tadv c1 o) (cslot c1) (guardOn · o.g) (do
    let a ← readSq (cslot c1) o.a
    let d ← coordinate (cslot c1) o.d a
    modIss fun i => { i with curs := i.curs ++ [.add o.d d (BitVec.ofInt 32 (immInt o.i))] }) s

/-! ### TSET, TLOCK -/

/-- The write of policy fields of a bound descriptor (R226): it holds its bundle after the core's earlier accesses of the
descriptor's class, and an error found there is precise. -/
def setPolicy (slot : Fin 8) (h : Fin 16) (x : Handle) (fs : List (Nat × Nat × Nat)) : IssM Unit := do
  let l ← access slot true (vaOf x.addr) 128
  holdFor slot (classAfter (← getCore) (dClass x.desc)) (some (l.pa / 128))
  let s ← get
  if s.linWaits l s.clock then stallFor .hold
  if s.deadHome l.pa then trapF slot 0x2D (l.pa / 128 * 128)
  if s.store.poison.contains (l.pa / 128) then trapF slot 0x1F l.va
  modIss fun i => { i with
    descs := i.descs ++ fs.map fun f => (l, f)
    curs := i.curs ++ fs.map fun f => .desc h f.1 f.2.1 f.2.2 }

/-- TSET (R226). -/
def execTset (c1 : Bool) (o : FR) (s : State) : Out :=
  runOp (.tset c1 o) (cslot c1) (guardOn · o.g) (do
    let a ← readSq (cslot c1) o.a
    let b ← srcBs (cslot c1) o.b
    let x ← bound (cslot c1) o.d
    if a = 0 then
      if b = 0 || 16 ≤ b.toNat then trapF (cslot c1) 0x29 o.d.val
      setPolicy (cslot c1) o.d x [(24, 4, 15 - b.toNat)]
    else if a = 1 then
      if 16 ≤ b.toNat then trapF (cslot c1) 0x29 o.d.val
      setPolicy (cslot c1) o.d x [(28, 4, b.toNat)]
    else trapF (cslot c1) 0x29 o.d.val) s

/-- TLOCK (R226): a mask of 0 keeps the mask; operand bits that the table does not name make the value one out of range (L86). -/
def execTlock (c1 : Bool) (o : FR) (s : State) : Out :=
  runOp (.tlock c1 o) (cslot c1) (guardOn · o.g) (do
    let a ← readSq (cslot c1) o.a
    let b ← srcBs (cslot c1) o.b
    let x ← bound (cslot c1) o.d
    if 2 ≤ a.toNat || 16 ≤ b.toNat then trapF (cslot c1) 0x29 o.d.val
    setPolicy (cslot c1) o.d x
      ((32, 1, a.toNat) :: if b = 0 then [] else [(24, 4, 15 - b.toNat)])) s

/-! ### TQRY -/

/-- TQRY (R227). -/
def execTqry (c1 : Bool) (o : FL) (s : State) : Out :=
  runOp (.tqry c1 o) (cslot c1) (guardOn · o.g) (do
    let x ← tensorHandle (cslot c1) o.a
    needEntry c1
    let cls := dClass x.desc
    let _ ← issueTok (cslot c1) (some o.k) cls (tensorAfter (← getCore) cls) (.tqry x o.d)) s

end Sys2Proof.Machine
end

