-- ==== Sys2Proof/Machine/CopyIssue.lean ====
section
/-! DEFINITION. The copies of slots C0 and C1 at issue (R203 to R217, R317 to R320): operands, precise faults, and the entry they take in
their engine's command queue.  What a copy does stands in CopyRun.lean. -/

namespace Sys2Proof.Machine

/-! ### Credits (R205) -/

def BarMsg.isCredit : BarMsg → Bool
  | .credit _ _ => true
  | _ => false

def Core.eng (c : Core) (c1 : Bool) : Engine := if c1 then c.eng1 else c.eng0
def Core.modEng (c : Core) (c1 : Bool) (f : Engine → Engine) : Core :=
  if c1 then { c with eng1 := f c.eng1 } else { c with eng0 := f c.eng0 }

/-- IMM of a copy, zero-extended: a length or a control word, 0 when not given (R196). -/
def immL (o : FL) : Nat := (o.imm.getD 0).toNat

/-- W[2]: counted; W[1]: verified (R205). -/
def cntOf (o : FL) : Bool := bit o.w.toNat 2
def vfyOf (o : FL) : Bool := bit o.w.toNat 1

def regD (o : FL) : IssM Word := return (← getCore).regs.a.get o.d

/-! ### Addresses (R14, R206, R271, R272) -/

/-- The halves of the instruction scratchpad that a linear range reaches: false for ILO. -/
def halvesOf (va n : Nat) : List Bool :=
  [false, true].filter fun h =>
    let lo := iloBase + if h then 65536 else 0
    decide (va < lo + 65536) && decide (lo < va + max n 1)

def halfOff (h : Bool) : Nat := if h then 65536 else 0

/-- R272: an unclaimed half. -/
def checkHalves (slot : Fin 8) (va n : Nat) : IssM Unit := do
  let c ← getCore
  if (halvesOf va n).any fun h => !c.halfClaimed (halfOff h) then trapF slot 0x14 va

/-- A linear address that a copy reads; `half` says whether it may lie in a half. -/
def copyRead (slot : Fin 8) (e : Word) (n al : Nat) (half : Bool) : IssM Unit := do
  checkForm slot e
  checkHalves slot (vaOf e) n
  let _ ← linAddr slot e al []
  if !half && !(halvesOf (vaOf e) n).isEmpty then trapF slot 0x19 (vaOf e)

/-- A linear address that a copy writes: not in the active half. -/
def copyWrite (slot : Fin 8) (e : Word) (n al : Nat) (half : Bool) : IssM Unit := do
  copyRead slot e n al half
  let c ← getCore
  if (halvesOf (vaOf e) n).any fun h => c.halfActive (halfOff h) then trapF slot 0x26 0

/-- A local range that a copy names (R207, R210). -/
def copyLocal (slot : Fin 8) (e : Word) (n al : Nat) : IssM Unit := do
  let off ← localAddr slot e al
  checkLocal slot off n

/-! ### The walk of a nest (R209, R320) -/

/-- The levels in the order of their ranks, with bounds of at least 1. -/
def nestOrder (v : Vector NestLevel 6) : List (Nat × NestLevel) :=
  (List.range 6).filterMap fun r => (v.toList.find? fun l => l.rank.toNat == r).map fun l => (max 1 l.bound.toNat, l)

def nestTotal (v : Vector NestLevel 6) : Nat := prodOf ((nestOrder v).map (·.1))

/-- The byte offsets of emission number m: source and destination. -/
def nestOffsets (v : Vector NestLevel 6) (m : Nat) : Int × Int :=
  let o := nestOrder v
  ((unmix (o.map (·.1)) m).zip o).foldl (fun (acc : Int × Int) p =>
    (acc.1 + (p.1 : Int) * p.2.2.sstr.toInt, acc.2 + (p.1 : Int) * p.2.2.dstr.toInt)) (0, 0)

/-! ### The linear destinations of a copy (R272, R318) -/

/-- The linear ranges a copy writes: first address and bytes; a CDISP's lie in the buffers its record names. -/
def CopyKind.linDests : CopyKind → List (Nat × Nat)
  | .cpy d _ n _ | .cfill d _ _ n => [(vaOf d, n)]
  | .cpyl out d _ n _ => if out then [(vaOf d, n)] else []
  | .cpytOut d h n => [(vaOf d, elemBits (dEtype h.desc) * n / 8)]
  | .cxpose d _ c => [(vaOf d, (field c.toNat 2 6 + 1) * (field c.toNat 8 4 + 1) * 2 ^ (c.toNat % 4))]
  | .crun kind d _ n nest => if kind == 1 then [] else
      (List.range (nestTotal nest)).map fun m => (vaOf (d + BitVec.ofInt 64 (nestOffsets nest m).2), n)
  | .cstamp d _ _ => [(vaOf d, 8)]
  | .cxpnd d _ limit => [(vaOf d, 32 * limit)]
  | .cpytIn _ _ _ | .cfp _ _ _ | .csum _ _ _ | .ccmp _ _ _ _ | .cpush _ _ _ | .cpeer _ _ _ | .cdisp _ => []

/-- The copies of the core that write a half (R272). -/
def writesHalf (hi : Bool) (k : Copy) : Bool := k.kind.linDests.any fun p => (halvesOf p.1 p.2).contains hi

/-! ### The local ranges of a copy (R207, R209, R210, R263) -/

/-- The offsets and lengths of local memory that a copy reads or writes. -/
def CopyKind.locals : CopyKind → List (Nat × Nat)
  | .cpyl out d a n v => if out then [(field a.toNat 0 21, n + if v then 4 else 0)] else [(field d.toNat 0 21, n)]
  | .crun kind d a n nest => (List.range (nestTotal nest)).flatMap fun m =>
      if kind = 1 then [(field (d + BitVec.ofInt 64 (nestOffsets nest m).2).toNat 0 21, n)]
      else if kind = 2 then [(field (a + BitVec.ofInt 64 (nestOffsets nest m).1).toNat 0 21, n)] else []
  | .cfp r _ _ | .csum r _ _ | .ccmp _ _ _ r => [(field r.toNat 0 21, 8)]
  | .cpeer _ a n => [(field a.toNat 0 21, n)]
  | _ => []

/-- Some of n bytes from an offset lie in a bank that a test holds of. -/
def meetsBank (p : Nat → Bool) (off n : Nat) : Bool := (List.range 32).any fun b => p b && off < 65536 * (b + 1) && 65536 * b < off + n

/-! ### Taking an entry -/

/-- R203, R205, R317: a copy joins its engine's queue, its token and its batch at commit. -/
def takeCopy (c1 : Bool) (o : FL) (cnt : Bool) (after : List Nat) (kind : CopyKind) : IssM Unit := do
  let c ← getCore
  if cnt && (c.eng c1).counted.isNone then trapF (cslot c1) 0x27 0
  needEntry c1
  tokenRoom o.k
  let id ← freshId
  let n ← freshDraw
  let t := (← get).clock
  let k : Copy := ⟨id, n, t, o.k, kind, if cnt then (c.eng c1).counted else none, c.csr.sec, after, false, c.pc, none, none, .start⟩
  modIss fun i => { i with copies := i.copies ++ [(c1, k)] }

/-- What a copy waits for: the earlier accesses of the classes of its sides, acquires and fences (R37, R199, R203, R233). -/
def copyAfter (c : Core) (classes : List Nat) : List Nat := classes.flatMap (classAfter c)

/-- CPY (R207). -/
def execCpy (c1 : Bool) (o : FL) (s : State) : Out :=
  runOp (.cpy c1 o) (cslot c1) (guardOn · o.g) (do
    let a ← addrA o
    let d ← regD o
    let n := immL o
    checkAll [copyRead (cslot c1) a (n + if vfyOf o then 4 else 0) 1 true, copyWrite (cslot c1) d n 1 true]
    takeCopy c1 o (cntOf o) (copyAfter (← getCore) [classOf a, classOf d]) (.cpy d a n (vfyOf o))) s

/-- CPYL (R207): `.in` reads linear and writes local, `.out` the other way. -/
def execCpyl (c1 : Bool) (o : FL) (s : State) : Out :=
  runOp (.cpyl c1 o) (cslot c1) (guardOn · o.g) (do
    let a ← addrA o
    let d ← regD o
    let n := immL o
    let v := if vfyOf o then 4 else 0
    if bit o.w.toNat 0 then checkAll [copyLocal (cslot c1) a (n + v) 1, copyWrite (cslot c1) d n 1 true]
    else checkAll [copyRead (cslot c1) a (n + v) 1 true, copyLocal (cslot c1) d n 1]
    takeCopy c1 o (cntOf o) (copyAfter (← getCore) [classOf a, classOf d]) (.cpyl (bit o.w.toNat 0) d a n (vfyOf o))) s

/-- R207: a CB4 count is even. -/
def checkCount (c1 : Bool) (h : Handle) (n : Nat) : IssM Unit := do
  if dEtype h.desc == 8 && n % 2 != 0 then trapF (cslot c1) 0x26 0

/-- CPYT (R207). -/
def execCpyt (c1 : Bool) (o : FL) (s : State) : Out :=
  runOp (.cpyt c1 o) (cslot c1) (guardOn · o.g) (do
    let n := immL o
    if bit o.w.toNat 0 then
      let h ← bound (cslot c1) o.a
      let d ← regD o
      checkAll [copyWrite (cslot c1) d 1 1 false, checkWorld (cslot c1) o.a h, checkCount c1 h n]
      takeCopy c1 o (cntOf o) (copyAfter (← getCore) [dClass h.desc, classOf d]) (.cpytOut d h n)
    else
      let h ← bound (cslot c1) o.d
      let a ← addrA o
      checkAll [copyRead (cslot c1) a 1 1 false, checkWorld (cslot c1) o.d h, checkCount c1 h n]
      let c ← getCore
      takeCopy c1 o (cntOf o) (copyAfter c [classOf a] ++ tensorAfter c (dClass h.desc)) (.cpytIn h a n)) s

/-- The fields of CXPOSE's control word (R208): width in bytes, rows, columns, pitch. -/
def xposeWidth (c : BitVec 32) : Nat := 2 ^ (c.toNat % 4)
def xposeRows (c : BitVec 32) : Nat := field c.toNat 2 6 + 1
def xposeCols (c : BitVec 32) : Nat := field c.toNat 8 4 + 1
def xposePitch (c : BitVec 32) : Nat := field c.toNat 12 20

/-- CXPOSE (R207, R208). -/
def execCxpose (c1 : Bool) (o : FL) (s : State) : Out :=
  runOp (.cxpose c1 o) (cslot c1) (guardOn · o.g) (do
    let a ← addrA o
    let d ← regD o
    let w := o.imm.getD 0
    checkAll [copyRead (cslot c1) a 1 1 false, copyWrite (cslot c1) d 1 1 false]
    if w.toNat % 4 = 3 || xposePitch w < xposeCols w * xposeWidth w then trapF (cslot c1) 0x26 0
    takeCopy c1 o (cntOf o) (copyAfter (← getCore) [classOf a, classOf d]) (.cxpose d a w)) s

/-- CFILL (R207): A names an s register. -/
def execCfill (c1 : Bool) (o : FL) (s : State) : Out :=
  runOp (.cfill c1 o) (cslot c1) (guardOn · o.g) (do
    let x ← readS (cslot c1) o.a false
    let d ← regD o
    let n := immL o
    let w := 2 ^ (o.w.toNat % 4)
    copyWrite (cslot c1) d n 1 true
    if n % w != 0 then trapF (cslot c1) 0x26 0
    takeCopy c1 o (cntOf o) (copyAfter (← getCore) [classOf d]) (.cfill d x w n)) s

/-! ### The nest sequencer (R209, R319, R320) -/

/-- CNEST. -/
def execCnest (c1 : Bool) (o : FR) (s : State) : Out :=
  runOp (.cnest c1 o) (cslot c1) (guardOn · o.g) (do
    let a ← readSq (cslot c1) o.a
    let b ← srcBs (cslot c1) o.b
    let n := a.toNat
    if field n 36 28 != 0 || (bit n 35 && 6 ≤ field n 32 3) then trapF (cslot c1) 0x26 0
    let strides : BitVec 32 × BitVec 32 := match o.b with
      | .imm v => (v, v)
      | .reg _ _ => (BitVec.ofNat 32 b.toNat, BitVec.ofNat 32 (b.toNat / 2 ^ 32))
    modCore fun c => c.modEng c1 fun e => { e with nest := vtab 6 fun l =>
      let old := vat e.nest l
      if l = o.d.val then
        ⟨BitVec.ofNat 32 n, strides.1, strides.2, if bit n 35 then BitVec.ofNat 3 (field n 32 3) else old.rank⟩
      else old }) s

/-- R320: the six ranks are distinct. -/
def ranksOk (v : Vector NestLevel 6) : Bool := (List.range 6).all fun r => v.toList.any fun l => l.rank.toNat == r

/-- CRUN. -/
def execCrun (c1 : Bool) (o : FL) (s : State) : Out :=
  runOp (.crun c1 o) (cslot c1) (guardOn · o.g) (do
    let a ← addrA o
    let d ← regD o
    let n := immL o
    let kind := o.w.toNat % 4
    checkAll [if kind = 2 then copyLocal (cslot c1) a 1 1 else copyRead (cslot c1) a n 1 true,
      if kind = 1 then copyLocal (cslot c1) d 1 1 else copyWrite (cslot c1) d n 1 true]
    let nest := ((← getCore).eng c1).nest
    if !ranksOk nest then trapF (cslot c1) 0x26 0
    takeCopy c1 o (cntOf o) (copyAfter (← getCore) [classOf a, classOf d]) (.crun (BitVec.ofNat 2 kind) d a n nest)) s

/-! ### CSTAMP, CBCLOSE (R216, R217) -/

/-- CSTAMP: the counter rises at issue; the stamp is written after every earlier copy of the engine. -/
def execCstamp (c1 : Bool) (o : FL) (s : State) : Out :=
  runOp (.cstamp c1 o) (cslot c1) (guardOn · o.g) (do
    let e ← addrL o
    copyWrite (cslot c1) e 8 8 false
    let c ← getCore
    let g := c.eng c1
    let n := g.stamp + 1
    takeCopy c1 o false (g.ids ++ classAfter c (classOf e)) (.cstamp e n g.since)
    modCore fun c => c.modEng c1 fun e => { e with stamp := n, since := [] }) s

/-- CBCLOSE: a seventeenth closed batch stalls. -/
def execCbclose (c1 : Bool) (o : FN) (s : State) : Out :=
  runOp (.cbclose c1 o) (cslot c1) (guardOn · o.g) (do
    let e := (← getCore).eng c1
    if !e.open_.ids.isEmpty && 16 ≤ e.closed.length then stallFor .batches
    modCore fun c => c.modEng c1 closeBatch) s

/-! ### CFP, CSUM, CCMP (R210) -/

/-- The local result offset. -/
def resultOff (c1 : Bool) (r : Word) : IssM Unit := copyLocal (cslot c1) r 8 8

def execCfp (c1 : Bool) (o : FL) (s : State) : Out :=
  runOp (.cfp c1 o) (cslot c1) (guardOn · o.g) (do
    let a ← addrA o
    let r ← regD o
    checkAll [copyRead (cslot c1) a (immL o) 1 true, resultOff c1 r]
    if immL o % 8 != 0 then trapF (cslot c1) 0x26 0
    takeCopy c1 o false (copyAfter (← getCore) [classOf a, classOf r]) (.cfp r a (immL o))) s

def execCsum (c1 : Bool) (o : FL) (s : State) : Out :=
  runOp (.csum c1 o) (cslot c1) (guardOn · o.g) (do
    let a ← addrA o
    let r ← regD o
    checkAll [copyRead (cslot c1) a (immL o) 1 true, resultOff c1 r]
    takeCopy c1 o false (copyAfter (← getCore) [classOf a, classOf r]) (.csum r a (immL o))) s

/-- CCMP: W gives the length, IMM the result offset. -/
def execCcmp (c1 : Bool) (o : FL) (s : State) : Out :=
  runOp (.ccmp c1 o) (cslot c1) (guardOn · o.g) (do
    let a ← addrA o
    let b ← regD o
    let n := 64 * 2 ^ o.w.toNat
    let r : Word := BitVec.ofNat 64 (immL o)
    checkAll [copyRead (cslot c1) a n 1 true, copyRead (cslot c1) b n 1 true, resultOff c1 r]
    takeCopy c1 o false (copyAfter (← getCore) [classOf a, classOf b]) (.ccmp b a n r)) s

/-! ### CXPND, CPUSH, CPEER, CDISP (R211 to R215) -/

def execCxpnd (c1 : Bool) (o : FL) (s : State) : Out :=
  runOp (.cxpnd c1 o) (cslot c1) (guardOn · o.g) (do
    let a ← addrA o
    let d ← regD o
    checkAll [copyRead (cslot c1) a 1 1 false, copyWrite (cslot c1) d 1 32 true]
    takeCopy c1 o false (copyAfter (← getCore) [classOf a, classOf d]) (.cxpnd d a (immL o))) s

def execCpush (c1 : Bool) (o : FL) (s : State) : Out :=
  runOp (.cpush c1 o) (cslot c1) (guardOn · o.g) (do
    let a ← addrA o
    copyRead (cslot c1) a 1 1 false
    takeCopy c1 o false (copyAfter (← getCore) [classOf a]) (.cpush a (setOf o) none)) s

/-- CPEER: D holds the peer-destination word. -/
def execCpeer (c1 : Bool) (o : FL) (s : State) : Out :=
  runOp (.cpeer c1 o) (cslot c1) (guardOn · o.g) (do
    let a ← addrA o
    let d ← regD o
    let n := immL o
    copyLocal (cslot c1) a n 1
    if field d.toNat 46 18 != 0 || d.toNat % 8 != 0 || n % 8 != 0 || 2097152 < n then trapF (cslot c1) 0x26 0
    takeCopy c1 o false (copyAfter (← getCore) [classOf a]) (.cpeer d a n)) s

def execCdisp (c1 : Bool) (o : FL) (s : State) : Out :=
  runOp (.cdisp c1 o) (cslot c1) (guardOn · o.g) (do
    let a ← addrL o
    copyRead (cslot c1) a 64 64 false
    takeCopy c1 o false (copyAfter (← getCore) [classOf a]) (.cdisp a)) s

end Sys2Proof.Machine
end

