-- ==== Sys2Proof/Machine/Fetch.lean ====
section
/-! DEFINITION. Fetching bundles (R41, R110, R116, R270 to R272, R284, R285) and the capture of a loop body. -/

namespace Sys2Proof.Machine

/-- What a fetch at an address finds. -/
inductive Fetched where
  | ok (n : Nat)
  | miss
  | walk
  | fault (code : BitVec 8)
deriving DecidableEq, Repr, Inhabited

/-- A fetch from a half of the instruction scratchpad never misses (R270, R272, R285). -/
def fetchHalf (c : Core) (off : Nat) : Fetched :=
  if !c.halfClaimed off then .fault 0x14
  else if c.mem.ihClean.contains (off / 128) then .ok (rdNat c.mem.ih off 32)
  else .fault 0x0A

/-- The page's conditions for a fetch (R270, R351). -/
def State.fetchPage (s : State) (x : Xl) (pa : Nat) : Option (BitVec 8) :=
  if !present pa || (!s.core.csr.sec && s.secureAddr pa) then some 0x08
  else if s.hidden pa || !x.x || x.coh != 0 || !isDevice pa || s.hostBiased pa then some 0x09
  else if s.deadHome pa then some 0x2D
  else none

/-- A fetch of the 32 bytes at an address by the core in focus. -/
def State.fetch (s : State) (va : BitVec 48) : Fetched :=
  let a := va.toNat
  match ihOffset a with
  | some off => fetchHalf s.core off
  | none =>
    match s.core.tlbFind s.core.csr.sec a with
    | none =>
      if s.core.walkFails.any fun f => f.1 == s.core.csr.sec && f.2.1 == a / 4096 then .fault 0x08 else .walk
    | some x =>
      let pa := x.paOf a
      match s.fetchPage x pa with
      | some code => .fault code
      | none =>
        if s.core.mem.icache.contains (pa / 128) then .ok (rdNat s.store.bytes pa 32)
        else if s.biasChanging pa then .miss
        else if !isClean s.store (pa / 128) then .fault 0x0A
        else .miss

/-- INSTRUCTION_FETCH's fill: a read by another party than the data copies (R267, R276), 512 lines in all (R270). -/
def State.fillIcache (s : State) (va : BitVec 48) : State :=
  match s.core.tlbFind s.core.csr.sec va.toNat with
  | none => s
  | some x =>
    let line := x.paOf va.toNat / 128
    let s := s.readHome line
    s.onCore fun c => { c with mem := { c.mem with icache := (insertNew line c.mem.icache).take 512 } }

/-! ### RESULT_LANDING, INSTRUCTION_FETCH and PAGE_WALK -/

/-- RESULT_LANDING (R31, R33): every result of the core in focus that is due lands; a return that waited for the last one is
made (R120). -/
def execResultLanding (s : State) : Out := .next (finishReturn (s.onCore fun c => landDue c s.clock))

/-- The bundle address that the core in focus waits to fetch. -/
def Core.fetchWait (c : Core) : Option (BitVec 48) := match c.stall with
  | some (.loopFetch va) => some va
  | _ => none

/-- The translation that the core in focus waits for: its space, and the address. -/
def Core.walkWait (c : Core) : Option (Bool × Nat) := match c.stall with
  | some (.walk sp va) => some (sp, va)
  | _ => none

/-- The line is filled unless its page is changing its bias; a fetch that would fault fills nothing (R270, R284, R286). -/
def State.fillDue (s : State) (va : BitVec 48) : Bool :=
  s.fetch va == .miss && match s.core.tlbFind s.core.csr.sec va.toNat with
    | some x => !s.biasChanging (x.paOf va.toNat)
    | none => false

/-- INSTRUCTION_FETCH (R270) for the address the core in focus waits at. -/
def execInstructionFetch (s : State) : Out :=
  .next (match s.core.fetchWait with
    | some va => if s.fillDue va then s.fillIcache va else s
    | none => s)

/-- No table of the walk lies in a page that is changing its bias (R286). -/
def State.walkFree (s : State) (sec : Bool) (va : Nat) : Bool :=
  !((s.walkLines sec va).any fun l => s.biasChanging (128 * l))

/-- PAGE_WALK (R348, R350) for the core in focus: a translation or its fault. -/
def execPageWalk (space : Bool) (va : BitVec 48) (s : State) : Out :=
  .next (if s.walkFree space va.toNat then s.doWalk space va.toNat else s)

/-- BEND of a bundle (R42). -/
def isBend (n : Nat) : Bool := hdrBend n
/-- Slot K holds LOOP or NEST (R116). -/
def opensLoop (n : Nat) : Bool := let op := fOp (slotWord n 6); op == 5 || op == 6

/-- A body as captured, or why it is not. -/
inductive Captured where
  | body (l : List (BitVec 256))
  | noEnd
  | wait (st : Stall)
  | fault (code : BitVec 8) (va : BitVec 48)
deriving DecidableEq, Repr, Inhabited

/-- R116: the bundles from an address up to the first with BEND, at most as many as the fuel. -/
def State.capture (s : State) : Nat → BitVec 48 → List (BitVec 256) → Captured
  | 0, _, _ => .noEnd
  | n + 1, va, acc =>
    match s.fetch va with
    | .fault code => .fault code va
    | .walk => .wait (.walk s.core.csr.sec va.toNat)
    | .miss => .wait (.loopFetch va)
    | .ok b =>
      let acc := acc ++ [BitVec.ofNat 256 b]
      if isBend b then .body acc else s.capture n (va + 32) acc

end Sys2Proof.Machine
end

