-- ==== Sys2Proof/Machine/Control.lean ====
section
/-! DEFINITION. The control instructions of slot K but for its waits: transfers (R110 to R113), loops (R114 to R118), traps
(R119, R120), the end of a task, YIELD, HBEAT, IRQH and HALT (R124 to R126, R129, R130), control registers (R19 to R30,
R127, R128), and the illegal bundle (R60). -/

namespace Sys2Proof.Machine

/-- The empty operation (R46): it reads nothing, writes nothing and never traps. -/
def execNop (s : State) : Out := runOp .nop 0 (fun _ => true) (pure ()) s

/-- R60: the illegal-bundle fault; DETAIL is the reason of R336. -/
def execIllegalBundle (hdr : Bool) (slot : Fin 8) (reason : BitVec 8) (s : State) : Out :=
  .next (takeFault (openBundle s false) ⟨0x10, reason.zeroExtend 48, some slot, hdr, none, false⟩)

/-! ### Transfers -/

/-- R111: the displacement in bundles. -/
def dispInt : Disp → Int
  | .short t => t.toInt
  | .long v => v.toInt

def targetOf (pc : BitVec 48) (d : Disp) : BitVec 48 := pc + BitVec.ofInt 48 (32 * dispInt d)

def goTo (t : BitVec 48) : IssM Unit := modIss fun i => { i with next := some t }

def execBr (o : FJ) (s : State) : Out :=
  runOp (.br o) 6 (guardOn · o.g) (do goTo (targetOf (← getCore).pc o.t)) s

/-- R111: an indirect target's form. -/
def indirect (a : Fin 16) : IssM (BitVec 48) := do
  let x := (← getCore).regs.a.get a
  if field x.toNat 48 12 != 0 || field x.toNat 0 5 != 0 then trapF 6 0x18 (vaOf x)
  return BitVec.ofNat 48 x.toNat

def execBri (o : FJ) (s : State) : Out := runOp (.bri o) 6 (guardOn · o.g) (do goTo (← indirect o.a)) s

/-- R112. -/
def execCall (o : FJ) (s : State) : Out :=
  runOp (.call o) 6 (guardOn · o.g) (do
    let pc := (← getCore).pc
    landA 6 1 o.a ((pc + 32).zeroExtend 64)
    goTo (targetOf pc o.t)) s

def execRet (o : FJ) (s : State) : Out := runOp (.ret o) 6 (guardOn · o.g) (do goTo (← indirect o.a)) s

/-- R113, R271: the target must lie in the other half. -/
def execSwapi (o : FJ) (s : State) : Out :=
  runOp (.swapi o) 6 (guardOn · o.g) (do
    let c ← getCore
    let t := targetOf c.pc o.t
    match ihOffset c.pc.toNat, ihOffset t.toNat with
    | some a, some b =>
      let hi : Bool := 65536 ≤ b
      if (65536 ≤ a : Bool) == hi then trapF 6 0x1D t.toNat
      if (c.eng0.queue ++ c.eng1.queue).any (writesHalf hi) then stallFor .swap
      modIss fun i => { i with swap := true }
      goTo t
    | _, _ => trapF 6 0x1D t.toNat) s

/-! ### Loops -/

/-- R115: the count, a signed 64-bit sum. -/
def loopCount (a : Word) (o : FI) : IssM Int := do
  let c := (a + BitVec.ofInt 64 (immInt o.i)).toInt
  if 2 ^ 32 - 1 < c then trapF 6 0x1E 0
  return c

/-- The counter and its reload value take the count, of a negative one its low 32 bits (L69). -/
def setCount (l : LoopState) (n : NReg) (c : Int) : LoopState :=
  { l with n := l.n.set n (BitVec.ofInt 32 c), reload := l.reload.set n (BitVec.ofInt 32 c) }

/-- NEST becomes a pending level, after those there (R115). -/
def execNest (o : FI) (s : State) : Out :=
  runOp (.nest o) 6 (guardOn · o.g) (do
    let n : NReg := Fin.ofNat 6 o.d.val
    let c ← loopCount (← readSq 6 o.a) o
    modCore fun k =>
      let l := setCount k.loopSt n c
      { k with loopSt := { l with pending := l.pending ++ [n], dead := l.dead || c ≤ 0 } }) s

/-- A number that is listed twice. -/
def hasTwice : List NReg → Bool
  | [] => false
  | x :: l => l.contains x || hasTwice l

/-- LOOP captures the body, takes the pending levels and opens the loop, or skips it (R116, R117). -/
def execLoop (o : FI) (s : State) : Out :=
  runOp (.loop o) 6 (guardOn · o.g) (do
    let s ← get
    let n : NReg := Fin.ofNat 6 o.d.val
    match s.capture 32 (s.core.pc + 32) [] with
    | .wait st => stallFor st
    | .fault code va => trapWith ⟨code, va, some 6, false, none, true⟩
    | .noEnd =>
      let _ ← readSq 6 o.a
      trapF 6 0x1E 0
    | .body b =>
      let a ← readSq 6 o.a
      if b.any (fun x => opensLoop x.toNat) || hasTwice (n :: s.core.loopSt.pending) then trapF 6 0x1E 0
      let c ← loopCount a o
      let l := setCount s.core.loopSt n c
      let levels := n :: l.pending.reverse
      let skip := l.dead || c ≤ 0
      let l := { l with pending := [], dead := false, pos := 0, start := s.core.pc + 32 }
      if skip then modIss fun i => { i with newLoop := some { l with levels := [], body := [] }, skip := b.length }
      else modIss fun i => { i with newLoop := some { l with levels := levels, body := b } }) s

/-! ### Traps -/

/-- R119: TRAP commits its bundle, then is taken. -/
def execTrap (o : FI) (s : State) : Out :=
  runOp (.trap o) 6 (guardOn · o.g)
    (modIss fun i => { i with post := i.post ++ [⟨0x01, BitVec.ofNat 48 (immNat o.i), some 6, false, none, false⟩] }) s

/-- R120: the bundle commits; the return follows (`finishReturn`). -/
def execRft (o : FN) (s : State) : Out := runOp (.rft o) 6 (guardOn · o.g) (modIss fun i => { i with rft := true }) s

/-! ### Tasks and the host -/

def leaveWith (why : Leave) : IssM Unit := modIss fun i => { i with leave := some why }

def execTexit (o : FN) (s : State) : Out := runOp (.texit o) 6 (guardOn · o.g) (leaveWith .exit) s
def execHalt (o : FN) (s : State) : Out := runOp (.halt o) 6 (guardOn · o.g) (leaveWith (.halt 0x51 0)) s

/-- R125, R121. -/
def execYield (o : FN) (s : State) : Out :=
  runOp (.yield o) 6 (guardOn · o.g) (do
    let s ← get
    if s.yieldable && !s.core.inHandler then leaveWith .yield) s

/-- R126. -/
def execHbeat (o : FN) (s : State) : Out :=
  runOp (.hbeat o) 6 (guardOn · o.g) (modCore fun c => { c with wdcount := 0, csr := { c.csr with wdfired := false } }) s

/-- R129: the record waits for every access issued before it; the bundle does not stall. -/
def execIrqh (o : FI) (s : State) : Out :=
  runOp (.irqh o) 6 (guardOn · o.g) (do
    let c ← getCore
    let _ ← issueTok 6 none 0 (releaseAfter c) (.irqh (BitVec.ofNat 32 (immNat o.i)))) s

/-! ### Control registers -/

/-- R19 to R30: a register's value. -/
def csrRead (s : State) (n : Nat) : Word :=
  let c := s.core
  let k := c.csr
  if 0x010 ≤ n ∧ n ≤ 0x027 then (vat k.replay (n - 0x010)).word
  else match n with
    | 0x000 => BitVec.ofNat 64 ((if k.ptrap then 1 else 0) + c.id.val * 2 ^ 16)
    | 0x001 => k.qmode
    | 0x002 => if k.scr then 1 else 0
    | 0x003 => k.bankrole
    | 0x004 => k.stashmap
    | 0x005 => BitVec.ofNat 64 (k.quota.toNat + k.inuse.toNat * 2 ^ 16 + k.refused.toNat * 2 ^ 32)
    | 0x006 => k.fevlog
    | 0x007 => k.trapvec
    | 0x008 => k.trapcause
    | 0x009 => k.trappc
    | 0x00A => k.trapslot
    | 0x030 => BitVec.ofNat 64 (k.wdwin.toNat + if k.wdfired then 2 ^ 32 else 0)
    | 0x031 => k.domn.zeroExtend 64
    | 0x032 => BitVec.ofNat 64 (k.task.toNat + k.prio.toNat * 2 ^ 32 + k.launch.toNat * 2 ^ 48)
    | 0x033 => s.host.evseq
    | 0x034 => BitVec.ofNat 64 s.clock
    | 0x035 => if k.sec then 1 else 0
    | _ => 0

/-- R127: the registers whose write touches nothing but themselves; read-only fields are kept. -/
def csrWrite (k : Csr) (n : Nat) (w : Word) : Csr :=
  if 0x010 ≤ n ∧ n ≤ 0x027 then
    { k with replay := vtab 24 fun i =>
        if i = n - 0x010 then { vat k.replay i with word := w &&& 0x3FFFF } else vat k.replay i }
  else match n with
    | 0x000 => { k with ptrap := w.toNat % 2 == 1 }
    | 0x002 => { k with scr := w.toNat % 2 == 1 }
    | 0x005 => { k with quota := BitVec.ofNat 10 (min 512 (w.toNat % 1024)), refused := BitVec.ofNat 32 (w.toNat / 2 ^ 32) }
    | 0x007 => { k with trapvec := w &&& 0x0000FFFFFFFFFFE1 }
    | 0x008 => { k with trapcause := w &&& 0xFFFFFFFFFFFF0FFF }
    | 0x009 => { k with trappc := w &&& 0x0000FFFFFFFFFFE0 }
    | 0x00A => { k with trapslot := w &&& 0xF }
    | _ => k

/-- The value a CSRW writes, IMM sign-extended (R127). -/
def csrSrc (x : SrcC) : IssM Word := srcCs 6 x

/-- R127: the value at the issue clock. -/
def execCsrr (o : FCS) (s : State) : Out :=
  runOp (.csrr o) 6 (guardOn · o.g) (do
    let s ← get
    match o.s with
    | .reg r => landS 6 1 r (csrRead s o.n.toNat)
    | .imm _ => pure ()) s

def execCsrw (o : FCS) (s : State) : Out :=
  runOp (.csrw o) 6 (guardOn · o.g) (do
    let w ← csrSrc o.s
    modCore fun c => { c with csr := csrWrite c.csr o.n.toNat w }) s

/-- R12, R21: the fields of s0, v0 and [63:48] read 0; beside a QCFG of its bundle the whole word decides (L70). -/
def execQmodeWrite (o : FW) (s : State) : Out :=
  runOp (.qmodeWrite o) 6 (guardOn · o.g) (do
    let w ← csrSrc o.s
    let q := w &&& 0x0000FFFEFFFFFFFC
    if q != (← getCore).csr.qmode || (← getIss).qmode.isSome then modIss fun i => { i with qmode := some q }) s

/-- An access of local memory in flight: a local load or store, or a WSET, which reads the visited map. -/
def TokKind.isLocal : TokKind → Bool
  | .local _ | .wset _ _ => true
  | _ => false

/-- What keeps banks from leaving SCRATCH: local accesses in flight, which complete whatever their bank, and the copies and the messages
that name one of them (R263). -/
def scratchWaits (s : State) (p : Nat → Bool) : Bool :=
  let c := s.core
  c.ops.any (fun o => o.kind.isLocal) || (c.eng0.queue ++ c.eng1.queue).any (fun k => k.kind.locals.any fun r => meetsBank p r.1 r.2) ||
    s.posts.any fun q => q.dst.core == c.id && p (q.dst.off.toNat / 65536) && !q.msg.isCredit

/-- What keeps the banks that change from leaving their roles (R263).  The operands of repetitions that a freeze holds are the unit's own
(R172), so that these need no bank. -/
def drainWaits (s : State) (ch : List Nat) : Bool :=
  let left (r : Nat) (n : Nat) : Bool := ch.contains n && s.core.role n == r
  (ch.any (left 1) && scratchWaits s (left 1)) || (ch.any (left 3) && s.core.mx.ops.any fun m => !m.held && !m.tiles.isEmpty)

/-- R23, R127, R263: a write within the claim, after the drain of the banks that change. -/
def execBankroleWrite (o : FW) (s : State) : Out :=
  runOp (.bankroleWrite o) 6 (guardOn · o.g) (do
    let w ← csrSrc o.s
    let s ← get
    let c := s.core
    let ch := changedBanks c.csr.bankrole w
    match ch.find? fun n => !c.bankClaimed n with
    | some n => trapF 6 0x14 n
    | none =>
      modIss fun i => { i with drain := some (BitVec.ofNat 32 (ofOnes (ch.filter fun n => c.role n == 1))) }
      if drainWaits s ch then stallFor .drain
      modIss fun i => { i with csrw := some (0x003, w) }) s

def execStashmapWrite (o : FW) (s : State) : Out :=
  runOp (.stashmapWrite o) 6 (guardOn · o.g) (do
    let w ← csrSrc o.s
    modIss fun i => { i with csrw := some (0x004, w) }) s

/-- R127, R315: the running count and FIRED return to 0. -/
def execWdogwinWrite (o : FW) (s : State) : Out :=
  runOp (.wdogwinWrite o) 6 (guardOn · o.g) (do
    let w ← csrSrc o.s
    modCore fun c => { c with wdcount := 0, csr := { c.csr with wdwin := BitVec.ofNat 32 w.toNat, wdfired := false } }) s

/-- R27: a record a CSRW writes counts as earlier than every later result. -/
def execFevlogWrite (o : FW) (s : State) : Out :=
  runOp (.fevlogWrite o) 6 (guardOn · o.g) (do
    let w ← csrSrc o.s
    modCore fun c => { c with csr := { c.csr with fevlog := w &&& 0x0007FFFFFFFFFFE7, fevRank := none } }) s

/-- R19, R127. -/
def execWorldWrite (o : FW) (s : State) : Out :=
  runOp (.worldWrite o) 6 (guardOn · o.g) (do
    let w ← csrSrc o.s
    if !(← getCore).csr.sec then trapF 6 0x13 0x035
    modIss fun i => { i with csrw := some (0x035, w) }) s

/-- R128: FEVLOG as it stands, and V is cleared in the same clock. -/
def execFevrd (o : FR) (s : State) : Out :=
  runOp (.fevrd o) 6 (guardOn · o.g) (do
    let k := (← getCore).csr
    landS 6 1 o.d k.fevlog
    modCore fun c => { c with csr := { c.csr with fevlog := BitVec.ofNat 64 (k.fevlog.toNat / 2 * 2), fevRank := none } }) s

end Sys2Proof.Machine
end

