-- ==== Sys2Proof/Machine/Image.lean ====
section
/-! DEFINITION. What units of the device read and write in an address space, and the byte image of a saved context (R344) with the
changes engines make to it while the task is away (R325, R412).  Fields to which R344 gives no byte places have places of the
model's own (L13). -/

namespace Sys2Proof.Machine

/-! ### A unit's accesses to a space -/

/-- The first byte and the length of a range's piece in each page. -/
def pagePieces (va n : Nat) : List (Nat × Nat) :=
  (pagesOf va n).map fun p =>
    let a := max va (4096 * p)
    (a, min (va + n) (4096 * p + 4096) - a)

/-- The physical address of a unit's access in one page; none where it faults or meets a dead home (R291, R351, R365). -/
def State.spacePa (s : State) (sec write : Bool) (va : Nat) : Option Nat :=
  if 2 ^ 48 ≤ va then none
  else match s.walk sec va with
    | .fail _ => none
    | .ok x =>
      let pa := x.paOf va
      if !isMemory pa || (!sec && s.secureAddr pa) || s.hidden pa || s.deadHome pa || (write && !x.w) then none else some pa

/-- A unit's read of a space at the home; none where it faults or meets an error. -/
def State.spaceRead (s : State) (sec : Bool) (va n : Nat) : Option (List Byte) :=
  let piece (p : Nat × Nat) : Option (List Byte) := match s.spacePa sec false p.1 with
    | none => none
    | some pa => if (linesOf pa p.2).any s.store.poison.contains then none else some (rdBytes s.store.bytes pa p.2)
  ((pagePieces va n).mapM piece).map List.flatten

/-- Bytes of one page stored at the home, line by line. -/
def storeLines (s : State) (pa : Nat) (bs : List Byte) : State :=
  (linePieces pa bs.length).foldl (fun (s : State) p => s.storeLine .home p.1 ((bs.drop (p.1 - pa)).take p.2)) s

/-- Whether bytes may be stored: a line with uncorrectable data takes only a write of all of it (R292). -/
def linesOk (s : State) (pa n : Nat) : Bool :=
  (linePieces pa n).all fun p => !s.store.poison.contains (p.1 / 128) || p.2 == 128

/-- Stores of the core in focus to a range of a space, page by page; false once one fails, with the rest unwritten. -/
def State.spaceWrite (s : State) (sec : Bool) (va : Nat) (bs : List Byte) : State × Bool :=
  (pagePieces va bs.length).foldl (fun (r : State × Bool) p =>
    if !r.2 then r
    else match r.1.spacePa sec true p.1 with
      | none => (r.1, false)
      | some pa =>
        if linesOk r.1 pa p.2 then (storeLines r.1 pa ((bs.drop (p.1 - va)).take p.2), true) else (r.1, false)) (s, true)

/-! ### The parts of the image (R344) -/

/-- The entries of a list, padded to n. -/
def padded {α : Type} (n : Nat) (z : α) (l : List α) : List α := (l ++ List.replicate n z).take n

def wordsBytes (l : List Word) : List Byte := l.flatMap fun w => toBytes 8 w.toNat
def vregBytes (v : VReg) : List Byte := (List.range 64).flatMap fun i => toBytes 4 (vlane v i).toNat

/-- The flag word at 0x80. -/
def contextFlags (c : Core) : Nat :=
  (if c.mem.activeHi then 1 else 0) + (if c.inHandler then 2 else 0) + (if c.loopSt.levels.isEmpty then 0 else 4) +
    if c.shadow.isSome then 8 else 0

/-- The control words. -/
def controlWords (c : Core) : List Word :=
  let s := { State.reset with core := c }
  [csrRead s 0x009, csrRead s 0x008, csrRead s 0x00A, csrRead s 0x007, csrRead s 0x000, csrRead s 0x001, csrRead s 0x002,
   csrRead s 0x003, csrRead s 0x004, csrRead s 0x005 &&& 0xFFFFFFFF0000FFFF, csrRead s 0x006, csrRead s 0x030,
   BitVec.ofNat 64 c.wdcount, csrRead s 0x031, csrRead s 0x035, csrRead s 0x032, BitVec.ofNat 64 (contextFlags c),
   BitVec.ofNat 64 c.mx.cfg.toNat,
   (match c.mon with
    | some m => BitVec.ofNat 64 (m.addr.toNat / 2 * 2 + 1)
    | none => 0),
   (match c.mon with
    | some m => m.was
    | none => 0)]

/-- Occupancies: 1 for a register in register mode. -/
def occBytes (c : Core) : List Byte :=
  ((List.range 16).map fun r => BitVec.ofNat 8 (if sQueue c.csr.qmode (Fin.ofNat 16 r) then (vat c.regs.s r).length else 1)) ++
    (List.range 16).map fun r => BitVec.ofNat 8 (if vQueue c.csr.qmode (Fin.ofNat 16 r) then (vat c.regs.v r).length else 1)

def tokenBytes (c : Core) : List Byte :=
  (List.range 8).flatMap fun k =>
    let t := vat c.regs.k k
    match t.err with
    | some e => toBytes 8 (t.count + 4096 + e.code.toNat * 2 ^ 16) ++ toBytes 8 e.detail.toNat
    | none => toBytes 8 t.count ++ toBytes 8 0

def levelBytes (l : List NReg) : List Byte := toBytes 2 l.length ++ padded 6 0 (l.map fun n => BitVec.ofNat 8 n.val)

def loopBytes (l : LoopState) : List Byte :=
  ((List.range 6).flatMap fun i => toBytes 4 (vat l.n i).toNat) ++ ((List.range 6).flatMap fun i => toBytes 4 (vat l.reload i).toNat) ++
    levelBytes l.levels ++ levelBytes l.pending ++ toBytes 8 l.start.toNat ++ toBytes 4 l.body.length ++ toBytes 4 l.pos ++
    toBytes 4 (if l.dead then 1 else 0)

def handleBytes (h : Option Handle) : List Byte :=
  match h with
  | some x => toBytes 128 x.desc.toNat ++ ((List.range 6).flatMap fun i => toBytes 4 (vat x.cursor i).toNat) ++
      toBytes 8 (x.addr.toNat / 2 * 2 + 1)
  | none => List.replicate 160 0

def nestBytes (v : Vector NestLevel 6) : List Byte :=
  v.toList.flatMap fun l => toBytes 4 l.bound.toNat ++ toBytes 4 l.sstr.toNat ++ toBytes 4 l.dstr.toNat ++ toBytes 4 l.rank.toNat

def statBytes (b : BStat) : List Byte :=
  match b.err with
  | some e => toBytes 1 2 ++ toBytes 1 e.code.toNat ++ toBytes 6 e.detail.toNat
  | none => toBytes 8 (if b.poison then 1 else 0)

def batchBytes (b : Batch) : List Byte := statBytes b.st ++ toBytes 4 b.ids.length ++ toBytes 4 b.pend.length

def engineBytes (e : Engine) : List Byte :=
  padded 512 0 (nestBytes e.nest ++ toBytes 8 e.stamp.toNat ++ statBytes e.acc ++ toBytes 8 e.closed.length ++ batchBytes e.open_ ++
    e.closed.flatMap batchBytes)

def scaleBytes (c : Core) : List Byte :=
  (c.mx.scA.toList.flatMap fun x => toBytes 2 x.toNat) ++ c.mx.scB.toList.flatMap fun x => toBytes 2 x.toNat

/-- A captured operand: its descriptor and its cursor. -/
def operandBytes (h : Handle) : List Byte := toBytes 128 h.desc.toNat ++ (List.range 6).flatMap fun i => toBytes 4 (vat h.cursor i).toNat

/-- The held repetitions of an operation: its base, their number, the clocks to the next one, the configuration and the operands. -/
def heldOp (o : MOp) : List Byte :=
  toBytes 4 o.base ++ toBytes 2 (o.reps - o.next) ++ toBytes 2 o.nextAt ++ toBytes 8 o.cfg.toNat ++ operandBytes o.hA ++ operandBytes o.hB

/-- A held scale load: the clocks to its landing, and its values. -/
def heldLoad (l : ScaleLoad) : List Byte := toBytes 8 l.due ++ l.xs.flatMap fun x => toBytes 2 x.toNat

/-- Held repetitions and pending scale loads, in issue order; the room of the part is 1,600 bytes. -/
def heldBytes (c : Core) : List Byte :=
  ((c.mx.ops.filter (·.held)).flatMap heldOp ++ (c.mx.loads.filter (·.held)).flatMap heldLoad).take 1600

/-- The Tumbler's parts that are not kept bit by bit elsewhere: record, ready bits, handed-out bits, map, deferral counts. -/
def tumblerParts (t : TumSet) : List (Nat × List Byte) :=
  let n := (t.count + 7) / 8
  [(0x8000, toBytes 4 t.count ++ toBytes 1 t.ntile ++ toBytes 1 t.defer ++ toBytes 2 0 ++ toBytes 8 t.table.toNat ++
      toBytes 4 t.map.toNat ++ toBytes 12 0),
   (0x9000, toBytes n (ofOnes t.ready)), (0xB000, toBytes n (ofOnes t.handed)), (0xD000, toBytes n (ofOnes t.visited)),
   (0xF000, (chunks 2 t.counts).map fun p => BitVec.ofNat 8 ((p[0]?).getD 0 % 16 + 16 * ((p[1]?).getD 0 % 16)))]

/-- The claimed banks whose role is SCRATCH. -/
def Core.savedBanks (c : Core) : List Nat := (c.banksOf 1).filter c.bankClaimed

def scratchAt (off : Nat) : Nat := 0x40000 + off
def halfAt (off : Nat) : Nat := 0x18000 + off
def rowAt (r : Nat) : Nat := 0x240000 + 64 * r

def halvesHeld (c : Core) : List Nat := (if c.claim.ilo then [0] else []) ++ if c.claim.ihi then [65536] else []

/-- The image of a core as it is saved: offsets and bytes. -/
def imageOf (c : Core) : List (Nat × List Byte) :=
  [(0x0, padded 256 0 (wordsBytes (controlWords c))),
   (0x100, wordsBytes ((List.range 16).flatMap fun r => padded 4 0 (vat c.regs.s r))),
   (0x300, wordsBytes c.regs.a.toList), (0x380, wordsBytes c.regs.p.toList), (0x3E0, occBytes c), (0x400, tokenBytes c),
   (0x480, padded 128 0 (loopBytes c.loopSt)), (0x500, padded 128 0 ((c.shadow.map loopBytes).getD [])),
   (0x580, wordsBytes (c.csr.replay.toList.map (·.word))), (0x640, wordsBytes (c.csr.replay.toList.map (·.mask))),
   (0x1000, c.regs.h.toList.flatMap handleBytes), (0x1A00, engineBytes c.eng0), (0x1C00, engineBytes c.eng1),
   (0x2000, scaleBytes c), (0x21C0, heldBytes c),
   (0x2800, (List.range 16).flatMap fun r => (padded 2 VReg.zero (vat c.regs.v r)).flatMap vregBytes),
   (0x4800, c.csr.replay.toList.flatMap fun r => vregBytes r.payload)] ++
  ((c.tum.set.map tumblerParts).getD []) ++
  ((halvesHeld c).map fun o => (halfAt o, rdBytes c.mem.ih o 65536)) ++
  (c.savedBanks.map fun n => (scratchAt (65536 * n), rdBytes c.mem.sram (65536 * n) 65536)) ++
  (rowRanges c.claim.rows.toNat).flatMap fun p => (List.range p.2).map fun i => (rowAt (p.1 + i), toBytes 64 (accRow c.mx (p.1 + i)).toNat)

/-! ### Changes while the task is away (R325, R412) -/

/-- A store to the image of a saved task; one that fails is dropped. -/
def State.imageWrite (s : State) (g : Core) (off : Nat) (bs : List Byte) : State :=
  s.asCore g.id fun s => (s.spaceWrite g.csr.sec (g.claim.ctx.toNat + off) bs).1

/-- The offsets at which two memories differ. -/
def changedCells (a b : List Host.Cell) : List Nat :=
  insertAll ((b.filter fun p => rd8 a p.1 != p.2).map (·.1)) ((a.filter fun p => rd8 b p.1 != p.2).map (·.1))

/-- The engines and the memory path record what they have changed of a saved context in its context area. -/
def State.syncGhost (s : State) (old new : Core) : State :=
  let s := if tokenBytes old = tokenBytes new then s else s.imageWrite new 0x400 (tokenBytes new)
  let s := if engineBytes old.eng0 = engineBytes new.eng0 then s else s.imageWrite new 0x1A00 (engineBytes new.eng0)
  let s := if engineBytes old.eng1 = engineBytes new.eng1 then s else s.imageWrite new 0x1C00 (engineBytes new.eng1)
  let s := (changedCells old.mem.sram new.mem.sram).foldl (fun (s : State) o => s.imageWrite new (scratchAt o) [rd8 new.mem.sram o]) s
  (changedCells old.mem.ih new.mem.ih).foldl (fun (s : State) o => s.imageWrite new (halfAt o) [rd8 new.mem.ih o]) s

/-- The saved context of a task. -/
def State.ctxOf (s : State) (task : Nat) : Option Core := (s.sched.tasks.find? fun t => t.id == task).bind (·.ctx)

/-- A saved context changed by `f`, with its image in memory. -/
def State.asSaved (s : State) (task : Nat) (f : State → State) : State :=
  match s.ctxOf task with
  | none => s
  | some g =>
    let s := s.asGhost task f
    match s.ctxOf task with
    | none => s
    | some g' => s.syncGhost g g'

end Sys2Proof.Machine
end

