-- ==== Sys2Proof/Machine/Barrier.lean ====
section
/-! DEFINITION. Transaction barriers (R218 to R220, R264, R324, R412): the object, the messages of slots C0 and C1, and the update of
a barrier in a clock. -/

namespace Sys2Proof.Machine

/-! ### Where a barrier stands (R218, R412) -/

/-- The barrier an address register names, if the address keeps R218's form. -/
def barAddr (c : Core) (a : Word) : Option BarAddr :=
  let n := a.toNat
  if field n 24 36 != 0 || n % 16 != 0 then none
  else some ⟨Fin.ofNat 128 (8 * clusterOf c.id + field n 21 3), BitVec.ofNat 21 n⟩

/-- The live bank of the task placed on the core, or a saved image. -/
inductive BarHome where
  | live
  | saved (task : Nat)
deriving DecidableEq, Repr, Inhabited

def bankOf (b : BarAddr) : Nat := b.off.toNat / 65536

/-- The task most recently saved from a core whose claim holds a bank as SCRATCH. -/
def State.savedImage (s : State) (b : BarAddr) : Option Nat :=
  let holds (t : Task) : Bool := t.home == some b.core && t.st != .discarded && match t.ctx with
    | some c => c.bankClaimed (bankOf b) && c.role (bankOf b) == 1
    | none => false
  ((s.sched.tasks.filter holds).foldl (fun (best : Option Task) t => match best with
    | some u => if u.placedAt ≤ t.placedAt then some t else best
    | none => some t) none).map (·.id)

/-- Where a message to a barrier is applied. -/
def State.barHome (s : State) (b : BarAddr) : Option BarHome :=
  let k := s.coreAt b.core
  if k.stat != .idle && k.isScratch b.off.toNat then some .live
  else (s.savedImage b).map .saved

def barBytes (c : Core) (b : BarAddr) : Nat := rdNat c.mem.sram b.off.toNat 16
def setBarBytes (b : BarAddr) (n : Nat) (c : Core) : Core := { c with mem := { c.mem with sram := wrNat c.mem.sram b.off.toNat 16 n } }

/-- The 16 bytes of a barrier. -/
def State.barRead (s : State) (b : BarAddr) : Option Nat :=
  match s.barHome b with
  | some .live => some (barBytes (s.coreAt b.core) b)
  | some (.saved t) => ((s.sched.task t).bind (·.ctx)).map fun c => barBytes c b
  | none => none

def State.barWrite (s : State) (b : BarAddr) (n : Nat) : State :=
  match s.barHome b with
  | some .live => s.modCore b.core (setBarBytes b n)
  | some (.saved t) =>
    let s := { s with sched := s.sched.modTask t fun t => { t with ctx := t.ctx.map (setBarBytes b n) } }
    match s.ctxOf t with
    | some g => s.imageWrite g (scratchAt b.off.toNat) (toBytes 16 n)
    | none => s
  | none => s

/-- The bank of the barrier is draining on its way out of SCRATCH (R263). -/
def State.barDraining (s : State) (b : BarAddr) : Bool := s.barHome b == some .live && bit (s.coreAt b.core).draining.toNat (bankOf b)

/-- R218, R264: the check of a barrier operand; it answers the barrier. -/
def namedBarrier (slot : Fin 8) (a : Word) : IssM BarAddr := do
  let s ← get
  match barAddr s.core a with
  | none => trapF slot 0x27 (vaOf a)
  | some b =>
    if s.deadCore b.core then trapF slot 0x2D (vaOf a)
    if (s.barHome b).isNone then trapF slot 0x27 (vaOf a)
    return b

/-- The check of a message's barrier: a draining bank accepts none (R263). -/
def barrierOf (slot : Fin 8) (a : Word) : IssM BarAddr := do
  let b ← namedBarrier slot a
  if (← get).barDraining b then trapF slot 0x27 (vaOf a)
  return b

/-! ### BINIT, BARRIVE, BEXPECT (R219) -/

/-- One message, with what it must wait for. -/
def postBarrier (i : Instr) (c1 : Bool) (o : FR) (ok : Int → Bool) (msg : Int → BarMsg) (after : Core → List Nat)
    (bind : Bool) (s : State) : Out :=
  runOp i (cslot c1) (guardOn · o.g) (do
    let n ← srcBs (cslot c1) o.b
    let c ← getCore
    let a := c.regs.a.get o.a.r
    if !ok n.toInt then trapF (cslot c1) 0x27 (vaOf a)
    let b ← barrierOf (cslot c1) a
    let id ← freshId
    let draw ← freshDraw
    let t := (← get).clock
    modIss fun i => { i with posts := i.posts ++ [⟨id, draw, t, c.id, b, after c, msg n.toInt⟩] }
    if bind then modCore fun c => c.modEng c1 fun e => { e with counted := some b }) s

def execBinit (c1 : Bool) (o : FR) (s : State) : Out :=
  postBarrier (.binit c1 o) c1 o (fun n => 1 ≤ n && n ≤ 65535) (fun n => .binit (BitVec.ofInt 16 n)) (fun _ => []) false s

/-- BARRIVE is a release at cluster scope. -/
def execBarrive (c1 : Bool) (o : FR) (s : State) : Out :=
  postBarrier (.barrive c1 o) c1 o (fun n => 0 ≤ n && n ≤ 65535) (fun n => .arrive n.toNat) releaseAfter false s

def execBexpect (c1 : Bool) (o : FR) (s : State) : Out :=
  postBarrier (.bexpect c1 o) c1 o (fun n => -2 ^ 31 ≤ n && n < 2 ^ 31) (fun n => .expect (BitVec.ofInt 32 n)) (fun _ => []) true s

/-! ### The update of a clock (R220) -/

def BarMsg.isInit : BarMsg → Bool
  | .binit _ => true
  | _ => false

/-- A message has come through the network: its clock is reached, and what it releases is performed. -/
def postReady (s : State) (p : BarPost) : Bool :=
  p.since + 1 + Config.latency p.draw ≤ s.clock && s.settledAt p.src p.after

/-- The messages applied in this clock: of each core the first to the barrier, and every credit (R219, L37). -/
def duePosts (s : State) (b : BarAddr) : List BarPost :=
  let l := s.posts.filter fun p => p.dst == b
  l.filter fun p => postReady s p && (p.msg.isCredit ||
    (l.find? fun q => q.src == p.src && !q.msg.isCredit).map (·.id) == some p.id)

/-- The two conditions of a generation (R218). -/
def barMet (n : Nat) : Bool := field n 0 16 == field n 16 16 && field n 96 32 == field n 64 32

/-- The fields after the unit's steps, and whether a generation completed (R220). -/
def barStep (n arrivals credits : Nat) (forced : Bool) (decl : Int) : Nat × Bool :=
  let quorum := field n 16 16
  let sum := field n 0 16 + arrivals
  let n := if quorum < sum then setField (setField n 0 16 quorum) 42 1 1 else setField n 0 16 sum
  let n := setField n 96 32 (field n 96 32 + credits)
  let n := if forced then setField n 40 1 1 else n
  let done := barMet n
  let n := if done then
      let p := field n 40 1
      let g := (field n 32 8 + 1) % 256
      setField (setField (setField (setField (setField (setField n 41 1 p) 40 1 0) 32 8 g) 0 16 0) 64 32 0) 96 32 0
    else n
  (setField n 64 32 (((field n 64 32 : Nat) + decl) % 2 ^ 32).toNat, done)

/-- The quorum a clock's BINITs leave: that of the highest-numbered core. -/
def initOf (l : List BarPost) : Option Nat :=
  (l.foldl (fun (best : Option (Nat × Nat)) p => match p.msg with
    | .binit q => match best with
      | some b => if b.1 ≤ p.src.val then some (p.src.val, q.toNat) else best
      | none => some (p.src.val, q.toNat)
    | _ => best) none).map (·.2)

def BarMsg.arrivals : BarMsg → Nat
  | .arrive n => n
  | _ => 0

def BarMsg.bytes : BarMsg → Nat
  | .credit n _ => n
  | _ => 0

def BarMsg.isForced : BarMsg → Bool
  | .credit _ f => f
  | _ => false

def BarMsg.declared : BarMsg → Int
  | .expect n => n.toInt
  | _ => 0

def sumNat (l : List Nat) : Nat := l.foldl (· + ·) 0

/-- A credit that has been applied, or refused, is taken off the copy that gave it (R203, R264). -/
def noteCredit (id : Nat) (err : Option Err) (c : Core) : Core :=
  let f (k : Copy) : Copy := match k.commits with
    | some l => if l.contains id then
        { k with commits := some (l.filter (· != id)), err := match k.err with
            | some e => some e
            | none => err }
      else k
    | none => if k.prog.owed.contains id then
        { k with prog := { k.prog with owed := k.prog.owed.filter (· != id) }, err := match k.err with
            | some e => some e
            | none => err }
      else k
  { c with eng0 := { c.eng0 with queue := c.eng0.queue.map f }, eng1 := { c.eng1 with queue := c.eng1.queue.map f } }

/-- The operand that names a barrier within its cluster (R218, R336). -/
def barWord (b : BarAddr) : Nat := b.off.toNat + b.core.val % 8 * 2 ^ 21

/-- What the messages make of the sources; the barrier is looked at again in the next clock where its fields call for it (R220). -/
def noteSources (s : State) (b : BarAddr) (ps : List BarPost) (fresh done : Bool) (n : Nat) : State :=
  let old := (s.barSrcs.find? fun x => x.bar == b).getD ⟨b, [], [], 0, none⟩
  let old := if fresh then { old with cur := [], last := [] } else old
  let src := (ps.filter fun p => p.msg.arrivals != 0 || p.msg.bytes != 0 || p.msg.isForced).map (·.src)
  let cur := insertAll src old.cur
  let x : BarSrc := ⟨b, if done then [] else cur, if done then cur else old.last, s.clock, if barMet n then some (s.clock + 1) else none⟩
  { s with barSrcs := x :: s.barSrcs.filter fun y => y.bar != b }

/-- Credits that are not applied end their copies in error (R264, R291). -/
def State.refuseCredits (s : State) (b : BarAddr) (credits : List BarPost) : State :=
  let code : BitVec 8 := if s.deadCore b.core then 0x2D else 0x27
  credits.foldl (fun s p => s.modOwner p.src (noteCredit p.id (some ⟨code, BitVec.ofNat 48 (barWord b)⟩))) s

/-- The fields of a barrier whose unit acts: not those of a core that is lost. -/
def State.barFields (s : State) (b : BarAddr) : Option Nat := if s.deadCore b.core then none else s.barRead b

/-- The barrier unit's update of one barrier in a clock; a bank that is draining takes no credit (R263). -/
def State.barUpdate (s : State) (b : BarAddr) : State :=
  let ps := duePosts s b
  let gone (p : BarPost) : Bool := ps.any fun q => q.id == p.id
  let s := { s with posts := s.posts.filter fun p => !gone p }
  let credits := ps.filter fun p => p.msg.isCredit
  match s.barFields b with
  | none => s.refuseCredits b credits
  | some n =>
    let late := s.barDraining b
    let ps := if late then ps.filter fun p => !p.msg.isCredit else ps
    let s := (ps.filter fun p => match p.msg with
      | .arrive _ => true
      | _ => false).foldl (fun (s : State) p => s.asCore p.src State.flushAll) s
    let n := match initOf ps with
      | some q => q * 65536
      | none => n
    let r := barStep n (sumNat (ps.map fun p => p.msg.arrivals)) (sumNat (ps.map fun p => p.msg.bytes))
      (ps.any fun p => p.msg.isForced) ((ps.map fun p => p.msg.declared).foldl (· + ·) 0)
    let s := noteSources (s.barWrite b r.1) b ps (ps.any fun p => p.msg.isInit) r.2 r.1
    if late then s.refuseCredits b credits else credits.foldl (fun s p => s.modOwner p.src (noteCredit p.id none)) s

/-- A barrier has something to do in this clock, and its unit has not acted in it. -/
def State.barDue (s : State) (b : BarAddr) : Bool :=
  let x := s.barSrcs.find? fun y => y.bar == b
  (match x with
    | some y => y.at_ != s.clock
    | none => true) && (!(duePosts s b).isEmpty || match x with
    | some y => y.again.any (· ≤ s.clock) && (s.barFields b).isSome
    | none => false)

/-- BARRIER_UPDATE (R220). -/
def execBarrierUpdate (core : CoreId) (off : BitVec 21) (s : State) : Out :=
  .next (if s.barDue ⟨core, off⟩ then s.barUpdate ⟨core, off⟩ else s)

end Sys2Proof.Machine
end

