-- ==== Sys2Proof/Machine/CopyRun.lean ====
section
/-! DEFINITION. What the copy engines do (R203 to R217, R317 to R329): starting copies, their reads and writes piece by piece, each of
at most 128 bytes within its pages and one in a clock, the pause of a copy at a page boundary, their completion, batches and stamps. -/

namespace Sys2Proof.Machine

/-- A step of a copy as it runs: the device, the lines and the number of bytes it has written, and how far the copy has come.  While a
withdrawal is pending in its space a copy that has begun (`frozen`) takes no new translation at a page boundary; `inside` are the 4 KiB
pages it is in the middle of, which it goes on with while their bias is changing; `paused` says that it has to wait at a boundary (R206,
R288, R327). -/
structure Run where
  s      : State
  lines  : List LineRef
  wrote  : Nat
  prog   : CopyProgress
  frozen : Bool
  inside : List Nat
  /-- the places of the engine that its emitted copies may take (R317, R320) -/
  room   : Nat
  paused : Bool
  /-- which copy it is, and which of the copies that a CRUN emits (R318); none for what is no copy -/
  who    : Option (Nat × Nat)
  /-- further clocks in which the engine reads (R317) -/
  busy   : Nat

def Run.start (s : State) : Run := ⟨s, [], 0, .start, false, [], 0, false, none, 0⟩

/-- The engine's work: an error ends the copy, and what has been written stays (R206). -/
abbrev EngM := EStateM Err Run

def engState : EngM State := return (← get).s
def engModify (f : State → State) : EngM Unit := modify fun r => { r with s := f r.s }
def engProg : EngM CopyProgress := return (← get).prog
def setProg (p : CopyProgress) : EngM Unit := modify fun r => { r with prog := p }
def engFail {α : Type} (code detail : Nat) : EngM α := throw ⟨BitVec.ofNat 8 code, BitVec.ofNat 48 detail⟩

/-- The copy has to wait at a page boundary: the step is not made. -/
def engPause {α : Type} : EngM α := do
  modify fun r => { r with paused := true }
  engFail 0x1A 0

/-- What a step meets: a value, or the error that does not end it. -/
def engTry {α : Type} (x : EngM α) : EngM (Except Err α) := tryCatch (do return .ok (← x)) fun e => return .error e

/-- A step would have to wait at a page boundary. -/
def pauses {α : Type} (x : EngM α) (r : Run) : Bool := match x r with
  | .ok _ r => r.paused
  | .error _ r => r.paused

/-! ### Translation (R206, R326, R351) -/

/-- The engine's translation of an address, through the core TLB, the shared TLB and a walk. -/
def State.engProbe (s : State) (sec write : Bool) (va : Nat) : State × Probe :=
  match s.probe sec write va with
  | .walk =>
    let old := s.core.walkFails
    let s := s.doWalk sec va
    let r := s.probe sec write va
    (s.onCore fun c => { c with walkFails := old }, r)
  | r => (s, r)

/-- R326: one translation for every byte of one copy within a page.  A copy that still needs a translation that is being withdrawn goes
on, on the other side with the translation in force now, until it has left that page (L75). -/
def engTranslate (sec write : Bool) (va : Nat) : EngM Xl := do
  let r ← get
  let checked (p : Probe) : EngM Xl := match p with
    | .fault code => engFail code.toNat va
    | .walk => engFail 0x1A va
    | .ok x => return x
  match findXl r.prog.pages.xls sec va with
  | some x => checked (r.s.allows sec write va x)
  | none =>
    if r.frozen && r.prog.pages.old.isEmpty then engPause
    let p := r.s.engProbe sec write va
    engModify fun _ => p.1
    let x ← checked p.2
    modify fun r => { r with prog := { r.prog with pages := { r.prog.pages with xls := x :: r.prog.pages.xls } } }
    return x

/-- Where an engine's access goes: a half of the instruction scratchpad, or a physical address with its attribute. -/
inductive EngPlace where
  | half (off : Nat)
  | phys (pa : Nat) (coh : Nat)
deriving DecidableEq, Repr, Inhabited

/-- The checks of one piece of a linear range; `half` says whether the copy may touch the halves (R272). -/
def engPlace (sec write half : Bool) (va : Nat) : EngM EngPlace := do
  if 2 ^ 48 ≤ va then engFail 0x1A va
  let s ← engState
  match ihOffset va with
  | some off =>
    if !half then engFail 0x19 va
    if !s.core.halfClaimed off then engFail 0x14 va
    if write && s.core.halfActive off then engFail 0x26 0
    return .half off
  | none =>
    let x ← engTranslate sec write va
    let pa := x.paOf va
    let r ← get
    if r.s.biasChanging pa && !r.inside.contains (va / 4096) then engPause
    if r.s.deadHome pa then engFail 0x2D (pa / 128 * 128)
    return .phys pa x.coh.toNat

/-! ### Reads and writes -/

/-- Bytes of the register region as an engine reads them: its accesses are not 8 bytes wide (L24). -/
def engFree (pa n : Nat) : EngM (List Byte) := do
  if isPort pa then return List.replicate n 0
  let s ← engState
  engModify fun s => { s with draws := s.draws + n }
  return (List.range n).map fun i => Config.freeByte (s.draws + i)

/-- One piece within a line. -/
def engReadPiece (sec half : Bool) (va n : Nat) : EngM (List Byte) := do
  match ← engPlace sec false half va with
  | .half off => return rdBytes (← engState).core.mem.ih off n
  | .phys pa coh =>
    if isReg pa then engFree pa n
    else
      let s ← engState
      if s.store.poison.contains (pa / 128) then engFail 0x1F va
      let via := viaOf s (cohOf coh) va pa false
      let s := s.touchRead via pa
      engModify fun _ => s
      return s.seenBytes via pa n

def engReadPieces (sec half : Bool) : List (Nat × Nat) → EngM (List Byte)
  | [] => return []
  | p :: l => do
    let b ← engReadPiece sec half p.1 p.2
    let bs ← engReadPieces sec half l
    return b ++ bs

/-- A linear range. -/
def engRead (sec half : Bool) (va n : Nat) : EngM (List Byte) := engReadPieces sec half (linePieces va n)

def noteLine (l : LineRef) (n : Nat) : EngM Unit := modify fun r => { r with lines := insertNew l r.lines, wrote := r.wrote + n }

/-- The line is written whole, or holds no uncorrectable data (R292). -/
def writable (s : State) (pa n : Nat) : Bool := !s.store.poison.contains (pa / 128) || (pa % 128 == 0 && n == 128)

/-! ### The order of the bytes that copies of one core write (R318) -/

/-- The contexts that share the engines of the core in focus: the live core and its saved tasks (R325). -/
def State.sharers (s : State) : List Core :=
  (s.cores.filter fun c => c.id == s.core.id && c.stat != .saved) ++ s.ghosts s.core.id

/-- The copies of the engines of the core in focus that have not written all their bytes. -/
def State.writing (s : State) : List Copy :=
  (s.sharers.flatMap fun c => c.eng0.queue ++ c.eng1.queue).filter fun e => e.commits.isNone

/-- The byte was written by a copy that follows one. -/
def CopyWrite.covers (w : CopyWrite) (core : CoreId) (who : Nat × Nat) (space at_ : Nat) : Bool :=
  w.core == core && w.space == space && w.at_ ≤ at_ && at_ < w.at_ + w.len && (who.1 < w.copy || (who.1 == w.copy && who.2 < w.no))

/-- What a copy writes of some bytes: those that no copy after it has written, each with its place; where none has, all at once. -/
def State.unwritten (s : State) (who : Option (Nat × Nat)) (space at_ : Nat) (bs : List Byte) : List (Nat × List Byte) := match who with
  | none => [(0, bs)]
  | some k =>
    let later (i : Nat) : Bool := s.copyWrites.any fun w => w.covers s.core.id k space (at_ + i)
    if (List.range bs.length).any later then
      bs.zipIdx.filterMap fun b => if later b.2 then none else some (b.2, [b.1])
    else [(0, bs)]

/-- Bytes are noted while a copy before this one has still to write. -/
def State.noteWrite (s : State) (who : Option (Nat × Nat)) (space at_ n : Nat) : State := match who with
  | none => s
  | some k =>
    if k.2 != 0 || s.writing.any fun e => e.id < k.1 then
      { s with copyWrites := ⟨s.core.id, k.1, k.2, space, at_, n⟩ :: s.copyWrites }
    else s

/-- What is noted for the core in focus serves until no copy before it is left. -/
def State.pruneWrites (s : State) : State :=
  { s with copyWrites := s.copyWrites.filter fun w => w.core != s.core.id || s.writing.any fun e => e.id ≤ w.copy }

/-- Bytes are written, but for those that a later copy has written: `f` writes some of them from a place on. -/
def engOrdered (space at_ : Nat) (bs : List Byte) (f : Nat → List Byte → State → State) : EngM Unit := do
  let r ← get
  engModify fun s => ((s.unwritten r.who space at_ bs).foldl (fun s p => f (at_ + p.1) p.2 s) s).noteWrite r.who space at_ bs.length

def engWritePiece (sec half : Bool) (va : Nat) (bs : List Byte) : EngM Unit := do
  match ← engPlace sec true half va with
  | .half off =>
    engOrdered 2 off bs fun off bs s => s.onCore fun c => { c with mem := { c.mem with
      ih := wrBytes c.mem.ih off bs
      ihClean := c.mem.ihClean.filter fun l => !(linesOf off bs.length).contains l } }
    (linesOf off bs.length).forM fun l => noteLine (.ih l) 0
    noteLine (.ih (off / 128)) bs.length
  | .phys pa coh =>
    if isReg pa then noteLine (.mem (pa / 128)) bs.length
    else
      let s ← engState
      if !writable s pa bs.length then engFail 0x1F va
      engOrdered 0 pa bs fun pa bs s => s.storeLine (viaOf s (cohOf coh) va pa false) pa bs
      noteLine (.mem (pa / 128)) bs.length

def engWritePieces (sec half : Bool) : List (Nat × Nat) → List Byte → EngM Unit
  | [], _ => return ()
  | p :: l, bs => do
    engWritePiece sec half p.1 (bs.take p.2)
    engWritePieces sec half l (bs.drop p.2)

def engWrite (sec half : Bool) (va : Nat) (bs : List Byte) : EngM Unit := engWritePieces sec half (linePieces va bs.length) bs

/-- Local ranges (R206, R292). -/
def engLocal (off n : Nat) : EngM Unit := do
  match (← engState).core.badLocal off n with
  | some o => engFail 0x19 o
  | none => return ()

def engReadLocal (off n : Nat) : EngM (List Byte) := do
  engLocal off n
  let c := (← engState).core
  match badWordIn c off n with
  | some w => engFail 0x1F (8 * w)
  | none => return localBytes c off n

/-- Bytes written to the local memory of the core in focus (R151, R218). -/
def State.writeLocal (s : State) (off : Nat) (bs : List Byte) : State :=
  (s.onCore fun c => { c with mem := { c.mem with sram := wrBytes c.mem.sram off bs } }).touchBars s.core.id off bs.length

def engWriteLocal (off : Nat) (bs : List Byte) : EngM Unit := do
  engLocal off bs.length
  engOrdered 1 off bs fun off bs s => s.writeLocal off bs
  modify fun r => { r with wrote := r.wrote + bs.length }

/-! ### A range copied (R205, R207, R317, R326) -/

def Side.at_ : Side → Nat
  | .lin a => a
  | .loc a => a

/-- The virtual address of a byte of the side. -/
def Side.vas (o : Nat) : Side → List Nat
  | .lin a => [a + o]
  | .loc _ => []

def sideRead (sec : Bool) (d : Side) (o n : Nat) : EngM (List Byte) := match d with
  | .lin a => engRead sec true (a + o) n
  | .loc a => engReadLocal (a + o) n

def sideWrite (sec : Bool) (d : Side) (o : Nat) (bs : List Byte) : EngM Unit := match d with
  | .lin a => engWrite sec true (a + o) bs
  | .loc a => engWriteLocal (a + o) bs

/-- The next piece of a range of n bytes at offset `pos`: at most 128 bytes, within a page of each side. -/
def pieceLen (a b pos n : Nat) : Nat := min (n - pos) (min 128 (min (4096 - (a + pos) % 4096) (4096 - (b + pos) % 4096)))

/-- The translations of the pages that hold some addresses; those of pages the copy has left are dropped (R206). -/
def Held.keep (h : Held) (p : Xl → Bool) : Held := ⟨h.xls.filter p, h.old.filter p⟩

def Xl.holds (x : Xl) (va : Nat) : Bool := x.va ≤ va && va < x.va + x.size

/-- CSUM's sum over bytes that stand at an offset of the range (R210). -/
def csumAdd (acc off : Nat) : List Byte → Nat
  | [] => acc
  | b :: l => csumAdd ((acc + b.toNat * 2 ^ (8 * (off % 4))) % 2 ^ 32) (off + 1) l

/-- One piece of a range of n bytes of which the last `hold` are held back; `sum` says whether the checksum is computed. -/
def moveStep (sec sum : Bool) (dst src : Side) (n hold : Nat) : EngM Unit := do
  let pos := (← engProg).pos
  let k := pieceLen src.at_ dst.at_ pos n
  let bs ← sideRead sec src pos k
  let m := min k (n - hold - pos)
  if m != 0 then sideWrite sec dst pos (bs.take m)
  let p ← engProg
  setProg { p with
    pos := pos + k
    held := p.held ++ bs.drop m
    acc := if sum then csumAdd p.acc pos bs else p.acc }

/-! ### Checksums (R205, R210) -/

def csumEnd (acc n : Nat) : Nat := (acc ^^^ n) % 2 ^ 64

/-- CSUM of a whole range. -/
def csumOf (bs : List Byte) : Nat := csumEnd (csumAdd 0 0 bs) bs.length

/-- CFP: the XOR of the 8-byte words, word j rotated left by j modulo 64; here over bytes that stand at an offset of the range. -/
def cfpAdd (acc : Word) (off : Nat) : List Byte → Word
  | [] => acc
  | b :: l => cfpAdd (acc ^^^ (BitVec.ofNat 64 (b.toNat * 2 ^ (8 * (off % 8)))).rotateLeft (off / 8 % 64)) (off + 1) l

/-- CCMP: 0, or 1 and the offset of the first byte that differs. -/
def ccmpOf (a b : List Byte) : Nat := match findFrom (fun i => a[i]? != b[i]?) a.length 0 with
  | some i => i + 1
  | none => 0

/-! ### The copies of bytes (R205, R207, R208, R210)

Each definition does the next piece of its copy and says whether the copy has come to its end. -/

/-- The bytes a verified copy of n bytes holds back (R205). -/
def heldBack (n : Nat) : Nat := min n 256

/-- The expected checksum is read, and where it agrees the held bytes are written, piece by piece: the position goes on from n + 1
(R205). -/
def verifyStep (sec : Bool) (dst src : Side) (n : Nat) : EngM (Option Bool) := do
  let p ← engProg
  if p.pos = n then
    let x ← sideRead sec src n 4
    if csumEnd p.acc n % 2 ^ 32 != ofBytes x then return some false
    let q ← engProg
    setProg { q with pos := n + 1 }
    return none
  else
    let w := p.pos - (n + 1)
    let o := n - heldBack n + w
    let k := pieceLen dst.at_ dst.at_ o n
    sideWrite sec dst o ((p.held.drop w).take k)
    let q ← engProg
    setProg { q with pos := p.pos + k }
    return if n ≤ o + k then some true else none

/-- The end of a copy: none while bytes are left; false where a verified copy has failed. -/
def copyBytes (sec : Bool) (dst src : Side) (n : Nat) (vfy : Bool) : EngM (Option Bool) := do
  if n = 0 then return some true
  if (← engProg).pos < n then
    moveStep sec vfy dst src n (if vfy then heldBack n else 0)
    return if vfy || (← engProg).pos < n then none else some true
  else verifyStep sec dst src n

def linOf (a : Word) : Side := .lin (vaOf a)
def locOf (a : Word) : Side := .loc (field a.toNat 0 21)

/-- The next bytes of a linear range, added to what the copy holds. -/
def readStep (sec half : Bool) (a n : Nat) : EngM Unit := do
  let pos := (← engProg).pos
  let k := pieceLen a a pos n
  let bs ← engRead sec half (a + pos) k
  let p ← engProg
  setProg { p with pos := pos + k, held := p.held ++ bs }

/-- The next of n bytes that the copy holds from offset `o` of its held bytes, written to a linear range. -/
def writeStep (sec half : Bool) (d o n : Nat) : EngM Unit := do
  let p ← engProg
  let k := pieceLen d d (p.pos - o) n
  engWrite sec half (d + (p.pos - o)) ((p.held.drop (p.pos - o)).take k)
  let q ← engProg
  setProg { q with pos := p.pos + k }

/-- CFILL. -/
def fillStep (sec : Bool) (d n : Nat) (pat : List Byte) : EngM Bool := do
  let pos := (← engProg).pos
  let k := pieceLen d d pos n
  engWrite sec true (d + pos) ((List.range k).map fun i => (pat[(pos + i) % pat.length]?).getD 0)
  let p ← engProg
  setProg { p with pos := pos + k }
  return n ≤ pos + k

/-- The bytes of CFP's and CSUM's range, folded piece by piece. -/
def foldStep (sec : Bool) (a n : Nat) (f : Nat → Nat → List Byte → Nat) : EngM Bool := do
  let pos := (← engProg).pos
  let k := pieceLen a a pos n
  let bs ← engRead sec true (a + pos) k
  let p ← engProg
  setProg { p with pos := pos + k, acc := f p.acc pos bs }
  return n ≤ pos + k

/-- The bytes of CCMP's ranges, compared piece by piece, 64 of each in a step (R317). -/
def compareStep (sec : Bool) (b a n : Nat) : EngM Bool := do
  let pos := (← engProg).pos
  let k := min 64 (pieceLen a b pos n)
  let x ← engRead sec true (b + pos) k
  let y ← engRead sec true (a + pos) k
  let p ← engProg
  let here := ccmpOf x y
  setProg { p with pos := pos + k, acc := if p.acc = 0 && here != 0 then pos + here else p.acc }
  return n ≤ pos + k

/-- A result of 8 bytes in SCRATCH. -/
def writeResult (r : Word) (x : Nat) : EngM Unit := engWriteLocal (field r.toNat 0 21) (toBytes 8 x)

/-- The block of CXPOSE transposed. -/
def transposed (w cols : Nat) (block : List Byte) : List Byte :=
  let rows := chunks (cols * w) block
  (List.range cols).flatMap fun c => rows.flatMap fun r => (r.drop (c * w)).take w

/-- CXPOSE: the whole source is read, row by row, before any byte is written (R321). -/
def transposeStep (sec : Bool) (d a : Nat) (ctl : BitVec 32) : EngM Bool := do
  let w := xposeWidth ctl
  let row := xposeCols ctl * w
  let size := row * xposeRows ctl
  let pos := (← engProg).pos
  if pos < size then
    let va := a + pos / row * xposePitch ctl + pos % row
    let k := min (row - pos % row) (min 128 (4096 - va % 4096))
    let bs ← engRead sec false va k
    let p ← engProg
    let held := p.held ++ bs
    setProg { p with pos := pos + k, held := if pos + k = size then transposed w (xposeCols ctl) held else held }
    return false
  else
    writeStep sec false d size size
    return 2 * size ≤ (← engProg).pos

/-- The elements of a run packed as VLDT's natural form lays them (R156, R207). -/
def packRun (eb : Nat) (l : List Nat) : List Byte :=
  if eb = 4 then (chunks 2 l).map fun p => BitVec.ofNat 8 ((p[0]?).getD 0 % 16 + 16 * ((p[1]?).getD 0 % 16))
  else l.flatMap fun x => toBytes (eb / 8) x

def unpackRun (eb n : Nat) (bs : List Byte) : List (BitVec 32) :=
  let x := ofBytes bs
  (List.range n).map fun i => BitVec.ofNat 32 (field x (eb * i) eb)

/-- CPYT `.out`: one version of each s-tile is pinned and read (R158, R254), a line of a frame in a clock (R317), then its elements are
written; the position is one more than the bytes written. -/
def tensorOut (sec : Bool) (d : Nat) (h : Handle) (n : Nat) : EngM Bool := do
  let size := elemBits (dEtype h.desc) * n / 8
  if n = 0 then return true
  let p ← engProg
  if p.pos = 0 then
    let ps := runPlaces h n
    let r := (← engState).readTiles h.desc (tilesOf ps)
    engModify fun _ => r.1
    match r.2.2 with
    | some e => throw e
    | none =>
      let pins := r.1.pinsOf h.desc (tilesOf ps)
      engModify fun s => s.addPins pins
      modify fun r => { r with busy := (r.s.framesRead h.desc (tilesOf ps)).length - 1 }
      setProg { p with
        pos := 1, pins := pins
        held := packRun (elemBits (dEtype h.desc)) (ps.map fun p => ((elemIn h.desc r.2.1 p).getD 0).toNat) }
      return false
  else
    writeStep sec false d 1 size
    return size + 1 ≤ (← engProg).pos

/-- CPYT `.in`: the elements of the run, once all of them are read. -/
def tensorIn (sec : Bool) (h : Handle) (a n : Nat) : EngM (Option (List (Nat × List (Nat × BitVec 32)))) := do
  let eb := elemBits (dEtype h.desc)
  if n != 0 then readStep sec false a (eb * n / 8)
  let p ← engProg
  if p.pos < eb * n / 8 then return none
  else return some (groupByTile ((runPlaces h n).zip (unpackRun eb n p.held)))

/-! ### Ranges that copies write (R318) -/

/-- Where the engine finds an address: by a translation that the copy holds, or by the TLBs and the tables (R326). -/
def State.engFind (s : State) (held : List Xl) (sec : Bool) (va : Nat) : Option Nat := match findXl held sec va with
  | some x => some (x.paOf va)
  | none => match (s.engProbe sec false va).2 with
    | .ok x => some (x.paOf va)
    | _ => none

/-- A linear range as what it writes: physical bytes (0), or bytes of a half (2). -/
def physRanges (s : State) (held : List Xl) (sec : Bool) (va n : Nat) : List (Nat × Nat × Nat) :=
  (pagePieces va n).filterMap fun p => match ihOffset p.1 with
    | some o => some (2, o, p.2)
    | none => (s.engFind held sec p.1).map fun pa => (0, pa, p.2)

/-- A range of SCRATCH of a core (1). -/
def localRange (c : CoreId) (off n : Nat) : Nat × Nat × Nat := (1, 2 ^ 21 * c.val + off, n)

def rangesMeet (a b : List (Nat × Nat × Nat)) : Bool :=
  a.any fun x => b.any fun y => x.1 == y.1 && x.2.1 < y.2.1 + y.2.2 && y.2.1 < x.2.1 + x.2.2

/-! ### The copies of a CRUN and the rows of a CDISP (R209, R320, R328) -/

/-- An address of an emitted copy; its form is checked (R14, R206). -/
def emitSide (isLocal : Bool) (base : Word) (off : Int) : EngM Side := do
  let e := base + BitVec.ofInt 64 off
  if isLocal then
    if field e.toNat 21 39 != 0 then engFail 0x19 (vaOf e)
    return .loc (field e.toNat 0 21)
  else
    if field e.toNat 48 12 != 0 then engFail 0x18 (vaOf e)
    return .lin (vaOf e)

/-- A translation that a copy in progress still needs. -/
def SubCopy.needs (q : SubCopy) (x : Xl) : Bool := [q.dst, q.src].any fun d => match d with
  | .lin a => x.va < a + q.n && a + q.pos < x.va + x.size
  | .loc _ => false

/-- The pages of 4 KiB that hold some addresses but do not begin with one. -/
def midPages (vas : List Nat) : List Nat := (vas.filter fun v => v % 4096 != 0).map (· / 4096)

def SubCopy.done (q : SubCopy) : Bool := q.n ≤ q.pos && q.flag.isNone

/-- The next piece of a copy in progress, and the translations held then.  A copy that a CRUN emits translates for itself, a row of a
CDISP with the CDISP's own translations (`shared`), since the rows are one copy (R326); a row's flag word comes last (R328). -/
def subStep (sec shared : Bool) (q : SubCopy) : EngM (SubCopy × Held) := do
  let run ← get
  let pages := if shared then run.prog.pages else q.pages
  modify fun r => { r with
    prog := { CopyProgress.start with pos := q.pos, pages := pages }
    inside := if q.pos = 0 then [] else midPages (q.dst.vas q.pos ++ q.src.vas q.pos)
    who := r.who.map fun w => (w.1, q.no) }
  if q.pos < q.n then
    moveStep sec false q.dst q.src q.n 0
    let p ← engProg
    let q := { q with pos := p.pos }
    return if shared then (q, p.pages) else ({ q with pages := p.pages.keep q.needs }, run.prog.pages)
  else match q.flag with
    | some f =>
      engWrite sec false f.1 (toBytes 8 f.2)
      let p ← engProg
      return ({ q with flag := none }, if shared then p.pages else run.prog.pages)
    | none => return (q, run.prog.pages)

/-- A copy in progress may go on: it waits at no boundary. -/
def subFree (sec shared : Bool) (r : Run) (l : List SubCopy) (i : Nat) : Bool := match l[i]? with
  | none => false
  | some q => !pauses (subStep sec shared q) r

/-- The first error met stops what starts more copies (R209, R329). -/
def noteFail (e : Err) : EngM Unit := modify fun r => { r with prog := { r.prog with fail := orErr r.prog.fail (some e) } }

/-- One of the copies in progress goes on, whichever (R317); false where none may. -/
def moveSubs (sec shared : Bool) : EngM Bool := do
  let r ← get
  let l := r.prog.subs
  let free := (List.range l.length).filter (subFree sec shared r l)
  let i := (free[Config.choice r.s.draws % free.length]?).getD 0
  match free, l[i]? with
  | _ :: _, some q =>
    engModify fun s => { s with draws := s.draws + 1 }
    let x ← engTry (subStep sec shared q)
    modify fun r' => { r' with prog := r.prog, inside := r.inside, who := r.who }
    match x with
    | .ok (q, pages) => setProg { r.prog with pages := pages, subs := if q.done then l.eraseIdx i else l.set i q }
    | .error e =>
      setProg { r.prog with subs := l.eraseIdx i }
      noteFail e
    return true
  | _, _ => return false

/-- The copies in progress are done and no more will start: the copy ends, in error if one of them did. -/
def subsEnd (more : Bool) : EngM Bool := do
  let p ← engProg
  if !p.subs.isEmpty || (more && p.fail.isNone) then return false
  match p.fail with
  | some e => throw e
  | none => return true

/-- CRUN emits the copies there is room for, in their order (R209, R320). -/
def emitMore (kind : BitVec 2) (d a : Word) (n : Nat) (nest : Vector NestLevel 6) : Nat → EngM Unit
  | 0 => return ()
  | m + 1 => do
    let p ← engProg
    if p.fail.isNone && p.emit < nestTotal nest then
      let o := nestOffsets nest p.emit
      setProg { p with emit := p.emit + 1 }
      match ← engTry (do
        let src ← emitSide (kind == 2) a o.1
        let dst ← emitSide (kind == 1) d o.2
        return SubCopy.mk dst src n 0 .none none p.emit) with
      | .ok q => modify fun r => { r with prog := { r.prog with subs := r.prog.subs ++ [q] } }
      | .error e => noteFail e
      emitMore kind d a n nest m

/-- CRUN: copies are emitted as there is room, and one of those in progress goes on. -/
def emitStep (sec : Bool) (kind : BitVec 2) (d a : Word) (n : Nat) (nest : Vector NestLevel 6) : EngM Bool := do
  if n = 0 then return true
  let r ← get
  if !r.frozen then emitMore kind d a n nest r.room
  let moved ← moveSubs sec false
  let ended ← subsEnd ((← engProg).emit < nestTotal nest)
  if !moved && !ended then engPause
  return ended

/-! ### CXPND (R61 to R64, R211) -/

/-- The 32 bytes a tag and its words expand to. -/
def expandBundle (tag : Nat) (bs : List Byte) : List Byte :=
  let r := (List.range 8).foldl (fun (acc : List Byte × List Byte) i =>
    if bit tag i then (acc.1 ++ acc.2.take 3, acc.2.drop 3) else (acc.1 ++ [0, 0, 0], acc.2)) ([], bs)
  r.1 ++ if bit tag 8 then r.2.take 8 else List.replicate 8 0

def packedLength (tag : Nat) : Nat := 3 * popcount 8 tag + if bit tag 8 then 8 else 0

/-- Bundle k of a body; it answers the bytes consumed then. -/
def expandOne (sec : Bool) (dst src len k pos : Nat) : EngM Nat := do
  if len < pos + 2 then engFail 0x42 k
  let tag := ofBytes (← engRead sec false (src + pos) 2)
  if 512 ≤ tag || len < pos + 2 + packedLength tag then engFail 0x42 k
  let bs ← engRead sec false (src + pos + 2) (packedLength tag)
  engWrite sec true (dst + 32 * k) (expandBundle tag bs)
  return pos + 2 + packedLength tag

/-- The bundles of a body, one by one: k is the next one's number, pos the bytes consumed. -/
def expandAll (sec : Bool) (dst src len : Nat) : Nat → Nat → Nat → EngM Nat
  | 0, _, pos => return pos
  | n + 1, k, pos => do
    let p ← expandOne sec dst src len k pos
    expandAll sec dst src len n (k + 1) p

/-- The header of a stream, checked; it answers the bundles and the bytes of the body. -/
def expandHeader (limit : Nat) (header : List Byte) : EngM (Nat × Nat) := do
  let h := ofBytes header
  if field h 0 32 != 0x584E4B42 || limit < field h 32 32 then engFail 0x42 0
  return (field h 32 32, field h 64 32)

/-- A body that the bundles do not fill. -/
def expandEnd (count len pos : Nat) : EngM Unit := do
  if pos != len then engFail 0x42 count

/-- A whole stream, as a placement expands it. -/
def expand (sec : Bool) (dst src limit : Nat) : EngM Unit := do
  let c ← expandHeader limit (← engRead sec false src 16)
  expandEnd c.1 c.2 (← expandAll sec dst (src + 16) c.2 c.1 0 0)

/-- CXPND: the header first, which the engine keeps, then a bundle in each step. -/
def expandStep (sec : Bool) (dst src limit : Nat) : EngM Bool := do
  let p ← engProg
  if p.pos = 0 then
    let bs ← engRead sec false src 16
    let c ← expandHeader limit bs
    let p ← engProg
    setProg { p with pos := 1, held := bs }
    if c.1 = 0 then expandEnd 0 c.2 0
    return c.1 = 0
  else
    let c ← expandHeader limit p.held
    let used ← expandOne sec dst (src + 16) c.2 (p.pos - 1) p.acc
    let q ← engProg
    setProg { q with pos := p.pos + 1, acc := used }
    if p.pos = c.1 then expandEnd c.1 c.2 used
    return p.pos = c.1

/-! ### CDISP (R214, R215, R328, R329) -/

structure DispRec where
  src  : Nat
  rowb : Nat
  ntok : Nat
  eidx : Nat
  buft : Nat
  cnt  : Nat
  cap  : Nat
  nexp : Nat
  ksel : Nat
  res  : Nat
  rcnt : Nat
  zero : Nat

def DispRec.ofNat (n : Nat) : DispRec :=
  ⟨field n 0 64, field n 64 32, field n 96 32, field n 128 64, field n 192 64, field n 256 64, field n 320 32, field n 352 16,
   field n 368 8, field n 384 64, field n 448 64, field n 376 8⟩

def DispRec.addrs (r : DispRec) : List Nat := [r.src, r.eidx, r.buft, r.cnt, r.res, r.rcnt]

/-- R214: every field in range, every address of the form of R14. -/
def DispRec.ok (r : DispRec) : Bool :=
  r.zero == 0 && r.rowb % 64 == 0 && r.rowb ≤ 65536 && 1 ≤ r.nexp && r.nexp ≤ 4096 && 1 ≤ r.ksel && r.ksel ≤ 4 &&
    r.addrs.all fun a => field a 48 12 == 0

/-- The ordering classes of its addresses (R14, R37). -/
def DispRec.classes (r : DispRec) : List Nat := r.addrs.map fun a => field a 60 4

/-- The record with plain virtual addresses. -/
def DispRec.plain (r : DispRec) : DispRec := { r with
  src := r.src % 2 ^ 48, eidx := r.eidx % 2 ^ 48, buft := r.buft % 2 ^ 48, cnt := r.cnt % 2 ^ 48, res := r.res % 2 ^ 48
  rcnt := r.rcnt % 2 ^ 48 }

/-- The choices of a record. -/
def DispRec.total (r : DispRec) : Nat := r.ntok * r.ksel

/-- An atomic add of 1 to a 32-bit counter at its home; it answers the old value. -/
def engAdd (sec : Bool) (va : Nat) : EngM Nat := do
  match ← engPlace sec true false va with
  | .half _ => engFail 0x19 va
  | .phys pa _ =>
    let s ← engState
    if isReg pa || s.store.poison.contains (pa / 128) then engFail 0x1F va
    let s := s.leaveLine (pa / 128)
    let old := rdNat s.store.bytes pa 4
    engModify fun _ => s.storeLine .home pa (toBytes 4 (old + 1))
    noteLine (.mem (pa / 128)) 0
    modify fun r => { r with prog := { r.prog with acc := 1 } }
    return old

/-- A residual row's place. -/
def DispRec.resAt (r : DispRec) (n : Nat) : Nat := r.res + n * (r.rowb + 64)

/-- The flag word of R328. -/
def flagWord (tok exp cho kind : Nat) : Nat := tok + exp * 2 ^ 32 + cho * 2 ^ 48 + kind * 2 ^ 56

/-- The address of choice number i in EIDX. -/
def DispRec.choiceAt (r : DispRec) (i : Nat) : Nat := r.eidx + 2 * i

/-- Step 1 of R328; while a withdrawal is pending the choices go on to the end of the page of EIDX (L75). -/
def dispChoice (sec : Bool) (r : DispRec) (t j : Nat) : EngM Nat := do
  let a := r.choiceAt (t * r.ksel + j)
  let run ← get
  if run.frozen && (findXl run.prog.pages.xls sec a).isNone then engPause
  return ofBytes (← engRead sec false a 2)

/-- Step 2: the source row is translated with read permission.  The translation of its first page serves step 4; those of further
pages are taken afresh where the row comes to them (R206, R326). -/
def dispRow (sec : Bool) (va n : Nat) : EngM Unit := do
  let before := (← engProg).pages
  (pagesOf va n).forM fun p => do
    let a := max va (4096 * p)
    if 2 ^ 48 ≤ a then engFail 0x1A a
    if (ihOffset a).isSome then engFail 0x19 a
    let _ ← engTranslate sec false a
  modify fun x => { x with prog := { x.prog with pages := x.prog.pages.keep fun t => before.xls.contains t || t.holds va } }

/-- An address read from memory, of the form of R14. -/
def dispBase (w : Nat) : EngM Nat := do
  if field w 48 12 != 0 then engFail 0x18 (w % 2 ^ 48)
  return w % 2 ^ 48

/-- Step 3, and the row's copy starts. -/
def dispPlace (sec : Bool) (r : DispRec) (t j e : Nat) : EngM Unit := do
  let src : Side := .lin (r.src + t * r.rowb)
  let row (dst : Nat) (flag : Option (Nat × Nat)) : EngM Unit :=
    let q : SubCopy := ⟨.lin dst, src, r.rowb, 0, .none, flag, 0⟩
    if q.done then return () else modify fun x => { x with prog := { x.prog with subs := x.prog.subs ++ [q] } }
  let s ← if e < r.nexp then engAdd sec (r.cnt + 4 * e) else pure r.cap
  if s < r.cap then
    let base ← dispBase (ofBytes (← engRead sec false (r.buft + 8 * e) 8))
    row (base + s * r.rowb) none
  else
    let n ← engAdd sec r.rcnt
    row (r.resAt n) (some (r.resAt n + r.rowb, flagWord t e j 0))

/-- A stop (R329): a flag word of KIND 1, and no further choice. -/
def dispStop (sec : Bool) (r : DispRec) (t j e : Nat) : EngM Unit := do
  let n ← engAdd sec r.rcnt
  engWrite sec false (r.resAt n + r.rowb) (toBytes 8 (flagWord t e j 1))
  modify fun x => { x with prog := { x.prog with emit := 1 } }

/-- An error that ends the copy once its rows in progress are done; a pause is none. -/
def dispFail (x : EngM Unit) : EngM Unit := do
  match ← engTry x with
  | .ok _ => return ()
  | .error e => if (← get).paused then throw e else noteFail e

/-- An error met in step 1 or 2 ends the copy, or, once an add has been performed, stops the record (R329). -/
def dispError (sec : Bool) (r : DispRec) (t j e : Nat) (err : Err) : EngM Unit := do
  let run ← get
  if run.paused || run.prog.acc = 0 then throw err
  dispFail (dispStop sec r t j e)

/-- Choice j of token t. -/
def dispOne (sec : Bool) (r : DispRec) (t j : Nat) : EngM Unit := do
  modify fun x => { x with prog := { x.prog with pos := x.prog.pos + 1 } }
  match ← engTry (dispChoice sec r t j) with
  | .error x => dispError sec r t j 0xFFFF x
  | .ok 0xFFFF => return ()
  | .ok e =>
    match ← engTry (dispRow sec (r.src + t * r.rowb) r.rowb) with
    | .error x => dispError sec r t j e x
    | .ok _ => dispFail (dispPlace sec r t j e)

/-- CDISP: the record first, which the engine keeps; then, whichever, the next choice is dispatched or a row in progress goes on (R328);
`emit` is 1 once the record has been stopped. -/
def dispatchStep (sec : Bool) (a : Nat) : EngM Bool := do
  let p ← engProg
  if p.pos = 0 then
    let bs ← engRead sec false a 64
    let r := DispRec.ofNat (ofBytes bs)
    if !r.ok then engFail 0x26 0
    let p ← engProg
    setProg { p with pos := 1, held := bs }
    return r.total = 0
  else
    let r := (DispRec.ofNat (ofBytes p.held)).plain
    let more (q : CopyProgress) : Bool := q.fail.isNone && q.emit = 0 && q.pos ≤ r.total
    let one := dispOne sec r ((p.pos - 1) / r.ksel) ((p.pos - 1) % r.ksel)
    let run ← get
    let may := more p && 0 < run.room && !pauses one run
    engModify fun s => { s with draws := s.draws + 1 }
    let moved ← if may && (p.subs.isEmpty || Config.choice run.s.draws % 2 = 0) then do
        one
        pure true
      else do
        if ← moveSubs sec true then pure true else if may then do
          one
          pure true
        else pure false
    let ended ← subsEnd (more (← engProg))
    if !moved && !ended then engPause
    return ended

/-! ### Peer transfers (R213, R369 to R371) -/

/-- Some of n bytes lie in a bank that is draining on its way out of SCRATCH (R263). -/
def Core.drains (c : Core) (off n : Nat) : Bool := meetsBank (bit c.draining.toNat) off n

/-- An entry of the grant table takes a transfer. -/
def grantTakes (c : Core) (x : PeerXfer) (g : Grant) : Bool :=
  let off := x.off.toNat
  let n := x.bytes.length
  bit g.src.toNat 15 && field g.src.toNat 0 12 == x.dev.toNat && (bit g.src.toNat 14 || g.score.toNat == x.sender.val) &&
    g.base.toNat ≤ off && off + n ≤ g.base.toNat + g.len.toNat &&
    (c.badLocal off n).isNone && (c.badLocal g.flag.toNat 8).isNone && !c.drains off n && !c.drains g.flag.toNat 8

/-- The bytes, then the flag bit, in the core in focus. -/
def State.takePeer (s : State) (x : PeerXfer) (g : Grant) : State :=
  let s := s.writeLocal x.off.toNat x.bytes
  let w := rdNat s.core.mem.sram g.flag.toNat 8 ||| 2 ^ x.flag.toNat
  s.writeLocal g.flag.toNat (toBytes 8 w)

/-- R371: the receiving core's answer; false is a refusal. -/
def State.receivePeer (s : State) (x : PeerXfer) : State × Bool :=
  let c := s.coreAt x.target
  if c.stat == .idle then (s, false)
  else match c.claim.grants.find? (grantTakes c x) with
    | some g => (s.asCore x.target fun s => s.takePeer x g, true)
    | none => (s, false)

/-- PEER_TRANSFER_RECEIVE (R371): a refused transfer writes nothing. -/
def execPeerTransferReceive (x : PeerXfer) (s : State) : Out := .next (s.receivePeer x).1

/-- CPEER: its bytes are read piece by piece, and the receiver takes the whole transfer or none of it.  Within the device the grant
table decides; what another device answers is a free value (L25). -/
def peerStep (d src : Word) (n : Nat) : EngM Bool := do
  let p ← engProg
  if p.pos < n then
    let k := min 128 (n - p.pos)
    let bs ← engReadLocal (field src.toNat 0 21 + p.pos) k
    let q ← engProg
    setProg { q with pos := p.pos + k, held := p.held ++ bs }
    return false
  else
    let s ← engState
    let dev := field d.toNat 28 12
    let target : CoreId := Fin.ofNat 128 (field d.toNat 21 7)
    let x : PeerXfer :=
      ⟨BitVec.ofNat 12 s.plat.devnum.toNat, s.core.id, target, BitVec.ofNat 21 d.toNat, p.held, BitVec.ofNat 6 (field d.toNat 40 6)⟩
    if dev == s.plat.devnum.toNat then
      if s.deadCore target then engFail 0x2D 0
      let r := s.receivePeer x
      engModify fun _ => r.1
      modify fun r => { r with busy := n / 128 }
      if !r.2 then engFail 0x43 target.val
    else match s.routeTo dev with
      | none => engFail 0x2D 0
      | some l => do
        engModify fun s => { s.sendFlits l 1 (Config.peerFlits x) with draws := s.draws + 1 }
        if Config.choice s.draws % 2 == 1 then engFail 0x43 target.val
    return true

/-! ### CPUSH (R212, R277) -/

/-- Deliveries of a line to the cores of a set; a dead core gets none (R291). -/
def State.postPushes (s : State) (opId : Nat) (isCopy : Bool) (line va : Nat) (cores : List CoreId) : State :=
  cores.foldl (fun (s : State) d =>
    { s with nextId := s.nextId + 1, draws := s.draws + 1
             pushes := s.pushes ++ [⟨s.nextId, s.draws, s.clock, s.core.id, opId, isCopy, d, line, va⟩] }) s

/-- A line that may be pushed: on a DIR page of device memory that is not host-biased (R163, R286). -/
def pushable (s : State) (coh pa : Nat) : Bool := cohOf coh == .dir && isDevice pa && !s.hostBiased pa

/-- The read of CPUSH, the cores that will be delivered the line, and the error of a dead one with the line's address (R291). -/
def pushRead (sec : Bool) (va opId : Nat) (cores : BitVec 24) : EngM (List CoreId × Option Err) := do
  match ← engPlace sec false false va with
  | .half _ => engFail 0x19 va
  | .phys pa coh =>
    let s ← engState
    if s.store.poison.contains (pa / 128) then engFail 0x1F va
    if isReg pa then return ([], none)
    engModify fun s => s.touchRead .home pa
    if pushable s coh pa then
      let l := coreSet cores
      let live := l.filter fun d => !s.deadCore d
      engModify fun s => s.postPushes opId true (pa / 128) va live
      return (live, if l.any s.deadCore then some ⟨0x2D, BitVec.ofNat 48 (pa / 128 * 128)⟩ else none)
    else return ([], none)

/-! ### The stamp (R200, R204, R216) -/

/-- The stamp's write: translated, checked against the line's record, performed at the home. -/
def stampWrite (sec : Bool) (d : Word) (x : Nat) : EngM Nat := do
  match ← engPlace sec true false (vaOf d) with
  | .half _ => engFail 0x19 (vaOf d)
  | .phys pa coh =>
    let s ← engState
    let bad := match s.store.scopes.find? fun r => r.line == pa / 128 with
      | some r => !scopeIncludes 3 s.core.id r.core
      | none => false
    if bad then engFail 0x2B (vaOf d / 128 * 128)
    if isReg pa then engModify fun s => s.regWrite sec (pa - regBase) (BitVec.ofNat 64 x)
    else
      if !writable s pa 8 then engFail 0x1F (vaOf d)
      engModify fun s => s.leaveLine (pa / 128)
      engOrdered 0 pa (toBytes 8 x) fun pa bs s => s.storeLine (viaOf s (cohOf coh) (vaOf d) pa false) pa bs
      engModify fun s => (s.release 3)
      engModify fun s => { s with store := { s.store with
        scopes := ⟨pa / 128, s.core.id, 3⟩ :: s.store.scopes.filter fun r => r.line != pa / 128 } }
      noteLine (.mem (pa / 128)) 8
    return pa

/-! ### Running one copy -/

/-- What a copy leaves to be waited for beside its writes. -/
inductive CopyEnd where
  /-- nothing; false where a verified copy failed -/
  | done (ok : Bool)
  | pushes (left : List CoreId) (err : Option Err)
  | updates (h : Handle) (elems : List (Nat × List (Nat × BitVec 32)))

/-- The end of a copy that leaves nothing to be waited for. -/
def ended (b : Bool) : Option CopyEnd := if b then some (.done true) else none

/-- The next piece of a copy: none while more is left. -/
def stepKind (k : Copy) : EngM (Option CopyEnd) := do
  let sec := k.sec
  match k.kind with
  | .cpy d a n v => return (← copyBytes sec (linOf d) (linOf a) n v).map .done
  | .cpyl out d a n v =>
    if out then return (← copyBytes sec (linOf d) (locOf a) n v).map .done
    else return (← copyBytes sec (locOf d) (linOf a) n v).map .done
  | .cpytIn h a n => return (← tensorIn sec h (vaOf a) n).map (.updates h)
  | .cpytOut d h n => return ended (← tensorOut sec (vaOf d) h n)
  | .cxpose d a ctl => return ended (← transposeStep sec (vaOf d) (vaOf a) ctl)
  | .cfill d x w n => return ended (← fillStep sec (vaOf d) n (toBytes w x.toNat))
  | .crun kind d a n nest => return ended (← emitStep sec kind d a n nest)
  | .cstamp d n _ => do
    let _ ← stampWrite sec d (2 * n.toNat)
    return ended true
  | .cfp r a n => do
    let e ← foldStep sec (vaOf a) n fun acc o bs => (cfpAdd (BitVec.ofNat 64 acc) o bs).toNat
    if e then writeResult r (← engProg).acc
    return ended e
  | .csum r a n => do
    let e ← foldStep sec (vaOf a) n csumAdd
    if e then writeResult r (csumEnd (← engProg).acc n)
    return ended e
  | .ccmp b a n r => do
    let e ← compareStep sec (vaOf b) (vaOf a) n
    if e then writeResult r (← engProg).acc
    return ended e
  | .cxpnd d a limit => return ended (← expandStep sec (vaOf d) (vaOf a) limit)
  | .cpush a cores _ => do
    let r ← pushRead sec (vaOf a) k.id cores
    return some (.pushes r.1 r.2)
  | .cpeer d a n => return ended (← peerStep d a n)
  | .cdisp r => return ended (← dispatchStep sec (vaOf r))

/-! ### The pause at a page boundary (R206, R326, R327) -/

/-- The bytes that a copy of n bytes has written at a position; v for a verified one (R205). -/
def writtenOf (pos n : Nat) (v : Bool) : Nat :=
  if !v then pos else if pos ≤ n then min pos (n - heldBack n) else n - heldBack n + (pos - (n + 1))

/-- The next address of each linear side that a copy has begun, from how far it has come (R326). -/
def CopyKind.sides (k : CopyKind) (p : CopyProgress) : List Nat :=
  let side (a n : Nat) : List Nat := if n = 0 then [] else [a + n]
  match k with
  | .cpy d a n v => side (vaOf a) (min p.pos n) ++ side (vaOf d) (writtenOf p.pos n v)
  | .cpyl out d a n v => if out then side (vaOf d) (writtenOf p.pos n v) else side (vaOf a) (min p.pos n)
  | .cpytIn _ a _ => side (vaOf a) p.pos
  | .cpytOut d _ _ => side (vaOf d) (p.pos - 1)
  | .cxpose d a c =>
    let row := xposeCols c * xposeWidth c
    let size := row * xposeRows c
    if p.pos < size then side (vaOf a) (p.pos / row * xposePitch c + p.pos % row) else side (vaOf d) (p.pos - size)
  | .cfill d _ _ _ => side (vaOf d) p.pos
  | .cfp _ a _ | .csum _ a _ => side (vaOf a) p.pos
  | .ccmp b a _ _ => side (vaOf b) p.pos ++ side (vaOf a) p.pos
  | .cxpnd d a _ => if p.pos = 0 then [] else (vaOf a + 16 + p.acc) :: side (vaOf d) (32 * (p.pos - 1))
  | .cdisp _ =>
    let r := (DispRec.ofNat (ofBytes p.held)).plain
    if p.pos = 0 then [] else [r.choiceAt (p.pos - 1)]
  | .crun _ _ _ _ _ | .cstamp _ _ _ | .cpush _ _ _ | .cpeer _ _ _ => []

/-- What a CDISP holds of its translations: that of the page of EIDX it is in, that of the next row, those that a row in progress needs,
and, until it comes to a boundary of EIDX, those of its counters, its bases and its buffers (R326, L75). -/
def dispKeeps (p : CopyProgress) (x : Xl) : Bool :=
  let r := (DispRec.ofNat (ofBytes p.held)).plain
  let next := r.choiceAt (p.pos - 1)
  x.holds next || x.holds (r.src + (p.pos - 1) / r.ksel * r.rowb) || p.subs.any (fun q => q.needs x) ||
    (p.pages.xls.any (fun y => y.holds next) && !(x.va < r.src + r.ntok * r.rowb && r.src < x.va + x.size))

/-- Whether a copy keeps a translation (R206). -/
def CopyKind.keeps (k : CopyKind) (p : CopyProgress) (x : Xl) : Bool := match k with
  | .cdisp _ => p.pos != 0 && dispKeeps p x
  | _ => (k.sides p).any x.holds

/-- The pages that a copy is in the middle of: it holds their translations. -/
def CopyKind.within (k : CopyKind) (p : CopyProgress) : List Nat := midPages ((k.sides p).filter fun v => p.pages.xls.any fun x => x.holds v)

/-- The translations of a copy in progress. -/
def Copy.pagesOf (k : Copy) (q : SubCopy) : Held := match k.kind with
  | .cdisp _ => k.prog.pages
  | _ => q.pages

/-- A withdrawal of the copy's space is pending. -/
def Copy.frozen (k : Copy) (s : State) : Bool := s.host.wdrs.any fun w => w.space == k.sec

/-- The places that the copies in progress take of an engine's 8: an emitted copy takes one of its own (R317, R320). -/
def State.engineLoad (s : State) (c1 : Bool) : Nat :=
  ((s.sharers.flatMap fun c => (c.eng c1).queue.filter (·.started)).map fun k => max 1 k.prog.subs.length).foldl (· + ·) 0

/-- A step of the copy from where it stands; it keeps the translations of the pages it is in (R206). -/
def Copy.run (k : Copy) (s : State) (c1 : Bool) : EStateM.Result Err Run (Option CopyEnd) :=
  let own := k.prog.subs.length
  let step : EngM (Option CopyEnd) := do
    let e ← stepKind k
    modify fun r => { r with prog := { r.prog with
      pages := r.prog.pages.keep (k.kind.keeps r.prog) } }
    return e
  step ⟨s, [], 0, k.prog, k.frozen s && (k.prog.pos != 0 || k.prog.emit != 0), k.kind.within k.prog,
    8 - (s.engineLoad c1 - max 1 own + own), false, some (k.id, 0), 0⟩

/-- The copy stands at a page boundary and waits there, for a withdrawal or for a page to have changed its bias (R206, R288). -/
def Copy.paused (k : Copy) (s : State) (c1 : Bool) : Bool :=
  (k.frozen s || s.store.bias.any fun p => s.biasChanging (4096 * p.1)) && k.err.isNone && match k.run s c1 with
    | .ok _ r => r.paused
    | .error _ r => r.paused

/-! ### BIAS_CHANGE_COMPLETE (R206, R287, R288) -/

/-- The device as the engines of a core or of a saved task see it (R325). -/
def State.seenBy (s : State) (c : Core) : State :=
  if c.stat = .saved then { s with before := s.cores, core := ghostCore c, after := [] }
  else { s with before := s.cores.filter fun k => k.id != c.id, core := c, after := [] }

/-- Some addresses that a copy stands at, under its translations, are within a physical page and not at its beginning. -/
def Held.within (h : Held) (page : Nat) (vas : List Nat) : Bool := vas.any fun v => v % 4096 != 0 && h.xls.any fun x => x.holds v && x.paOf v / 4096 == page

/-- The copy is in the middle of a page and goes on. -/
def Copy.flyingTo (k : Copy) (page : Nat) (s : State) (c1 : Bool) : Bool :=
  k.started && k.commits.isNone && k.err.isNone &&
    (k.prog.pages.within page (k.kind.sides k.prog) ||
      k.prog.subs.any fun q => q.pos != 0 && (k.pagesOf q).within page (q.dst.vas q.pos ++ q.src.vas q.pos)) &&
    !k.paused s c1

/-- R287 step 2: the accesses and deliveries in flight to the page are complete, and the copies that were within it have left it. -/
def State.biasDue (s : State) (page : Nat) : Bool :=
  match s.biasOf (4096 * page) with
  | some (.toHost t draw _) | some (.toDevice t draw _) => t + 1 + Config.latency draw ≤ s.clock &&
      !(s.contexts.any (flyingTo page t)) && !(s.pushes.any fun p => p.line / 32 == page) &&
      s.contexts.all fun c => [false, true].all fun c1 => (c.eng c1).queue.all fun k => !k.flyingTo page (s.seenBy c) c1
  | _ => false

/-- BIAS_CHANGE_COMPLETE (R287). -/
def execBiasChangeComplete (page : Nat) (s : State) : Out := .next (if s.biasDue page then s.biasComplete page else s)

/-! ### Completion (R203 to R205, R217, R322, R323) -/

/-- The slot of an engine, and the engine that holds a copy. -/
def Core.engineOf (c : Core) (id : Nat) : Option Bool :=
  if c.eng0.ids.contains id then some false else if c.eng1.ids.contains id then some true else none

def Core.copyOf (c : Core) (id : Nat) : Option Copy := (c.eng0.queue ++ c.eng1.queue).find? fun k => k.id == id

def setCopy (k : Copy) (e : Engine) : Engine := { e with queue := e.queue.map fun x => if x.id = k.id then k else x }

def markBatch (id : Nat) (poison : Bool) (err : Option Err) (b : Batch) : Batch :=
  if b.ids.contains id then
    { b with pend := b.pend.filter (· != id)
             st := ⟨b.st.poison || poison, match b.st.err with
               | some e => some e
               | none => err⟩ }
  else b

/-- A token falls, with the first error recorded on it (R16, R342). -/
def lowerTok (k : Tok) (err : Option Err) (c : Core) : Core :=
  let t := c.regs.k.get k
  { c with regs := { c.regs with k := c.regs.k.set k ⟨t.count - 1, match t.err with
    | some e => some e
    | none => err⟩ } }

/-- The copy's entry frees, its token falls, its batch takes its status (R317, R323). -/
def finishCopy (c1 : Bool) (k : Copy) (poison : Bool) (err : Option Err) (c : Core) : Core :=
  let tok : Option Err := match err with
    | some e => some e
    | none => if poison then some ⟨0x41, 0⟩ else none
  let stamp := match k.kind with
    | .cstamp _ _ _ => true
    | _ => false
  let bad := (poison || err.isSome) && !stamp
  let f (e : Engine) : Engine := { e with
    queue := e.queue.filter fun x => x.id != k.id
    open_ := markBatch k.id poison err e.open_
    closed := e.closed.map (markBatch k.id poison err)
    failed := if bad then k.id :: e.failed else e.failed }
  lowerTok k.k tok (c.modEng c1 f)

/-- The lines of a copy wait to be observed (R204, R234). -/
def addUnobs (c1 : Bool) (k : Copy) (lines : List LineRef) (c : Core) : Core :=
  let old := ((c.unobs.find? fun u => u.id == k.id).map (·.lines)).getD []
  { c with unobs := ⟨k.id, k.k, c1, k.counted, insertAll lines old⟩ :: c.unobs.filter fun u => u.id != k.id }

/-- A credit is posted for what a counted copy has written; the forced one covers the rest (R205). -/
def postCredit (s : State) (k : Copy) (bytes : Nat) (forced : Bool) : State × List Nat :=
  match k.counted with
  | some b =>
    if bytes = 0 && !forced then (s, [])
    else ({ s with nextId := s.nextId + 1, draws := s.draws + 1
                   posts := s.posts ++ [⟨s.nextId, s.draws, s.clock, s.core.id, b, [], .credit bytes forced⟩] }, [s.nextId])
  | none => (s, [])

/-- The bytes of a copy's destination. -/
def CopyKind.length : CopyKind → Nat
  | .cpy _ _ n _ => n
  | .cpyl _ _ _ n _ => n
  | .cpytIn h _ n => elemBits (dEtype h.desc) * n / 8
  | _ => 0

/-- A copy has done its last piece, with what it still waits for (R203). -/
def leaveCopy (c1 : Bool) (k : Copy) (poison : Bool) (ids : List Nat) (c : Core) : Core :=
  if ids.isEmpty then finishCopy c1 k poison (if poison then none else k.err) c
  else c.modEng c1 (setCopy { k with commits := some ids, err := if poison then some ⟨0x41, 0⟩ else k.err })

/-- A copy that has more to do. -/
def goOn (c1 : Bool) (k : Copy) (p : CopyProgress) (ids : List Nat) (s : State) : State :=
  { s with draws := s.draws + 1 }.onCore fun c =>
    c.modEng c1 (setCopy { k with issue := s.clock, draw := s.draws, prog := { p with owed := k.prog.owed ++ ids } })

/-- The bytes a failed verified copy has not credited (R205). -/
def uncredited (k : Copy) (wrote : Nat) : Nat := wrote + min k.kind.length 256

/-- Further clocks that the engine reads or writes in (R317). -/
def State.keepBusy (s : State) (c1 : Bool) (n : Nat) : State :=
  s.onCore fun c => c.modEng c1 fun e => { e with freeAt := e.freeAt + n }

/-- The first phase of a copy: its reads and writes, piece by piece. -/
def State.runCopy (s : State) (c1 : Bool) (k : Copy) : State :=
  let owed := k.prog.owed
  let s := (s.onCore fun c => c.modEng c1 fun e => { e with freeAt := s.clock + 1 }).pruneWrites
  if k.err.isSome then (s.unpinAll k.prog.pins).onCore (leaveCopy c1 k false owed)
  else match k.run s c1 with
  | .error e r =>
    let s := (((r.s.unpinAll r.prog.pins).release 3).onCore (addUnobs c1 k r.lines)).keepBusy c1 r.busy
    let p := postCredit s k (if r.prog.fail.isSome then 0 else r.wrote) false
    p.1.onCore (leaveCopy c1 { k with err := some e } false (owed ++ p.2))
  | .ok none r =>
    let s := if k.counted.isSome then r.s.release 3 else r.s
    let p := postCredit (s.onCore (addUnobs c1 k r.lines)) k (if r.prog.fail.isSome then 0 else r.wrote) false
    goOn c1 k r.prog p.2 (p.1.keepBusy c1 r.busy)
  | .ok (some x) r =>
    let s := (((r.s.unpinAll r.prog.pins).release 3).onCore (addUnobs c1 k r.lines)).keepBusy c1 r.busy
    match x with
    | .done true =>
      let p := postCredit s k r.wrote false
      p.1.onCore (leaveCopy c1 k false (owed ++ p.2))
    | .done false =>
      let p := postCredit s k (uncredited k r.wrote) true
      p.1.onCore (leaveCopy c1 k true (owed ++ p.2))
    | .pushes l e =>
      let k := { k with err := e }
      if l.isEmpty then s.onCore (finishCopy c1 k false k.err)
      else s.onCore fun c => c.modEng c1 (setCopy { k with kind := match k.kind with
        | .cpush a cs _ => .cpush a cs (some l)
        | q => q })
    | .updates h es =>
      let d := s.descAddr h k.sec
      let q := d.1.queueUpdates s.core.id k.id k.baddr (cslot c1) h.desc (vaOf h.addr) d.2 es
      q.1.onCore (leaveCopy c1 k false q.2)

/-- A verified copy that failed keeps the status POISON (R323). -/
def poisonOnly (k : Copy) : Bool := k.err == some ⟨0x41, 0⟩

/-- The second phase: what the copy waited for is done; a tensor's bytes are credited now. -/
def State.endCopy (s : State) (c1 : Bool) (k : Copy) : State :=
  let credited := match k.kind with
    | .cpytIn _ _ _ => k.counted.isSome && k.err.isNone
    | _ => false
  if credited then
    let p := postCredit s k k.kind.length false
    let k := { k with counted := none, commits := some p.2 }
    if p.2.isEmpty then p.1.onCore (finishCopy c1 k false none) else p.1.onCore fun c => c.modEng c1 (setCopy k)
  else if poisonOnly k then s.onCore (finishCopy c1 k true none)
  else s.onCore (finishCopy c1 k false k.err)

/-! ### When a copy may proceed -/

/-- Bytes of a linear range as they stand, where it translates. -/
def peekLin (s : State) (sec : Bool) (va n : Nat) : Option Nat :=
  ((pagePieces va n).mapM fun (p : Nat × Nat) => match s.walk sec p.1 with
    | .ok x => some (rdBytes s.store.bytes (x.paOf p.1) p.2)
    | .fail _ => none).map fun (l : List (List Byte)) => ofBytes l.flatten

/-- The record of a CDISP, read or yet to be read. -/
def dispRecord (s : State) (k : Copy) (a : Word) : Option DispRec :=
  (if k.prog.pos = 0 then peekLin s k.sec (vaOf a) 64 else some (ofBytes k.prog.held)).map DispRec.ofNat

/-- The counters that a CDISP adds to. -/
def dispRanges (s : State) (k : Copy) (a : Word) : List (Nat × Nat × Nat) := match (dispRecord s k a).map DispRec.plain with
  | none => []
  | some r => physRanges s k.prog.pages.xls k.sec r.cnt (4 * r.nexp) ++ physRanges s k.prog.pages.xls k.sec r.rcnt 4

/-- The bytes that a peer transfer writes: of a core's SCRATCH within the device, with the flag word of the entry that takes it, or of a
core of another device (5 and its number). -/
def peerRanges (s : State) (d : Word) (n : Nat) : List (Nat × Nat × Nat) :=
  let dev := field d.toNat 28 12
  let target : CoreId := Fin.ofNat 128 (field d.toNat 21 7)
  if dev == s.plat.devnum.toNat then
    localRange target (field d.toNat 0 21) n :: (s.coreAt target).claim.grants.map fun g => localRange target g.flag.toNat 8
  else [(5 + dev, 2 ^ 21 * target.val + field d.toNat 0 21, n)]

/-- The bytes that a copy does not write as pieces of its own: those it adds to, those a peer transfer takes, and tile entries (3), whose
updates come from the Pintle (R253). -/
def atomicRanges (s : State) (k : Copy) : List (Nat × Nat × Nat) := match k.kind with
  | .cpytIn h _ n => (tilesOf (runPlaces h n)).map fun t => (3, entryOf h.desc t, 16)
  | .cpeer d _ n => peerRanges s d n
  | .cdisp a => dispRanges s k a
  | _ => []

/-- The bytes that a copy writes as pieces, where it is known beforehand: physical bytes, local bytes, bytes of a half (R318). -/
def pieceRanges (s : State) (k : Copy) : List (Nat × Nat × Nat) :=
  let loc (a : Word) (n : Nat) : List (Nat × Nat × Nat) := [localRange s.core.id (field a.toNat 0 21) n]
  let held := k.prog.pages.xls ++ k.prog.subs.flatMap fun q => q.pages.xls
  (k.kind.linDests.flatMap fun p => physRanges s held k.sec p.1 p.2) ++ match k.kind with
  | .cpyl false d _ n _ => loc d n
  | .crun 1 d _ n nest => (List.range (nestTotal nest)).flatMap fun m => loc (d + BitVec.ofInt 64 (nestOffsets nest m).2) n
  | .cfp r _ _ | .csum r _ _ | .ccmp _ _ _ r => loc r 8
  | .cdisp _ => k.prog.subs.flatMap fun q => match q.dst with
    | .lin a => physRanges s held k.sec a (q.n + 8)
    | .loc _ => []
  | _ => []

/-- One of two copies writes, other than in pieces, bytes that the other writes. -/
def atomicMeet (s : State) (a b : Copy) : Bool :=
  let x := atomicRanges s a
  let y := atomicRanges s b
  (!x.isEmpty && rangesMeet x (y ++ pieceRanges s b)) || (!y.isEmpty && rangesMeet (pieceRanges s a) y)

/-- R318: an earlier copy of the core has not written yet, and this one's writes, which meet its, cannot be kept behind them byte by
byte. -/
def overtakes (s : State) (k : Copy) : Bool := s.writing.any fun e => e.id < k.id && atomicMeet s e k

/-- The accesses of a CDISP in the classes its record names come after the core's earlier ones, its acquires and its fences of those
classes (R37, R203, R233). -/
def dispTurn (s : State) (k : Copy) : Bool := match k.kind with
  | .cdisp a => k.prog.pos = 0 || match dispRecord s k a with
    | some r => s.core.settled ((r.classes.flatMap (classAfter s.core)).filter (· < k.id))
    | none => true
  | _ => true

/-- The pins of a CPYT `.out` have room (R254). -/
def outRoom (s : State) (k : Copy) : Bool := match k.kind with
  | .cpytOut _ h n => k.prog.pos != 0 || s.pinRoom (s.pinnable h.desc (tilesOf (runPlaces h n)))
  | _ => true

/-- The engine has read and written no piece in this clock (R317). -/
def engineFree (s : State) (c1 : Bool) : Bool := s.sharers.all fun c => (c.eng c1).freeAt ≤ s.clock

/-- What the copy waited for beside its own clock: its commits and credits, or its deliveries. -/
def CopyKind.delivering : CopyKind → Option (List CoreId)
  | .cpush _ _ l => l
  | _ => none

/-- A started copy may go on. -/
def copyDue (s : State) (c1 : Bool) (k : Copy) : Bool :=
  match k.commits, k.kind.delivering with
  | some l, _ => l.isEmpty
  | none, some l => l.isEmpty
  | none, none => k.started && k.issue + 1 + Config.latency k.draw ≤ s.clock && s.core.settled k.after && engineFree s c1 &&
      dispTurn s k && outRoom s k && !overtakes s k && !k.paused s c1

def CopyKind.isStamp : CopyKind → Bool
  | .cstamp _ _ _ => true
  | _ => false

/-- The saved task of the core in focus whose context holds something (R325). -/
def State.ghostWith (s : State) (p : Core → Bool) : Option Nat :=
  (s.sched.tasks.find? fun t => match t.saved s.core.id with
    | some g => p g
    | none => false).map (·.id)

/-- An event of the core in focus, or of the saved task that holds what it is about. -/
def State.ofOwner (s : State) (p : Core → Bool) (f : State → State) : State :=
  if p s.core then f s
  else match s.ghostWith p with
    | some t => s.asSaved t f
    | none => s

def State.copyComplete (s : State) (id : Nat) : State :=
  match s.core.copyOf id, s.core.engineOf id with
  | some k, some c1 =>
    if !copyDue s c1 k || k.kind.isStamp then s
    else if k.commits.isSome || k.kind.delivering.isSome then s.endCopy c1 k
    else s.runCopy c1 k
  | _, _ => s

/-- COPY_COMPLETE (R203, R206). -/
def execCopyComplete (id : Nat) (s : State) : Out :=
  .next (s.ofOwner (fun c => (c.copyOf id).isSome) (·.copyComplete id))

/-! ### COPY_START (R317, R321) -/

def CopyKind.isXpose : CopyKind → Bool
  | .cxpose _ _ _ => true
  | _ => false

/-- The next copy of an engine that may start: saved tasks' copies come first, and the 8 places and the transpose buffer are the
engine's (R317, R321, R325). -/
def startableCopy (s : State) (c1 : Bool) : Option Copy :=
  let all := (s.core :: s.ghosts s.core.id).flatMap fun c => (c.eng c1).queue
  let waiting := all.filter fun k => !k.started
  match waiting.foldl (fun (best : Option Copy) k => match best with
    | some b => if k.id < b.id then some k else best
    | none => some k) none with
  | none => none
  | some k =>
    let going := all.filter (·.started)
    if 8 ≤ s.engineLoad c1 || (k.kind.isXpose && going.any (·.kind.isXpose)) then none else some k

/-- COPY_START (R317). -/
def execCopyStart (c1 : Bool) (s : State) : Out :=
  match startableCopy s c1 with
  | some k => .next (s.ofOwner (fun c => (c.copyOf k.id).isSome) fun s =>
      s.onCore fun c => c.modEng c1 (setCopy { k with started := true }))
  | none => .next s

/-! ### SHOOTDOWN_ACKNOWLEDGE (R327, R354) -/

/-- What a copy issued is performed, and it holds no translation or waits at its page boundary. -/
def Copy.atBoundary (k : Copy) (s : State) (c1 : Bool) : Bool :=
  k.commits.isSome || k.kind.delivering.isSome || (k.prog.pages.xls.isEmpty && k.prog.subs.all fun q => q.pages.xls.isEmpty) ||
    k.paused s c1

def atBoundary (c1 space : Bool) (s : State) : Bool :=
  (s.core.eng c1).queue.all fun k => !k.started || k.sec != space || k.atBoundary s c1

/-- The device with a saved task of the core in focus, and the core itself. -/
def State.owners (s : State) : List State := s :: (s.ghosts s.core.id).map s.seenBy

/-- Engine c1 has to acknowledge the first request, and may. -/
def State.ackDue (s : State) (c1 : Bool) : Bool := match s.host.wdrs with
  | [] => false
  | w :: _ => s.owners.any (fun r => mustAck w (r.core.eng c1)) && s.owners.all (atBoundary c1 w.space)

/-- SHOOTDOWN_ACKNOWLEDGE (R327): every access of the engine is performed, and its copies wait at their boundaries. -/
def execShootdownAcknowledge (c1 : Bool) (s : State) : Out :=
  .next (if s.ackDue c1 then s.modOwner s.core.id fun c => c.modEng c1 fun e => match s.host.wdrs with
      | w :: _ => if mustAck w e then { e with acked := true } else e
      | [] => e
    else s)

/-! ### BATCH_RETIRE (R217, R322) -/

def batchDue (e : Engine) : Bool := match e.closed with
  | b :: _ => b.pend.isEmpty
  | [] => false

def retireBatch (e : Engine) : Engine := match e.closed with
  | b :: l => { e with closed := l, retired := b.ids ++ e.retired
                       acc := ⟨e.acc.poison || b.st.poison, match e.acc.err with
                         | some x => some x
                         | none => b.st.err⟩ }
  | [] => e

/-- BATCH_RETIRE (R217, R322). -/
def execBatchRetire (c1 : Bool) (s : State) : Out :=
  .next (s.ofOwner (fun c => batchDue (c.eng c1)) fun s => (s.release 3).onCore fun c => c.modEng c1 retireBatch)

/-! ### STAMP_WRITE (R200, R204, R216, R323) -/

def State.writeStamp (s : State) (c1 : Bool) (k : Copy) (d : Word) (n : BitVec 63) (covers : List Nat) : State :=
  let s := (s.onCore fun c => c.modEng c1 fun e => { e with freeAt := s.clock + 1 }).pruneWrites
  let e := s.core.eng c1
  let p := covers.any fun i => e.failed.contains i
  match stampWrite k.sec d (2 * n.toNat + if p then 1 else 0) { Run.start (s.release 3) with who := some (k.id, 0) } with
  | .error e r => r.s.onCore (finishCopy c1 k false (some e))
  | .ok pa r => r.s.onCore fun c =>
    let c := finishCopy c1 k false none (addUnobs c1 k r.lines c)
    let c := c.modEng c1 fun e => { e with failed := e.failed.filter fun i => !covers.contains i }
    { c with stamps := (pa, k.id :: covers) :: c.stamps.filter fun q => q.1 != pa }

def State.stampDue (s : State) (id : Nat) : State :=
  match s.core.copyOf id, s.core.engineOf id with
  | some k, some c1 =>
    if !copyDue s c1 k then s
    else match k.kind with
      | .cstamp d n covers => s.writeStamp c1 k d n covers
      | _ => s
  | _, _ => s

/-- STAMP_WRITE (R216). -/
def execStampWrite (id : Nat) (s : State) : Out :=
  .next (s.ofOwner (fun c => (c.copyOf id).isSome) (·.stampDue id))

/-! ### PUSH_DELIVERY (R162 to R164, R277) -/

/-- A delivery is off the operation's or the copy's list; a receiver that has died leaves an error (R291). -/
def noteDelivery (p : Push) (err : Option Err) (c : Core) : Core :=
  let first (o : Option Err) : Option Err := match o with
    | some e => some e
    | none => err
  let drop (l : List CoreId) : List CoreId := l.erase p.dst
  let op (o : TokOp) : TokOp := if o.id != p.opId then o else match o.kind with
    | .pushing l => { o with kind := .pushing (drop l), err := first o.err }
    | _ => o
  let cp (k : Copy) : Copy := if k.id != p.opId then k else match k.kind with
    | .cpush a cs (some l) => { k with kind := .cpush a cs (some (drop l)), err := first k.err }
    | _ => k
  if p.isCopy then { c with eng0 := { c.eng0 with queue := c.eng0.queue.map cp }, eng1 := { c.eng1 with queue := c.eng1.queue.map cp } }
  else { c with ops := c.ops.map op }

def pushDue (s : State) (p : Push) : Bool := p.since + 1 + Config.latency p.draw ≤ s.clock

def execPushDelivery (id : Nat) (s : State) : Out :=
  match s.pushes.find? fun p => p.id == id with
  | none => .next s
  | some p =>
    if !pushDue s p then .next s
    else
      let s := { s with pushes := s.pushes.filter fun q => q.id != id }
      if s.deadCore p.dst then .next (s.modOwner p.src (noteDelivery p (some ⟨0x2D, BitVec.ofNat 48 (128 * p.line)⟩)))
      else .next ((s.asCore p.dst fun s => s.deliver p.line (s.inStash p.line)).modOwner p.src (noteDelivery p none))

end Sys2Proof.Machine
end

