-- ==== Sys2Proof/Machine/Tasks.lean ====
section
/-! DEFINITION. Task records (R294), the scheduler's check of one (R295), and taking it into a pool (R299, R310). -/

namespace Sys2Proof.Machine

/-! ### The record (R294) -/

def bvAt (n lo w : Nat) : BitVec w := BitVec.ofNat w (field n (8 * lo) w)

/-- The words of a range of bytes. -/
def wordsAt (n lo count : Nat) : List Word := (List.range count).map fun i => bvAt n (lo + 8 * i) 64

def recordOf (addr : Word) (bs : List Byte) : TaskRec :=
  let n := ofBytes bs
  { addr := addr, entry := bvAt n 0 64, ctx := bvAt n 8 64, depAddr := bvAt n 16 64, depVal := bvAt n 24 64
    doneAddr := bvAt n 32 64, roles := bvAt n 40 64, banks := bvAt n 48 32, rows := bvAt n 52 32, wdog := bvAt n 56 32
    quota := bvAt n 60 16, flags := bvAt n 62 16, domn := bvAt n 64 40, r69 := bvAt n 69 24, task := bvAt n 72 32
    place := bvAt n 76 16, r78 := bvAt n 78 16, mcnt := bvAt n 80 64, ipre := bvAt n 88 64
    r96 := wordsAt n 96 4, args := wordsAt n 128 8 }

def TaskRec.prio (r : TaskRec) : BitVec 2 := BitVec.ofNat 2 r.flags.toNat
def TaskRec.ilo (r : TaskRec) : Bool := bit r.flags.toNat 2
def TaskRec.ihi (r : TaskRec) : Bool := bit r.flags.toNat 3
def TaskRec.sec (r : TaskRec) : Bool := bit r.flags.toNat 4
/-- The member count of a level (R294). -/
def TaskRec.members (r : TaskRec) (level : Nat) : Nat := field r.mcnt.toNat (16 * (level - 1)) 16

/-- The half of the instruction scratchpad that holds ENTRY: true for IHI. -/
def TaskRec.entryHalf (r : TaskRec) : Option Bool := (ihOffset r.entry.toNat).map fun o => (65536 ≤ o : Bool)

/-! ### The check (R295) -/

/-- The fields whose rule R294 states, and the accumulator ranges. -/
def TaskRec.formOk (r : TaskRec) : Bool :=
  let rows := r.rows.toNat
  let ok (lo : Nat) : Bool := field rows lo 8 + field rows (lo + 8) 8 ≤ 256 || field rows (lo + 8) 8 == 0
  let apart := match rowRanges rows with
    | [a, b] => decide (a.1 + a.2 ≤ b.1) || decide (b.1 + b.2 ≤ a.1)
    | _ => true
  r.entry.toNat % 32 == 0 && r.entry.toNat < 2 ^ 48 && r.ctx.toNat % 4096 == 0 && r.depAddr.toNat % 8 == 0 &&
    r.doneAddr.toNat % 8 == 0 && r.flags.toNat < 32 && r.r69 == 0 && r.place.toNat < 256 && r.r78 == 0 &&
    r.r96.all (· == 0) && ok 0 && ok 16 && apart && r.quota.toNat ≤ 512

/-- The limit of a member count. -/
def memberLimit (level : Nat) : Nat := if level ≤ 2 then 4096 else if level = 3 then 16384 else 65535

/-- Memberships: a count exactly where a level names one, within its limit, and of an instance's own count (R295, R310). -/
def TaskRec.domainsOk (r : TaskRec) (d : Sched) (lid : BitVec 16) : Bool :=
  [1, 2, 3, 4].all fun level =>
    match domnOf r.domn level with
    | none => r.members level == 0
    | some v => r.members level != 0 && r.members level ≤ memberLimit level &&
      (level == 4 || match d.inst (instKey lid (placeDie r) level v) with
        | some i => i.count.toNat == r.members level
        | none => true)

/-- ENTRY and IPRE against the claims of the halves. -/
def TaskRec.halvesOk (r : TaskRec) : Bool :=
  match r.entryHalf with
  | none => r.ipre == 0
  | some hi => if hi then r.ihi else r.ilo

def TaskRec.ok (r : TaskRec) (d : Sched) (lid : BitVec 16) (sec : Bool) : Bool :=
  r.formOk && r.domainsOk d lid && r.halvesOk && (!r.sec || sec)

/-! ### Taking a record -/

/-- The free slots of a die's pool (R299). -/
def Sched.free (d : Sched) (die : Nat) : Nat := 4096 - (d.tasks.filter fun t => t.st != .discarded && t.die.val == die).length

/-- An instance that does not exist is formed by its first member (R310). -/
def Sched.join (d : Sched) (k : InstKey) (n : Nat) : Sched :=
  match d.inst k with
  | some _ => d
  | none => { d with insts := d.insts ++ [⟨k, BitVec.ofNat 16 n, n, 0, 0, false, none⟩] }

/-- R299: a record with no dependence is READY, any other DEPENDENT. -/
def Sched.take (d : Sched) (r : TaskRec) (lid : BitVec 16) (clock : Nat) : Sched :=
  let t : Task := { id := d.nextId, die := placeDie r, lid := lid, record := r
                    st := if r.depAddr = 0 then .ready else .dependent
                    home := none, prio := r.prio, aged := false, since := clock, promo := clock, placedAt := 0, ctx := none }
  let d := { d with tasks := d.tasks ++ [t], nextId := d.nextId + 1 }
  [1, 2, 3, 4].foldl (fun (d : Sched) level => match t.key level with
    | some k => d.join k (r.members level)
    | none => d) d

/-- TASK_RECORD_TAKE for SPAWN (R122, R295): the DETAIL of the spawn-refused error, or the pool with the
task; a record that is rejected says so whether or not its pool is full (L91). -/
def State.spawnTask (s : State) (r : TaskRec) (lid : BitVec 16) (sec : Bool) : State × Option Err :=
  if !r.ok s.sched lid sec then (s, some ⟨0x40, 1⟩)
  else if s.sched.free (placeDie r).val = 0 then (s, some ⟨0x40, 0⟩)
  else ({ s with sched := s.sched.take r lid s.clock }, none)

end Sys2Proof.Machine
end

