-- ==== Sys2Proof/Machine/MatrixCalc.lean ====
section
/-! DEFINITION. The matrix unit's values: operand elements with their scales and masks (R76, R90, R91, R174, R179), the accumulator
update (R92, R93), K-pair skipping (R94, R168), the drain conversion (R95, R182) and the accumulator rows (R38, R269). -/

namespace Sys2Proof.Machine

/-! ### The configuration (R167) -/

def cfgPair (c : BitVec 7) : Nat := c.toNat % 16
def cfgStreamed (c : BitVec 7) : Bool := bit c.toNat 4
def cfgSparse (c : BitVec 7) : Bool := bit c.toNat 5
def cfgKSweep (c : BitVec 7) : Bool := bit c.toNat 6
/-- R169. -/
def cfgExact (c : BitVec 7) : Bool := !cfgStreamed c && !cfgSparse c

/-- K of a tile op and the width of a K-pair. -/
def pairK (p : Nat) : Nat := if p ≤ 1 then 64 else if p = 4 then 128 else 32
def pairGroup (p : Nat) : Nat := if p ≤ 1 then 2 else if p = 4 then 4 else 1

/-- The formats of a pair's two sides. -/
inductive MFmt where
  | fp8 | int8 | bf16 | fp16 | cb4
deriving DecidableEq, Repr, Inhabited

def pairFmts : Nat → MFmt × MFmt
  | 0 => (.fp8, .fp8)
  | 1 => (.int8, .int8)
  | 2 => (.bf16, .bf16)
  | 3 => (.fp16, .fp16)
  | 4 => (.cb4, .cb4)
  | 5 => (.cb4, .fp8)
  | 6 => (.fp8, .cb4)
  | 7 => (.cb4, .bf16)
  | _ => (.bf16, .cb4)

/-- R174: an element type serves a side. -/
def fmtTakes (f : MFmt) (et : Nat) : Bool := match f with
  | .fp8 => et == 3 || et == 4
  | .int8 => et == 5
  | .bf16 => et == 1
  | .fp16 => et == 2
  | .cb4 => et == 8

/-! ### Operand elements -/

/-- An unmasked element with its scale applied: its value, and whether one of its factors is a NaN (R92). -/
abbrev MElem := FV × Bool

/-- The value of a stored pattern (R76). -/
def elemVal (et : Nat) (cb : BitVec 256) (x : Nat) : FV :=
  if et = 8 then fdec bf16 (field cb.toNat (16 * (x % 16)) 16) else (numFmt et).value x

def scaled (v : FV) (scale : Option (BitVec 16)) : MElem :=
  match scale with
  | none => (v, v.isNan)
  | some s => let w := fdec bf16 s.toNat; (fmulV v w, v.isNan || w.isNan)

/-- The cursor's coordinates with two of them moved (R174). -/
def moved (h : Handle) (d0 d1 : Nat) (i : Nat) : Nat :=
  (vat h.cursor i).toNat + if i = 0 then d0 else if i = 1 then d1 else 0

/-- What a repetition reads: A's place of row m and index k, B's place of index k and column n. -/
def placeA (o : MOp) (j m k : Nat) : Option (Nat × Nat) :=
  locate o.hA.desc (moved o.hA ((if cfgKSweep o.cfg then pairK (cfgPair o.cfg) * j else 0) + k) m)

def placeB (o : MOp) (j k n : Nat) : Option (Nat × Nat) :=
  if cfgKSweep o.cfg then locate o.hB.desc (moved o.hB n (pairK (cfgPair o.cfg) * j + k))
  else locate o.hB.desc (moved o.hB (96 * j + n) k)

/-- The tiles of one repetition, of A and of B. -/
def repTilesA (o : MOp) (j : Nat) : List Nat :=
  tilesOf ((List.range 128).flatMap fun m => (List.range (pairK (cfgPair o.cfg))).map fun k => placeA o j m k)

def repTilesB (o : MOp) (j : Nat) : List Nat :=
  tilesOf ((List.range (pairK (cfgPair o.cfg))).flatMap fun k => (List.range 96).map fun n => placeB o j k n)

/-- Rows of A: for each m, the K elements, masked ones none (R91, R179). -/
def rowsA (o : MOp) (r : Rep) : List (List (Option MElem)) :=
  let d := o.hA.desc
  let useScale := (pairFmts (cfgPair o.cfg)).1 == .fp8 && dScv d
  (List.range 128).map fun m => (List.range (pairK (cfgPair o.cfg))).map fun k =>
    (elemIn d r.tiles (placeA o r.j m k)).map fun x =>
      scaled (elemVal (dEtype d) r.cbA x.toNat) (if useScale then some (vat r.scA m) else none)

/-- Columns of B: for each n, the K elements. -/
def colsB (o : MOp) (r : Rep) : List (List (Option MElem)) :=
  let d := o.hB.desc
  let useScale := (pairFmts (cfgPair o.cfg)).2 == .fp8 && dScv d
  (List.range 96).map fun n => (List.range (pairK (cfgPair o.cfg))).map fun k =>
    (elemIn d r.tiles (placeB o r.j k n)).map fun x =>
      scaled (elemVal (dEtype d) r.cbB x.toNat) (if useScale then some (vat r.scB n) else none)

/-! ### One accumulator element -/

/-- What the products of an element amount to (R92). -/
structure Prods where
  nan  : Bool
  bad  : Bool
  pinf : Bool
  ninf : Bool
  sum  : FV
deriving DecidableEq, Repr, Inhabited

def addProd (p : Prods) (a b : Option MElem) : Prods :=
  match a, b with
  | some x, some y =>
    match fmulV x.1 y.1 with
    | .nan => { p with nan := true, bad := p.bad || !(x.2 || y.2) }
    | .inf false => { p with pinf := true }
    | .inf true => { p with ninf := true }
    | v => { p with sum := faddV p.sum v }
  | _, _ => p

def prods (as bs : List (Option MElem)) : Prods :=
  (as.zip bs).foldl (fun p x => addProd p x.1 x.2) ⟨false, false, false, false, .fin false 0 0⟩

/-- R92: the new FP32 element from the old one. -/
def macFloat (c : Nat) (p : Prods) : FRes :=
  match fdec fp32 c with
  | .nan => (fp32.nanPat, if p.bad then some fevInvalid else none)
  | v =>
    let cp := v == .inf false
    let cn := v == .inf true
    if p.nan then (fp32.nanPat, if p.bad then some fevInvalid else none)
    else if (p.pinf && p.ninf) || (cp && p.ninf) || (cn && p.pinf) then (fp32.nanPat, some fevInvalid)
    else if cp || p.pinf then (fp32.infPat, none)
    else if cn || p.ninf then (withSign fp32 true fp32.infPat, none)
    else if p.sum.isZero then (c, none)
    else fround fp32 (match faddV v p.sum with
      | .fin n m e => if m = 0 then .fin false 0 0 else .fin n m e
      | w => w)

/-- The exact integer of a sum of INT8 products. -/
def intOf : FV → Int
  | .fin n m e => let x : Int := ((m * 2 ^ e.toNat : Nat) : Int); if n then -x else x
  | _ => 0

/-- R93. -/
def macInt (c : Nat) (p : Prods) : FRes :=
  let x := sextInt c 32 + intOf p.sum
  let y := satInt x (-(2 ^ 31)) (2 ^ 31 - 1)
  (toTwos 32 y, if x = y then none else some fevSat)

def mac (isInt : Bool) (c : Nat) (p : Prods) : FRes := if isInt then macInt c p else macFloat c p

/-! ### Rows (R38, R269) -/

def rowElem (x : BitVec 512) (n : Nat) : Nat := field x.toNat (32 * n) 32

/-- What a row with an uncorrectable error reads as (R269). -/
def badElem (isInt : Bool) : Nat := if isInt then 0x80000000 else 0x7FC00000

def readRow (m : Matrix) (isInt : Bool) (r : Nat) : List Nat :=
  if m.badRows.contains r then List.replicate 16 (badElem isInt) else (List.range 16).map fun n => rowElem (accRow m r) n

def rowOf (l : List Nat) : BitVec 512 := BitVec.ofNat 512 ((l.zip (List.range l.length)).foldl (fun a p => a + p.1 * 2 ^ (32 * p.2)) 0)

def writeRow (m : Matrix) (r : Nat) (x : BitVec 512) : Matrix :=
  { setAccRow m r x with badRows := m.badRows.filter (· != r) }

/-- The first row of a tile with an uncorrectable error. -/
def badIn (m : Matrix) (base : Nat) : Option Nat := ((List.range 768).map fun i => base + i).find? fun r => m.badRows.contains r

/-- The results of one C tile, row by row. -/
def tileResults (m : Matrix) (o : MOp) (r : Rep) (base : Nat) (zero : Bool) : List (List FRes) :=
  let isInt := cfgPair o.cfg == 1
  let bs := colsB o r
  ((rowsA o r).zip (List.range 128)).flatMap fun a => (List.range 6).map fun q =>
    let old := if zero then List.replicate 16 0 else readRow m isInt (base + 6 * a.2 + q)
    (old.zip ((bs.drop (16 * q)).take 16)).map fun p => mac isInt p.1 (prods a.1 p.2)

/-- The C tile written, and the record of its lowest element that has one (R84). -/
def applyTile (m : Matrix) (base : Nat) (rs : List (List FRes)) : Matrix × Option Fev :=
  ((rs.zip (List.range 768)).foldl (fun m p => writeRow m (base + p.2) (rowOf (p.1.map (·.1)))) m,
    (firstFev rs.flatten).map fun f => ⟨f.1, f.2⟩)

/-! ### Skipping (R94) -/

/-- What a present element can give a product: an exact zero, a finite value, or something that is not finite. -/
def isFiniteNz (x : MElem) : Bool := match x.1 with
  | .fin _ m _ => m != 0
  | _ => false
def notFinite (x : MElem) : Bool := match x.1 with
  | .fin _ _ _ => false
  | _ => true

/-- A pair with index k is not skipped: two finite factors that are not zero meet there, or one side holds a factor that is not
finite, whatever the other side holds. -/
def kMatters (as bs : List (List (Option MElem))) (k : Nat) : Bool :=
  let ca := as.filterMap fun l => (l[k]?).getD none
  let cb := bs.filterMap fun l => (l[k]?).getD none
  (ca.any isFiniteNz && cb.any isFiniteNz) || ca.any notFinite || cb.any notFinite

/-- The K-pairs not skipped (R94, R168). -/
def pairsLeft (o : MOp) (r : Rep) : Nat :=
  let as := rowsA o r
  let bs := colsB o r
  let g := pairGroup (cfgPair o.cfg)
  ((List.range 32).filter fun p => (List.range g).any fun i => kMatters as bs (p * g + i)).length

/-! ### The drain (R95, R182) -/

/-- An accumulator element converted to the destination type. -/
def drainElem (isInt : Bool) (ov et : Nat) (x : Nat) : FRes :=
  match convert (if isInt then .i 32 else .f fp32) (numFmt et) .rne ov x with
  | .ok y f => (y, f)
  | .trap => (0, none)

/-- The elements an MDRN writes back with their places, and the record of the lowest (R84). -/
def drainTile (m : Matrix) (o : MOp) (ov : Nat) : List (Option (Nat × Nat) × BitVec 32) × Option Fev :=
  let isInt := cfgPair o.cfg == 1
  let et := dEtype o.hA.desc
  let rs := (List.range 768).flatMap fun i =>
    ((readRow m isInt (o.base + i)).zip (List.range 16)).map fun p =>
      (locate o.hA.desc (moved o.hA (16 * (i % 6) + p.2) (i / 6)), drainElem isInt ov et p.1)
  (rs.map fun q => (q.1, BitVec.ofNat 32 q.2.1), (firstFev (rs.map fun q => if q.1.isSome then q.2 else (q.2.1, none))).map fun f => ⟨f.1, f.2⟩)

end Sys2Proof.Machine
end

