-- ==== Sys2Proof/Machine/Matrix.lean ====
section
/-! DEFINITION. The matrix unit (R167 to R187) and the block-scale loads (R192 to R194): the instructions of slot M, SCLD and
SCZERO, the starting and completing of repetitions, scale landings and the staging path. -/

namespace Sys2Proof.Machine

def modMx (f : Matrix → Matrix) : IssM Unit := modCore fun c => { c with mx := f c.mx }
def State.onMx (s : State) (f : Matrix → Matrix) : State := s.onCore fun c => { c with mx := f c.mx }

/-- The first of two errors (R342). -/
def firstErr (a b : Option Err) : Option Err := match a with
  | some e => some e
  | none => b

/-! ### What a slot-M operation waits for and checks -/

/-- R170: an earlier operation holds the input stage. -/
def stageBusy (m : Matrix) (clock : Nat) : Bool :=
  m.ops.any fun o => (!o.held && o.next < o.reps) || o.run.any fun r => clock < r.leave

/-- The stall for the stage comes before the operands are read and checked, which is done at issue (R6, R9, R181). -/
def needStage : IssM Unit := do
  let s ← get
  if stageBusy s.core.mx s.clock then stallFor .stage

/-- The row base in an address register, with the first rows of the tiles based on it (R14, R38, R181). -/
def rowBase (ac : BitVec 3) (offs : List Nat) : IssM Nat := do
  let c ← getCore
  let a := vat c.regs.a ac.toNat
  let b := a.toNat
  if 65536 ≤ b then trapF 3 0x18 (vaOf a)
  match (offs.flatMap fun o => (List.range 768).map fun i => b + o + i).find? fun r => r < 65536 && !c.rowClaimed r with
  | some r => trapF 3 0x14 r
  | none => if offs.any (fun o => 65535 < b + o + 767) then trapF 3 0x18 (vaOf a) else return b

/-- R174, R181: an operand's type and rank. -/
def checkOperand (h : Fin 16) (x : Handle) (f : MFmt) : IssM Unit := do
  if dRank x.desc < 2 || !fmtTakes f (dEtype x.desc) then trapF 3 0x21 h.val

/-! ### The staging path (R175) -/

/-- The bytes a staged s-tile takes. -/
def stagedBytes (et : Nat) : Nat := 128 * elemBits et + 128

/-- A tile that is needed: through which handle, and which. -/
abbrev Need := Fin 16 × Handle × Nat

def needEntryOf (n : Need) : Nat := entryOf n.2.1.desc n.2.2

/-- Each tile once. -/
def distinctNeeds (l : List Need) : List Need :=
  l.foldl (fun acc n => if acc.any fun m => needEntryOf m == needEntryOf n then acc else acc ++ [n]) []

/-- The handle of the tile with which the needed bytes exceed what the banks hold. -/
def overCapacity (cap : Nat) : Nat → List Need → Option (Fin 16)
  | _, [] => none
  | used, n :: l =>
    let used := used + stagedBytes (dEtype n.2.1.desc)
    if cap < used then some n.1 else overCapacity cap used l

/-- Why a tile cannot be read: its entry (R254), or a frame out of reach (R365, L33). -/
def State.tileErr (s : State) (d : Desc) (tile : Nat) : Option Err := match s.pinEntry d tile with
  | .error e => some e
  | .ok e => if e.size = 0 then none else s.tensorErr d (frameAddr e) (64 * e.size)

/-- A tile that cannot be read is a precise fault (R181, R185, R192). -/
def checkReadable (slot : Fin 8) (n : Need) : IssM Unit := do
  match (← get).tileErr n.2.1.desc n.2.2 with
  | some e => trapF slot e.code.toNat e.detail.toNat
  | none => pure ()

/-- A tensor read at issue keeps its place among the accesses of its class (R37, R175, R192, R199, R233). -/
def needOrder (cls : Nat) : IssM Unit := do
  let c ← getCore
  if !c.settled (tensorAfter c cls) then stallFor .ordered

/-- R175: the tiles need more bytes than the OPBUF banks hold, or no bank is OPBUF. -/
def checkStaging (h : Fin 16) (needs : List Need) : IssM Unit := do
  let n := ((← getCore).banksOf 3).length
  if n = 0 then trapF 3 0x23 h.val
  match overCapacity (65536 * n) 0 needs with
  | some h => trapF 3 0x23 h.val
  | none => pure ()

/-- The operands of a staged operation: its bundle stalls until every tile is staged (R175). -/
def stageTiles (h : Fin 16) (needs : List Need) : IssM (List Tile) := do
  let ns := distinctNeeds needs
  let s ← get
  modCore (cacheEntries s (ns.map fun n => needEntryOf n / 128))
  let c ← getCore
  let missing := ns.filter fun n => !(c.mem.opbuf.any fun t => t.entry == needEntryOf n)
  checkAll (missing.map (checkReadable 3) ++ [checkStaging h ns])
  ns.forM fun n => needOrder (dClass n.2.1.desc)
  if missing.isEmpty then
    return ns.filterMap fun n => (c.mem.opbuf.find? fun t => t.entry == needEntryOf n).map (·.tile)
  let fresh := missing.filter fun n => !(c.fetches.any fun f => entryOf f.h.desc f.tile == needEntryOf n)
  fresh.forM fun n => do
    let id ← freshId
    let draw ← freshDraw
    let t := (← get).clock
    modIss fun i => { i with newFetches := i.newFetches ++ [⟨id, draw, t, n.2.1, n.2.2⟩] }
  stallFor .staging

/-- An issued operation still needs a staged tile (R175). -/
def tileNeeded (c : Core) (t : Staged) : Bool := c.mx.ops.any fun o => o.tiles.any fun x => x.entry == t.entry

def bytesOf (l : List Staged) : Nat := (l.map (·.bytes)).foldl (· + ·) 0

/-- The staged tiles that are kept beside those needed: the newest that fit (L55). -/
def fitStaged (c : Core) (cap : Nat) : Nat → List Staged → List Staged
  | _, [] => []
  | used, t :: l =>
    if tileNeeded c t then t :: fitStaged c cap used l
    else if used + t.bytes ≤ cap then t :: fitStaged c cap (used + t.bytes) l
    else l.filter (tileNeeded c)

/-- The banks have room for a tile beside those that issued operations still need. -/
def stageRoom (c : Core) (f : Fetch) : Bool :=
  bytesOf (c.mem.opbuf.filter fun t => tileNeeded c t && t.entry != entryOf f.h.desc f.tile) + stagedBytes (dEtype f.h.desc) ≤
    65536 * (c.banksOf 3).length

def State.fetchDue (s : State) (f : Fetch) : Bool :=
  f.since + 1 + Config.latency f.draw ≤ s.clock && stageRoom s.core f && s.pinRoom (s.pinnable f.h.desc [f.tile])

/-- STAGING_FETCH_COMPLETE (R175): the tile is placed in the OPBUF banks; its pin ends with the copy (R254). -/
def execStagingFetchComplete (id : Nat) (s : State) : Out :=
  match s.core.fetches.find? fun f => f.id == id && s.fetchDue f with
  | none => .next s
  | some f =>
    let r := s.readTile f.h.desc f.tile
    let pa := entryOf f.h.desc f.tile
    let e := r.1.entryAt pa
    let t : Staged := ⟨pa, BitVec.ofNat 8 e.ver, stagedBytes (dEtype f.h.desc), r.2.1⟩
    .next (r.1.onCore fun c =>
      let c := { c with fetches := c.fetches.filter fun g => g.id != id }
      match r.2.2 with
      | some _ => c
      | none =>
        let kept := c.mem.opbuf.filter fun x => x.entry != pa
        let used := t.bytes + bytesOf (kept.filter (tileNeeded c))
        { c with mem := { c.mem with opbuf := t :: fitStaged c (65536 * (c.banksOf 3).length) used kept } })

/-! ### MMA, MMAZ -/

/-- The operation as the unit takes it. -/
def newMOp (id : Nat) (kind : MKind) (k : Option Tok) (cfg : BitVec 7) (s : State) (base reps : Nat) (hA hB : Handle)
    (draw : Nat) (after : List Nat) : MOp :=
  ⟨id, kind, k, cfg, s.clock, s.core.pc, base, reps, 0, s.clock, [], hA, hB, none, none, [], after, draw, false, false, none⟩

/-- The codebook slots a repetition captures (R186). -/
def capsOf (o : MOp) : List (Fin 16 × Bool) :=
  let one (h : Handle) (n : Option (Fin 16)) : List (Fin 16 × Bool) := match n with
    | some k => if dEtype h.desc == 8 then [(k, dCbact h.desc)] else []
    | none => []
  one o.hA o.hAn ++ one o.hB o.hBn

/-- An operation whose next repetition starts with these tiles, staying late in the stage (R170, R173, R177, R180, R186). -/
def startRep (m : Matrix) (clock : Nat) (o : MOp) (tiles : List Tile) (pins : List Pin) (bad : Option Err) (late : Nat) : MOp :=
  let r : Rep := ⟨o.next, clock, 0, 0, capsOf o, m.scA, m.scB, dCb o.hA.desc (dCbact o.hA.desc), dCb o.hB.desc (dCbact o.hB.desc),
    tiles, pins, bad⟩
  let n := if cfgSparse o.cfg then max 4 (pairsLeft o r) else 32
  let leave := clock + n + late
  { o with next := o.next + 1, nextAt := leave, run := o.run ++ [{ r with leave := leave, due := leave + 6 }] }

/-- R177 to R181. -/
def mmaOp (i : Instr) (zero : Bool) (rep : BitVec 12) (o : FT) (s : State) : Out :=
  runOp i 3 (guardOn · o.g) (do
    needStage
    let xA ← bound 3 o.h
    let xB ← bound 3 o.b
    let cfg := (← getCore).mx.cfg
    let reps := rep.toNat + 1
    let offs := if cfgKSweep cfg then [0] else (List.range reps).map fun j => 768 * j
    let b ← rowBase o.ac offs
    let f := pairFmts (cfgPair cfg)
    checkOperand o.h xA f.1
    checkOperand o.b xB f.2
    checkWorld 3 o.h xA
    checkWorld 3 o.b xB
    let s ← get
    let draw ← freshDraw
    let op := { newMOp 0 (.mma zero) none cfg s b reps xA xB draw [] with hAn := some o.h, hBn := some o.b }
    let js := List.range reps
    let tiles ← if cfgStreamed cfg then pure []
      else stageTiles o.h (js.flatMap fun j => (repTilesA op j).map (fun t => (o.h, xA, t)) ++ (repTilesB op j).map fun t => (o.b, xB, t))
    let op := { op with tiles := tiles }
    if cfgExact cfg then
      let id ← freshId
      modMx fun m => { m with ops := m.ops ++ [startRep m s.clock { op with id := id } tiles [] none 0] }
    else
      let after := if cfgStreamed cfg then tensorAfter s.core (dClass xA.desc) ++ tensorAfter s.core (dClass xB.desc) else []
      let id ← issueTok 3 (some o.k) (dClass xA.desc) after
        (.matrix (if cfgStreamed cfg then some (BitVec.ofNat 4 (dClass xB.desc)) else none))
      let op := { op with id := id, k := some o.k, after := after }
      modMx fun m => { m with ops := m.ops ++ [if cfgStreamed cfg then op else startRep m s.clock op tiles [] none 0] }) s

def execMma (rep : BitVec 12) (o : FT) (s : State) : Out := mmaOp (.mma rep o) false rep o s
def execMmaz (rep : BitVec 12) (o : FT) (s : State) : Out := mmaOp (.mmaz rep o) true rep o s

/-- A repetition that needs no start: MDRN, MFILL and MZERO take the stage at their issue (R170). -/
def wholeRep (s : State) (leave due : Nat) : Rep :=
  ⟨0, s.clock, s.clock + leave, s.clock + due, [], s.core.mx.scA, s.core.mx.scB, 0, 0, [], [], none⟩

/-! ### MDRN, MFILL, MZERO -/

/-- R183: the destination can receive the accumulator. -/
def drainTakes (isInt : Bool) (et : Nat) : Bool := if isInt then 5 ≤ et && et ≤ 7 else et ≤ 4

/-- MDRN (R182, R183). -/
def execMdrn (o : FT) (s : State) : Out :=
  runOp (.mdrn o) 3 (guardOn · o.g) (do
    needStage
    let x ← bound 3 o.h
    let b ← rowBase o.ac [0]
    let cfg := (← getCore).mx.cfg
    if dRank x.desc < 2 || !drainTakes (cfgPair cfg == 1) (dEtype x.desc) then trapF 3 0x21 o.h.val
    checkWorld 3 o.h x
    let s ← get
    let cls := dClass x.desc
    let id ← issueTok 3 (some o.k) cls (tensorAfter s.core cls) (.matrix (some (BitVec.ofNat 4 cls)))
    let op := newMOp id (.mdrn (BitVec.ofNat 2 (o.b.val / 4)) (bit o.b.val 0)) (some o.k) cfg s b 1 x x 0 []
    modMx fun m => { m with ops := m.ops ++ [{ op with next := 1, run := [wholeRep s 24 24] }] }
    if bit o.b.val 1 then modIss fun i => { i with curs := i.curs ++ [.add o.h 0 96] }) s

/-- R184. -/
def fillTile (s : State) (b : Nat) (x : BitVec 32) : IssM Unit := do
  let id ← freshId
  let h : Handle := ⟨0, 0, Vector.replicate 6 0⟩
  let op := newMOp id (.fill x) none s.core.mx.cfg s b 1 h h 0 []
  modMx fun m => { m with ops := m.ops ++ [{ op with next := 1, run := [wholeRep s 8 12] }] }

def execMfill (o : FT) (s : State) : Out :=
  runOp (.mfill o) 3 (guardOn · o.g) (do
    needStage
    let x ← readS 3 o.h false
    let b ← rowBase o.ac [0]
    fillTile (← get) b (BitVec.ofNat 32 x.toNat)) s

def execMzero (o : FT) (s : State) : Out :=
  runOp (.mzero o) 3 (guardOn · o.g) (do
    needStage
    let b ← rowBase o.ac [0]
    fillTile (← get) b 0) s

/-! ### MCFG, MSYNC, MLDCB, MSTAT -/

/-- MDRN write-backs of this core that are not committed (R182). -/
def drains (c : Core) : List TokOp := c.ops.filter fun o => o.slot == 3 && match o.kind with
  | .drained _ _ | .committing _ _ => true
  | _ => false

/-- MCFG (R176). -/
def execMcfg (o : FR) (s : State) : Out :=
  runOp (.mcfg o) 3 (guardOn · o.g) (do
    let c ← getCore
    if c.mx.ops.any (fun k => !k.held || !k.run.isEmpty) || !(drains c).isEmpty then stallFor .stage
    let w ← srcBs 3 o.b
    if field w.toNat 7 57 != 0 || 9 ≤ w.toNat % 16 then trapF 3 0x25 (w.toNat % 2 ^ 48)
    modMx fun m => { m with cfg := BitVec.ofNat 7 w.toNat }) s

/-- The repetitions of an operation that are not held (R172). -/
def repsDue (o : MOp) : Nat := if o.held then o.next else o.reps

/-- The widest scope of the MDRN writes that are not committed (R185). -/
def drainScope (c : Core) : Nat :=
  ((c.mx.ops.filterMap fun o => match o.kind with
      | .mdrn _ _ => some (dScope o.hA.desc)
      | _ => none) ++ (drains c).filterMap fun o => match o.kind with
      | .drained h _ => some (dScope h.desc)
      | .committing w _ => some w
      | _ => none).foldl max 0

/-- MSYNC (R185): it waits for what was issued and is not held, and takes an exact operation's error with it. -/
def execMsync (o : FT) (s : State) : Out :=
  runOp (.msync o) 3 (guardOn · o.g) (do
    let c ← getCore
    let left := c.mx.ops.map (fun k => (k.id, repsDue k)) ++ (drains c).map fun t => (t.id, 1)
    let _ ← issueErr 3 (some o.k) 0 [] (.msync (drainScope c) left) c.mx.err
    modMx fun m => { m with err := none }) s

/-- The table an MLDCB loads (R186). -/
def codebookOf (v : VReg) : Nat := ((List.range 8).map fun i => (vlane v i).toNat * 2 ^ (32 * i)).foldl (· + ·) 0

/-- A codebook slot written and made active in a descriptor copy. -/
def loadSlot (d : Desc) (slot : Bool) (table ver : Nat) : Desc :=
  setDesc (setDesc (setDesc d (if slot then 640 else 384) 256 table) (if slot then 904 else 896) 8 ver) 912 1 (if slot then 1 else 0)

/-- R186: an MLDCB stalls while a repetition has captured the inactive slot; its operands are read after that (R6, R9). -/
def needCodebook (h : Fin 16) : IssM Unit := do
  needBound h
  let c ← getCore
  match c.regs.h.get h with
  | some x =>
    if dEtype x.desc == 8 && c.mx.ops.any fun k => k.run.any fun r => r.caps.contains (h, !dCbact x.desc) then stallFor .codebook
  | none => pure ()

/-- MLDCB (R186). -/
def execMldcb (o : FT) (s : State) : Out :=
  runOp (.mldcb o) 3 (guardOn · o.g) (do
    needCodebook o.h
    let v ← readV 3 o.b false
    let x ← bound 3 o.h
    if dEtype x.desc != 8 then trapF 3 0x21 o.h.val
    let slot := !dCbact x.desc
    let t := codebookOf v
    let ver := ((dCbv x.desc (dCbact x.desc)).toNat + 1) % 256
    modIss fun i => { i with curs := i.curs ++
      [.desc o.h (if slot then 640 else 384) 256 t, .desc o.h (if slot then 904 else 896) 8 ver,
       .desc o.h 912 1 (if slot then 1 else 0)] }
    modMx fun m => { m with ops := m.ops.map fun k => { k with
      hA := if k.hAn == some o.h then { k.hA with desc := loadSlot k.hA.desc slot t ver } else k.hA
      hB := if k.hBn == some o.h then { k.hB with desc := loadSlot k.hB.desc slot t ver } else k.hB } }) s

/-- The value of MSTAT (R187); REPLEFT says 4,095 of the 4,096 repetitions of an MMA that has started none (L71). -/
def mstatWord (c : Core) : Word :=
  let left := match c.mx.ops.find? fun o => match o.kind with
      | .mma _ => true
      | _ => false with
    | some o => min 4095 (o.reps - o.next)
    | none => 0
  BitVec.ofNat 64 (c.mx.cfg.toNat + 2 ^ 8 * min 255 (c.mx.ops.length + (drains c).length) +
    (if c.mx.loads.any fun l => !l.isB then 2 ^ 16 else 0) + (if c.mx.loads.any fun l => l.isB then 2 ^ 17 else 0) +
    2 ^ 32 * left)

def execMstat (o : FR) (s : State) : Out :=
  runOp (.mstat o) 3 (guardOn · o.g) (do landS 3 1 o.d (mstatWord (← getCore))) s

/-! ### SCLD, SCZERO -/

def addLoad (isB : Bool) (lat : Nat) (xs : List (BitVec 16)) : IssM Unit := do
  let t := (← get).clock
  modMx fun m => { m with loads := m.loads ++ [⟨isB, t + lat, t, false, xs⟩] }

/-- The run of a scale load (R192). -/
def scalePlaces (x : Handle) (isB : Bool) : List (Option (Nat × Nat)) :=
  if isB then (List.range 96).map fun i => locate x.desc (moved x i 0)
  else (List.range 128).map fun i => locate x.desc (moved x 0 i)

/-- The tiles of a load that no OPBUF bank holds. -/
def Core.unstaged (c : Core) (d : Desc) (ts : List Nat) : List Nat := ts.filter fun t => !(c.mem.opbuf.any fun g => g.entry == entryOf d t)

/-- SCLD (R192). -/
def execScld (o : FT) (s : State) : Out :=
  runOp (.scld o) 7 (guardOn · o.g) (do
    let x ← bound 7 o.h
    if dEtype x.desc != 1 || dRank x.desc < 2 then trapF 7 0x21 o.h.val
    checkWorld 7 o.h x
    let isB := o.b == 1
    let ps := scalePlaces x isB
    let ts := tilesOf ps
    let s ← get
    let missing := s.core.unstaged x.desc ts
    checkAll (missing.map fun t => checkReadable 7 (o.h, x, t))
    if missing.isEmpty then
      needOrder (dClass x.desc)
      let staged := ts.filterMap fun t => (s.core.mem.opbuf.find? fun g => g.entry == entryOf x.desc t).map (·.tile)
      addLoad isB 8 (ps.map fun p => BitVec.ofNat 16 ((elemIn x.desc staged p).getD 0).toNat)
    else
      if !s.pinRoom (s.pinnable x.desc ts) then stallFor .hold
      holdFor 7 (tensorAfter s.core (dClass x.desc)) none
      let r := (← get).readTiles x.desc ts
      set r.1
      match r.2.2 with
      | some e => trapF 7 e.code.toNat e.detail.toNat
      | none => addLoad isB 8 (ps.map fun p => BitVec.ofNat 16 ((elemIn x.desc r.2.1 p).getD 0).toNat)) s

/-- SCZERO (R194). -/
def execSczero (o : FT) (s : State) : Out :=
  runOp (.sczero o) 7 (guardOn · o.g) (addLoad (o.b == 1) 1 (List.replicate (if o.b == 1 then 96 else 128) 0x3F80)) s

/-! ### Landings and repetitions -/

def landScale (m : Matrix) (l : ScaleLoad) : Matrix :=
  if l.isB then { m with scB := vofList 96 l.xs } else { m with scA := vofList 128 l.xs }

/-- SCALE_LANDING (R193): what is due lands, by landing clock, then in issue order. -/
def landScales (m : Matrix) (clock : Nat) : Matrix :=
  let isDue (l : ScaleLoad) : Bool := !l.held && l.due ≤ clock
  (m.loads.filter isDue).foldl landScale { m with loads := m.loads.filter fun l => !isDue l }

def execScaleLanding (s : State) : Out := .next (s.onMx fun m => landScales m s.clock)

/-- The operation whose next repetition may start (R170, R175): a streamed one waits for its tiles and for their pins (R254). -/
def State.startable (s : State) : Option MOp :=
  s.core.mx.ops.find? fun o => !o.held && o.next < o.reps && o.nextAt ≤ s.clock &&
    (!cfgStreamed o.cfg || (o.nextAt + 1 + Config.latency o.draw ≤ s.clock && s.core.settled o.after &&
      s.pinRoom (s.pinnable o.hA.desc (repTilesA o o.next) ++ s.pinnable o.hB.desc (repTilesB o o.next))))

def setMOp (m : Matrix) (o : MOp) : Matrix := { m with ops := m.ops.map fun p => if p.id = o.id then o else p }

/-- The tiles of a streamed repetition, read and pinned, or the error of the first that cannot be (R175, R254). -/
def State.streamTiles (s : State) (o : MOp) : State × List Tile × List Pin × Option Err :=
  let a := s.readTiles o.hA.desc (repTilesA o o.next)
  let b := a.1.readTiles o.hB.desc (repTilesB o o.next)
  match firstErr a.2.2 b.2.2 with
  | some e => (b.1, a.2.1 ++ b.2.1, [], some e)
  | none =>
    let pins := b.1.pinsOf o.hA.desc (repTilesA o o.next) ++ b.1.pinsOf o.hB.desc (repTilesB o o.next)
    (b.1.addPins pins, a.2.1 ++ b.2.1, pins, none)

/-- REPETITION_START (R170, R173, R175, R177, R180, R186). -/
def execRepetitionStart (s : State) : Out :=
  match s.startable with
  | none => .next s
  | some o =>
    if cfgStreamed o.cfg then
      let r := s.streamTiles o
      let s := r.1
      .next ({ s with draws := s.draws + 2 }.onMx fun m =>
        setMOp m (startRep m s.clock { o with draw := s.draws } r.2.1 r.2.2.1 r.2.2.2 (Config.latency (s.draws + 1))))
    else .next (s.onMx fun m => setMOp m (startRep m s.clock o o.tiles [] none 0))

/-- The repetition whose rows complete next: the earliest due, in issue order (R170). -/
def completing (m : Matrix) (clock : Nat) : Option (MOp × Rep) :=
  (m.ops.flatMap fun o => o.run.map fun r => (o, r)).foldl (fun best p =>
    if p.2.due ≤ clock then match best with
      | some b => if p.2.due < b.2.due then some p else best
      | none => some p
    else best) none

/-- An exact operation's error goes to the first MSYNC issued after it, or waits for one (R185). -/
def giveToSync (c : Core) (id : Nat) (e : Err) : Core :=
  let takes (o : TokOp) : Bool := match o.kind with
    | .msync _ l => l.any fun p => p.1 == id
    | _ => false
  match c.ops.find? takes with
  | some k => { c with ops := c.ops.map fun o => if o.id = k.id then { o with err := firstErr o.err (some e) } else o }
  | none => { c with mx := { c.mx with err := firstErr c.mx.err (some e) } }

/-- An operation whose last repetition is complete leaves the unit, with its token's error (R170); an exact operation's error leaves it
at once (R185). -/
def retireMOp (c : Core) (o : MOp) : Core :=
  let c := match o.k, o.err with
    | none, some e => giveToSync c o.id e
    | _, _ => c
  let o := if o.k.isNone then { o with err := none } else o
  if o.next < o.reps || !o.run.isEmpty then { c with mx := setMOp c.mx o }
  else { c with
    mx := { c.mx with ops := c.mx.ops.filter fun p => p.id != o.id }
    ops := c.ops.map fun t => if t.id = o.id then { t with err := firstErr t.err o.err } else t }

def offerMx (c : Core) (clock : Nat) (o : MOp) (f : Option Fev) : Core :=
  match f with
  | some e => { c with csr := offerFev c.csr (clock, 3, e.lane) e.cause o.baddr 3 }
  | none => c

def accErr (r : Option Nat) : Option Err := r.map fun n => ⟨0x45, BitVec.ofNat 48 n⟩

/-- What a repetition does when its rows complete (R177, R182, R184, R269); under REP its records count as issued at its start (R84). -/
def finishRep (c : Core) (o : MOp) (r : Rep) : Core :=
  let o := { o with run := o.run.filter fun p => p.j != r.j }
  match o.kind with
  | .mma zero =>
    let base := if cfgKSweep o.cfg then o.base else o.base + 768 * r.j
    let zero := zero && (!cfgKSweep o.cfg || r.j = 0)
    match r.bad with
    | some e => retireMOp c { o with err := firstErr o.err (some e) }
    | none =>
      let bad := if zero then none else accErr (badIn c.mx base)
      let x := applyTile c.mx base (tileResults c.mx o r base zero)
      let c := offerMx { c with mx := x.1 } (if o.reps = 1 then o.issue else r.start) o x.2
      retireMOp c { o with err := firstErr o.err bad }
  | .fill x =>
    let row := rowOf (List.replicate 16 x.toNat)
    retireMOp { c with mx := (List.range 768).foldl (fun m i => writeRow m (o.base + i) row) c.mx } o
  | .mdrn ov clr =>
    let bad := accErr (badIn c.mx o.base)
    let x := drainTile c.mx o ov.toNat
    let mx := if clr then (List.range 768).foldl (fun m i => writeRow m (o.base + i) 0) c.mx else c.mx
    let c := offerMx { c with mx := mx } o.issue o x.2
    let c := { c with ops := c.ops.map fun t => if t.id = o.id then { t with kind := .drained o.hA x.1 } else t }
    retireMOp c { o with err := firstErr o.err bad }

/-- REPETITION_COMPLETE (R31, R170, R177): the array has consumed its tiles (R175). -/
def execRepetitionComplete (s : State) : Out :=
  match completing s.core.mx s.clock with
  | none => .next s
  | some p => .next ((s.onCore fun c => finishRep c p.1 p.2).unpinAll p.2.pins)

end Sys2Proof.Machine
end

