-- ==== Sys2Proof/Machine/Tumbler.lean ====
section
/-! DEFINITION. The Tumbler (R221 to R223, R330 to R335): residency, the scan of the ready bits, prefetches, and WSET, WNEXT, WDONE and
WRESQ.  What WSET does when its record has been read stands in Perform.lean. -/

namespace Sys2Proof.Machine

/-! ### Residency (R331) -/

/-- Where a tile is held: in L2 (or it counts as resident), in the core's local memory, or neither. -/
inductive Residence where
  | l2
  | own
  | no
deriving DecidableEq, Repr, Inhabited

/-- The frame lines of a version. -/
def frameLines (e : Entry) : List Nat := linesOf (frameAddr e) (64 * e.size)

def residence (s : State) (c : Core) (d : Desc) (tile : Nat) : Residence :=
  let pa := entryOf d tile
  let e := s.entryAt pa
  let known := s.tensorErr d pa 16 == none
  if tileCount d ≤ tile || (known && e.psn) then .l2
  else if known && s.inL2 (pa / 128) && (frameLines e).all s.inL2 then .l2
  else if (c.mem.opbuf.any fun t => t.entry == pa) ||
      (known && e.size != 0 && (frameLines e).all fun l => c.mem.lines.any fun k => k.line == l) then .own
  else .no

/-- A word of the tile table: the tensor it names, if its handle was bound at the WSET, and the tile. -/
def wordDesc (t : TumSet) (w : Nat) : Option Desc := (vat t.hs (w / 2 ^ 28 % 16)).map (·.desc)
def wordTile (w : Nat) : Nat := w % 2 ^ 28

/-- The entry lines of some words of the tile table. -/
def wordLines (t : TumSet) (ws : List Nat) : List Nat :=
  ws.filterMap fun w => match wordDesc t w with
    | some d => if wordTile w < tileCount d then some (entryOf d (wordTile w) / 128) else none
    | none => none

def wordResident (s : State) (c : Core) (t : TumSet) (w : Nat) : Bool :=
  match wordDesc t w with
  | none => true
  | some d => residence s c d (wordTile w) != .no

/-! ### Reading memory on behalf of a unit -/

/-- Where a unit of core c reads in a world, at the home; none where the read faults or meets an error. -/
def State.unitPlace (s : State) (c : Core) (sec : Bool) (va : Nat) : Option Nat :=
  let x := match c.tlbFind sec va with
    | some x => Walk.ok x
    | none => s.walk sec va
  match x with
  | .fail _ => none
  | .ok x =>
    let pa := x.paOf va
    if !isMemory pa || (!sec && s.secureAddr pa) || s.hidden pa || s.deadHome pa || s.store.poison.contains (pa / 128) then none
    else some pa

/-- The places of a point's words of the tile table; none where one cannot be read. -/
def pointPlaces (s : State) (c : Core) (t : TumSet) (p : Nat) : Option (List Nat) :=
  if field t.table.toNat 48 12 != 0 then none
  else (List.range t.ntile).mapM fun i => s.unitPlace c t.sec (vaOf t.table + 4 * (p * t.ntile + i))

/-- A point's words of the tile table; none where one cannot be read. -/
def pointWords (s : State) (c : Core) (t : TumSet) (p : Nat) : Option (List Nat) :=
  (pointPlaces s c t p).map fun l => l.map fun pa => rdNat s.store.bytes pa 4

/-- The words of some points are read at their home (R276). -/
def State.readPoints (s : State) (c : Core) (t : TumSet) (ps : List Nat) : State :=
  (insertAll ((ps.flatMap fun p => (pointPlaces s c t p).getD []).map (· / 128)) []).foldl State.readFor s

/-- DEFER of the set: 0 selects 2. -/
def TumSet.limit (t : TumSet) : Nat := if t.defer = 0 then 2 else t.defer

def setCountAt (l : List Nat) (p v : Nat) : List Nat := (l.zip (List.range l.length)).map fun q => if q.2 = p then v else q.1
def TumSet.countOf (t : TumSet) (p : Nat) : Nat := (t.counts[p]?).getD 0
/-- R333: a point whose prefetch or whose table word fails is due. -/
def TumSet.makeDue (t : TumSet) (p : Nat) : TumSet := { t with counts := setCountAt t.counts p (max (t.countOf p) t.limit) }
def TumSet.eligible (t : TumSet) (p : Nat) : Bool := !t.visited.contains p && !t.handed.contains p
def TumSet.open_ (t : TumSet) : List Nat := (List.range t.count).filter t.eligible

/-! ### The scan (R332) -/

/-- One point looked at. -/
def lookAt (s : State) (c : Core) (t : TumSet) (p : Nat) : TumSet :=
  match pointWords s c t p with
  | none => { t.makeDue p with ready := t.ready.filter (· != p) }
  | some ws =>
    if ws.all (wordResident s c t) then { t with ready := insertNew p t.ready }
    else { t with ready := t.ready.filter (· != p) }

/-- The points scanned in a clock. -/
def scanBlock (t : TumSet) (clock : Nat) : List Nat :=
  let b := clock % ((t.count + 255) / 256)
  (List.range 256).filterMap fun i => if 256 * b + i < t.count then some (256 * b + i) else none

/-- The scan of the core in focus at the end of its turn. -/
def State.scanTumbler (s : State) : State :=
  match s.core.tum.set with
  | none => s
  | some t =>
    let c := s.core
    let ps := scanBlock t s.clock
    let ls := ps.flatMap fun p => wordLines t ((pointWords s c t p).getD [])
    (s.readPoints c t ps).onCore fun k => cacheEntries s ls { k with tum := { k.tum with set := some (ps.foldl (lookAt s c) t) } }

/-! ### Prefetches (R222, R333) -/

/-- Queued prefetches take the free places of the 64. -/
def startPrefetches (u : Tumbler) (clock draw : Nat) : Tumbler :=
  let n := 64 - u.inflight.length
  let new := u.queued.take n
  { u with
    inflight := u.inflight ++ (new.zip (List.range new.length)).map fun p => ⟨p.1.1, p.1.2, draw + p.2, clock⟩
    queued := u.queued.drop n }

/-- The end of a pass: counts rise, and the first prefetches of the points are issued in point order. -/
def endOfPass (s : State) (c : Core) (u : Tumbler) (t : TumSet) : Tumbler :=
  t.open_.foldl (fun (u : Tumbler) p =>
    match u.set with
    | none => u
    | some t =>
      let t := { t with counts := setCountAt t.counts p (t.countOf p + 1) }
      if u.fetched.contains p then { u with set := some t }
      else match pointWords s c t p with
        | none => { u with set := some (t.makeDue p), fetched := p :: u.fetched }
        | some ws => { u with
            set := some t
            fetched := p :: u.fetched
            queued := u.queued ++ ((ws.filter fun w => !wordResident s c t w).map fun w => (p, w)) }) u

/-- PREFETCH_ARRIVAL (R333). -/
def State.prefetchArrival (s : State) (point : Nat) : State :=
  let u := s.core.tum
  match u.inflight.find? fun f => f.point == point && f.since + 1 + Config.latency f.draw ≤ s.clock with
  | none => s
  | some f =>
    let rest := u.inflight.filter fun g => !(g.point == f.point && g.word == f.word && g.draw == f.draw)
    match u.set with
    | none => s.onCore fun c => { c with tum := { u with inflight := rest } }
    | some t =>
      let d := wordDesc t f.word
      let err := match d with
        | none => false
        | some d => match s.pinEntry d (wordTile f.word) with
          | .ok e => e.size != 0 && (s.tensorErr d (frameAddr e) (64 * e.size) != none || s.poisoned (frameAddr e) (64 * e.size))
          | .error _ => true
      let s := match d with
        | some d =>
          let e := s.entryAt (entryOf d (wordTile f.word))
          if err then s else (entryOf d (wordTile f.word) / 128 :: frameLines e).foldl State.readHome s
        | none => s
      let c := s.core
      let t := if err then t.makeDue point else lookAt s c t point
      let u := startPrefetches { u with set := some t, inflight := rest, arrived := true } s.clock s.draws
      { s with draws := s.draws + 64 }.onCore fun c => { c with tum := u }

def execPrefetchArrival (point : Nat) (s : State) : Out := .next (s.prefetchArrival point)

/-! ### WSET (R221) -/

def execWset (c1 : Bool) (o : FL) (s : State) : Out :=
  runOp (.wset c1 o) (cslot c1) (guardOn · o.g) (do
    let e ← addrL o
    let va ← linAddr (cslot c1) e 32 (firstBytes (vaOf e) 32)
    let l ← access (cslot c1) false va 32
    let c ← getCore
    if c.ops.any fun o => match o.kind with
      | .tbind _ _ _ => true
      | _ => false then stallFor .wset
    needEntry c1
    let _ ← issueTok (cslot c1) (some o.k) (classOf e) (classAfter c (classOf e)) (.wset l c.regs.h)) s

/-- The bytes of the map lie in SCRATCH (R264). -/
def mapOk (c : Core) (t : TumSet) : Bool := (c.badLocal t.map.toNat ((t.count + 7) / 8)).isNone

/-! ### WNEXT (R222) -/

/-- The point a WNEXT hands out, with its mark; none where a pass ends. -/
def choosePoint (t : TumSet) : Option Nat :=
  match t.open_.find? fun p => t.limit ≤ t.countOf p with
  | some p => some (p + 2 ^ 16)
  | none => match t.open_.find? fun p => t.ready.contains p with
    | some p => some p
    | none => if t.open_.isEmpty then some (2 ^ 63) else none

def handOut (x : Nat) : IssM Unit :=
  modCore fun c => { c with tum := { c.tum with
    passDone := false, arrived := false
    set := c.tum.set.map fun t => if x < 2 ^ 63 then { t with handed := (x % 2 ^ 16) :: t.handed } else t } }

/-- What a stalled WNEXT leaves: the pass, but no point handed out by its bundle. -/
def keepPass (u : Tumbler) : IssM Unit :=
  modIss fun i => { i with tum := some { u with set := u.set.map fun t =>
    { t with handed := (i.old.tum.set.map (·.handed)).getD t.handed } } }

/-- Some eligible point's count has reached D. -/
def TumSet.due (t : TumSet) : Bool := t.open_.any fun p => t.limit ≤ t.countOf p

def Tumbler.due (u : Tumbler) : Bool := match u.set with
  | some t => t.due
  | none => false

/-- A prefetch is on its way, so that an arrival may be waited for (R335). -/
def Tumbler.awaits (u : Tumbler) : Bool := !(u.inflight.isEmpty && u.queued.isEmpty)

/-- Ends of pass, one after another, until a point is due or an arrival may be waited for; D is at most 15 (R335). -/
def passes (s : State) (c : Core) : Nat → Tumbler → Tumbler
  | 0, u => u
  | n + 1, u => match u.set with
    | none => u
    | some t =>
      let u := endOfPass s c u t
      if u.due || u.awaits then u else passes s c n u

/-- The rounds of WNEXT: an end of pass that leaves a point due goes on at once (R222, R335). -/
def nextPoint : IssM Nat := do
  let s ← get
  let u := s.core.tum
  match u.set with
  | none => return 2 ^ 63
  | some t =>
    if u.passDone && !u.arrived && !t.due && u.awaits then
      keepPass u
      stallFor .wnext
    match choosePoint t with
    | some x => return x
    | none =>
      modify fun s => s.readPoints s.core t (t.open_.filter fun p => !u.fetched.contains p)
      let u := startPrefetches (passes s s.core 16 { u with passDone := true, arrived := false }) s.clock s.draws
      modify fun s => { s with draws := s.draws + 64 }
      modCore fun c => { c with tum := u }
      match u.set.bind fun t => if t.due then choosePoint t else none with
      | some x => return x
      | none => do
        keepPass u
        stallFor .wnext

def execWnext (c1 : Bool) (o : FR) (s : State) : Out :=
  runOp (.wnext c1 o) (cslot c1) (guardOn · o.g) (do
    let c ← getCore
    if c.ops.any fun o => match o.kind with
      | .wset _ _ => true
      | _ => false then stallFor .wset
    match c.tum.set with
    | some t => if !mapOk c t then trapF (cslot c1) 0x28 0
    | none => pure ()
    let x ← nextPoint
    handOut x
    landS (cslot c1) 4 o.d (BitVec.ofNat 64 x)) s

/-! ### WDONE, WRESQ (R223) -/

/-- A byte of local memory as the bundle's own earlier writes leave it (R151, R330). -/
def byteInBundle (s : State) (off : Nat) : Nat :=
  (s.issue.lwr.foldl (fun (b : Byte) w =>
    if w.off ≤ off then (w.bytes[off - w.off]?).getD b else b) (rd8 s.core.mem.sram off)).toNat

/-- WDONE (R223, R330), of class 0 (L81); it marks the set there is, also while a WSET is outstanding (L85). -/
def execWdone (c1 : Bool) (o : FR) (s : State) : Out :=
  runOp (.wdone c1 o) (cslot c1) (guardOn · o.g) (do
    let a ← readSq (cslot c1) o.a
    let s ← get
    let p := a.toNat % 65536
    match s.core.tum.set with
    | none => trapF (cslot c1) 0x28 0
    | some t =>
      if t.count ≤ p then trapF (cslot c1) 0x28 p
      if !mapOk s.core t then trapF (cslot c1) 0x28 0
      localTurn 0
      let off := t.map.toNat + p / 8
      let b := byteInBundle s off
      localWrite off [BitVec.ofNat 8 (b ||| 2 ^ (p % 8))]
      modCore fun c => { c with tum := { c.tum with set := some { t with visited := insertNew p t.visited } } }) s

/-- A prefetch or a staging fetch of a tile is in flight. -/
def tileComing (c : Core) (pa : Nat) : Bool :=
  (c.fetches.any fun f => entryOf f.h.desc f.tile == pa) ||
    match c.tum.set with
    | none => false
    | some t => c.tum.inflight.any fun f => match wordDesc t f.word with
      | some d => entryOf d (wordTile f.word) == pa
      | none => false

def execWresq (c1 : Bool) (o : FR) (s : State) : Out :=
  runOp (.wresq c1 o) (cslot c1) (guardOn · o.g) (do
    let b ← srcBs (cslot c1) o.b
    let x ← tensorHandle (cslot c1) o.a.r
    let s ← get
    let tile := b.toNat % 2 ^ 28
    modCore (cacheEntries s (if tile < tileCount x.desc then [entryOf x.desc tile / 128] else []))
    let r := match residence s s.core x.desc tile with
      | .l2 => 1
      | .own => 2
      | .no => if tileComing s.core (entryOf x.desc tile) then 3 else 0
    landS (cslot c1) 4 o.d (BitVec.ofNat 64 r)) s

end Sys2Proof.Machine
end

