-- ==== Sys2Proof/Machine/Waits.lean ====
section
/-! DEFINITION. The waits (R228 to R232), fences and publication (R233, R234) and SPAWN (R122, R123) of slot K at issue. -/

namespace Sys2Proof.Machine

/-! ### Completions observed (R204, R217, R228, R230) -/

/-- The lines of copies observed through a wait join those a publication covers. -/
def observe (p : Unobs → Bool) (c : Core) : Core :=
  { c with obs := insertAll ((c.unobs.filter p).flatMap (·.lines)) c.obs
           unobs := c.unobs.filter fun u => !p u }

/-- WAITK (R228): an acquire where an operation of cluster scope or wider, or a copy, has completed on the token since its last one
(L63). -/
def execWaitk (o : FY) (s : State) : Out :=
  runOp (.waitk o) 6 (guardOn · o.g) (do
    let c ← getCore
    let k := c.regs.k.get o.k
    if k.count != 0 then stallFor (.waitk o.k)
    match k.err with
    | some e => trapWith ⟨e.code, e.detail, some 6, false, some (.token o.k), false⟩
    | none =>
      if c.owed.contains o.k || c.unobs.any fun u => u.k == o.k then
        modCore fun c => observe (fun u => u.k == o.k) (acquireCore { c with owed := c.owed.filter (· != o.k) })) s

/-! ### WAITB (R229) -/

/-- A poison status that also traps (R20, R229 to R231). -/
def poisonTrap (detail : Nat) : IssM Unit :=
  modIss fun i => { i with post := i.post ++ [⟨0x30, BitVec.ofNat 48 detail, some 6, false, none, false⟩] }

def execWaitb (o : FY) (s : State) : Out :=
  runOp (.waitb o) 6 (guardOn · o.g) (do
    let c ← getCore
    let a := c.regs.a.get o.a
    let b ← namedBarrier 6 a
    let s ← get
    match s.barRead b with
    | none => trapF 6 0x27 (vaOf a)
    | some n =>
      if field n 32 1 == (if bit o.w.toNat 3 then 1 else 0) then stallFor (.waitb b (bit o.w.toNat 3))
      let src := match s.barSrcs.find? fun x => x.bar == b with
        | some x => x.last
        | none => []
      if !((b.core :: src).all fun d => scopeIncludes o.sc.toNat c.id d) then trapF 6 0x2B (vaOf a)
      let poison := bit n 41
      landP 6 1 (pOfNat (o.w.toNat % 8)) (spread poison)
      modCore fun c => observe (fun u => u.bar == some b) (if o.sc = 0 then c else acquireCore c)
      if poison && c.csr.ptrap then poisonTrap 0) s

/-! ### CBWAIT (R230) -/

def BStat.worse (a b : BStat) : BStat :=
  ⟨a.poison || b.poison, match a.err with
    | some e => some e
    | none => b.err⟩

def execCbwait (o : FY) (s : State) : Out :=
  runOp (.cbwait o) 6 (guardOn · o.g) (do
    let e1 := bit o.w.toNat 3
    let c ← getCore
    let e := c.eng e1
    if !e.open_.ids.isEmpty && 16 ≤ e.closed.length then stallFor .batches
    modIss fun i => { i with closes := i.closes ++ [e1] }
    modCore fun c => closeOn c e1
    let c ← getCore
    let e := c.eng e1
    if o.w.toNat % 8 < e.closed.length then stallFor (.cbwait e1 (o.w.toNat % 8))
    let pn := (o.imm.getD 0).toNat % 16
    match e.acc.err with
    | some x => trapWith ⟨x.code, if e1 then 1 else 0, some 6, false, some (.engine e1), false⟩
    | none =>
      if pn != 0 then landP 6 1 (pOfNat (pn - 1)) (spread e.acc.poison)
      modCore fun c =>
        let c := if e.retired.isEmpty then c else observe (fun u => e.retired.contains u.id) (acquireCore c)
        c.modEng e1 fun e => { e with acc := BStat.ok, retired := [] }
      if e.acc.poison && (pn == 0 || c.csr.ptrap) then poisonTrap (2 + if e1 then 1 else 0)) s

/-! ### MONARM, WAITMON (R231) -/

/-- A word at its point of coherence. -/
def State.homeWord (s : State) (sec : Bool) (pa : Nat) : Word :=
  if isReg pa then s.regRead sec (pa - regBase) else BitVec.ofNat 64 (rdNat s.store.bytes pa 8)

/-- The word that a monitor of the core in focus sees. -/
def State.monWord (s : State) (sec : Bool) (pa : Nat) : Word :=
  if isReg pa then s.regRead sec (pa - regBase) else BitVec.ofNat 64 (s.ownWord pa)

/-- A word is read at its home by a bundle that commits (R200, R276). -/
def readsHome (pa : Nat) : IssM Unit :=
  modIss fun i => { i with reads := if isReg pa then i.reads else i.reads ++ [pa / 128] }

/-- The checks of a read without a token at its home: an error is precise (R196, R290, R292). -/
def readHome (slot : Fin 8) (l : Lin) : IssM Word := do
  let s ← get
  if s.linWaits l s.clock then stallFor .hold
  if s.deadHome l.pa then trapF slot 0x2D (l.pa / 128 * 128)
  if s.store.poison.contains (l.pa / 128) then trapF slot 0x1F l.va
  return s.monWord l.sec l.pa

/-- MONARM: its read keeps its place among the accesses (R37, R199, R233). -/
def execMonarm (o : FY) (s : State) : Out :=
  runOp (.monarm o) 6 (guardOn · o.g) (do
    let c ← getCore
    let e := c.regs.a.get o.a
    let va ← linAddr 6 e 8 (firstBytes (vaOf e) 8)
    let l ← access 6 false va 8
    if !c.settled (classAfter c (classOf e)) then stallFor .hold
    let x ← readHome 6 l
    readsHome l.pa
    modCore fun c => { c with mon := some ⟨BitVec.ofNat 64 va, l.pa, x⟩ }) s

def execWaitmon (o : FY) (s : State) : Out :=
  runOp (.waitmon o) 6 (guardOn · o.g) (do
    let c ← getCore
    let e := c.regs.a.get o.a
    let va ← linAddr 6 e 8 (firstBytes (vaOf e) 8)
    let l ← access 6 false va 8
    let x ← readHome 6 l
    let armed := match c.mon with
      | some m => m.addr.toNat == va
      | none => false
    let same := match c.mon with
      | some m => m.was == x
      | none => false
    if armed && same then stallFor .waitmon
    if !c.settled (classAfter c (classOf e)) then stallFor .hold
    syncCheck 6 o.sc.toNat l.va l.pa
    readsHome l.pa
    modCore fun c =>
      let c := if o.sc = 0 then c else acquireCore c
      let c := observe (fun u => c.stamps.any fun p => p.1 == l.pa && p.2.contains u.id) c
      if armed then { c with mon := none } else c
    let poison := bit x.toNat 0
    if bit o.w.toNat 3 then landP 6 1 (pOfNat (o.w.toNat % 8)) (spread poison)
    if poison && c.csr.ptrap then poisonTrap 1) s

/-! ### SSYNC (R232, R311 to R313) -/

/-- Everything of the core's communication phase is performed (R232 step 2). -/
def State.phaseDone (s : State) : Bool :=
  let c := s.core
  c.ops.isEmpty && c.eng0.queue.isEmpty && c.eng1.queue.isEmpty && !(s.pushes.any fun p => p.src == c.id)

/-- R310: at level 4 the member count is checked here. -/
def State.countWrong (s : State) (level : Nat) (i : Inst) : Bool :=
  level == 4 && match s.taskOf s.core with
    | some t => field t.record.mcnt.toNat 48 16 != i.count.toNat
    | none => false

/-- The domain instance of the core's task at a level. -/
def State.instOf (s : State) (level : Nat) : Option Inst := do
  let t ← s.taskOf s.core
  let k ← t.key level
  s.sched.inst k

def execSsync (o : FY) (s : State) : Out :=
  runOp (.ssync o) 6 (guardOn · o.g) (do
    let level := o.sc.toNat
    let s ← get
    let c := s.core
    if (domnOf c.csr.domn level).isNone then trapF 6 0x2A level
    match s.instOf level with
    | none => trapF 6 0x2A level
    | some i =>
      if level == 1 && i.cluster != none && i.cluster != some (clusterOf c.id) then trapF 6 0x2A level
      if s.countWrong level i then trapF 6 0x2A level
      if c.arrived == some (BitVec.ofNat 3 level) && c.released then modCore fun c => observe (fun _ => true) (acquireCore c)
      else
        if i.lost then trapWith ⟨0x46, BitVec.ofNat 48 level, some 6, false, some .superstep, false⟩
        if (c.arrived == none) && s.phaseDone then modIss fun i => { i with arrive := some (BitVec.ofNat 3 level) }
        stallFor (.ssync (BitVec.ofNat 3 level))) s

/-! ### SPAWN (R122, R123) -/

def execSpawn (o : FY) (s : State) : Out :=
  runOp (.spawn o) 6 (guardOn · o.g) (do
    let e := (← getCore).regs.a.get o.a
    let va ← linAddr 6 e 64 (firstBytes (vaOf e) 192)
    let l ← access 6 false va 192
    let _ ← issueTok 6 (some o.k) (classOf e) (releaseAfter (← getCore)) (.spawn l)) s

/-! ### FENCE, PUBC (R233, R234) -/

/-- The classes of a copy's accesses (R37). -/
def CopyKind.classes : CopyKind → List Nat
  | .cpy d a _ _ => [classOf d, classOf a]
  | .cpyl _ d a _ _ => [classOf d, classOf a]
  | .cpytIn h a _ => [dClass h.desc, classOf a]
  | .cpytOut d h _ => [classOf d, dClass h.desc]
  | .cxpose d a _ => [classOf d, classOf a]
  | .cfill d _ _ _ => [classOf d]
  | .crun _ d a _ _ => [classOf d, classOf a]
  | .cstamp d _ _ => [classOf d]
  | .cfp r a _ => [classOf r, classOf a]
  | .csum r a _ => [classOf r, classOf a]
  | .ccmp b a _ _ => [classOf b, classOf a]
  | .cxpnd d a _ => [classOf d, classOf a]
  | .cpush a _ _ => [classOf a]
  | .cpeer _ a _ => [classOf a]
  | .cdisp r => [classOf r]

/-- The classes of a copy's accesses, a CDISP's by the addresses of its record too; as long as the engine has not read the record, they
may be any (L26). -/
def Copy.classes (k : Copy) : List Nat := match k.kind with
  | .cdisp r => if k.prog.pos = 0 then List.range 16 else classOf r :: (DispRec.ofNat (ofBytes k.prog.held)).classes
  | q => q.classes

/-- What a fence of a mask waits for: the operations and the copies of its classes. -/
def fencedIds (c : Core) (mask : Nat) : List Nat :=
  ((c.ops.filter fun o => (List.range 16).any fun k => bit mask k && o.inClass k).map (·.id)) ++
    ((c.eng0.queue ++ c.eng1.queue).filter fun k => k.classes.any fun n => bit mask n).map (·.id)

/-- FENCE does not stall issue; later accesses of its classes wait for it. -/
def execFence (o : FY) (s : State) : Out :=
  runOp (.fence o) 6 (guardOn · o.g) (do
    let mask := match o.imm with
      | some v => v.toNat % 65536
      | none => 65535
    if mask != 0 then
      let _ ← issueTok 6 none 0 (fencedIds (← getCore) mask) (.fence (BitVec.ofNat 16 mask))) s

/-- PUBC covers the lines of the copies observed before it; the slots' own lines join when it is performed. -/
def execPubc (o : FY) (s : State) : Out :=
  runOp (.pubc o) 6 (guardOn · o.g) (do
    let c ← getCore
    let _ ← issueTok 6 none 0 (releaseAfter c) (.pubc o.sc c.obs)
    modCore fun c => { c with obs := [] }) s

end Sys2Proof.Machine
end

