-- ==== Sys2Proof/Machine/Perform.lean ====
section
/-! DEFINITION. What outstanding operations do when they are performed (R16, R32, R147 to R164, R197 to R202, R221, R224, R227, R233, R234,
R254, R292): TOKEN_COMPLETION performs an operation and lands its results in one event (L7); ACCESS_PERFORMED ends a
hold. -/

namespace Sys2Proof.Machine

/-! ### Completion -/

/-- The destinations, values and lanes of a result. -/
abbrev Lands := List (Dest × Val × Word)

def zeroVal : Val → Val
  | .w _ => .w 0
  | .v _ => .v VReg.zero

/-- The results of an operation that a bundle issued in a clock, landing in this one. -/
def landAll (clock issue : Nat) (l : Lands) (c : Core) : Core :=
  l.foldl (fun c r => landAs c clock issue r.1 r.2.1 r.2.2) c

/-- The scope of an operation whose completion a WAITK acquires (R228). -/
def TokKind.scope : TokKind → Nat
  | .slda _ w _ | .sstrl _ w _ | .satom _ _ w _ _ | .scas _ _ w _ _ _ => w.toNat
  | .committing w _ | .msync w _ => w
  | _ => 0

/-- The operation is no longer outstanding, and its token falls with its error (R16). -/
def closeOp (o : TokOp) (e : Option Err) (c : Core) : Core :=
  let c := { c with ops := c.ops.filter fun p => p.id != o.id }
  match o.k with
  | some k => lowerTok k e { c with owed := if o.kind.scope = 0 then c.owed else insertNew k c.owed }
  | none => c

/-- An operation ends: its results land and its token falls.  In error its results are zero, and the token falls in a later clock
(R32). -/
def finishOp (clock draw : Nat) (o : TokOp) (l : Lands) (err : Option Err) (c : Core) : Core :=
  match orErr o.err err with
  | none => closeOp o none (landAll clock o.issue l c)
  | some e =>
    if l.isEmpty then closeOp o (some e) c
    else
      let c := landAll clock o.issue (l.map fun r => (r.1, zeroVal r.2.1, r.2.2)) c
      let ended : TokOp := { o with kind := .ended, err := some e, issue := clock, draw := draw }
      { c with ops := c.ops.map fun p => if p.id = o.id then ended else p }

def State.finish (s : State) (o : TokOp) (l : Lands) (err : Option Err) : State :=
  { s with draws := s.draws + 1, core := finishOp s.clock s.draws o l err s.core }

/-- The operation goes on in another form. -/
def State.become (s : State) (o : TokOp) : State :=
  s.onCore fun c => { c with ops := c.ops.map fun p => if p.id = o.id then o else p }

/-! ### Reads and writes of one line -/

/-- Bytes of the register region where the access is not 8 bytes wide: outside the launch port they are free (L24). -/
def State.freeBytes (s : State) (pa n : Nat) : State × List Byte :=
  if isPort pa then (s, List.replicate n 0)
  else ({ s with draws := s.draws + n }, (List.range n).map fun i => Config.freeByte (s.draws + i))

/-- Registers are 8 bytes wide (R361). -/
def wholeReg (pa n : Nat) : Bool := n == 8 && pa % 8 == 0

/-- The error an access meets at a line (R290 to R292). -/
def State.lineErr (s : State) (va pa : Nat) : Option Err :=
  if s.deadHome pa then some ⟨0x2D, BitVec.ofNat 48 (pa / 128 * 128)⟩
  else if s.store.poison.contains (pa / 128) then some ⟨0x1F, BitVec.ofNat 48 va⟩
  else none

/-- n bytes that lie in one line, as a slot's load sees them. -/
def State.loadPiece (s : State) (l : Lin) (va n : Nat) : State × Except Err (List Byte) :=
  match l.xl va with
  | none => (s, .error ⟨0x1A, BitVec.ofNat 48 va⟩)
  | some x =>
    let pa := x.paOf va
    if isReg pa then
      if wholeReg pa n then (s, .ok (toBytes 8 (s.regRead l.sec (pa - regBase)).toNat))
      else
        let r := s.freeBytes pa n
        (r.1, .ok r.2)
    else match s.lineErr va pa with
      | some e => (s, .error e)
      | none =>
        let via := viaOf s (cohOf x.coh.toNat) va pa true
        let s := s.touchRead via pa
        (s, .ok (s.seenBytes via pa n))

/-- Bytes stored within one line; a line with uncorrectable data takes only a write of all of it (R292). -/
def State.storePiece (s : State) (l : Lin) (va : Nat) (bs : List Byte) (atHome : Bool) : State × Option Err :=
  match l.xl va with
  | none => (s, some ⟨0x1A, BitVec.ofNat 48 va⟩)
  | some x =>
    let pa := x.paOf va
    if isReg pa then
      if wholeReg pa bs.length then (s.regWrite l.sec (pa - regBase) (BitVec.ofNat 64 (ofBytes bs)), none) else (s, none)
    else if s.deadHome pa then (s, some ⟨0x2D, BitVec.ofNat 48 (pa / 128 * 128)⟩)
    else if !writable s pa bs.length then (s, some ⟨0x1F, BitVec.ofNat 48 va⟩)
    else if atHome && cohOf x.coh.toNat == .dir then
      let s := s.storeLine .home pa bs
      (s.onCore fun c => { c with wrote := insertNew (.mem (pa / 128)) c.wrote }, none)
    else (s.storeBytes l va bs, none)

/-! ### Vectors -/

/-- The active lanes whose bytes lie in a piece of a vector's range. -/
def lanesIn (va : Nat) (act : Word) (p : Nat × Nat) : List Nat :=
  (lanesOf act).filter fun i => p.1 ≤ va + 4 * i && va + 4 * i < p.1 + p.2

/-- The pieces of 256 bytes that active lanes touch. -/
def vpieces (va : Nat) (act : Word) : List (Nat × Nat) := (linePieces va 256).filter fun p => !(lanesIn va act p).isEmpty

/-- The lanes read, piece by piece; the first error. -/
def State.loadLanes (s : State) (l : Lin) (act : Word) : List (Nat × Nat) → State × List (Nat × Lane) × Option Err
  | [] => (s, [], none)
  | p :: ps =>
    let ls := lanesIn l.va act p
    let r := s.loadPiece l p.1 p.2
    let q := r.1.loadLanes l act ps
    match r.2 with
    | .error e => (q.1, q.2.1, some (if e.code = 0x1F then ⟨0x1F, BitVec.ofNat 48 (l.va + 4 * ls.headD 0)⟩ else e))
    | .ok bs => (q.1, (ls.map fun i => (i, BitVec.ofNat 32 (ofBytes ((bs.drop (l.va + 4 * i - p.1)).take 4)))) ++ q.2.1, q.2.2)

/-- The lanes of a list put into a vector. -/
def lanesVec (l : List (Nat × Lane)) : VReg := vlanes fun i => ((l.find? fun p => p.1 == i).map (·.2)).getD 0

def laneBytes (x : VReg) (i : Nat) : List Byte := toBytes 4 (vlane x i).toNat

/-- The active lanes of one line stored as one access (R149). -/
def State.storeLanes (s : State) (l : Lin) (x : VReg) (atHome : Bool) (ls : List Nat) (p : Nat × Nat) : State × Option Err :=
  if p.2 = 128 && ls.length = 32 then s.storePiece l p.1 (ls.flatMap (laneBytes x)) atHome
  else ls.foldl (fun (r : State × Option Err) i =>
    match r.2 with
    | some _ => r
    | none => r.1.storePiece l (l.va + 4 * i) (laneBytes x i) atHome) (s, none)

def State.storeVec (s : State) (l : Lin) (act : Word) (x : VReg) (atHome : Bool) : State × Option Err :=
  (vpieces l.va act).foldl (fun (r : State × Option Err) p =>
    let q := r.1.storeLanes l x atHome (lanesIn l.va act p) p
    (q.1, orErr r.2 q.2)) (s, none)

/-! ### Atomics (R201) -/

/-- op(old, x) at a size in bytes. -/
def atomOp (opc size old x : Nat) : Nat :=
  let n := 8 * size
  let a := sextInt old n
  let b := sextInt x n
  match opc with
  | 0 => (old + x) % 2 ^ n
  | 1 => old &&& x
  | 2 => old ||| x
  | 3 => old ^^^ x
  | 4 => x
  | 5 => if a ≤ b then old else x
  | 6 => if b ≤ a then old else x
  | 7 => min old x
  | _ => max old x

/-- A read-modify-write at the point of coherence; `f` gives the new value, none where nothing is written. -/
def State.atomic (s : State) (l : Lin) (size : Nat) (f : Nat → Option Nat) : State × Except Err Nat :=
  match l.xl l.va with
  | none => (s, .error ⟨0x1A, BitVec.ofNat 48 l.va⟩)
  | some x =>
    let pa := x.paOf l.va
    if isReg pa then
      if wholeReg pa size then
        let old := (s.regRead l.sec (pa - regBase)).toNat
        (match f old with
          | some n => s.regWrite l.sec (pa - regBase) (BitVec.ofNat 64 n)
          | none => s, .ok old)
      else
        let r := s.freeBytes pa size
        (r.1, .ok (ofBytes r.2))
    else match s.lineErr l.va pa with
      | some e => (s, .error e)
      | none =>
        let s := (s.leaveLine (pa / 128)).touchRead .home pa
        let old := rdNat s.store.bytes pa size
        match f old with
        | none => (s, .ok old)
        | some n =>
          let s := s.storeLine .home pa (toBytes size n)
          (s.onCore fun c => { c with wrote := insertNew (.mem (pa / 128)) c.wrote }, .ok old)

/-- ORD 1 acquires after the access, ORD 2 releases before it (R199, R201). -/
def State.ordered (s : State) (ctl : BitVec 7) (scope : BitVec 3) (f : State → State × Except Err Nat) : State × Except Err Nat :=
  let s := if 2 ≤ ordOf ctl then s.release scope.toNat else s
  let s := if ordOf ctl % 2 = 1 then s.acquire scope.toNat else s
  f s

/-- An atomic's landing. -/
def State.landAtom (o : TokOp) (d : Fin 16) (r : State × Except Err Nat) : State :=
  match r.2 with
  | .ok old => r.1.finish o [(.s d, .w (BitVec.ofNat 64 old), allOnes)] none
  | .error e => r.1.finish o [(.s d, .w 0, allOnes)] (some e)

/-! ### Push stores (R162, R202, R291) -/

/-- The lines of a push that may be delivered, with their addresses. -/
def pushLines (s : State) (l : Lin) (vas : List Nat) : List (Nat × Nat) :=
  vas.filterMap fun va => match l.xl va with
    | some x => if pushable s x.coh.toNat (x.paOf va) then some (x.paOf va / 128, va) else none
    | none => none

/-- The deliveries of a push whose store is performed; dead receivers leave the containment error. -/
def State.push (s : State) (o : TokOp) (l : Lin) (vas : List Nat) (cores : BitVec 24) (err : Option Err) : State :=
  let ls := if (orErr o.err err).isSome then [] else pushLines s l vas
  let all := coreSet cores
  let live := all.filter fun c => !s.deadCore c
  let dead := if all.any s.deadCore then (ls.head?).map fun p => ⟨0x2D, BitVec.ofNat 48 (128 * p.1)⟩ else none
  let s := ls.foldl (fun (s : State) p => s.postPushes o.id false p.1 p.2 live) s
  if ls.isEmpty || live.isEmpty then s.finish o [] (orErr err dead)
  else s.become { o with kind := .pushing (ls.flatMap fun _ => live), err := orErr o.err dead }

/-- R162: every copy of each of the two lines of a VSTP is invalidated, of a line without an active lane too. -/
def State.clearLines (s : State) (l : Lin) : State :=
  ((pushLines s l [l.va, l.va + 128]).map (·.1)).foldl (fun (s : State) n => s.invalidateOthers n none) s

/-! ### Tensor accesses -/

/-- VLDT: pin and read every tile of the run (R157, R158, R254). -/
def State.loadTensor (s : State) (o : TokOp) (h : Handle) (wide : Bool) (act : Word) (d : Fin 16) : State :=
  let ps := (placesOf h wide act).map (·.2.2)
  let ts := tilesOf ps
  let r := s.readTiles h.desc ts
  let x := gatherLanes h wide act (elemIn h.desc r.2.1)
  match r.2.2 with
  | some e => r.1.finish o [(.v d, .v x, act)] (some e)
  | none =>
    let pins := r.1.pinsOf h.desc ts
    let s := r.1.addPins pins
    { s with draws := s.draws + 1 }.become { o with draw := s.draws, kind := .pinned d act x pins }

/-- A pin that would pass the full count waits (R254). -/
def State.pinsFree (s : State) (h : Handle) (wide : Bool) (act : Word) : Bool :=
  s.pinRoom (s.pinnable h.desc (tilesOf ((placesOf h wide act).map (·.2.2))))

/-- The write-back of a VSTT or of an MDRN: one update per tile, and completion once each has committed (R160, R249). -/
def State.writeTensor (s : State) (o : TokOp) (h : Handle) (elems : List (Option (Nat × Nat) × BitVec 32)) : State :=
  let s := s.release (dScope h.desc)
  let d := s.descAddr h o.sec
  let q := d.1.queueUpdates s.core.id o.id o.baddr o.slot h.desc (vaOf h.addr) d.2 (groupByTile elems)
  if q.2.isEmpty then q.1.finish o [] none else q.1.become { o with kind := .committing (dScope h.desc) q.2 }

/-- The records of a VSTT's conversions (R27, R159). -/
def offerLanes (o : TokOp) (l : List (Nat × BitVec 2)) (c : Core) : Core :=
  { c with csr := l.foldl (fun k r => offerFev k (o.issue, o.slot.val, r.1) r.2 o.baddr o.slot) c.csr }

/-- TQRY (R227). -/
def State.query (s : State) (o : TokOp) (h : Handle) (d : Fin 16) : State :=
  let land (s : State) (x : Word) (e : Option Err) : State := s.finish o [(.s d, .w x, allOnes)] e
  match locate h.desc (cursorAt h 0) with
  | none => land s 0 none
  | some (t, _) =>
    let pa := entryOf h.desc t
    match s.tensorErr h.desc pa 16 with
    | some e => land s 0 (some e)
    | none =>
      if s.poisoned pa 16 then land s 0 (some ⟨0x1F, BitVec.ofNat 48 pa⟩)
      else land (s.readHome (pa / 128)) (BitVec.ofNat 64 ((s.entryAt pa).toNat % 2 ^ 62)) none

/-! ### TBIND (R17, R186, R224) -/

/-- A handle takes a new binding: what was issued before keeps what it captured. -/
def bindHandle (h : Fin 16) (x : Option Handle) (c : Core) : Core :=
  let own (k : Option (Fin 16)) : Option (Fin 16) := if k == some h then none else k
  let op (o : MOp) : MOp := { o with
    hAn := own o.hAn, hBn := own o.hBn
    run := o.run.map fun r => { r with caps := r.caps.filter fun p => p.1 != h } }
  { c with regs := { c.regs with h := c.regs.h.set h x }, mx := { c.mx with ops := c.mx.ops.map op } }

/-- TBIND's read; what a read that fails leaves in the handle is open (L27). -/
def State.bind (s : State) (o : TokOp) (h : Fin 16) (addr : Word) (l : Lin) : State :=
  let r := s.loadPiece l l.va 128
  match r.2 with
  | .error e =>
    let keep := Config.choice r.1.draws % 2 = 1
    let s := { r.1 with draws := r.1.draws + 1 }
    (if keep then s else s.onCore (bindHandle h none)).finish o [] (some e)
  | .ok bs =>
    let d := lineOfBytes bs
    if descOk d then (r.1.onCore (bindHandle h (some ⟨d, addr, Vector.replicate 6 0⟩))).finish o [] none
    else (r.1.onCore (bindHandle h none)).finish o [] (some ⟨0x29, BitVec.ofNat 48 h.val⟩)

/-! ### WSET (R221, R334) -/

/-- The set of a record, with its map as it stands and nothing handed out; none where the record is malformed. -/
def setOfRecord (n : Nat) (hs : Vector (Option Handle) 16) (sec : Bool) : Option TumSet :=
  let t : TumSet := ⟨field n 0 32, field n 32 8, field n 40 8, bvAt n 8 64, BitVec.ofNat 21 (field n 128 32), hs, [], [], [],
    List.replicate (field n 0 32) 0, sec⟩
  if 1 ≤ t.count && t.count ≤ 65536 && 1 ≤ t.ntile && t.ntile ≤ 4 && t.defer ≤ 15 && field n 48 16 == 0 && field n 160 96 == 0 &&
      field n 128 32 < 2 ^ 21 && field n 128 3 == 0 then some t else none

/-- The Tumbler with a new set: the map's points are visited, and the ready bits stand as its tiles are held. -/
def State.startSet (s : State) (t : TumSet) : Tumbler :=
  let map := rdNat s.core.mem.sram t.map.toNat ((t.count + 7) / 8)
  let t := { t with visited := (List.range t.count).filter (bit map) }
  { Tumbler.reset with set := some ((List.range t.count).foldl (lookAt s s.core) t) }

/-- What a read of the record, or of the visited map, that fails leaves of the set is open (L27). -/
def State.defineSet (s : State) (o : TokOp) (l : Lin) (hs : Vector (Option Handle) 16) : State :=
  let r := s.loadPiece l l.va 32
  let drop (s : State) : State := s.onCore fun c => { c with tum := Tumbler.reset }
  match r.2 with
  | .error e =>
    let keep := Config.choice r.1.draws % 2 = 1
    let s := { r.1 with draws := r.1.draws + 1 }
    (if keep then s else drop s).finish o [] (some e)
  | .ok bs =>
    match setOfRecord (ofBytes bs) hs l.sec with
    | none => (drop r.1).finish o [] (some ⟨0x28, 0⟩)
    | some t =>
      if mapOk r.1.core t then
        match badWordIn r.1.core t.map.toNat ((t.count + 7) / 8) with
        | some w => (drop r.1).finish o [] (some ⟨0x1F, BitVec.ofNat 48 (8 * w)⟩)
        | none => (r.1.onCore fun c => { c with tum := r.1.startSet t }).finish o [] none
      else (drop r.1).finish o [] (some ⟨0x28, 0⟩)

/-! ### SPAWN, IRQH, PUBC, FENCE -/

def State.loadPieces (s : State) (l : Lin) : List (Nat × Nat) → State × Except Err (List Byte)
  | [] => (s, .ok [])
  | p :: ps =>
    let r := s.loadPiece l p.1 p.2
    match r.2 with
    | .error e => (r.1, .error e)
    | .ok bs =>
      let q := r.1.loadPieces l ps
      (q.1, q.2.map (bs ++ ·))

/-- SPAWN: a release at device scope, and the record taken whole or refused (R122, R123, R295). -/
def State.submit (s : State) (o : TokOp) (l : Lin) : State :=
  let r := (s.release 3).loadPieces l (linePieces l.va 192)
  match r.2 with
  | .error e => r.1.finish o [] (some e)
  | .ok bs =>
    let q := r.1.spawnTask (recordOf (BitVec.ofNat 64 l.va) bs) s.core.csr.launch l.sec
    q.1.finish o [] q.2

/-- IRQH: the record carries the low byte of the code in CODE and all of it in DETAIL (R129, R366, L28). -/
def State.interruptHost (s : State) (o : TokOp) (code : BitVec 32) : State :=
  let s := s.release 4
  let c := s.core
  let s := s.raiseEvent ⟨4, code.toNat % 256, c.csr.launch, c.csr.task, c.id.val, 0, BitVec.ofNat 64 code.toNat⟩
  (s.launchIrq c.csr.launch).finish o [] none

/-- The instruction copies of a core that a publication drops. -/
def dropCode (ls : List LineRef) (c : Core) : Core :=
  { c with mem := { c.mem with icache := c.mem.icache.filter fun l => !ls.contains (.mem l) } }

/-- PUBC (R234, R283, R285). -/
def State.publish (s : State) (o : TokOp) (scope : BitVec 3) (copied : List LineRef) : State :=
  let s := s.flushAll
  let me := s.core
  let ls := insertAll me.wrote copied
  let st := ls.foldl (fun st l => match l with
    | .mem n => clearWriter st me.id.val n
    | .ih _ => st) s.store
  let ih := ls.filterMap fun l => match l with
    | .ih n => some n
    | .mem _ => none
  let s := { s with store := st }.mapCores fun c => if scopeIncludes scope.toNat me.id c.id then dropCode ls c else c
  let s := s.onCore fun c => { c with wrote := [], mem := { c.mem with ihClean := insertAll ih c.mem.ihClean } }
  s.finish o [] none

/-! ### Performing one operation -/

/-- The matrix operations that an MSYNC covers are complete, repetitions that are held not counted, and the MDRN writes among them
committed (R185). -/
def syncDone (c : Core) (l : List (Nat × Nat)) : Bool :=
  !(c.mx.ops.any fun m => l.any fun p => p.1 == m.id && (m.run.any (fun r => r.j < p.2) || (!m.held && m.next < p.2))) &&
    !(c.ops.any fun o => (l.any fun p => p.1 == o.id) && match o.kind with
      | .drained _ _ | .committing _ _ => true
      | _ => false)

/-- What an operation waits for beside its clock and its order. -/
def State.kindReady (s : State) (o : TokOp) : Bool :=
  match o.kind with
  | .pushing l => l.isEmpty
  | .committing _ l => l.isEmpty
  | .matrix _ => !(s.core.mx.ops.any fun m => m.id == o.id)
  | .msync _ l => syncDone s.core l
  | .vldt h wide act _ => s.pinsFree h wide act
  | _ => match o.kind.lin with
    | some l => !s.linWaits l o.issue
    | none => true

/-- An operation of the core in focus may be performed now (R32, R37, R199, R233, R288). -/
def State.opDue (s : State) (o : TokOp) : Bool :=
  o.issue + 1 + Config.latency o.draw ≤ s.clock && s.core.settled o.after && s.kindReady o

/-- The operation is performed, and lands or goes on. -/
def State.perform (s : State) (o : TokOp) : State :=
  match o.kind with
  | .sld a w d =>
    let r := s.loadPiece a a.va (widthOf w)
    match r.2 with
    | .ok bs => r.1.finish o [(.s d, .w (extW w (ofBytes bs)), allOnes)] none
    | .error e => r.1.finish o [(.s d, .w 0, allOnes)] (some e)
  | .sst a n x =>
    let r := s.storePiece a a.va (toBytes n x.toNat) false
    r.1.finish o [] r.2
  | .slda a scope d =>
    let r := (s.acquire scope.toNat).loadPiece a a.va 8
    match r.2 with
    | .ok bs => r.1.finish o [(.s d, .w (BitVec.ofNat 64 (ofBytes bs)), allOnes)] none
    | .error e => r.1.finish o [(.s d, .w 0, allOnes)] (some e)
  | .sstrl a scope x =>
    let r := (s.release scope.toNat).storePiece a a.va (toBytes 8 x.toNat) false
    (r.1.release scope.toNat).finish o [] r.2
  | .satom a ctl scope x d =>
    let n := atomSize ctl
    State.landAtom o d (s.ordered ctl scope fun s =>
      s.atomic a n fun old => some (atomOp (ctl.toNat % 16) n old (x.toNat % 2 ^ (8 * n))))
  | .scas a ctl scope cmp new d =>
    let n := atomSize ctl
    State.landAtom o d (s.ordered ctl scope fun s =>
      s.atomic a n fun old => if old = cmp.toNat % 2 ^ (8 * n) then some (new.toNat % 2 ^ (8 * n)) else none)
  | .sstp a x cores =>
    let r := s.storePiece a a.va (toBytes 8 x.toNat) true
    r.1.push o a [a.va] cores r.2
  | .vld a act d =>
    let r := s.loadLanes a act (vpieces a.va act)
    r.1.finish o [(.v d, .v (lanesVec r.2.1), act)] r.2.2
  | .vst a act x =>
    let r := s.storeVec a act x false
    r.1.finish o [] r.2
  | .vldff a valid d p =>
    let r := s.loadLanes a valid (vpieces a.va valid)
    r.1.finish o [(.v d, .v (lanesVec r.2.1), valid), (.p p, .w valid, allOnes)] r.2.2
  | .vstp a act x cores =>
    let r := s.storeVec a act x true
    (if o.err.isSome then r.1 else r.1.clearLines a).push o a [a.va, a.va + 128] cores r.2
  | .local l => s.finish o l none
  | .vldt h wide act d => s.loadTensor o h wide act d
  | .vstt h wide act x =>
    let r := scatterLanes h wide act x
    (s.onCore (offerLanes o r.2)).writeTensor o h r.1
  | .tqry h d => s.query o h d
  | .tbind h addr a => s.bind o h addr a
  | .wset a hs => s.defineSet o a hs
  | .spawn a => s.submit o a
  | .pinned d act x pins => (s.unpinAll pins).finish o [(.v d, .v x, act)] none
  | .pushing _ => s.finish o [] none
  | .committing _ _ => s.finish o [] none
  | .ended => s.finish o [] none
  | .matrix _ => s.finish o [] none
  | .drained h elems => s.writeTensor o h elems
  | .msync scope _ => (s.release scope).finish o [] none
  | .irqh code => s.interruptHost o code
  | .fence _ => s.flushAll.finish o [] none
  | .pubc scope ls => s.publish o scope ls

def Core.opOf (c : Core) (id : Nat) : Option TokOp := c.ops.find? fun o => o.id == id

def State.tokenDone (s : State) (id : Nat) : State :=
  match s.core.opOf id with
  | some o => if s.opDue o then s.perform o else s
  | none => s

/-- TOKEN_COMPLETION (R16, R32): of the core in focus, or of a task saved from it (R325). -/
def execTokenCompletion (id : Nat) (s : State) : Out :=
  .next (s.ofOwner (fun c => (c.opOf id).isSome) (·.tokenDone id))

/-! ### Holds (R192, R200, R226) -/

def State.holdDue (s : State) (h : Hold) : Bool :=
  !h.done && h.since + 1 + Config.latency h.draw ≤ s.clock && s.core.settled h.after

/-- ACCESS_PERFORMED: the hold of a bundle ends. -/
def execAccessPerformed (id : Nat) (s : State) : Out :=
  let done (h : Hold) : Hold := if h.id == id && s.holdDue h then { h with done := true } else h
  .next (s.onCore fun c => { c with holds := c.holds.map done })

end Sys2Proof.Machine
end

