-- ==== Sys2Proof/Machine/Context.lean ====
section
/-! DEFINITION. Saving a task's context and restoring it (R263, R265, R282, R343 to R345). -/

namespace Sys2Proof.Machine

/-! ### What a save waits for (R343 step 2) -/

/-- Operations whose destination is a register, a predicate, a handle or the Tumbler's set. -/
def TokKind.landsInCore : TokKind → Bool
  | .sld _ _ _ | .slda _ _ _ | .satom _ _ _ _ _ | .scas _ _ _ _ _ _ | .vld _ _ _ | .vldff _ _ _ _ | .local _ | .vldt _ _ _ _
  | .pinned _ _ _ _ | .tqry _ _ | .tbind _ _ _ | .wset _ _ => true
  | _ => false

/-- Repetitions past their start are complete, and what else is issued is held (R35, R172). -/
def matrixStill (c : Core) : Bool := c.mx.ops.all fun o => o.run.isEmpty && (o.held || o.reps ≤ o.next)

/-- The save may be made: nothing of the core's pipelines is left to land. -/
def saveReady (c : Core) : Bool := c.flights.isEmpty && !(c.ops.any fun o => o.kind.landsInCore) && matrixStill c

/-! ### Leaving the core -/

/-- R265, R282: dirty lines are written through, the claimed CACHE, the STASH and the OPBUF banks are emptied, SP lines become S. -/
def State.drainCore (s : State) : State :=
  let s := dropStash s.flushAll
  s.onCore fun c =>
    let keep (l : CLine) : Bool := !c.bankClaimed l.bank.val
    let still (l : CLine) : CLine := if l.st == .sp then { l with st := .s } else l
    fixInuse { c with mem := { c.mem with lines := (c.mem.lines.filter keep).map still, opbuf := [] } }

/-- A core that its task has left: nothing is in flight and nothing claimed; its registers and memories stand as the task left them
until the next placement (L29), but for QUOTA, which is 0 (R282). -/
def freeCore (c : Core) : Core :=
  fixInuse { Core.reset c.id with
    issued := true
    frozen := c.frozen
    pc := c.pc
    regs := c.regs
    csr := { c.csr with quota := 0 }
    loopSt := c.loopSt
    shadow := c.shadow
    wdcount := c.wdcount
    mx := { c.mx with ops := [], loads := [] }
    mem := { c.mem with opbuf := [] } }

/-- What is kept of a core for its task. -/
def savedCore (c : Core) : Core :=
  { c with
    stat := .saved
    issued := false
    returning := false
    csr := { c.csr with trappc := BitVec.ofNat 64 (c.pc.toNat / 32 * 32), inuse := 0 }
    holds := []
    walkFails := []
    fetches := []
    waited := 0
    bankWait := 0
    frozen := false
    mem := { c.mem with lines := [], stash := [], icache := [], tlb := [], opbuf := [], ttc := [] } }

/-- The lines of memory that hold the clean lines of the saved halves. -/
def State.cleanLines (s : State) (g : Core) : List Nat :=
  (g.mem.ihClean.filter fun l => g.halfClaimed (128 * l)).filterMap fun l =>
    (s.spacePa g.csr.sec false (g.claim.ctx.toNat + halfAt (128 * l))).map (· / 128)

/-- The image written, part by part; false where a write fails.  A containment halt writes every part it can reach. -/
def State.writeImage (s : State) (g : Core) (all : Bool) : State × Bool :=
  (imageOf g).foldl (fun (r : State × Bool) p =>
    if r.2 || all then
      let q := r.1.spaceWrite g.csr.sec (g.claim.ctx.toNat + p.1) p.2
      (q.1, r.2 && q.2)
    else r) (s, true)

/-- R343 steps 3 to 5: the context that is kept, and whether its image could be written. -/
def State.saveContext (s : State) (all : Bool) : State × Core × Bool :=
  let s := s.drainCore
  let g := savedCore s.core
  let r := s.writeImage g all
  let s := { r.1 with store := { r.1.store with cleanHalves := insertAll (r.1.cleanLines g) r.1.store.cleanHalves } }
  (s.onCore freeCore, g, r.2)

/-! ### Restoring (R345) -/

/-- A part of the context area as it stands in memory; as it was saved where it cannot be read (L13). -/
def State.readPart (s : State) (g : Core) (off n : Nat) : List Byte :=
  match s.spaceRead g.csr.sec (g.claim.ctx.toNat + off) n with
  | some bs => bs
  | none => (((imageOf g).find? fun p => p.1 ≤ off && off + n ≤ p.1 + p.2.length).map fun p => (p.2.drop (off - p.1)).take n).getD
      (List.replicate n 0)

def State.readWord (s : State) (g : Core) (off : Nat) : Word := BitVec.ofNat 64 (ofBytes (s.readPart g off 8))

/-- A number of a list of bytes: n of them from an offset. -/
def numAt (bs : List Byte) (off n : Nat) : Nat := ofBytes ((bs.drop off).take n)

def vregOf (bs : List Byte) : VReg := vlanes fun i => BitVec.ofNat 32 (ofBytes ((bs.drop (4 * i)).take 4))

/-- The control registers. -/
def State.restoreCsr (s : State) (g : Core) (t : Task) : Csr :=
  let w (off : Nat) : Word := s.readWord g off
  let k := g.csr
  let k := csrWrite k 0x008 (w 0x008)
  let k := csrWrite k 0x009 (w 0x000)
  let k := csrWrite k 0x00A (w 0x010)
  let k := csrWrite k 0x007 (w 0x018)
  let k := csrWrite k 0x000 (w 0x020)
  let k := csrWrite k 0x002 (w 0x030)
  let k := csrWrite k 0x005 (w 0x048)
  { k with
    qmode := w 0x028 &&& 0x0000FFFEFFFFFFFC
    stashmap := w 0x040 &&& 0x0000FFFFFFFF0001
    inuse := 0
    fevlog := w 0x050 &&& 0x0007FFFFFFFFFFE7
    fevRank := none
    wdwin := BitVec.ofNat 32 (w 0x058).toNat
    wdfired := bit (w 0x058).toNat 32
    domn := BitVec.ofNat 40 (w 0x068).toNat
    sec := bit (w 0x070).toNat 0
    task := BitVec.ofNat 32 (w 0x078).toNat
    prio := t.prio
    launch := BitVec.ofNat 16 ((w 0x078).toNat / 2 ^ 48)
    replay := vtab 24 fun i => ⟨w (0x580 + 8 * i) &&& 0x3FFFF, vregOf (s.readPart g (0x4800 + 256 * i) 256), w (0x640 + 8 * i), 0⟩ }

/-- The entries of a queue as its mode and its occupancy give them. -/
def entriesOf {α : Type} (queue : Bool) (occ depth : Nat) (l : List α) : List α := if queue then l.take (min occ depth) else l.take 1

def tokenOf (bs : List Byte) : Token :=
  let n := ofBytes bs
  ⟨field n 0 12, if bit n 12 then some ⟨BitVec.ofNat 8 (field n 16 8), BitVec.ofNat 48 (field n 64 48)⟩ else none⟩

def handleOf (bs : List Byte) : Option Handle :=
  let n := ofBytes bs
  let a := field n (8 * 152) 64
  if bit a 0 then
    some ⟨BitVec.ofNat 1024 n, BitVec.ofNat 64 (a / 2 * 2), vtab 6 fun i => BitVec.ofNat 32 (field n (1024 + 32 * i) 32)⟩
  else none

def State.restoreRegs (s : State) (g : Core) (q : Word) : Regs where
  s := vtab 16 fun r => entriesOf (sQueue q (Fin.ofNat 16 r)) (ofBytes (s.readPart g (0x3E0 + r) 1)) (sDepth q r)
    ((List.range 4).map fun i => s.readWord g (0x100 + 32 * r + 8 * i))
  v := vtab 16 fun r => entriesOf (vQueue q (Fin.ofNat 16 r)) (ofBytes (s.readPart g (0x3F0 + r) 1)) (vDepth q r)
    ((List.range 2).map fun i => vregOf (s.readPart g (0x2800 + 512 * r + 256 * i) 256))
  a := vtab 16 fun r => s.readWord g (0x300 + 8 * r)
  p := vtab 12 fun r => s.readWord g (0x380 + 8 * r)
  k := vtab 8 fun r => tokenOf (s.readPart g (0x400 + 16 * r) 16)
  h := vtab 16 fun r => handleOf (s.readPart g (0x1000 + 160 * r) 160)

/-- Levels of a loop: their number, then their counters. -/
def levelsOf (bs : List Byte) : List NReg := (List.range (min 6 (numAt bs 0 2))).map fun i => Fin.ofNat 6 (numAt bs (2 + i) 1)

/-- A bundle at an address of the task: in a half, or in memory. -/
def State.codeAt (s : State) (g : Core) (va : Nat) : BitVec 256 := match ihOffset va with
  | some off => BitVec.ofNat 256 (ofBytes (s.readPart g (halfAt off) 32))
  | none => BitVec.ofNat 256 (ofBytes ((s.spaceRead g.csr.sec va 32).getD []))

/-- A loop state of the area.  The bundles of the body and a SWAPI still under way have no place there: they are those that were kept,
or, for another body, the bundles that stand at its address (L13). -/
def State.loopOf (s : State) (g : Core) (old : LoopState) (off : Nat) : LoopState :=
  let bs := s.readPart g off 128
  let start := BitVec.ofNat 48 (numAt bs 64 8)
  let n := min 32 (numAt bs 72 4)
  { n := vtab 6 fun i => BitVec.ofNat 32 (numAt bs (4 * i) 4)
    reload := vtab 6 fun i => BitVec.ofNat 32 (numAt bs (24 + 4 * i) 4)
    levels := levelsOf (bs.drop 48)
    pending := levelsOf (bs.drop 56)
    dead := bit (numAt bs 80 4) 0
    start := start
    body := if old.start = start ∧ old.body.length = n then old.body
      else (List.range n).map fun i => s.codeAt g (start.toNat + 32 * i)
    pos := numAt bs 76 4
    swap := old.swap }

/-- A status of a batch or of the accumulator. -/
def statOf (bs : List Byte) : BStat :=
  if numAt bs 0 1 = 2 then ⟨false, some ⟨BitVec.ofNat 8 (numAt bs 1 1), BitVec.ofNat 48 (numAt bs 2 6)⟩⟩ else ⟨bit (numAt bs 0 1) 0, none⟩

/-- A batch: its copies by their numbers as they were kept, with the status of the area. -/
def batchOf (old : Batch) (bs : List Byte) : Batch :=
  ⟨old.ids.take (numAt bs 8 4), old.pend.take (numAt bs 12 4), statOf bs⟩

def State.restoreNest (s : State) (g : Core) (off : Nat) : Vector NestLevel 6 :=
  vtab 6 fun i =>
    let n := ofBytes (s.readPart g (off + 16 * i) 16)
    ⟨BitVec.ofNat 32 n, BitVec.ofNat 32 (field n 32 32), BitVec.ofNat 32 (field n 64 32), BitVec.ofNat 3 (field n 96 3)⟩

/-- What the area holds of an engine; its copies are those it still carries out (R325). -/
def State.restoreEngine (s : State) (g : Core) (e : Engine) (off : Nat) : Engine :=
  let bs := s.readPart g off 512
  { e with
    nest := s.restoreNest g off
    stamp := BitVec.ofNat 63 (numAt bs 96 8)
    acc := statOf (bs.drop 104)
    open_ := batchOf e.open_ (bs.drop 120)
    closed := (e.closed.take (numAt bs 112 8)).zipIdx.map fun p => batchOf p.1 (bs.drop (136 + 16 * p.2)) }

/-- The indices below n whose bit is set. -/
def onesBelow (n : Nat) (bs : List Byte) : List Nat :=
  let w := ofBytes bs
  (List.range n).filter (bit w)

/-- The Tumbler's set; its handles are those that were kept (L13). -/
def State.restoreSet (s : State) (g : Core) (t : TumSet) : TumSet :=
  let bs := s.readPart g 0x8000 32
  let count := min 65536 (numAt bs 0 4)
  let marks (off : Nat) : List Nat := onesBelow count (s.readPart g off ((count + 7) / 8))
  let counts := s.readPart g 0xF000 ((count + 1) / 2)
  { t with
    count := count
    ntile := min 4 (numAt bs 4 1)
    defer := numAt bs 5 1 % 16
    table := BitVec.ofNat 64 (numAt bs 8 8)
    map := BitVec.ofNat 21 (numAt bs 16 4)
    ready := marks 0x9000
    handed := marks 0xB000
    visited := marks 0xD000
    counts := (List.range count).map fun i => field (numAt counts (i / 2) 1) (4 * (i % 2)) 4 }

/-- The monitor: armed on the saved address with the saved value (R231). -/
def State.restoreMon (s : State) (g : Core) : Option Monitor :=
  let a := (s.readWord g 0x090).toNat
  let va := a / 2 * 2
  if a % 2 = 0 then none
  else match g.mon with
    | some m => if m.addr.toNat / 2 * 2 = va then some { m with was := s.readWord g 0x098 }
      else (s.spacePa g.csr.sec false va).map fun pa => ⟨BitVec.ofNat 64 va, pa, s.readWord g 0x098⟩
    | none => (s.spacePa g.csr.sec false va).map fun pa => ⟨BitVec.ofNat 64 va, pa, s.readWord g 0x098⟩

/-- Bytes at an offset as memory cells. -/
def cellsAt (off : Nat) (bs : List Byte) : List Host.Cell :=
  (bs.zip (List.range bs.length)).filterMap fun p => if p.1 = 0 then none else some (off + p.2, p.1)

/-- The grant table of the placed task (R370). -/
def State.readGrants (s : State) (sec : Bool) (ctx : Nat) : List Grant :=
  (chunks 16 ((s.spaceRead sec (ctx + 0x800) 128).getD [])).map fun b =>
    let n := ofBytes b
    ⟨BitVec.ofNat 16 n, BitVec.ofNat 8 (field n 16 8), BitVec.ofNat 32 (field n 32 32), BitVec.ofNat 32 (field n 64 32),
      BitVec.ofNat 32 (field n 96 32)⟩

/-- The memories of the task: claimed SCRATCH banks, halves with their CLEAN bits, accumulator rows. -/
def State.restoreMem (s : State) (g : Core) (m : CoreMem) : CoreMem :=
  { m with
    sram := g.savedBanks.flatMap fun n => cellsAt (65536 * n) (s.readPart g (scratchAt (65536 * n)) 65536)
    ih := (halvesHeld g).flatMap fun o => cellsAt o (s.readPart g (halfAt o) 65536)
    ihClean := g.mem.ihClean.filter fun l => g.halfClaimed (128 * l) &&
      match s.spacePa g.csr.sec false (g.claim.ctx.toNat + halfAt (128 * l)) with
      | some pa => s.store.cleanHalves.contains (pa / 128)
      | none => false
    activeHi := bit (s.readWord g 0x080).toNat 0
    badWords := g.mem.badWords
    opbuf := [] }

/-- A captured operand. -/
def operandOf (h : Handle) (bs : List Byte) : Handle :=
  { h with desc := BitVec.ofNat 1024 (numAt bs 0 128), cursor := vtab 6 fun i => BitVec.ofNat 32 (numAt bs (128 + 4 * i) 4) }

/-- Held operations, one after the other; one that the part has no room for stands as it was kept. -/
def restoreOps : List Byte → List MOp → List MOp × List Byte
  | bs, [] => ([], bs)
  | bs, o :: l =>
    if o.held then
      let r := restoreOps (bs.drop (heldOp o).length) l
      if bs.length < (heldOp o).length then (o :: r.1, r.2)
      else ({ o with
        base := numAt bs 0 4
        reps := o.next + numAt bs 4 2
        nextAt := numAt bs 6 2
        cfg := BitVec.ofNat 7 (numAt bs 8 8)
        hA := operandOf o.hA (bs.drop 16)
        hB := operandOf o.hB (bs.drop 168) } :: r.1, r.2)
    else
      let r := restoreOps bs l
      (o :: r.1, r.2)

/-- Held scale loads. -/
def restoreLoads : List Byte → List ScaleLoad → List ScaleLoad
  | _, [] => []
  | bs, x :: l =>
    if x.held then
      let n := (heldLoad x).length
      (if bs.length < n then x
        else { x with due := numAt bs 0 8, xs := (List.range x.xs.length).map fun i => BitVec.ofNat 16 (numAt bs (8 + 2 * i) 2) }) ::
        restoreLoads (bs.drop n) l
    else x :: restoreLoads bs l

def State.restoreMatrix (s : State) (g : Core) : Matrix :=
  let held := s.readPart g 0x21C0 (heldBytes g).length
  let ops := restoreOps held g.mx.ops
  { g.mx with
    ops := ops.1
    loads := restoreLoads ops.2 g.mx.loads
    cfg := BitVec.ofNat 7 (s.readWord g 0x088).toNat
    scA := vtab 128 fun i => BitVec.ofNat 16 (ofBytes (s.readPart g (0x2000 + 2 * i) 2))
    scB := vtab 96 fun i => BitVec.ofNat 16 (ofBytes (s.readPart g (0x2100 + 2 * i) 2))
    acc := (rowRanges g.claim.rows.toNat).foldl (fun (l : List (Nat × BitVec 512)) p =>
      (List.range p.2).foldl (fun l i => cellPut 0 l (p.1 + i) (BitVec.ofNat 512 (ofBytes (s.readPart g (rowAt (p.1 + i)) 64)))) l) [] }

/-- What a placement reads of the context area can be read in the task's world: the grant table, and at a restore the image (R345,
R365, R370). -/
def State.contextReadable (s : State) (t : Task) : Bool :=
  (s.spaceRead t.record.sec (t.record.ctx.toNat + 0x800) 128).isSome && match t.ctx with
  | some g => (imageOf g).all fun p => (s.spaceRead g.csr.sec (g.claim.ctx.toNat + p.1) p.2.length).isSome
  | none => true

/-- R345: every field of R344 set back on the core in focus, and the task resumes as RFT does; within a handler it stays there, while a
task that a trap has halted resumes the loop that the trap interrupted (R114).  The claimed CACHE banks restart empty (R265). -/
def State.restoreContext (s : State) (t : Task) (g : Core) : State :=
  let roles := s.readWord g 0x038
  let s := ((applyBankrole s roles).onCore fun c => { c with claim := g.claim }).drainCore.onCore acquireCore
  let csr := { s.restoreCsr g t with bankrole := roles }
  let flags := (s.readWord g 0x080).toNat
  let handler := bit flags 1
  let shadow := if bit flags 3 then some (s.loopOf g (g.shadow.getD g.loopSt) 0x500) else none
  let stays := handler && !g.trapHalt
  let c : Core := { g with
    stat := .running
    task := some t.id
    issued := true
    frozen := s.core.frozen
    regs := s.restoreRegs g csr.qmode
    csr := csr
    wdcount := (s.readWord g 0x060).toNat
    mon := s.restoreMon g
    stall := none
    loopSt := s.loopOf g g.loopSt 0x480
    shadow := if stays then none else shadow
    trapHalt := false
    eng0 := s.restoreEngine g g.eng0 0x1A00
    eng1 := s.restoreEngine g g.eng1 0x1C00
    tum := { g.tum with set := g.tum.set.map (s.restoreSet g) }
    mx := s.restoreMatrix g
    claim := { g.claim with grants := s.readGrants g.csr.sec g.claim.ctx.toNat }
    mem := s.restoreMem g s.core.mem }
  let s := resumeAt { s with core := c }
  s.onCore fun k => { k with
    resumed := false
    inHandler := handler
    arrived := g.arrived
    released := g.released
    kept := g.kept
    shadow := if stays then shadow else none
    issued := true }

end Sys2Proof.Machine
end

