-- ==== Sys2Proof/Machine/Schedule.lean ====
section
/-! DEFINITION. The schedulers (R296 to R315): placement, parking and pre-emption, the end and the halt of a task, dependences,
promotion, supersteps, and the watchdog. -/

namespace Sys2Proof.Machine

/-! ### Instances (R310 to R313) -/

def Task.keys (t : Task) : List InstKey := [1, 2, 3, 4].filterMap t.key

/-- A task holds a slot of its pool (R299). -/
def Task.inPool (t : Task) : Bool := t.st != .discarded

/-- A level-4 instance with members on other devices (R310). -/
def Sched.spread (d : Sched) (i : Inst) : Bool :=
  i.key.level == 4 && (d.tasks.filter fun t => t.inPool && t.keys.contains i.key).length < i.expected

/-- The level-4 instances of a task that have members on other devices. -/
def State.fabricOf (s : State) (t : Task) : List Inst := s.sched.insts.filter fun i => t.keys.contains i.key && s.sched.spread i

/-- The other devices are told that a member has ended (R312, R369). -/
def State.tellEnd (s : State) (t : Task) : State :=
  (s.fabricOf t).foldl (fun (s : State) i => s.tellFabric 2 (Config.superstepFlit i.key.val 0 1)) s

/-- They are told that an instance has lost a member (R313, R369). -/
def State.tellLost (s : State) (l : List Inst) : State :=
  l.foldl (fun (s : State) i => if i.lost then s else s.tellFabric 3 (Config.containmentFlit i.key.val)) s

/-- Instances that have a member in a pool (R310). -/
def Sched.prune (d : Sched) : Sched :=
  { d with insts := d.insts.filter fun i => d.tasks.any fun t => t.inPool && t.keys.contains i.key }

/-- R312: a member that ends lowers the expected count. -/
def Sched.lower (d : Sched) (t : Task) : Sched :=
  { d with insts := d.insts.map fun i => if t.keys.contains i.key then { i with expected := i.expected - 1 } else i }

/-- R313: a halted or contained member loses its instances. -/
def Sched.lose (d : Sched) (t : Task) : Sched :=
  { d with insts := d.insts.map fun i => if t.keys.contains i.key then { i with lost := true } else i }

/-! ### The end of a task (R300, R303) -/

/-- An atomic add of 1 to the counter at DONEADDR; one that cannot be performed is dropped (L30). -/
def State.countDone (s : State) (t : Task) : State :=
  let pa := t.record.doneAddr.toNat
  if pa = 0 || !isMemory pa || s.deadHome pa || s.store.poison.contains (pa / 128) || (!t.record.sec && s.secureAddr pa) then s
  else s.devWrite pa (toBytes 8 (rdNat s.store.bytes pa 8 + 1))

/-- A task in error counts for its launch. -/
def Sched.countError (d : Sched) (lid : BitVec 16) : Sched :=
  { d with launches := d.launches.map fun l => if l.lid == lid then { l with errs := l.errs + 1 } else l }

/-- R124, R300: the task leaves its pool. -/
def State.endTask (s : State) (t : Task) (core : CoreId) (err : Option Err) : State :=
  let s := (s.countDone t).tellEnd t
  let s := match err with
    | some e => { s with sched := s.sched.countError t.lid }.taskEvent t 6 e.code.toNat core (BitVec.ofNat 64 e.detail.toNat) false
    | none => s
  let d := s.sched.lower t
  { s with sched := { d with tasks := d.tasks.filter fun u => u.id != t.id }.prune }

/-- The first error indication among the tokens; an exact matrix operation's error that no MSYNC has collected comes after them (R185). -/
def tokenErr (g : Regs) : Option Err := (g.k.toList.filterMap (·.err)).head?

/-- R124: everything the task issued is done. -/
def State.exitReady (s : State) : Bool :=
  let c := s.core
  c.flights.isEmpty && exactDone c && c.ops.isEmpty && c.eng0.queue.isEmpty && c.eng1.queue.isEmpty && c.eng0.closed.isEmpty &&
    c.eng1.closed.isEmpty && c.mx.ops.isEmpty && !(s.pushes.any fun p => p.src == c.id && !((s.ghosts c.id).any fun g => g.isOpen p.opId))

/-- A core whose task has ended: dirty lines written through, SP lines S (R282). -/
def State.leaveCore (s : State) : State :=
  let s := dropStash s.flushAll
  s.onCore fun c =>
    let still (l : CLine) : CLine := if l.st == .sp then { l with st := .s } else l
    freeCore { c with mem := { c.mem with lines := c.mem.lines.map still } }

/-- TASK_END (R124, R296, R300). -/
def State.finishTask (s : State) : State :=
  match s.taskOf s.core with
  | none => s
  | some t => match s.core.stat with
    | .leaving .exit =>
      if s.exitReady then
        let e := orErr (tokenErr s.core.regs) s.core.mx.err
        s.leaveCore.endTask t s.core.id e
      else s
    | .leaving (.inError e) => s.leaveCore.endTask t s.core.id (some e)
    | _ => s

def execTaskEnd (s : State) : Out := .next s.finishTask

/-! ### Saving and halting (R130, R343) -/

/-- The record of a halt: KIND 3 for the watchdog, else 5 (R315, R338). -/
def haltKind (code : BitVec 8) : Nat := if code = 0x02 then 3 else 5

/-- The task is halted: its record with its interrupt, and its instances lost (R130, R313). -/
def State.haltTask (s : State) (t : Task) (core : CoreId) (code : BitVec 8) (detail : Word) : State :=
  let s := (s.taskEvent t (haltKind code) code.toNat core detail true).tellLost (s.fabricOf t)
  { s with sched := (s.sched.lose t).modTask t.id fun u => { u with st := .halted, aged := false } }

/-- What the pool keeps of a task whose context has been saved (R306, R343). -/
def Task.away (t : Task) (g : Core) (st : TState) (clock : Nat) : Task :=
  { t with st := st, home := some g.id, ctx := some g, since := clock, promo := clock, prio := t.record.prio, aged := false, placedAt := clock }

/-- The save, and the state the task enters; a save that fails halts it with 0x54 (R343). -/
def State.saveTask (s : State) (st : TState) : State :=
  match s.taskOf s.core with
  | none => s
  | some t =>
    let r := s.saveContext false
    let s := { r.1 with sched := r.1.sched.modTask t.id fun u => u.away r.2.1 st s.clock }
    if r.2.2 then s else s.haltTask t r.2.1.id 0x54 0

/-- Every token-guarded operation has completed (R130). -/
def tokensDone (c : Core) : Bool := c.ops.isEmpty && c.eng0.queue.isEmpty && c.eng1.queue.isEmpty

/-- What a halt waits for before its save: exact results, and after HALT every token-guarded operation. -/
def haltReady (c : Core) (code : BitVec 8) : Bool := c.flights.isEmpty && exactDone c && (code != 0x51 || tokensDone c)

/-- TASK_HALTED (R121, R130, R291, R315, R338). -/
def State.halt (s : State) : State :=
  match s.core.stat with
  | .leaving (.halt code d) =>
    if haltReady s.core code then s.onCore fun c => { freezeCore c s.clock 0 with stat := .leaving (.haltSave code d) } else s
  | .leaving (.haltSave code d) =>
    match s.taskOf s.core with
    | none => s
    | some t =>
      if saveReady s.core then
        let r := s.saveContext (code == 0x55)
        let s := { r.1 with sched := r.1.sched.modTask t.id fun u => u.away r.2.1 .halted s.clock }
        if r.2.2 || code == 0x55 then s.haltTask t r.2.1.id code d else s.haltTask t r.2.1.id 0x54 0
      else s
  | _ => s

def execTaskHalted (s : State) : Out := .next s.halt

/-! ### Placement (R296 to R298, R305, R311) -/

/-- The roles of a first placement: ROLES for claimed banks, CACHE for the others. -/
def placedRoles (r : TaskRec) : Word :=
  BitVec.ofNat 64 (ghostRoles.ofDigits4 ((List.range 32).map fun n => if bit r.banks.toNat n then field r.roles.toNat (2 * n) 2 else 0))

/-- s1 to s8 hold ARGS, a1 the record's address. -/
def placedRegs (r : TaskRec) : Regs :=
  { Regs.reset with
    s := vtab 16 fun i => if 1 ≤ i ∧ i ≤ 8 then [r.args.getD (i - 1) 0] else []
    a := vtab 16 fun i => if i = 1 then r.addr else 0 }

def placedCsr (t : Task) : Csr :=
  let r := t.record
  { Csr.reset with
    bankrole := placedRoles r, quota := BitVec.ofNat 10 r.quota.toNat, wdwin := r.wdog, domn := r.domn, sec := r.sec
    task := r.task, prio := t.prio, launch := t.lid }

/-- The expansion of IPRE into the half of ENTRY, checked (R63, R211, R296). -/
def preloadM (sec : Bool) (base src : Nat) : EngM Bool := do
  let h := ofBytes (← engRead sec false src 16)
  expand sec base src 2048
  let body ← engRead sec false (src + 16) (field h 64 32)
  return csumOf body % 2 ^ 32 == field h 96 32

/-- PRELOAD: false where the stream is malformed or its checksum differs, and where it cannot be read (L89); none while it has to wait for
a page that is changing its bias (R286). -/
def State.preload (s : State) (r : TaskRec) (hi : Bool) : Option (State × Bool) :=
  let s := s.onCore fun c => { c with mem := { c.mem with activeHi := !hi } }
  let back (s : State) : State := s.onCore fun c => { c with mem := { c.mem with activeHi := hi } }
  match preloadM r.sec (iloBase + halfOff hi) r.ipre.toNat (.start s) with
  | .ok true x =>
    let ls := x.lines.filterMap fun l => match l with
      | .ih n => some n
      | .mem _ => none
    some (back (x.s.onCore fun c => { c with mem := { c.mem with ihClean := insertAll ls c.mem.ihClean } }), true)
  | .ok false x => some (back x.s, false)
  | .error _ x => if x.paused then none else some (back x.s, false)

/-- The preload of the task placed on the core in focus, where it has one. -/
def State.loadTask (s : State) (r : TaskRec) : State :=
  if r.ipre = 0 then s
  else match s.preload r (r.entryHalf.getD false) with
    | none => s.onCore fun c => { c with stat := .loading, issued := true }
    | some (s, ok) => s.onCore fun c => { c with
        stat := if ok then .running else .leaving (.inError ⟨0x53, 0⟩)
        readyAt := s.clock + 1, issued := true }

/-- A first placement on the core in focus. -/
def State.placeFirst (s : State) (t : Task) : State :=
  let r := t.record
  let s := (applyBankrole s (placedRoles r)).onCore acquireCore
  let hi := r.entryHalf.getD false
  State.loadTask (s.onCore fun c => { Core.reset c.id with
    stat := .running
    task := some t.id
    pc := BitVec.ofNat 48 r.entry.toNat
    readyAt := s.clock + 1
    issued := true
    frozen := c.frozen
    regs := placedRegs r
    csr := placedCsr t
    claim := ⟨r.banks, r.rows, r.ilo, r.ihi, r.ctx, s.readGrants r.sec r.ctx.toNat⟩
    mem := { CoreMem.reset with lines := c.mem.lines, icache := c.mem.icache, tlb := c.mem.tlb, ttc := c.mem.ttc, activeHi := hi } }) r

/-- R311: the first placement of a member binds a level-1 instance to the cluster. -/
def Sched.bindCluster (d : Sched) (t : Task) (core : CoreId) : Sched :=
  match t.key 1 with
  | some k => d.modInst k fun i => { i with cluster := some (i.cluster.getD (clusterOf core)) }
  | none => d

/-- A READY task takes the free core in focus; one whose context area cannot be read is halted (R365, L13). -/
def State.placeTask (s : State) (t : Task) : State :=
  let core := s.core.id
  if s.deadCore core then s.haltTask t core 0x55 0
  else if !s.contextReadable t then s.haltTask t core 0x54 0
  else
    let s := match t.ctx with
      | some g => s.restoreContext t g
      | none => s.placeFirst t
    let d := if t.home.isNone then s.sched.bindCluster t core else s.sched
    { s with draws := s.draws + 1
             sched := d.modTask t.id fun u => { u with st := .running core, home := some core, aged := false, placedAt := s.clock, ctx := none } }

/-- The preload that the core in focus waits with may be made. -/
def State.loadDue (s : State) (t : Task) : Bool :=
  s.core.stat == .loading && s.core.task == some t.id && (s.preload t.record (t.record.entryHalf.getD false)).isSome

/-- TASK_PLACEMENT (R296 to R298, R305); of a task that has its core already, the preload that had to wait. -/
def execTaskPlacement (task : Nat) (core : CoreId) (s : State) : Out :=
  .next (s.asCore core fun s =>
    match s.sched.task task with
    | some t => if s.loadDue t then s.loadTask t.record else if t.st == .ready && (s.core.stat == .idle || s.deadCore core) && eligible s.sched t core then s.placeTask t else s
    | none => s)

/-- The order of R305: higher current priority, then longer READY. -/
def Task.before (a b : Task) : Bool := b.prio.toNat < a.prio.toNat || (a.prio == b.prio && a.since < b.since)

/-- The tasks that may be placed next on a core: the first in the order, with all its equals. -/
def Sched.placeable (d : Sched) (c : CoreId) : List Task :=
  let l := d.tasks.filter fun t => t.st == .ready && eligible d t c
  l.filter fun t => !(l.any fun u => u.before t)

/-- The choice among equals is open (R305). -/
def State.nextPlaced (s : State) : Option Task :=
  let l := s.sched.placeable s.core.id
  l[Config.choice s.draws % (max 1 l.length)]?

/-! ### Parking and pre-emption (R307, R308, R340) -/

/-- R308: parkable, and a READY task may take the core. -/
def parkable (c : Core) : Bool := c.stat == .running && c.waiting && 1024 ≤ c.waited && !c.inHandler

/-- The first in R305's order of the READY tasks that a test holds of. -/
def Sched.firstReady (d : Sched) (p : Task → Bool) : Option Task :=
  (d.tasks.filter fun t => t.st == .ready && p t).foldl (fun (best : Option Task) t => match best with
    | some b => if t.before b then some t else best
    | none => some t) none

/-- The READY task for which the core in focus is parked. -/
def State.parkFor (s : State) : Option Task :=
  if parkable s.core && !s.deadCore s.core.id then s.sched.firstReady fun t => eligible s.sched t s.core.id else none

/-- The core freezes at the boundary after the clock, in which it has had its turn (R35, R307). -/
def State.freezeFor (s : State) (why : Leave) : State :=
  s.onCore fun c => { freezeCore c s.clock 0 with stat := .leaving why, issued := true }

/-- PARKING: the decision, then the save. -/
def State.park (s : State) : State :=
  match s.core.stat with
  | .leaving (.park _) => if saveReady s.core then s.saveTask .parked else s
  | _ => match s.parkFor with
    | some t => s.freezeFor (.park t.id)
    | none => s

def execParking (s : State) : Out := .next s.park

/-- A core that the scheduler may pre-empt for a READY task. -/
def State.preemptable (s : State) (t : Task) (c : Core) : Bool :=
  c.stat == .running && !c.inHandler && !c.resumed && !s.deadCore c.id && eligible s.sched t c.id &&
    match s.taskOf c with
    | some r => r.prio.toNat < t.prio.toNat || (t.aged && r.prio == 3)
    | none => false

/-- The lowest current priority first, then the task placed most recently. -/
def State.victimLt (s : State) (a b : Core) : Bool :=
  match s.taskOf a, s.taskOf b with
  | some x, some y => x.prio.toNat < y.prio.toNat || (x.prio == y.prio && y.placedAt < x.placedAt)
  | _, _ => false

/-- R307: the core pre-empted for a READY task; none while an eligible core is free, parkable, or on its way to be free for it; of equal
victims the lowest core (L88). -/
def State.victim (s : State) (t : Task) : Option CoreId :=
  let mine := s.cores.filter fun c => eligible s.sched t c.id && !s.deadCore c.id
  let free (c : Core) : Bool := match c.stat with
    | .running => parkable c
    | .leaving (.preempt u) | .leaving (.park u) => u == t.id
    | .idle => true
    | _ => false
  if mine.any free then none
  else ((mine.filter (s.preemptable t)).foldl (fun (best : Option Core) c => match best with
    | some b => if s.victimLt c b then some c else best
    | none => some c) none).map (·.id)

/-- The READY task for which the task of the core in focus is to be pre-empted. -/
def State.preemptFor (s : State) : Option Task :=
  if s.core.stat = .running then s.sched.firstReady fun t => s.victim t == some s.core.id else none

/-- PREEMPTION of the task on the core in focus: the decision, then the save; a YIELD that gives up the core is saved so as well
(R125). -/
def State.preempt (s : State) (task : Nat) : State :=
  if s.core.task != some task then s
  else match s.core.stat with
    | .leaving (.preempt _) | .leaving .yield => if saveReady s.core then s.saveTask .ready else s
    | _ => match s.preemptFor with
      | some t => s.freezeFor (.preempt t.id)
      | none => s

def execPreemption (task : Nat) (s : State) : Out := .next (s.preempt task)

/-- The condition of a parked task's wait; a barrier in its own SCRATCH is followed on its own image (R308, R325, R412). -/
def State.waitHolds (s : State) (g : Core) : Bool :=
  match g.stall with
  | some (.waitk k) => (g.regs.k.get k).count == 0
  | some (.waitb b ph) => match (if b.core == g.id && g.bankClaimed (bankOf b) && g.role (bankOf b) == 1 then some (barBytes g b)
      else s.barRead b) with
    | some n => bit n 32 != ph
    | none => true
  | some (.cbwait e1 n) => (g.eng e1).closed.length ≤ n
  | some .waitmon => match g.mon with
    | some m => s.deadHome m.pa || s.store.poison.contains (m.pa / 128) || s.homeWord g.csr.sec m.pa != m.was
    | none => true
  | some (.ssync level) => g.released || (match (s.sched.tasks.find? fun t => match t.ctx with
      | some k => k.id == g.id && k.task == g.task
      | none => false) with
    | some t => (t.key level.toNat).any fun k => (s.sched.inst k).any (·.lost)
    | none => true)
  | _ => true

/-- A saved task becomes READY, and its wait in READY is counted afresh. -/
def Task.ready (t : Task) (clock : Nat) : Task := { t with st := .ready, since := clock, promo := clock }

def State.parkedReady (s : State) (t : Task) : Bool := t.st == .parked && match t.ctx with
  | some g => s.waitHolds g
  | none => true

/-- PARKED_TASK_READY (R308). -/
def execParkedTaskReady (task : Nat) (s : State) : Out :=
  .next (match s.sched.task task with
    | some t => if s.parkedReady t then { s with sched := s.sched.modTask task fun u => u.ready s.clock } else s
    | none => s)

/-! ### Dependences and promotion (R299, R306) -/

/-- The counter at DEPADDR has reached DEPVAL; a counter that cannot be read satisfies nothing (L30). -/
def State.dependenceHolds (s : State) (t : Task) : Bool :=
  let pa := t.record.depAddr.toNat
  t.st == .dependent && isMemory pa && !s.deadHome pa && !s.store.poison.contains (pa / 128) && (t.record.sec || !s.secureAddr pa) &&
    t.record.depVal.toNat ≤ rdNat s.store.bytes pa 8

/-- DEPENDENCE_SATISFIED (R299). -/
def execDependenceSatisfied (task : Nat) (s : State) : Out :=
  .next (match s.sched.task task with
    | some t => if s.dependenceHolds t then { s with sched := s.sched.modTask task fun u => u.ready s.clock } else s
    | none => s)

/-- 16,384 µs in clocks. -/
def promotionClocks : Nat := 16384 * usClocks

def promotionDue (t : Task) (clock : Nat) : Bool := t.st == .ready && !t.aged && t.promo + promotionClocks ≤ clock

/-- PRIORITY_PROMOTION (R306). -/
def execPriorityPromotion (task : Nat) (s : State) : Out :=
  .next (match s.sched.task task with
    | some t =>
      if promotionDue t s.clock then { s with sched := s.sched.modTask task fun u =>
          if u.prio = 3 then { u with aged := true } else { u with prio := u.prio + 1, promo := s.clock } }
      else s
    | none => s)

/-! ### System software's requests (R299, R300) -/

/-- TASK_RESUME: a halted task enters READY. -/
def execTaskResume (task : Nat) (s : State) : Out :=
  .next (match s.sched.task task with
    | some t => if t.st == .halted then { s with sched := s.sched.modTask task fun u => { u.ready s.clock with prio := u.record.prio, aged := false } } else s
    | none => s)

/-- The engines hold nothing more of a saved context. -/
def contextDone (t : Task) : Bool := match t.ctx with
  | some g => g.ops.isEmpty && g.eng0.queue.isEmpty && g.eng1.queue.isEmpty
  | none => true

/-- TASK_DISCARD: the task ends in error; its copies go on (R300, R325). -/
def State.discard (s : State) (t : Task) : State :=
  let s := if t.st == .halted then s.countDone t else (s.countDone t).tellEnd t
  let d := if t.st == .halted then s.sched else s.sched.lower t
  let d := d.countError t.lid
  let d := if contextDone t then { d with tasks := d.tasks.filter fun u => u.id != t.id }
    else d.modTask t.id fun u => { u with st := .discarded }
  { s with sched := d.prune }

def execTaskDiscard (task : Nat) (s : State) : Out :=
  .next (match s.sched.task task with
    | some t => match t.st with
      | .halted | .dependent | .ready | .parked => s.discard t
      | .running _ | .discarded => s
    | none => s)

/-! ### Supersteps (R232, R312) -/

/-- A core or a saved context has arrived at a level and is not yet let go. -/
def arrivedAt (level : BitVec 3) (c : Core) : Bool :=
  !c.released && (c.arrived == some level ||
    (c.stat == .saved && c.stall == some (.ssync level) && c.ops.isEmpty && c.eng0.queue.isEmpty && c.eng1.queue.isEmpty))

/-- So has one whose SSYNC a trap has interrupted. -/
def Core.arrivedIn (c : Core) (level : BitVec 3) : Bool := arrivedAt level c || c.kept == some (level, false)

/-- The core or the saved context of a task. -/
def State.holder (s : State) (t : Task) : Option Core := match t.st with
  | .running c => some (s.coreAt c)
  | _ => t.ctx

/-- The members of an instance in the pools that have arrived. -/
def State.arrivals (s : State) (i : Inst) : Nat :=
  (s.sched.tasks.filter fun t => t.inPool && t.keys.contains i.key && match s.holder t with
    | some c => c.arrivedIn i.key.level
    | none => false).length

def State.superstepDue (s : State) (i : Inst) : Bool :=
  !i.lost && s.arrivals i != 0 && s.arrivals i + i.remote == i.expected

/-- The other devices are told of the arrivals at level-4 instances (R312, R369). -/
def State.announce (s : State) : State :=
  s.sched.insts.foldl (fun (s : State) i =>
    let n := s.arrivals i
    if i.told < n && s.sched.spread i then
      let s := s.tellFabric 2 (Config.superstepFlit i.key.val (n - i.told) 0)
      { s with sched := s.sched.modInst i.key fun k => { k with told := n } }
    else s) s

def letGo (level : BitVec 3) (c : Core) : Core :=
  let c := if c.kept == some (level, false) then { c with kept := some (level, true) } else c
  if arrivedAt level c then { c with arrived := some level, released := true } else c

/-- Every arrived member goes on. -/
def State.superstep (s : State) (i : Inst) : State :=
  let mine (t : Task) : Bool := t.inPool && t.keys.contains i.key
  let s := s.announce.mapCores fun c => if (s.taskOf c).any mine then letGo i.key.level c else c
  let f (t : Task) : Task := if mine t then { t with ctx := t.ctx.map (letGo i.key.level) } else t
  let s := { s with sched := { s.sched with tasks := s.sched.tasks.map f } }
  { s with sched := s.sched.modInst i.key fun k => { k with remote := 0, told := 0 } }

/-- SUPERSTEP_COMPLETE (R312) of an instance by its place in the list. -/
def execSuperstepComplete (inst : Nat) (s : State) : Out :=
  .next (match s.sched.insts[inst]? with
    | some i => if s.superstepDue i then s.superstep i else s
    | none => s)

/-! ### The watchdog (R314, R315, R340) -/

/-- The watchdog expires at the boundary after this clock. -/
def expiring (c : Core) : Bool := c.csr.wdwin != 0 && !c.waiting && c.csr.wdwin.toNat ≤ c.wdcount + 1

def watchdogDue (c : Core) : Bool := c.task.isSome && c.stat != .idle && c.csr.wdwin != 0 && c.csr.wdwin.toNat ≤ c.wdcount

/-- A task that the watchdog halts; one whose save has begun, that ends, or that is halted already, goes on with that. -/
def watchdogHalt (c : Core) : Core := match c.stat with
  | .leaving (.haltSave _ _) | .leaving (.inError _) => c
  | .leaving (.halt code _) => if code = 0x51 then { c with stat := .leaving (.halt 0x02 0) } else c
  | _ => { c with stat := .leaving (.halt 0x02 0), issued := true, stall := none, draining := 0 }

/-- The trap of an expiry may be taken: the task comes to a bundle boundary outside a handler. -/
def alarmDue (c : Core) : Bool := c.alarm && c.stat == .running && !c.inHandler

/-- WATCHDOG_EXPIRY.  The trap of a task that is leaving its core is taken at its next bundle boundary, when it has been placed again
(R314, R315); and so is one that is due already. -/
def State.watchdog (s : State) : State :=
  let trap (s : State) : State := enterTrap s ⟨0x02, 0, none, false, none, false⟩ s.core.pc 1
  if !watchdogDue s.core then (if alarmDue s.core then trap (s.onCore fun c => { c with alarm := false }) else s)
  else
    let s := s.onCore fun c => { c with wdcount := 0 }
    let c := s.core
    let en := c.csr.trapvec.toNat % 2 == 1
    if c.csr.wdfired || !en then s.onCore watchdogHalt
    else
      let s := s.onCore fun c => { c with csr := { c.csr with wdfired := true } }
      if c.inHandler then s else if c.stat != .running then s.onCore fun c => { c with alarm := true } else trap s

def execWatchdogExpiry (s : State) : Out := .next s.watchdog

end Sys2Proof.Machine
end

