-- ==== Sys2Proof/Machine/Host.lean ====
section
/-! DEFINITION. The host: launches (R301 to R303, R413 to R416), its reads and writes of memory (R286, R288, R359), and its snoops of
the device's copies (R286, R358). -/

namespace Sys2Proof.Machine

/-- EXT of a PW set: the host (R283). -/
def extWriter : Nat := 128

/-! ### The launch record (R301, R413) -/

structure LaunchRec where
  magic  : BitVec 32
  lid    : BitVec 16
  lflags : BitVec 16
  trec   : Word
  ntask  : Nat
  irqwin : Nat
  vec    : Nat
  zero26 : Nat
  status : Nat
  zero40 : Nat
deriving DecidableEq, Repr

def launchOf (bs : List Byte) : LaunchRec :=
  let n := ofBytes bs
  { magic := bvAt n 0 32, lid := bvAt n 4 16, lflags := bvAt n 6 16, trec := bvAt n 8 64, ntask := field n 128 32
    irqwin := field n 160 32, vec := field n 192 16, zero26 := field n 208 48, status := field n 256 64, zero40 := field n 320 192 }

/-- STATUS is 16-byte aligned and lies in host or device memory. -/
def LaunchRec.statusOk (r : LaunchRec) : Bool := r.status % 16 == 0 && isMemory r.status

/-- Every other field is valid; task records are 64-byte aligned (R294). -/
def LaunchRec.formOk (r : LaunchRec) : Bool :=
  r.magic == 0x584E4C52 && r.lflags.toNat ≤ 1 && r.trec.toNat % 64 == 0 && 1 ≤ r.ntask && r.ntask ≤ 4096 && r.irqwin ≤ 65535 &&
    r.vec ≤ 1023 && r.zero26 == 0 && r.zero40 == 0

/-- R302, R416: the status line; a line that cannot be written is left. -/
def State.writeStatus (s : State) (pa : Nat) (lid : BitVec 16) (code count : Nat) (seq : Word) : State :=
  if !isMemory pa || s.deadHome pa || s.hidden pa || s.secureAddr pa || s.store.poison.contains (pa / 128) then s
  else s.devWrite pa (toBytes 2 lid.toNat ++ toBytes 1 code ++ toBytes 1 0 ++ toBytes 4 count ++ toBytes 8 seq.toNat)

/-- The task records, read in the non-secure space; none where one cannot be read (R413, R414). -/
def State.launchRecords (s : State) (r : LaunchRec) : Option (List TaskRec) :=
  (List.range r.ntask).mapM fun i =>
    let a := r.trec.toNat + 192 * i
    (s.spaceRead false a 192).map (recordOf (BitVec.ofNat 64 a))

/-- The pools with every record, each checked beside those before it; none where one is rejected (R295, R301). -/
def Sched.takeAll (d : Sched) (lid : BitVec 16) (clock : Nat) : List TaskRec → Option Sched
  | [] => some d
  | r :: l => if r.ok d lid false then (d.take r lid clock).takeAll lid clock l else none

/-- No pool holds more than its 4,096 tasks. -/
def Sched.fits (d : Sched) : Bool := (List.range 4).all fun die => (d.tasks.filter fun t => t.inPool && t.die.val == die).length ≤ 4096

/-- R302: refused with a code, or the pools with the launch's tasks. -/
def State.decideLaunch (s : State) (r : LaunchRec) : Except Nat Sched :=
  if !s.host.lenable || !r.formOk then .error 1
  else if s.sched.launches.any fun l => l.lid == r.lid then .error 4
  else match s.launchRecords r with
    | none => .error 2
    | some recs => match s.sched.takeAll r.lid s.clock recs with
      | none => .error 2
      | some d =>
        if d.fits then .ok { d with launches := d.launches ++ [⟨r.lid, bit r.lflags.toNat 0, BitVec.ofNat 10 r.vec, r.irqwin, r.status, 0⟩] }
        else .error 3

/-- A refused record is counted. -/
def State.refuseLaunch (s : State) : State := { s with host := { s.host with lrefused := s.host.lrefused + 1 } }

/-- R283: EXT leaves every PW. -/
def clearExt (st : Store) : Store :=
  { st with pw := (st.pw.map fun p => (p.1, p.2.filter (· != extWriter))).filter fun p => p.2 != [] }

/-- The port takes or refuses a whole record. -/
def State.launch (s : State) (r : LaunchRec) : State :=
  if !r.statusOk then s.refuseLaunch
  else match s.decideLaunch r with
    | .error code => s.refuseLaunch.writeStatus r.status r.lid code 0 0
    | .ok d =>
      let s := { s with sched := d, store := clearExt s.store, host := { s.host with ltaken := s.host.ltaken + 1 } }
      s.writeStatus r.status r.lid 0 r.ntask 0

/-- A host access or a launch record that waits for a bias change (R288, R376). -/
def Instr.isLaunch : Instr → Bool
  | .launch _ _ => true
  | _ => false

/-- A page of the task records is changing its bias (R376). -/
def State.launchWaits (s : State) (r : LaunchRec) : Bool :=
  s.host.lenable && r.formOk && (pagePieces r.trec.toNat (192 * r.ntask)).any fun p => match s.walk false p.1 with
    | .ok x => s.biasChanging (x.paOf p.1)
    | .fail _ => false

def State.hold (s : State) (i : Instr) : State := { s with host := { s.host with pending := s.host.pending ++ [i] } }

/-- LAUNCH (R301): records are handled one at a time in their order of arrival (R362). -/
def execLaunch (record : List Byte) (aligned : Bool) (s : State) : Out :=
  .next (if !s.hostOpen then s
    else if record.length != 64 || !aligned then { s with host := { s.host with ldiscard := s.host.ldiscard + 1 } }
    else
      let r := launchOf record
      if s.host.pending.any Instr.isLaunch || s.launchWaits r then s.hold (.launch record aligned) else s.launch r)

/-! ### The end of a launch (R303) -/

/-- The launch has no task left in any pool. -/
def State.launchDone (s : State) (lid : BitVec 16) : Bool := !(s.sched.tasks.any fun t => t.inPool && t.lid == lid)

def State.endLaunch (s : State) (l : Launch) : State :=
  let s := s.raiseEvent ⟨1, 0, l.lid, 0, 0xFF, 0, BitVec.ofNat 64 l.status⟩
  let s := s.writeStatus l.status l.lid (if l.errs = 0 then 0x80 else 0x81) l.errs s.host.evseq
  let s := { s with sched := { s.sched with launches := s.sched.launches.filter fun k => k.lid != l.lid } }
  if l.irq then s.raiseIrq l.vec l.win else s

/-- LAUNCH_END: event record, ending status, interrupt, in this order (R303, R367). -/
def execLaunchEnd (lid : BitVec 16) (s : State) : Out :=
  .next (match s.sched.launches.find? fun l => l.lid == lid with
    | some l => if s.launchDone lid then s.endLaunch l else s
    | none => s)

/-! ### Host accesses (R286 to R288, R359) -/

/-- A place the host never reaches: a secure region, a frame pool or metadata region, the register region. -/
def State.hostBarred (s : State) (pa : Nat) : Bool := isReg pa || s.secureAddr pa || s.hidden pa

/-- Every address of the access, line by line. -/
def hostLines (pa n : Nat) : List Nat := (linePieces pa n).map (·.1)

/-- Host-biased lines the host may go on to cache (R286). -/
def State.hostCaches (s : State) (ls : List Nat) : State :=
  { s with store := { s.store with hostCopies := insertAll (ls.filter fun l => s.hostBiased (128 * l)) s.store.hostCopies } }

def State.hostReply (s : State) (bs : List Byte) (poisoned : Bool) : State := { s with host := { s.host with reply := (bs, poisoned) } }

/-- A read at the homes of its lines (R278): other copies become S. -/
def State.hostRead (s : State) (pa n : Nat) : State :=
  let ls := linesOf pa n
  let s := ls.foldl (fun (s : State) l => s.downgradeOthers l none) { s with store := touchAll s.store ls }
  let s := s.hostCaches ls
  if ls.any s.store.poison.contains then s.hostReply (List.replicate n 0) true else s.hostReply (rdBytes s.store.bytes pa n) false

/-- A write at the homes of its lines (R278, R283); a line with uncorrectable data takes only a write of all of it (R292). -/
def State.hostWrite (s : State) (pa : Nat) (bs : List Byte) : State :=
  let ls := linesOf pa bs.length
  if !linesOk s pa bs.length then s
  else
    let s := ls.foldl (fun (s : State) l => s.invalidateOthers l none) s
    (s.homeWrite extWriter pa bs).hostCaches ls

/-- HOST_MEM_ACCESS: a read of n bytes, or a write of `data`. -/
def execHostMemAccess (pa : Nat) (n : Nat) (data : Option (List Byte)) (s : State) : Out :=
  let len := match data with
    | some bs => bs.length
    | none => n
  let at_ := hostLines pa len
  .next (if !s.hostOpen || at_.any fun a => !present a then s
    else if at_.any s.hostBarred then
      match data with
      | some _ => s.hdropped
      | none => s.hostReply (List.replicate n 0) true
    else if at_.any s.deadHome then
      match data with
      | some _ => s
      | none => s.hostReply (List.replicate n 0) true
    else if at_.any s.biasChanging then s.hold (.hostMemAccess pa n data)
    else match data with
      | some bs => s.hostWrite pa bs
      | none => s.hostRead pa n)

/-- HOST_SNOOP (R286, R358): the device's copies of a line of host memory are dropped, its data standing at the home. -/
def execHostSnoop (pa : Nat) (s : State) : Out :=
  .next (if s.hostOpen && isHost pa then s.invalidateOthers (pa / 128) none else s)

end Sys2Proof.Machine
end

