-- ==== Sys2Proof/Machine/Crypto.lean ====
section
/-! DEFINITION. The algorithms that R372 and R373 name: SHA-512, MGF1, and RSASSA-PSS with RSA-4096, SHA-512 and a salt of 64 bytes.
The manual names them and does not repeat them: they are taken from their standards (FIPS 180-4, RFC 8017), PRESUMED (L15). -/

namespace Sys2Proof.Machine

/-! ### Numbers and bytes, most significant first -/

/-- The number of a list of bytes. -/
def ofBytesBe (bs : List Byte) : Nat := bs.foldl (fun n b => 256 * n + b.toNat) 0

/-- A number in n bytes. -/
def toBytesBe (n x : Nat) : List Byte := ((List.range n).map fun i => BitVec.ofNat 8 (x / 256 ^ i)).reverse

/-! ### SHA-512 -/

def shaKeys0 : List Nat :=
  [0x428A2F98D728AE22, 0x7137449123EF65CD, 0xB5C0FBCFEC4D3B2F, 0xE9B5DBA58189DBBC, 0x3956C25BF348B538,
   0x59F111F1B605D019, 0x923F82A4AF194F9B, 0xAB1C5ED5DA6D8118, 0xD807AA98A3030242, 0x12835B0145706FBE,
   0x243185BE4EE4B28C, 0x550C7DC3D5FFB4E2, 0x72BE5D74F27B896F, 0x80DEB1FE3B1696B1, 0x9BDC06A725C71235,
   0xC19BF174CF692694, 0xE49B69C19EF14AD2, 0xEFBE4786384F25E3, 0x0FC19DC68B8CD5B5, 0x240CA1CC77AC9C65]

def shaKeys1 : List Nat :=
  [0x2DE92C6F592B0275, 0x4A7484AA6EA6E483, 0x5CB0A9DCBD41FBD4, 0x76F988DA831153B5, 0x983E5152EE66DFAB,
   0xA831C66D2DB43210, 0xB00327C898FB213F, 0xBF597FC7BEEF0EE4, 0xC6E00BF33DA88FC2, 0xD5A79147930AA725,
   0x06CA6351E003826F, 0x142929670A0E6E70, 0x27B70A8546D22FFC, 0x2E1B21385C26C926, 0x4D2C6DFC5AC42AED,
   0x53380D139D95B3DF, 0x650A73548BAF63DE, 0x766A0ABB3C77B2A8, 0x81C2C92E47EDAEE6, 0x92722C851482353B]

def shaKeys2 : List Nat :=
  [0xA2BFE8A14CF10364, 0xA81A664BBC423001, 0xC24B8B70D0F89791, 0xC76C51A30654BE30, 0xD192E819D6EF5218,
   0xD69906245565A910, 0xF40E35855771202A, 0x106AA07032BBD1B8, 0x19A4C116B8D2D0C8, 0x1E376C085141AB53,
   0x2748774CDF8EEB99, 0x34B0BCB5E19B48A8, 0x391C0CB3C5C95A63, 0x4ED8AA4AE3418ACB, 0x5B9CCA4F7763E373,
   0x682E6FF3D6B2B8A3, 0x748F82EE5DEFB2FC, 0x78A5636F43172F60, 0x84C87814A1F0AB72, 0x8CC702081A6439EC]

def shaKeys3 : List Nat :=
  [0x90BEFFFA23631E28, 0xA4506CEBDE82BDE9, 0xBEF9A3F7B2C67915, 0xC67178F2E372532B, 0xCA273ECEEA26619C,
   0xD186B8C721C0C207, 0xEADA7DD6CDE0EB1E, 0xF57D4F7FEE6ED178, 0x06F067AA72176FBA, 0x0A637DC5A2C898A6,
   0x113F9804BEF90DAE, 0x1B710B35131C471B, 0x28DB77F523047D84, 0x32CAAB7B40C72493, 0x3C9EBE0A15C9BEBC,
   0x431D67C49C100D4C, 0x4CC5D4BECB3E42B6, 0x597F299CFC657E2A, 0x5FCB6FAB3AD6FAEC, 0x6C44198C4A475817]

/-- The constants of the 80 rounds. -/
def shaKeys : List Nat := shaKeys0 ++ shaKeys1 ++ shaKeys2 ++ shaKeys3

/-- The eight words of the hash. -/
structure Sha where
  a : Nat
  b : Nat
  c : Nat
  d : Nat
  e : Nat
  f : Nat
  g : Nat
  h : Nat

def Sha.start : Sha :=
  ⟨0x6A09E667F3BCC908, 0xBB67AE8584CAA73B, 0x3C6EF372FE94F82B, 0xA54FF53A5F1D36F1,
   0x510E527FADE682D1, 0x9B05688C2B3E6C1F, 0x1F83D9ABFB41BD6B, 0x5BE0CD19137E2179⟩

def shaRotr (k x : Nat) : Nat := (x / 2 ^ k) ||| (x * 2 ^ (64 - k)) % 2 ^ 64
def shaSum (k l m x : Nat) : Nat := shaRotr k x ^^^ shaRotr l x ^^^ shaRotr m x
def shaMix (k l m x : Nat) : Nat := shaRotr k x ^^^ shaRotr l x ^^^ (x / 2 ^ m)

/-- One round with its constant and its word of the message. -/
def Sha.round (k w : Nat) (s : Sha) : Sha :=
  let t := s.h + shaSum 14 18 41 s.e + ((s.e &&& s.f) ^^^ ((2 ^ 64 - 1 - s.e) &&& s.g)) + k + w
  let u := shaSum 28 34 39 s.a + ((s.a &&& s.b) ^^^ (s.a &&& s.c) ^^^ (s.b &&& s.c))
  ⟨(t + u) % 2 ^ 64, s.a, s.b, s.c, (s.d + t) % 2 ^ 64, s.e, s.f, s.g⟩

/-- The rounds of a block, with the 16 words of the message schedule that come next. -/
def shaRounds : List Nat → List Nat → Sha → Sha
  | k :: ks, w :: ws, s =>
    let x := (shaMix 19 61 6 (ws.getD 13 0) + ws.getD 8 0 + shaMix 1 8 7 (ws.getD 0 0) + w) % 2 ^ 64
    shaRounds ks (ws ++ [x]) (s.round k w)
  | _, _, s => s

/-- A block of 128 bytes. -/
def Sha.block (s : Sha) (bs : List Byte) : Sha :=
  let r := shaRounds shaKeys ((chunks 8 bs).map ofBytesBe) s
  let add (x y : Nat) : Nat := (x + y) % 2 ^ 64
  ⟨add s.a r.a, add s.b r.b, add s.c r.c, add s.d r.d, add s.e r.e, add s.f r.f, add s.g r.g, add s.h r.h⟩

/-- The message with its padding: whole blocks. -/
def shaPad (bs : List Byte) : List Byte :=
  bs ++ [0x80] ++ List.replicate ((239 - bs.length % 128) % 128) 0 ++ toBytesBe 16 (8 * bs.length)

/-- SHA-512. -/
def sha512 (bs : List Byte) : List Byte :=
  let s := (chunks 128 (shaPad bs)).foldl Sha.block .start
  [s.a, s.b, s.c, s.d, s.e, s.f, s.g, s.h].flatMap (toBytesBe 8)

/-! ### RSASSA-PSS -/

/-- MGF1 with SHA-512: n bytes from a seed. -/
def mgf1 (seed : List Byte) (n : Nat) : List Byte :=
  ((List.range ((n + 63) / 64)).flatMap fun i => sha512 (seed ++ toBytesBe 4 i)).take n

def xorBytes (a b : List Byte) : List Byte := List.zipWith (· ^^^ ·) a b

/-- b ^ e modulo n, from the lowest of `k` bits of e on. -/
def powMod (n : Nat) : Nat → Nat → Nat → Nat
  | 0, _, _ => 1 % n
  | k + 1, b, e => if e = 0 then 1 % n else (if e % 2 = 1 then b else 1) * powMod n k (b * b % n) (e / 2) % n

/-- RSA-4096: the modulus has 4,096 bits. -/
def rsaWide (k : RsaKey) : Bool := 2 ^ 4095 ≤ k.modulus && k.modulus < 2 ^ 4096

def rsaApply (k : RsaKey) (x : Nat) : Nat := powMod k.modulus 4096 x k.exponent

/-- H of a message's digest and a salt. -/
def pssHash (digest salt : List Byte) : List Byte := sha512 (List.replicate 8 0 ++ digest ++ salt)

/-- The first bit of the encoding is 0: a modulus of 4,096 bits takes 4,095. -/
def clearTop : List Byte → List Byte
  | [] => []
  | b :: l => (b &&& 0x7F) :: l

/-- The encoding of a message with a salt of 64 bytes, 512 bytes long. -/
def pssEncode (m salt : List Byte) : List Byte :=
  let h := pssHash (sha512 m) salt
  let db := List.replicate 382 0 ++ [0x01] ++ salt
  clearTop (xorBytes db (mgf1 h 447)) ++ h ++ [0xBC]

/-- The encoding verifies: its salt is read out of it, and the message with that salt encodes to it. -/
def pssVerify (m em : List Byte) : Bool :=
  let h := (em.drop 447).take 64
  let salt := (xorBytes (em.take 447) (mgf1 h 447)).drop 383
  em == pssEncode m salt

/-- A signature of 512 bytes verifies under a public key (R372). -/
def rsaVerify (k : RsaKey) (m sig : List Byte) : Bool :=
  rsaWide k && sig.length == 512 && ofBytesBe sig < k.modulus && pssVerify m (toBytesBe 512 (rsaApply k (ofBytesBe sig)))

/-- The signature of a message by a private key, with a salt (R373). -/
def rsaSign (k : RsaKey) (m salt : List Byte) : List Byte := toBytesBe 512 (rsaApply k (ofBytesBe (pssEncode m salt)))

/-- The digest of a public key's modulus and exponent, each of 4,096 bits (R372). -/
def keyDigest (k : RsaKey) : List Byte := sha512 (toBytesBe 512 k.modulus ++ toBytesBe 512 k.exponent)

end Sys2Proof.Machine
end

