-- ==== Sys2Proof/Machine/Platform.lean ====
section
/-! DEFINITION. Links and containment (R289 to R291, R368), power and temperature (R374), management messages (R373) and
bring-up (R372, R375). -/

namespace Sys2Proof.Machine

/-! ### Who is reached (R289) -/

def dieLinksAll : List (Fin 4 × Fin 4) := [(0, 1), (0, 2), (0, 3), (1, 2), (1, 3), (2, 3)]

/-- The dies that working die links join to a set of dies. -/
def joinDies (l : List (Fin 4 × Fin 4)) (ds : List (Fin 4)) : List (Fin 4) :=
  l.foldl (fun ds p => if ds.contains p.1 then insertNew p.2 ds else if ds.contains p.2 then insertNew p.1 ds else ds) ds

/-- The dies that a path joins to compute die 0, from which reach is judged (R289, L87). -/
def Platform.reached (p : Platform) : List (Fin 4) := joinDies p.dieLinks (joinDies p.dieLinks (joinDies p.dieLinks [0]))

/-- The agents that no path reaches from compute die 0 (R289, L87), with the peers of failed links. -/
def Platform.unreached (p : Platform) : List Agent :=
  let r := p.reached
  ((List.range 4).filterMap fun d => if r.contains (Fin.ofNat 4 d) then none else some (.die (Fin.ofNat 4 d))) ++
    ((List.range 8).filterMap fun b =>
      if r.contains (Fin.ofNat 4 (b / 2)) && p.baseLinks.contains (Fin.ofNat 8 b) then none else some (.base (Fin.ofNat 8 b))) ++
    (if p.hostLink then [] else [.host]) ++
    (List.range 12).filterMap fun l => if (vat p.links l).failed then some (.peer (Fin.ofNat 12 l)) else none

/-- A link that has failed. -/
def Platform.cut (p : Platform) : Link → Platform
  | .die a b => { p with dieLinks := p.dieLinks.filter fun q => q != (a, b) && q != (b, a) }
  | .base b => { p with baseLinks := p.baseLinks.filter (· != b) }
  | .host => { p with hostLink := false }
  | .peer l => { p with links := p.links.set l { p.links.get l with up := false, failed := true } }

/-! ### Writes whose invalidations a failing link cuts (R290) -/

/-- The lines that an operation of a slot writes; a synchronising access is a hold while its invalidations go out (R200). -/
def TokKind.writeLines : TokKind → List Nat
  | .sst a _ _ | .sstp a _ _ => [a.pa / 128]
  | .vst a act _ | .vstp a act _ _ => (vpieces a.va act).filterMap fun p => (a.xl p.1).map fun x => x.paOf p.1 / 128
  | _ => []

/-- The lanes that do not lie in a line. -/
def lanesOff (a : Lin) (act : Word) (line : Nat) : Word :=
  pmask fun i => plane act i && ((a.xl (a.va + 4 * i)).map fun x => x.paOf (a.va + 4 * i) / 128) != some line

/-- The containment error of a line. -/
def lostErr (line : Nat) : Err := ⟨0x2D, BitVec.ofNat 48 (128 * line)⟩

/-- The operation without its write of a line. -/
def TokOp.without (line : Nat) (o : TokOp) : TokOp :=
  { o with
    err := orErr o.err (some (lostErr line))
    kind := match o.kind with
      | .vst a act x => .vst a (lanesOff a act line) x
      | .vstp a act x cores => .vstp a (lanesOff a act line) x cores
      | _ => .ended }

/-- Whether the directory was sending the invalidations of a write when the link failed, and which sharers had acknowledged, is a free
choice (L77); the directory of a home that has died sends none.  Those that had acknowledged have lost their copies.  The answer says
that a sharer is now dead, so that the write is not performed; else the rest is sent again by another path. -/
def State.cutLine (s : State) (writer : Option CoreId) (line : Nat) : State × Bool :=
  let others := s.cores.filter fun c => some c.id != writer && listsLine line c
  let host := s.plat.dead.contains .host && s.store.hostCopies.contains line
  let next := { s with draws := s.draws + 1 }
  if (others.isEmpty && !host) || s.deadHome (128 * line) || Config.choice s.draws % 2 = 0 then (next, false)
  else
    (others.foldl (fun (s : State) c =>
      let next := { s with draws := s.draws + 1 }
      if s.deadCore c.id || Config.choice s.draws % 2 = 0 then next else next.modCore c.id (dropLine line)) next,
     host || others.any fun c => s.deadCore c.id)

/-- The core whose own copy a write does not invalidate. -/
def writerOf (c : Core) : Option CoreId := if c.stat = .saved then none else some c.id

/-- A write in flight of a core's slots. -/
def State.cutOp (s : State) (c : Core) (o : TokOp) : State :=
  if s.clock ≤ o.issue || !c.settled o.after then s
  else o.kind.writeLines.foldl (fun (s : State) l =>
    let r := s.cutLine (writerOf c) l
    if r.2 then r.1.mapContexts fun k => { k with ops := k.ops.map fun p => if p.id = o.id then p.without l else p } else r.1) s

/-- A synchronising write, or the write of a descriptor, that holds its bundle: the error is precise. -/
def State.cutHold (s : State) (c : Core) (h : Hold) : State :=
  match h.line with
  | none => s
  | some l =>
    if h.done || s.clock ≤ h.since || !c.settled h.after then s
    else
      let r := s.cutLine (writerOf c) l
      if r.2 then r.1.modCore c.id fun k => { k with holds := k.holds.map fun q =>
        if q.id = h.id then { q with done := true, err := some (lostErr l) } else q } else r.1

/-- The counters that the next choice of a CDISP may add to. -/
def dispCounters (s : State) (k : Copy) (a : Word) : List Nat :=
  match (dispRecord s k a).map DispRec.plain with
  | none => []
  | some r =>
    if k.prog.pos = 0 || r.total < k.prog.pos then []
    else r.rcnt :: match peekLin s k.sec (r.choiceAt (k.prog.pos - 1)) 2 with
      | some e => if e < r.nexp then [r.cnt + 4 * e] else []
      | none => []

/-- The linear addresses that a copy in progress writes next. -/
def Copy.nextWrites (s : State) (k : Copy) : List Nat :=
  (match k.kind with
    | .cpy d _ n v | .cpyl true d _ n v => [vaOf d + writtenOf k.prog.pos n v]
    | .cfill d _ _ _ => [vaOf d + k.prog.pos]
    | .cpytOut d _ _ => if k.prog.pos = 0 then [] else [vaOf d + (k.prog.pos - 1)]
    | .cxpose d _ c =>
      let size := xposeCols c * xposeWidth c * xposeRows c
      if k.prog.pos < size then [] else [vaOf d + (k.prog.pos - size)]
    | .cxpnd d _ _ => if k.prog.pos = 0 then [] else [vaOf d + 32 * (k.prog.pos - 1)]
    | .cstamp d _ _ => [vaOf d]
    | .cdisp a => dispCounters s k a
    | _ => []) ++ k.prog.subs.flatMap fun q => if q.pos < q.n then q.dst.vas q.pos else (q.flag.map (·.1)).toList

/-- The lines that a copy in progress writes next, in a page that it has translated or comes to. -/
def Copy.nextLines (s : State) (k : Copy) : List Nat :=
  (k.nextWrites s).filterMap fun v =>
    (s.engFind (k.prog.pages.xls ++ k.prog.subs.flatMap fun q => q.pages.xls) k.sec v).map (· / 128)

/-- What an access in flight writes through (R279): operations that release at cluster scope or wider. -/
def TokKind.releases : TokKind → Bool
  | .sstrl _ scope _ => scope != 0
  | .satom _ ctl scope _ _ => 2 ≤ ordOf ctl && scope != 0
  | .scas _ ctl scope _ _ _ => 2 ≤ ordOf ctl && scope != 0
  | .msync scope _ => scope != 0
  | .vstt h _ _ _ | .drained h _ => dScope h.desc != 0
  | .spawn _ | .irqh _ | .fence _ | .pubc _ _ => true
  | _ => false

/-- The dirty SELFINV lines of a core that are being written through: the bytes of one that is cut are lost, and `f` notes the error with
what writes them. -/
def State.cutDirty (s : State) (id : CoreId) (f : Err → State → State) : State :=
  (dirtyLines (s.coreAt id)).foldl (fun (s : State) l =>
    let r := s.cutLine (some id) l.line
    if r.2 then f (lostErr l.line) (r.1.modCore id fun c => { c with mem := { c.mem with
      lines := c.mem.lines.filter fun k => !(k.line == l.line && !k.st.isDir)
      stash := c.mem.stash.filter fun k => !(k.line == l.line && !k.st.isDir) } }) else r.1) s

/-- The write-through of an operation that releases. -/
def State.cutRelease (s : State) (c : Core) (o : TokOp) : State :=
  if s.clock ≤ o.issue || !c.settled o.after || !o.kind.releases then s
  else s.cutDirty c.id fun e s => s.mapContexts fun k => { k with ops := k.ops.map fun p =>
    if p.id = o.id then { p with err := orErr p.err (some e) } else p }

/-- A copy ends in error. -/
def State.failCopy (s : State) (c1 : Bool) (id : Nat) (e : Err) : State :=
  s.mapContexts fun g => g.modEng c1 fun x =>
    { x with queue := x.queue.map fun q => if q.id = id then { q with err := orErr q.err (some e) } else q }

/-- A copy's next writes, and what it has written in SELFINV lines. -/
def State.cutCopy (s : State) (c : Core) (c1 : Bool) (k : Copy) : State :=
  if !k.started || k.commits.isSome || k.err.isSome then s
  else
    let s := (k.nextLines (s.seenBy c)).foldl (fun (s : State) l =>
      let r := s.cutLine (writerOf c) l
      if r.2 then r.1.failCopy c1 k.id (lostErr l) else r.1) s
    s.cutDirty c.id fun e s => s.failCopy c1 k.id e

/-- Every write whose invalidations may have been on their way. -/
def State.cutWrites (s : State) : State :=
  s.contexts.foldl (fun (s : State) c =>
    let s := c.ops.foldl (fun (s : State) o => (s.cutOp c o).cutRelease c o) s
    let s := c.holds.foldl (fun (s : State) h => s.cutHold c h) s
    [false, true].foldl (fun (s : State) e => (c.eng e).queue.foldl (fun (s : State) k => s.cutCopy c e k) s) s) s

/-! ### Containment (R291, R313) -/

/-- Lines for which the directory lists a core: data, instructions, tile-table entries (R274, R352). -/
def Core.dirLines (c : Core) : List Nat :=
  ((c.mem.lines ++ c.mem.stash).filter fun l => l.st.isDir).map (·.line) ++ c.mem.icache ++ c.mem.ttc
def Core.mLines (c : Core) : List Nat := ((c.mem.lines ++ c.mem.stash).filter fun l => l.st == .m).map (·.line)
def Core.heldLines (c : Core) : List Nat := (c.mem.lines ++ c.mem.stash).map (·.line) ++ c.mem.icache ++ c.mem.ttc

/-- Every copy of some lines is discarded. -/
def discardLines (ls : List Nat) (c : Core) : Core :=
  fixInuse { c with mem := { c.mem with
    lines := c.mem.lines.filter fun l => !ls.contains l.line
    stash := c.mem.stash.filter fun l => !ls.contains l.line
    icache := c.mem.icache.filter fun l => !ls.contains l
    ttc := c.mem.ttc.filter fun l => !ls.contains l } }

/-- The task of a surviving core that holds an affected line is stopped at its next boundary, to be halted with 0x55. -/
def stopCore (clock : Nat) (c : Core) : Core :=
  match c.stat with
  | .running => { freezeCore c clock 1 with stat := .leaving (.halt 0x55 0), stall := none }
  | .leaving (.halt _ _) | .leaving (.haltSave _ _) => c
  | .leaving _ | .loading => { c with stat := .leaving (.halt 0x55 0) }
  | .idle | .saved => c

/-- Lines homed at a dead agent, or listed for a core of a dead die or for a host that is dead; lines held in M there are lost. -/
def State.containLines (s : State) : State :=
  let gone (c : Core) : Bool := s.deadCore c.id
  let listed := (s.cores.filter gone).flatMap Core.dirLines ++ if s.plat.dead.contains .host then s.store.hostCopies else []
  let lost := (s.cores.filter gone).flatMap Core.mLines
  let s := { s with store := { s.store with lost := insertAll lost s.store.lost } }
  let hit (c : Core) : List Nat := c.heldLines.filter fun l => s.deadHome (128 * l) || listed.contains l
  s.mapCores fun c =>
    if gone c then discardLines c.heldLines c
    else if (hit c).isEmpty then c
    else discardLines (hit c) (stopCore s.clock c)

/-- A task whose core, or whose pool, lies on a dead die. -/
def State.contained (s : State) (t : Task) : Bool :=
  s.plat.dead.contains (.die t.die) || match t.st with
    | .running c => s.deadCore c
    | _ => false

/-- Instances that have lost a member (R313, R376). -/
def State.containInsts (s : State) (peer : Bool) : State :=
  let bad (i : Inst) : Bool := (peer && s.sched.spread i) || s.sched.tasks.any fun t => t.keys.contains i.key && s.contained t
  let f (i : Inst) : Inst := if bad i then { i with lost := true } else i
  let s := s.tellLost (s.sched.insts.filter fun i => s.sched.spread i && s.sched.tasks.any fun t => t.keys.contains i.key && s.contained t)
  { s with sched := { s.sched with insts := s.sched.insts.map f } }

def Agent.isPeer : Agent → Bool
  | .peer _ => true
  | _ => false

/-- Agents newly declared dead, each with its record (R289). -/
def State.declareDead (s : State) (l : List Agent) : State :=
  let s := { s with plat := { s.plat with dead := s.plat.dead ++ l } }.cutWrites
  let s := s.containLines.containInsts (l.any Agent.isPeer)
  l.foldl (fun (s : State) a => s.agentEvent 2 0 a 0) s

/-- A link fails for good: a peer's link raises its link-event record, and what no path reaches any longer is dead. -/
def State.failLink (s : State) (l : Link) : State :=
  let old := s.plat.unreached
  let s := { s with plat := s.plat.cut l }
  let s := match l with
    | .peer n => s.agentEvent 7 0 (.peer n) 0
    | _ => s
  let new := s.plat.unreached.filter fun a => !old.contains a && !s.plat.dead.contains a
  if new.isEmpty then s.cutWrites else s.declareDead new

/-- The link is in use. -/
def Platform.linkUp (p : Platform) : Link → Bool
  | .die a b => p.dieLinks.contains (a, b) || p.dieLinks.contains (b, a)
  | .base b => p.baseLinks.contains b
  | .host => p.hostLink
  | .peer l => (p.links.get l).up

/-- LINK_FAILURE (R289, R291, R368); a link that is not up cannot fail. -/
def execLinkFailure (l : Link) (s : State) : Out := .next (if s.plat.linkUp l then s.failLink l else s)

/-! ### Flits (R368) -/

/-- The flit after forward error correction passes its CRC. -/
def flitOk (f : List Byte) : Bool := f.length == 256 && BitVec.ofNat 64 (ofBytes ((f.drop 238).take 8)) == Config.crc64 (f.take 238)

/-- A superstep message of another device: arrivals, and members that have ended there (R310, R312). -/
def State.superstepMessage (s : State) (m : BitVec 16 × Nat × Nat) : State :=
  { s with sched := s.sched.modInst ⟨4, 0, 0, m.1⟩ fun i => { i with remote := i.remote + m.2.1, expected := i.expected - m.2.2 } }

/-- An instance of the fabric has lost a member on another device (R313). -/
def State.containmentMessage (s : State) (fab : BitVec 16) : State :=
  { s with sched := s.sched.modInst ⟨4, 0, 0, fab⟩ fun i => { i with lost := true } }

/-- The peer's answer to a flit: an acknowledged flit and those before it leave the replay buffer, and a refused one is sent again.
After 8 failed replays of one flit the link has failed. -/
def State.flitAnswered (s : State) (l : Fin 12) (n : BitVec 10) (ok : Bool) : State :=
  if ok then s.modLink l fun k =>
    let out := ackedFlits n k.out
    if out.length = k.out.length then k else { k with out := out, replays := 0 }
  else if ((s.plat.links.get l).out.take 512).any fun f => flitNumber f == n then
    let s := s.modLink l fun k => { k with retries := k.retries + 1, replays := k.replays + 1 }
    if 9 ≤ (s.plat.links.get l).replays then s.failLink (.peer l) else s
  else s

/-- What a flit delivers, by its type; its payload's layout is not given (L38). -/
def State.deliverFlit (s : State) (l : Fin 12) (kind : Nat) (payload : List Byte) : State :=
  match kind with
  | 1 =>
    let parts := (s.plat.links.get l).parts ++ [payload]
    match Config.peerTransfer parts with
    | some x => ((s.modLink l fun k => { k with parts := [] }).receivePeer x).1
    | none => s.modLink l fun k => { k with parts := parts }
  | 2 => match Config.superstepMsg payload with
    | some m => s.superstepMessage m
    | none => s
  | 3 => match Config.containmentMsg payload with
    | some fab => s.containmentMessage fab
    | none => s
  | 4 => match Config.flitAnswer payload with
    | some a => s.flitAnswered l a.1 a.2
    | none => s
  | _ => s

/-- A flit that fails its check is refused by its number; after the flit and 8 replays have failed, so has the link. -/
def State.refuseFlit (s : State) (l : Fin 12) : State :=
  let s := s.modLink l fun k => answerFlit k.seq false { k with refused := k.refused + 1 }
  if 9 ≤ (s.plat.links.get l).refused then s.failLink (.peer l) else s

/-- FLIT_RECEIVE: the flit awaited is acknowledged and delivered, and any other number is passed over, since flits are delivered in
order; an acknowledgement takes no number of its own (L60). -/
def execFlitReceive (link : Fin 12) (flit : List Byte) (s : State) : Out :=
  let f := Config.fec flit
  let head := ofBytes (f.take 2)
  .next (if !(s.plat.links.get link).up then s
    else if !flitOk f then s.refuseFlit link
    else if field head 10 6 = 4 then s.deliverFlit link 4 ((f.drop 2).take 236)
    else if BitVec.ofNat 10 head != (s.plat.links.get link).seq then s
    else (s.modLink link fun k => answerFlit k.seq true { k with seq := k.seq + 1, refused := 0 }).deliverFlit link
      (field head 10 6) ((f.drop 2).take 236))

/-! ### Power and temperature (R374) -/

/-- The clocks of a power period (R374). -/
def periodClocks : Nat := 4200

/-- Clocks spread evenly over a period: `n` of its 4,200, from a phase on (R374). -/
def spreadClocks (n phase : Nat) : List Nat := (List.range periodClocks).filter fun i => (i + phase) * n % periodClocks < n

/-- The clocks of the next period in which the clusters of a die are frozen: none while its demand is within its grant. -/
def State.freezesOf (s : State) (demand : List Nat) (die : Nat) : List Nat :=
  if demand.getD die 0 ≤ Config.grant demand s.plat.pcap.toNat die then []
  else (spreadClocks (min periodClocks (Config.frozenClocks s.plat.periods die)) (Config.frozenPhase s.plat.periods die)).map (s.clock + 1 + ·)

/-- The present period has come to its end. -/
def State.periodDue (s : State) : Bool := (s.plat.periods + 1) * periodClocks ≤ s.clock

/-- POWER_PERIOD, every 4,200 clocks: the draw, which the cap bounds, is reported, and the next period's frozen clocks are fixed. -/
def execPowerPeriod (demand : List Nat) (s : State) : Out :=
  .next (if s.periodDue then
    let dies := vtab 4 (s.freezesOf demand)
    { s with plat := { s.plat with
      periods := s.plat.periods + 1
      pdraw := BitVec.ofNat 64 (min (Config.wattsOf demand) s.plat.pcap.toNat)
      freezes := vtab 16 fun k => vat dies (k / 4) } }
  else s)

/-- THERM: a die has passed 105 °C. -/
def execTherm (die : Fin 4) (s : State) : Out := .next { s with plat := { s.plat with therm := insertNew die s.plat.therm } }

/-- THERM_CLEAR: a die has fallen below 95 °C. -/
def execThermClear (die : Fin 4) (s : State) : Out := .next { s with plat := { s.plat with therm := s.plat.therm.filter (· != die) } }

/-! ### Bring-up (R364, R372, R375) -/

/-- A number of 4,096 bits. -/
def keySized (n : Nat) : Bool := ofBytesBe (toBytesBe 512 n) == n

/-- The signing key is one of RSA-4096, and the one whose digest is in the fuses. -/
def keyOk (fw : Firmware) : Bool := keyDigest fw.key == fw.fuses && keySized fw.key.modulus && keySized fw.key.exponent

/-- An image that the accepted key has signed, of a version the fuses allow; an image that is missing is rejected. -/
def imageOk (fw : Firmware) (i : Nat) : Bool := match fw.images[i]? with
  | some m => keyOk fw && rsaVerify fw.key m.bytes m.sig && fw.rollback ≤ m.version
  | none => false

/-- The first image rejected, of base-die, scheduler, management and link firmware, in boot order. -/
def rejectedImage (fw : Firmware) : Option Nat := findFrom (fun i => !imageOk fw i) (max 4 fw.images.length) 0

/-- The digests of the first images. -/
def measuresOf (fw : Firmware) (n : Nat) : List (List Byte) := (fw.images.take n).map fun m => sha512 m.bytes

/-- R364: without an owner's configuration entry 0 is non-secure over all device memory. -/
def regionsOpen : List Region := [⟨true, false, 0, 0x800000⟩]

/-- Which Maeluir links find a peer is not the device's to say (L39). -/
def trained (draws l : Nat) : LinkSt := { LinkSt.reset with up := Config.choice (draws + l) % 2 == 0 }

/-- MODULE_RESET: the state of reset, and bring-up as far as its images let it go; a host port that offers only 68-byte flits does not
attach (R358). -/
def State.bringUp (s : State) (fw : Firmware) : State :=
  let r := { State.reset with draws := s.draws + 12, inputs := s.inputs }
  let r := { r with plat := { r.plat with idKey := Config.identityKey } }
  match rejectedImage fw with
  | some i => { r with plat := { r.plat with bringup := .rejected i, measures := measuresOf fw (i + 1) } }
  | none => { r with plat := { r.plat with
      bringup := .done
      measures := measuresOf fw fw.images.length
      regions := fw.regions.getD regionsOpen
      links := vtab 12 (trained s.draws)
      dieLinks := dieLinksAll
      baseLinks := (List.range 8).map (Fin.ofNat 8)
      hostLink := fw.flit256 } }

def execModuleReset (fw : Firmware) (s : State) : Out := .next (s.bringUp fw)

/-! ### Management (R373) -/

/-- The region table's 64 entries as bytes. -/
def regionBytes (l : List Region) : List Byte :=
  (List.range 64).flatMap fun i => toBytes 8 (regionWord (regionAt l i) false).toNat ++ toBytes 8 (regionWord (regionAt l i) true).toNat

/-- MCTP_MESSAGE: the answer, from the measurements with the region table as last written; what is signed of it is signed with the
device identity key and a fresh salt (R373, L16). -/
def execMctpMessage (m : List Byte) (s : State) : Out :=
  let r := Config.mctpReply m (s.plat.measures ++ [regionBytes s.plat.regions])
  let salt := (List.range 64).map fun i => Config.freeByte (s.draws + i)
  let sig := match r.2 with
    | some x => rsaSign s.plat.idKey x salt
    | none => []
  .next { s with draws := s.draws + 64, host := { s.host with mctp := r.1 ++ sig } }

end Sys2Proof.Machine
end

