-- ==== Sys2Proof/Machine/Agenda.lean ====
section
/-! DEFINITION. Which event of the device comes next: what is due of the shared units at the start of a clock, and of the core in
focus before its bundle.  Every event named here changes the state, so that a clock comes to its end (L2). -/

namespace Sys2Proof.Machine

/-- The first entry of a list that is due, as an event. -/
def firstOf {α : Type} (l : List α) (p : α → Bool) (f : α → Instr) : Option Instr := (l.find? p).map f

/-- An event for a condition. -/
def onlyIf (p : Bool) (i : Instr) : Option Instr := if p then some i else none

/-- The first event of a list of candidates. -/
def firstEvent : List (Unit → Option Instr) → Option Instr
  | [] => none
  | f :: l => match f () with
    | some i => some i
    | none => firstEvent l

/-! ### The shared units -/

def State.barEvents (s : State) : Option Instr :=
  firstOf (s.posts.map (·.dst) ++ s.barSrcs.map (·.bar)) s.barDue fun b => .barrierUpdate b.core b.off

def State.pintleEvents (s : State) : Option Instr :=
  firstOf s.updates (fun u => s.updateAt u.entry == some u && s.commitDue u) fun u => .pintleCommit u.entry

def State.windowEvents (s : State) : Option Instr :=
  firstOf ((List.range 8).map (Fin.ofNat 8)) (fun b => (s.entgoDue b.val).isSome) .entgoUpdate

def State.taskEvents (s : State) : Option Instr :=
  firstEvent [
    fun _ => firstOf s.sched.tasks s.dependenceHolds fun t => .dependenceSatisfied t.id,
    fun _ => firstOf s.sched.tasks s.parkedReady fun t => .parkedTaskReady t.id,
    fun _ => firstOf s.sched.tasks (fun t => promotionDue t s.clock) fun t => .priorityPromotion t.id,
    fun _ => (findFrom (fun i => match s.sched.insts[i]? with
      | some k => s.superstepDue k
      | none => false) s.sched.insts.length 0).map .superstepComplete,
    fun _ => firstOf s.sched.launches (fun l => s.launchDone l.lid) fun l => .launchEnd l.lid]

/-- What the units outside the cores have to do at the start of a clock. -/
def State.deviceEvent (s : State) : Option Instr :=
  firstEvent [
    fun _ => onlyIf s.periodDue (.powerPeriod ((List.range 4).map (Config.demand s.plat.periods))),
    fun _ => s.barEvents,
    fun _ => firstOf s.pushes (pushDue s) fun p => .pushDelivery p.id,
    fun _ => s.pintleEvents,
    fun _ => s.windowEvents,
    fun _ => firstOf s.store.bias (fun p => s.biasDue p.1) fun p => .biasChangeComplete p.1,
    fun _ => onlyIf s.withdrawalDue .withdrawalComplete,
    fun _ => firstOf s.host.held (fun i => i.due ≤ s.clock) fun i => .interruptDelivery i.vec,
    fun _ => s.taskEvents]

/-! ### The core in focus -/

/-- The core's pipelines: landings, the matrix unit, staging. -/
def State.pipeEvent (s : State) : Option Instr :=
  let c := s.core
  firstEvent [
    fun _ => onlyIf ((c.flights.any fun f => f.due ≤ s.clock) || returnDue c) .resultLanding,
    fun _ => onlyIf (c.mx.loads.any fun l => !l.held && l.due ≤ s.clock) .scaleLanding,
    fun _ => onlyIf (completing c.mx s.clock).isSome .repetitionComplete,
    fun _ => onlyIf s.startable.isSome .repetitionStart,
    fun _ => firstOf c.fetches s.fetchDue fun f => .stagingFetchComplete f.id]

/-- The copies an engine may carry on. -/
def State.copyEvent (s : State) : Option Instr :=
  let ev (k : Copy) : Instr := if k.kind.isStamp then .stampWrite k.id else .copyComplete k.id
  firstEvent [
    fun _ => firstOf s.core.eng0.queue (copyDue s false) ev,
    fun _ => firstOf s.core.eng1.queue (copyDue s true) ev]

/-- The memory path and the engines of a context in focus. -/
def State.pathEvent (s : State) : Option Instr :=
  firstEvent [
    fun _ => firstOf s.core.ops s.opDue fun o => .tokenCompletion o.id,
    fun _ => s.copyEvent,
    fun _ => onlyIf (batchDue s.core.eng0) (.batchRetire false),
    fun _ => onlyIf (batchDue s.core.eng1) (.batchRetire true)]

/-- The same for the tasks saved from the core (R325). -/
def State.savedEvent (s : State) : Option Instr :=
  (s.ghosts s.core.id).foldl (fun (r : Option Instr) g => match r with
    | some i => some i
    | none => { s with before := s.core :: s.before, core := ghostCore g }.pathEvent) none

/-- An engine of the core, or of a task saved from it, may acknowledge a withdrawal. -/
def State.ackEvent (s : State) : Option Instr :=
  firstEvent [
    fun _ => onlyIf (s.ackDue false) (.shootdownAcknowledge false),
    fun _ => onlyIf (s.ackDue true) (.shootdownAcknowledge true)]

/-- When a fill or a walk is done is open (L8). -/
def State.coin (s : State) : Bool := Config.latency s.draws = 0 || Config.choice s.draws % 2 = 0

/-- The fill or the walk that the stalled bundle waits for. -/
def State.fetchEvent (s : State) : Option Instr :=
  match s.core.fetchWait, s.core.walkWait with
  | some va, _ => onlyIf (s.fillDue va && s.coin) .instructionFetch
  | none, some (sp, va) =>
    let open_ := (s.core.tlbFind sp va).isNone && !(s.core.walkFails.any fun f => f.1 == sp && f.2.1 == va / 4096)
    onlyIf (open_ && s.walkFree sp va && s.coin) (.pageWalk sp (BitVec.ofNat 48 va))
  | none, none => none

/-- What the scheduler does with a core whose task runs, leaves, or is gone. -/
def State.schedEvent (s : State) : Option Instr :=
  let c := s.core
  if watchdogDue c || alarmDue c then some .watchdogExpiry
  else match c.stat with
  | .idle => s.nextPlaced.map fun t => .taskPlacement t.id c.id
  | .loading => match s.taskOf c with
    | some t => onlyIf (s.loadDue t) (.taskPlacement t.id c.id)
    | none => none
  | .running => none
  | .leaving why => match why with
    | .exit => onlyIf (s.exitReady && (s.taskOf c).isSome) .taskEnd
    | .inError _ => onlyIf (s.taskOf c).isSome .taskEnd
    | .halt code _ => onlyIf (haltReady c code) .taskHalted
    | .haltSave _ _ => onlyIf (saveReady c && (s.taskOf c).isSome) .taskHalted
    | .park _ => onlyIf (saveReady c && (s.taskOf c).isSome) .parking
    | .preempt _ | .yield => if saveReady c && (s.taskOf c).isSome then c.task.map .preemption else none
  | .saved => none

/-- What is due of the core in focus. -/
def State.coreEvent (s : State) : Option Instr :=
  if s.deadCore s.core.id then s.nextPlaced.map fun t => .taskPlacement t.id s.core.id
  else firstEvent [
    fun _ => s.pipeEvent,
    fun _ => firstOf s.core.holds s.holdDue fun h => .accessPerformed h.id,
    fun _ => s.pathEvent,
    fun _ => s.savedEvent,
    fun _ => onlyIf (startableCopy s false).isSome (.copyStart false),
    fun _ => onlyIf (startableCopy s true).isSome (.copyStart true),
    fun _ => s.ackEvent,
    fun _ => firstOf s.core.tum.inflight (fun f => f.since + 1 + Config.latency f.draw ≤ s.clock) fun f => .prefetchArrival f.point,
    fun _ => s.fetchEvent,
    fun _ => s.schedEvent]

/-- The scheduler's decision in a clock, once the core in focus has had its turn: its bundle has issued, and the next one does not
(R307, R308).  A watchdog that expires at that boundary goes first (R340). -/
def State.boundaryEvent (s : State) : Option Instr :=
  if expiring s.core then none
  else if s.parkFor.isSome then some .parking
  else if s.preemptFor.isSome then s.core.task.map .preemption
  else none

/-- A bundle of the core in focus may issue in this clock. -/
def State.canIssue (s : State) : Bool :=
  s.core.stat == .running && !s.core.issued && s.core.readyAt ≤ s.clock && !s.core.frozen && !s.core.returning && !s.deadCore s.core.id

/-- The next event; once the core in focus has issued, or issues nothing in the clock, only the scheduler's decision is left of its
turn. -/
def State.nextEvent (s : State) : Option Instr :=
  if s.core.issued then s.boundaryEvent
  else match (if s.before.isEmpty then s.deviceEvent else none) with
    | some i => some i
    | none => match s.coreEvent with
      | some i => some i
      | none => if s.canIssue then none else s.boundaryEvent

end Sys2Proof.Machine
end

