-- ==== Sys2Proof/Machine/Pred.lean ====
section
/-! DEFINITION. The predicate instructions of slot X (R188 to R191). -/

namespace Sys2Proof.Machine

/-- A predicate result of latency 1 from predicate sources as landed (R188). -/
def predX (i : Instr) (o : FP) (f : (PReg → Word) → Word) (s : State) : Out :=
  runOp i 7 (guardOn · o.g) (do
    let c ← getCore
    landP 7 1 (pOfNat o.pd.val) (f fun p => c.regs.p.get p)) s

/-- The second predicate, in E[5:2] (R189). -/
def predE (o : FP) : PReg := pOfNat (o.e.toNat / 4)

def execPand (o : FP) (s : State) : Out := predX (.pand o) o (fun p => p o.pa &&& p (predE o)) s
def execPor (o : FP) (s : State) : Out := predX (.por o) o (fun p => p o.pa ||| p (predE o)) s
def execPxor (o : FP) (s : State) : Out := predX (.pxor o) o (fun p => p o.pa ^^^ p (predE o)) s
def execPandn (o : FP) (s : State) : Out := predX (.pandn o) o (fun p => p o.pa &&& ~~~p (predE o)) s
def execPnot (o : FP) (s : State) : Out := predX (.pnot o) o (fun p => ~~~p o.pa) s
def execPmov (o : FP) (s : State) : Out := predX (.pmov o) o (fun p => p o.pa) s

/-- R190: w is n, and 64 when n is 0. -/
def lowOnes (n : Nat) : Word := BitVec.ofNat 64 (2 ^ (if n = 0 then 64 else n) - 1)

def execPset (o : FP) (s : State) : Out := predX (.pset o) o (fun _ => lowOnes o.e.toNat) s
def execPclr (o : FP) (s : State) : Out := predX (.pclr o) o (fun _ => ~~~lowOnes o.e.toNat) s

/-- R191. -/
def execPcnt (o : FP) (s : State) : Out :=
  runOp (.pcnt o) 7 (guardOn · o.g) (do
    landS 7 1 o.pd (BitVec.ofNat 64 (popcount 64 ((← getCore).regs.p.get o.pa).toNat))) s

def execPfirst (o : FP) (s : State) : Out := predX (.pfirst o) o (fun p => p o.pa &&& (0 - p o.pa)) s
def execPshl (o : FP) (s : State) : Out := predX (.pshl o) o (fun p => p o.pa <<< o.e.toNat) s

end Sys2Proof.Machine
end

