-- ==== Sys2Proof/Machine/Scalar.lean ====
section
/-! DEFINITION. The scalar instructions of slot S but for its memory accesses: integer arithmetic and logic (R97 to
R100), loop counters (R101), compares (R102, R104), FP32 (R103, R105), RNDC (R106), queues (R107, R108) and address
registers (R109). -/

namespace Sys2Proof.Machine

/-- R97: shift and rotate amounts. -/
def amt (b : Word) : Nat := b.toNat % 64

/-- R97: the signed quotient rounded toward zero, with its boundary cases. -/
def divS (a b : Word) : Word := if b = 0 then allOnes else BitVec.ofInt 64 (a.toInt.tdiv b.toInt)
def divU (a b : Word) : Word := if b = 0 then allOnes else BitVec.ofNat 64 (a.toNat / b.toNat)
def remS (a b : Word) : Word := if b = 0 then a else BitVec.ofInt 64 (a.toInt.tmod b.toInt)
def remU (a b : Word) : Word := if b = 0 then a else BitVec.ofNat 64 (a.toNat % b.toNat)

/-- A two-source operation of slot S (R96, R97). -/
def aluS (i : Instr) (o : FR) (lat : Nat) (f : Word → Word → Word) (s : State) : Out :=
  runOp i 0 (guardOn · o.g) (do
    let a ← readSq 0 o.a
    let b ← srcBs 0 o.b
    landS 0 lat o.d (f a b)) s

/-- A one-source operation of slot S (R98, R100). -/
def unS (i : Instr) (o : FR) (f : Word → Word) (s : State) : Out :=
  runOp i 0 (guardOn · o.g) (do
    let a ← readSq 0 o.a
    landS 0 1 o.d (f a)) s

def execAdd (o : FR) (s : State) : Out := aluS (.add o) o 1 (fun a b => a + b) s
def execSub (o : FR) (s : State) : Out := aluS (.sub o) o 1 (fun a b => a - b) s
def execMul (o : FR) (s : State) : Out := aluS (.mul o) o 3 (fun a b => a * b) s
def execMulh (o : FR) (s : State) : Out := aluS (.mulh o) o 3 (fun a b => BitVec.ofInt 64 (a.toInt * b.toInt / 2 ^ 64)) s
def execMulhu (o : FR) (s : State) : Out := aluS (.mulhu o) o 3 (fun a b => BitVec.ofNat 64 (a.toNat * b.toNat / 2 ^ 64)) s
def execDiv (o : FR) (s : State) : Out := aluS (.div o) o 16 (fun a b => divS a b) s
def execDivu (o : FR) (s : State) : Out := aluS (.divu o) o 16 (fun a b => divU a b) s
def execRem (o : FR) (s : State) : Out := aluS (.rem o) o 16 (fun a b => remS a b) s
def execRemu (o : FR) (s : State) : Out := aluS (.remu o) o 16 (fun a b => remU a b) s
def execAnd (o : FR) (s : State) : Out := aluS (.and o) o 1 (fun a b => a &&& b) s
def execOr (o : FR) (s : State) : Out := aluS (.or o) o 1 (fun a b => a ||| b) s
def execXor (o : FR) (s : State) : Out := aluS (.xor o) o 1 (fun a b => a ^^^ b) s
def execAndn (o : FR) (s : State) : Out := aluS (.andn o) o 1 (fun a b => a &&& ~~~b) s
def execShl (o : FR) (s : State) : Out := aluS (.shl o) o 1 (fun a b => a <<< amt b) s
def execShr (o : FR) (s : State) : Out := aluS (.shr o) o 1 (fun a b => a >>> amt b) s
def execSra (o : FR) (s : State) : Out := aluS (.sra o) o 1 (fun a b => a.sshiftRight (amt b)) s
def execRol (o : FR) (s : State) : Out := aluS (.rol o) o 1 (fun a b => a.rotateLeft (amt b)) s
def execMin (o : FR) (s : State) : Out := aluS (.min o) o 1 (fun a b => if b.toInt < a.toInt then b else a) s
def execMax (o : FR) (s : State) : Out := aluS (.max o) o 1 (fun a b => if a.toInt < b.toInt then b else a) s
def execMinu (o : FR) (s : State) : Out := aluS (.minu o) o 1 (fun a b => if b.toNat < a.toNat then b else a) s
def execMaxu (o : FR) (s : State) : Out := aluS (.maxu o) o 1 (fun a b => if a.toNat < b.toNat then b else a) s

/-- R98: leading zeros, by the highest one. -/
def clz64 (a : Word) : Nat := if a = 0 then 64 else 63 - Nat.log2 a.toNat

def execClz (o : FR) (s : State) : Out := unS (.clz o) o (fun a => BitVec.ofNat 64 (clz64 a)) s
def execPopc (o : FR) (s : State) : Out := unS (.popc o) o (fun a => BitVec.ofNat 64 (popcount 64 a.toNat)) s
def execBrev (o : FR) (s : State) : Out := unS (.brev o) o (fun a => BitVec.ofNat 64 (bitrev 64 a.toNat)) s

/-- R99: G names the selecting predicate, and SEL is always enabled. -/
def execSel (o : FR) (s : State) : Out :=
  runOp (.sel o) 0 (fun _ => true) (do
    let a ← readSq 0 o.a
    let b ← srcBs 0 o.b
    landS 0 1 o.d (if guardOn (← getCore) o.g then a else b)) s

def execMov (o : FR) (s : State) : Out := unS (.mov o) o id s

/-- R101: the counter as landed by the issue clock. -/
def execMovCounter (o : FMovN) (s : State) : Out :=
  runOp (.movCounter o) 0 (guardOn · o.g) (do
    landS 0 1 o.d (((← getCore).loopSt.n.get o.n).zeroExtend 64)) s

def execMovi (o : FI) (s : State) : Out :=
  runOp (.movi o) 0 (guardOn · o.g) (landS 0 1 o.d (BitVec.ofInt 64 (immInt o.i))) s

def execAddi (o : FI) (s : State) : Out :=
  runOp (.addi o) 0 (guardOn · o.g) (do
    let a ← readSq 0 o.a
    landS 0 1 o.d (a + BitVec.ofInt 64 (immInt o.i))) s

/-- R102, R104: a compare writes its one-bit result to all 64 bits. -/
def cmpS (i : Instr) (o : FC) (lat : Nat) (f : Word → Word → Bool) (s : State) : Out :=
  runOp i 0 (guardOn · o.g) (do
    let a ← readS 0 o.a false
    let b ← srcCs 0 o.b
    landP 0 lat o.p (spread (f a b))) s

def execCmpeq (o : FC) (s : State) : Out := cmpS (.cmpeq o) o 1 (fun a b => a == b) s
def execCmpne (o : FC) (s : State) : Out := cmpS (.cmpne o) o 1 (fun a b => a != b) s
def execCmplt (o : FC) (s : State) : Out := cmpS (.cmplt o) o 1 (fun a b => a.toInt < b.toInt) s
def execCmple (o : FC) (s : State) : Out := cmpS (.cmple o) o 1 (fun a b => a.toInt ≤ b.toInt) s
def execCmpltu (o : FC) (s : State) : Out := cmpS (.cmpltu o) o 1 (fun a b => a.toNat < b.toNat) s
def execCmpleu (o : FC) (s : State) : Out := cmpS (.cmpleu o) o 1 (fun a b => a.toNat ≤ b.toNat) s

/-! ### FP32 -/

/-- The FP32 pattern of an operand (R75). -/
def f32of (x : Word) : Nat := x.toNat % 2 ^ 32

/-- A rounded result with its record, at lane 0 (R103, R105). -/
def fpS (i : Instr) (o : FR) (lat : Nat) (f : Nat → Nat → FRes) (s : State) : Out :=
  runOp i 0 (guardOn · o.g) (do
    let a ← readSq 0 o.a
    let b ← srcBs 0 o.b
    let r := f (f32of a) (f32of b)
    landAt 0 lat (.s o.d) (.w (BitVec.ofNat 64 r.1)) allOnes (r.2.map fun c => ⟨c, 0⟩)) s

def execSfadd (o : FR) (s : State) : Out := fpS (.sfadd o) o 3 (fpAdd fp32) s
def execSfsub (o : FR) (s : State) : Out := fpS (.sfsub o) o 3 (fpSub fp32) s
def execSfmul (o : FR) (s : State) : Out := fpS (.sfmul o) o 3 (fpMul fp32) s
def execSfdiv (o : FR) (s : State) : Out := fpS (.sfdiv o) o 12 (fpDiv fp32) s

def execSfcmplt (o : FC) (s : State) : Out := cmpS (.sfcmplt o) o 2 (fun a b => fpLt fp32 (f32of a) (f32of b)) s
def execSfcmpeq (o : FC) (s : State) : Out := cmpS (.sfcmpeq o) o 2 (fun a b => fpEq fp32 (f32of a) (f32of b)) s

/-- R105: the code is I4. -/
def execSfcvt (o : FI) (s : State) : Out :=
  runOp (.sfcvt o) 0 (guardOn · o.g) (do
    let a ← readSq 0 o.a
    let r := sfConvert (immCode o.i) a.toNat
    landAt 0 3 (.s o.d) (.w (BitVec.ofNat 64 r.1)) allOnes (r.2.map fun c => ⟨c, 0⟩)) s

/-! ### RNDC, queues, address registers -/

/-- R106: a pure function of key and counter. -/
def rndc (key ctr : Word) : Word :=
  let z := key + (ctr + 1) * 0x9E3779B97F4A7C15#64
  let z := (z ^^^ (z >>> 30)) * 0xBF58476D1CE4E5B9#64
  let z := (z ^^^ (z >>> 27)) * 0x94D049BB133111EB#64
  z ^^^ (z >>> 31)

def execRndc (o : FR) (s : State) : Out := aluS (.rndc o) o 4 rndc s

/-- R107: the new QMODE; the stall and the emptying are those of R12 and stand in the closing of the bundle. -/
def execQcfg (o : FI) (s : State) : Out :=
  runOp (.qcfg o) 0 (guardOn · o.g) (do
    let q := (← getCore).csr.qmode.toNat
    let q' := if o.a.r = 0 then setField q (2 * o.d.val) 2 (immCode o.i) else setField q (32 + o.d.val) 1 (immCode o.i)
    if q' != q then modIss fun i => { i with qmode := some (BitVec.ofNat 64 q') }) s

/-- R108: OCC, RES, DEPTH and QM of a queue. -/
def queueCounts (c : Core) (d : DName) : Nat :=
  if isQueue c.csr.qmode d then
    occupancy c d + 8 * (occupancy c d + inFlightTo c d) + 64 * depthOf c.csr.qmode d + 512
  else 1 + 8 + 64

/-- R108: the counts are read before any removal by later slots. -/
def execQcnt (o : FR) (s : State) : Out :=
  runOp (.qcnt o) 0 (guardOn · o.g) (do
    let d : DName := if o.b == .reg 1 false then .v o.a.r else .s o.a.r
    landS 0 1 o.d (BitVec.ofNat 64 (queueCounts (← getCore) d))) s

/-- R109: s to a. -/
def execAmov (o : FR) (s : State) : Out :=
  runOp (.amov o) 0 (guardOn · o.g) (do
    let a ← readSq 0 o.a
    landA 0 1 o.d a) s

/-- R109: a to s. -/
def execAmovToS (o : FR) (s : State) : Out :=
  runOp (.amovToS o) 0 (guardOn · o.g) (do
    landS 0 1 o.d ((← getCore).regs.a.get o.a.r)) s

def execAadd (o : FR) (s : State) : Out :=
  runOp (.aadd o) 0 (guardOn · o.g) (do
    let a := (← getCore).regs.a.get o.a.r
    let b ← srcBs 0 o.b
    landA 0 1 o.d (a + b)) s

end Sys2Proof.Machine
end

