-- ==== Sys2Proof/Machine/Dispatch.lean ====
section
/-! DEFINITION. The dispatch: one arm per constructor of `Instr`, each one direct call of its meaning. -/

namespace Sys2Proof.Machine

def exec (i : Instr) (s : State) : Host.Outcome State Fault Refusal :=
  match i with
  | .nop => Sys2Proof.Machine.execNop s
  | .add o => Sys2Proof.Machine.execAdd o s
  | .sub o => Sys2Proof.Machine.execSub o s
  | .mul o => Sys2Proof.Machine.execMul o s
  | .mulh o => Sys2Proof.Machine.execMulh o s
  | .mulhu o => Sys2Proof.Machine.execMulhu o s
  | .div o => Sys2Proof.Machine.execDiv o s
  | .divu o => Sys2Proof.Machine.execDivu o s
  | .rem o => Sys2Proof.Machine.execRem o s
  | .remu o => Sys2Proof.Machine.execRemu o s
  | .and o => Sys2Proof.Machine.execAnd o s
  | .or o => Sys2Proof.Machine.execOr o s
  | .xor o => Sys2Proof.Machine.execXor o s
  | .andn o => Sys2Proof.Machine.execAndn o s
  | .shl o => Sys2Proof.Machine.execShl o s
  | .shr o => Sys2Proof.Machine.execShr o s
  | .sra o => Sys2Proof.Machine.execSra o s
  | .rol o => Sys2Proof.Machine.execRol o s
  | .min o => Sys2Proof.Machine.execMin o s
  | .max o => Sys2Proof.Machine.execMax o s
  | .minu o => Sys2Proof.Machine.execMinu o s
  | .maxu o => Sys2Proof.Machine.execMaxu o s
  | .clz o => Sys2Proof.Machine.execClz o s
  | .popc o => Sys2Proof.Machine.execPopc o s
  | .brev o => Sys2Proof.Machine.execBrev o s
  | .sel o => Sys2Proof.Machine.execSel o s
  | .mov o => Sys2Proof.Machine.execMov o s
  | .movCounter o => Sys2Proof.Machine.execMovCounter o s
  | .movi o => Sys2Proof.Machine.execMovi o s
  | .addi o => Sys2Proof.Machine.execAddi o s
  | .cmpeq o => Sys2Proof.Machine.execCmpeq o s
  | .cmpne o => Sys2Proof.Machine.execCmpne o s
  | .cmplt o => Sys2Proof.Machine.execCmplt o s
  | .cmple o => Sys2Proof.Machine.execCmple o s
  | .cmpltu o => Sys2Proof.Machine.execCmpltu o s
  | .cmpleu o => Sys2Proof.Machine.execCmpleu o s
  | .sfadd o => Sys2Proof.Machine.execSfadd o s
  | .sfsub o => Sys2Proof.Machine.execSfsub o s
  | .sfmul o => Sys2Proof.Machine.execSfmul o s
  | .sfdiv o => Sys2Proof.Machine.execSfdiv o s
  | .sfcmplt o => Sys2Proof.Machine.execSfcmplt o s
  | .sfcmpeq o => Sys2Proof.Machine.execSfcmpeq o s
  | .sfcvt o => Sys2Proof.Machine.execSfcvt o s
  | .rndc o => Sys2Proof.Machine.execRndc o s
  | .qcfg o => Sys2Proof.Machine.execQcfg o s
  | .qcnt o => Sys2Proof.Machine.execQcnt o s
  | .amov o => Sys2Proof.Machine.execAmov o s
  | .amovToS o => Sys2Proof.Machine.execAmovToS o s
  | .aadd o => Sys2Proof.Machine.execAadd o s
  | .sld o => Sys2Proof.Machine.execSld o s
  | .sst o => Sys2Proof.Machine.execSst o s
  | .sldl o => Sys2Proof.Machine.execSldl o s
  | .sstl o => Sys2Proof.Machine.execSstl o s
  | .slda o => Sys2Proof.Machine.execSlda o s
  | .sstrl o => Sys2Proof.Machine.execSstrl o s
  | .satom o => Sys2Proof.Machine.execSatom o s
  | .scas o => Sys2Proof.Machine.execScas o s
  | .sstp o => Sys2Proof.Machine.execSstp o s
  | .vadd v1 o => Sys2Proof.Machine.execVadd v1 o s
  | .vsub v1 o => Sys2Proof.Machine.execVsub v1 o s
  | .vmul v1 o => Sys2Proof.Machine.execVmul v1 o s
  | .vfma v1 o => Sys2Proof.Machine.execVfma v1 o s
  | .vfms v1 o => Sys2Proof.Machine.execVfms v1 o s
  | .vmin v1 o => Sys2Proof.Machine.execVmin v1 o s
  | .vmax v1 o => Sys2Proof.Machine.execVmax v1 o s
  | .vabs v1 o => Sys2Proof.Machine.execVabs v1 o s
  | .vneg v1 o => Sys2Proof.Machine.execVneg v1 o s
  | .vdiv v1 o => Sys2Proof.Machine.execVdiv v1 o s
  | .vsqrt v1 o => Sys2Proof.Machine.execVsqrt v1 o s
  | .vexp2 v1 o => Sys2Proof.Machine.execVexp2 v1 o s
  | .vhadd v1 o => Sys2Proof.Machine.execVhadd v1 o s
  | .vhmul v1 o => Sys2Proof.Machine.execVhmul v1 o s
  | .vhfma v1 o => Sys2Proof.Machine.execVhfma v1 o s
  | .viadd v1 o => Sys2Proof.Machine.execViadd v1 o s
  | .visub v1 o => Sys2Proof.Machine.execVisub v1 o s
  | .vimul v1 o => Sys2Proof.Machine.execVimul v1 o s
  | .vimin v1 o => Sys2Proof.Machine.execVimin v1 o s
  | .vimax v1 o => Sys2Proof.Machine.execVimax v1 o s
  | .vand v1 o => Sys2Proof.Machine.execVand v1 o s
  | .vor v1 o => Sys2Proof.Machine.execVor v1 o s
  | .vxor v1 o => Sys2Proof.Machine.execVxor v1 o s
  | .vshl v1 o => Sys2Proof.Machine.execVshl v1 o s
  | .vshr v1 o => Sys2Proof.Machine.execVshr v1 o s
  | .vsra v1 o => Sys2Proof.Machine.execVsra v1 o s
  | .vcmpf v1 o => Sys2Proof.Machine.execVcmpf v1 o s
  | .vcmpi v1 o => Sys2Proof.Machine.execVcmpi v1 o s
  | .vsel v1 o => Sys2Proof.Machine.execVsel v1 o s
  | .vcvt v1 o fmt => Sys2Proof.Machine.execVcvt v1 o fmt s
  | .vpack v1 o => Sys2Proof.Machine.execVpack v1 o s
  | .vunpk v1 o => Sys2Proof.Machine.execVunpk v1 o s
  | .vperm v1 o => Sys2Proof.Machine.execVperm v1 o s
  | .vrot v1 o => Sys2Proof.Machine.execVrot v1 o s
  | .vbcast v1 o => Sys2Proof.Machine.execVbcast v1 o s
  | .viota v1 o => Sys2Proof.Machine.execViota v1 o s
  | .vscan v1 o => Sys2Proof.Machine.execVscan v1 o s
  | .vred v1 o => Sys2Proof.Machine.execVred v1 o s
  | .vcnz v1 o => Sys2Proof.Machine.execVcnz v1 o s
  | .vcomp v1 o => Sys2Proof.Machine.execVcomp v1 o s
  | .vexpd v1 o => Sys2Proof.Machine.execVexpd v1 o s
  | .vmov v1 o => Sys2Proof.Machine.execVmov v1 o s
  | .vld v1 o => Sys2Proof.Machine.execVld v1 o s
  | .vst v1 o => Sys2Proof.Machine.execVst v1 o s
  | .vldl v1 o => Sys2Proof.Machine.execVldl v1 o s
  | .vstl v1 o => Sys2Proof.Machine.execVstl v1 o s
  | .vgath v1 o => Sys2Proof.Machine.execVgath v1 o s
  | .vscat v1 o => Sys2Proof.Machine.execVscat v1 o s
  | .vldff v1 o => Sys2Proof.Machine.execVldff v1 o s
  | .vldt v1 o => Sys2Proof.Machine.execVldt v1 o s
  | .vstt v1 o => Sys2Proof.Machine.execVstt v1 o s
  | .vstp v1 o => Sys2Proof.Machine.execVstp v1 o s
  | .vxfer v1 o => Sys2Proof.Machine.execVxfer v1 o s
  | .vxferConst v1 o => Sys2Proof.Machine.execVxferConst v1 o s
  | .vxferCross v1 o => Sys2Proof.Machine.execVxferCross v1 o s
  | .vins v1 o => Sys2Proof.Machine.execVins v1 o s
  | .mma rep o => Sys2Proof.Machine.execMma rep o s
  | .mmaz rep o => Sys2Proof.Machine.execMmaz rep o s
  | .mdrn o => Sys2Proof.Machine.execMdrn o s
  | .mfill o => Sys2Proof.Machine.execMfill o s
  | .mzero o => Sys2Proof.Machine.execMzero o s
  | .mcfg o => Sys2Proof.Machine.execMcfg o s
  | .msync o => Sys2Proof.Machine.execMsync o s
  | .mldcb o => Sys2Proof.Machine.execMldcb o s
  | .mstat o => Sys2Proof.Machine.execMstat o s
  | .pand o => Sys2Proof.Machine.execPand o s
  | .por o => Sys2Proof.Machine.execPor o s
  | .pxor o => Sys2Proof.Machine.execPxor o s
  | .pandn o => Sys2Proof.Machine.execPandn o s
  | .pnot o => Sys2Proof.Machine.execPnot o s
  | .pmov o => Sys2Proof.Machine.execPmov o s
  | .pset o => Sys2Proof.Machine.execPset o s
  | .pclr o => Sys2Proof.Machine.execPclr o s
  | .pcnt o => Sys2Proof.Machine.execPcnt o s
  | .pfirst o => Sys2Proof.Machine.execPfirst o s
  | .pshl o => Sys2Proof.Machine.execPshl o s
  | .scld o => Sys2Proof.Machine.execScld o s
  | .sczero o => Sys2Proof.Machine.execSczero o s
  | .cpy c1 o => Sys2Proof.Machine.execCpy c1 o s
  | .cpyl c1 o => Sys2Proof.Machine.execCpyl c1 o s
  | .cpyt c1 o => Sys2Proof.Machine.execCpyt c1 o s
  | .cxpose c1 o => Sys2Proof.Machine.execCxpose c1 o s
  | .cnest c1 o => Sys2Proof.Machine.execCnest c1 o s
  | .crun c1 o => Sys2Proof.Machine.execCrun c1 o s
  | .cstamp c1 o => Sys2Proof.Machine.execCstamp c1 o s
  | .cbclose c1 o => Sys2Proof.Machine.execCbclose c1 o s
  | .cfp c1 o => Sys2Proof.Machine.execCfp c1 o s
  | .ccmp c1 o => Sys2Proof.Machine.execCcmp c1 o s
  | .csum c1 o => Sys2Proof.Machine.execCsum c1 o s
  | .cxpnd c1 o => Sys2Proof.Machine.execCxpnd c1 o s
  | .cpush c1 o => Sys2Proof.Machine.execCpush c1 o s
  | .cpeer c1 o => Sys2Proof.Machine.execCpeer c1 o s
  | .cdisp c1 o => Sys2Proof.Machine.execCdisp c1 o s
  | .binit c1 o => Sys2Proof.Machine.execBinit c1 o s
  | .barrive c1 o => Sys2Proof.Machine.execBarrive c1 o s
  | .bexpect c1 o => Sys2Proof.Machine.execBexpect c1 o s
  | .wset c1 o => Sys2Proof.Machine.execWset c1 o s
  | .wnext c1 o => Sys2Proof.Machine.execWnext c1 o s
  | .wdone c1 o => Sys2Proof.Machine.execWdone c1 o s
  | .wresq c1 o => Sys2Proof.Machine.execWresq c1 o s
  | .tset c1 o => Sys2Proof.Machine.execTset c1 o s
  | .tlock c1 o => Sys2Proof.Machine.execTlock c1 o s
  | .tqry c1 o => Sys2Proof.Machine.execTqry c1 o s
  | .tbind c1 o => Sys2Proof.Machine.execTbind c1 o s
  | .tcur c1 o => Sys2Proof.Machine.execTcur c1 o s
  | .tadv c1 o => Sys2Proof.Machine.execTadv c1 o s
  | .cfill c1 o => Sys2Proof.Machine.execCfill c1 o s
  | .br o => Sys2Proof.Machine.execBr o s
  | .bri o => Sys2Proof.Machine.execBri o s
  | .call o => Sys2Proof.Machine.execCall o s
  | .ret o => Sys2Proof.Machine.execRet o s
  | .loop o => Sys2Proof.Machine.execLoop o s
  | .nest o => Sys2Proof.Machine.execNest o s
  | .swapi o => Sys2Proof.Machine.execSwapi o s
  | .trap o => Sys2Proof.Machine.execTrap o s
  | .rft o => Sys2Proof.Machine.execRft o s
  | .waitk o => Sys2Proof.Machine.execWaitk o s
  | .waitb o => Sys2Proof.Machine.execWaitb o s
  | .cbwait o => Sys2Proof.Machine.execCbwait o s
  | .monarm o => Sys2Proof.Machine.execMonarm o s
  | .waitmon o => Sys2Proof.Machine.execWaitmon o s
  | .ssync o => Sys2Proof.Machine.execSsync o s
  | .spawn o => Sys2Proof.Machine.execSpawn o s
  | .texit o => Sys2Proof.Machine.execTexit o s
  | .yield o => Sys2Proof.Machine.execYield o s
  | .hbeat o => Sys2Proof.Machine.execHbeat o s
  | .fence o => Sys2Proof.Machine.execFence o s
  | .pubc o => Sys2Proof.Machine.execPubc o s
  | .csrr o => Sys2Proof.Machine.execCsrr o s
  | .csrw o => Sys2Proof.Machine.execCsrw o s
  | .fevrd o => Sys2Proof.Machine.execFevrd o s
  | .irqh o => Sys2Proof.Machine.execIrqh o s
  | .halt o => Sys2Proof.Machine.execHalt o s
  | .illegalBundle hdr slot reason => Sys2Proof.Machine.execIllegalBundle hdr slot reason s
  | .tokenCompletion id => Sys2Proof.Machine.execTokenCompletion id s
  | .pageWalk space va => Sys2Proof.Machine.execPageWalk space va s
  | .pintleCommit entry => Sys2Proof.Machine.execPintleCommit entry s
  | .copyStart c1 => Sys2Proof.Machine.execCopyStart c1 s
  | .copyComplete id => Sys2Proof.Machine.execCopyComplete id s
  | .shootdownAcknowledge c1 => Sys2Proof.Machine.execShootdownAcknowledge c1 s
  | .batchRetire c1 => Sys2Proof.Machine.execBatchRetire c1 s
  | .stampWrite id => Sys2Proof.Machine.execStampWrite id s
  | .barrierUpdate core off => Sys2Proof.Machine.execBarrierUpdate core off s
  | .prefetchArrival point => Sys2Proof.Machine.execPrefetchArrival point s
  | .pushDelivery id => Sys2Proof.Machine.execPushDelivery id s
  | .peerTransferReceive x => Sys2Proof.Machine.execPeerTransferReceive x s
  | .flitReceive link flit => Sys2Proof.Machine.execFlitReceive link flit s
  | .linkFailure l => Sys2Proof.Machine.execLinkFailure l s
  | .taskPlacement task core => Sys2Proof.Machine.execTaskPlacement task core s
  | .preemption task => Sys2Proof.Machine.execPreemption task s
  | .parkedTaskReady task => Sys2Proof.Machine.execParkedTaskReady task s
  | .dependenceSatisfied task => Sys2Proof.Machine.execDependenceSatisfied task s
  | .priorityPromotion task => Sys2Proof.Machine.execPriorityPromotion task s
  | .taskResume task => Sys2Proof.Machine.execTaskResume task s
  | .taskDiscard task => Sys2Proof.Machine.execTaskDiscard task s
  | .superstepComplete inst => Sys2Proof.Machine.execSuperstepComplete inst s
  | .launch record aligned => Sys2Proof.Machine.execLaunch record aligned s
  | .launchEnd lid => Sys2Proof.Machine.execLaunchEnd lid s
  | .interruptDelivery vec => Sys2Proof.Machine.execInterruptDelivery vec s
  | .lenable v => Sys2Proof.Machine.execLenable v s
  | .wdreq secure v => Sys2Proof.Machine.execWdreq secure v s
  | .entgo stack v => Sys2Proof.Machine.execEntgo stack v s
  | .entgoUpdate stack => Sys2Proof.Machine.execEntgoUpdate stack s
  | .biasreq stack v => Sys2Proof.Machine.execBiasreq stack v s
  | .biasChangeComplete page => Sys2Proof.Machine.execBiasChangeComplete page s
  | .mdreg stack v => Sys2Proof.Machine.execMdreg stack v s
  | .pool stack v => Sys2Proof.Machine.execPool stack v s
  | .bankroleWrite o => Sys2Proof.Machine.execBankroleWrite o s
  | .stashmapWrite o => Sys2Proof.Machine.execStashmapWrite o s
  | .qmodeWrite o => Sys2Proof.Machine.execQmodeWrite o s
  | .wdogwinWrite o => Sys2Proof.Machine.execWdogwinWrite o s
  | .fevlogWrite o => Sys2Proof.Machine.execFevlogWrite o s
  | .worldWrite o => Sys2Proof.Machine.execWorldWrite o s
  | .registerWrite secure off v => Sys2Proof.Machine.execRegisterWrite secure off v s
  | .hostMemAccess pa n data => Sys2Proof.Machine.execHostMemAccess pa n data s
  | .powerPeriod demand => Sys2Proof.Machine.execPowerPeriod demand s
  | .therm die => Sys2Proof.Machine.execTherm die s
  | .moduleReset fw => Sys2Proof.Machine.execModuleReset fw s
  | .mctpMessage m => Sys2Proof.Machine.execMctpMessage m s
  | .hostSnoop pa => Sys2Proof.Machine.execHostSnoop pa s
  | .thermClear die => Sys2Proof.Machine.execThermClear die s
  | .stagingFetchComplete id => Sys2Proof.Machine.execStagingFetchComplete id s
  | .accessPerformed id => Sys2Proof.Machine.execAccessPerformed id s
  | .resultLanding => Sys2Proof.Machine.execResultLanding s
  | .instructionFetch => Sys2Proof.Machine.execInstructionFetch s
  | .repetitionStart => Sys2Proof.Machine.execRepetitionStart s
  | .repetitionComplete => Sys2Proof.Machine.execRepetitionComplete s
  | .scaleLanding => Sys2Proof.Machine.execScaleLanding s
  | .withdrawalComplete => Sys2Proof.Machine.execWithdrawalComplete s
  | .taskEnd => Sys2Proof.Machine.execTaskEnd s
  | .taskHalted => Sys2Proof.Machine.execTaskHalted s
  | .parking => Sys2Proof.Machine.execParking s
  | .watchdogExpiry => Sys2Proof.Machine.execWatchdogExpiry s

end Sys2Proof.Machine
end

