-- ==== Sys2Proof/Machine/Turn.lean ====
section
/-! DEFINITION. The turn of the cores within a clock, the end of a clock (R4, R6, R171, R292, R314, R374), and what the core in
focus fetches (R110, R116, R234); where a bundle is placed for the first instruction (L4). -/

namespace Sys2Proof.Machine

/-- R372: a rejected image has halted the bring-up. -/
def State.bringUpRejected (s : State) : Bool := match s.plat.bringup with
  | .rejected _ => true
  | _ => false

/-- What the core in focus may issue: a bundle, or why it waits, or the fault of its fetch. -/
inductive Ready where
  | go (n : Nat)
  | wait (st : Stall)
  | fault (code : BitVec 8)
deriving DecidableEq, Repr, Inhabited

/-- R234: a publication is performed before any later fetch. -/
def Core.publishing (c : Core) : Bool := c.ops.any fun o => match o.kind with
  | .pubc _ _ => true
  | _ => false

/-- The next bundle: of the captured body while a loop is active (R116), else by a fetch. -/
def State.nextBundle (s : State) : Ready :=
  match s.core.loopSt.posOf s.core.pc with
  | some k => .go (s.core.loopSt.body.getD k 0).toNat
  | none =>
    if s.core.publishing then .wait .publication
    else match s.fetch s.core.pc with
      | .ok n => .go n
      | .miss => .wait (.loopFetch s.core.pc)
      | .walk => .wait (.walk s.core.csr.sec s.core.pc.toNat)
      | .fault code => .fault code

/-! ### The halves at a SWAPI's target (R113, R383) -/

/-- The half that holds the target of a SWAPI becomes active in the clock the target issues. -/
def takeSwap (c : Core) : Core :=
  { c with
    loopSt := { c.loopSt with swap := none }
    mem := { c.mem with activeHi :=
      if c.loopSt.swap = some c.pc then decide (iloBase + 65536 ≤ c.pc.toNat) else c.mem.activeHi } }

/-- A bundle that has stalled has not issued: the halves stand as they did. -/
def keepSwap (old c : Core) : Core :=
  if c.stall.isSome then
    { c with loopSt := { c.loopSt with swap := old.loopSt.swap }, mem := { c.mem with activeHi := old.mem.activeHi } }
  else c

/-- No bundle issues in this clock: the fetch waits (R6). -/
def State.stallFetch (s : State) (st : Stall) : State :=
  { s with draws := s.draws + 1, core := { s.core with issued := true, stall := some st, waited := 0 } }

/-- The fault of a fetch, with the bundle's address (R284, R336, R351). -/
def State.fetchFault (s : State) (code : BitVec 8) : State :=
  takeFault (openBundle s false) ⟨code, s.core.pc, none, false, none, true⟩

/-! ### The clock -/

/-- R374: the clusters frozen in a clock. -/
def clusterFrozen (p : Platform) (clock cluster : Nat) : Bool :=
  (vat p.freezes cluster).contains clock || (!p.therm.isEmpty && (clock + Config.thermPhase) % 8 != 0)

/-- R171, L9: in a frozen clock everything in the core's pipelines keeps its distance to the next bundle. -/
def shiftCore (c : Core) (clock : Nat) : Core :=
  let later (t : Nat) : Nat := if clock ≤ t then t + 1 else t
  { c with
    readyAt := if clock < c.readyAt then c.readyAt + 1 else c.readyAt
    flights := c.flights.map fun f => { f with due := later f.due }
    mx := { c.mx with
      ops := c.mx.ops.map fun o => { o with
        nextAt := if o.held then o.nextAt else later o.nextAt
        run := o.run.map fun r => { r with start := later r.start, leave := later r.leave, due := later r.due } }
      loads := c.mx.loads.map fun l => if l.held then l else { l with due := later l.due } } }

/-- R314, R308: a core from the end of a clock to the next. -/
def tickCore (p : Platform) (clock : Nat) (c : Core) : Core :=
  let c := { c with
    issued := false
    wdcount := if c.stat != .idle && !c.waiting then c.wdcount + 1 else c.wdcount
    waited := if c.frozen && c.waiting then c.waited + 1 else c.waited
    frozen := clusterFrozen p clock (clusterOf c.id) }
  if c.frozen then shiftCore c clock else c

/-- The core holds a line dirty (R276, R279). -/
def dirtyIn (line : Nat) (c : Core) : Bool := (c.mem.lines ++ c.mem.stash).any fun l => l.line == line && match l.st with
  | .m | .d _ _ _ _ _ => true
  | _ => false

/-- R269, R292: an uncorrectable error comes up (L80).  Of a line it poisons the home; in a clean copy it goes without notice. -/
def State.spoil (s : State) : Config.Upset → State
  | .word c w => s.modCore c fun k => if k.isScratch (8 * w) then { k with mem := { k.mem with badWords := insertNew w k.mem.badWords } } else k
  | .row c r => s.modCore c fun k => if r < 65536 then { k with mx := { k.mx with badRows := insertNew r k.mx.badRows } } else k
  | .line l =>
    if s.inL2 l || s.cores.any (dirtyIn l) then { s with store := { s.store with poison := insertNew l s.store.poison } } else s

/-- The uncorrectable error of a clock, if one comes up. -/
def State.upsets (s : State) : State := match Config.upset s.clock with
  | some u => s.spoil u
  | none => s

/-- The next clock begins once the L2 slices have settled; core 0 has its turn first, and what the host asked for and still waits is
tried again (R288). -/
def State.nextClock (s : State) : State :=
  let t := s.clock + 1
  let p := { s.plat with frozenCount := vtab 16 fun k => vat s.plat.frozenCount k + if clusterFrozen s.plat t k then 1 else 0 }
  let s := s.settleL2.upsets.announce.writeRecords
  let s := { s with inputs := s.host.pending ++ s.inputs, host := { s.host with pending := [] } }
  match (s.core :: s.before).reverse.map (tickCore p t) with
  | [] => { s with clock := t, plat := p }
  | c :: l => { s with clock := t, plat := p, before := [], core := c, after := l }

/-- The turn passes to the next core, and after the last the clock ends; the Tumbler of the core scans (R332). -/
def State.rotate (s : State) : State :=
  let s := s.scanTumbler
  match s.after with
  | c :: l => { s with before := s.core :: s.before, core := c, after := l }
  | [] => s.nextClock

/-! ### Placing a bundle (L4) -/

/-- The machine with a bundle at the first address of ILO, which the core in focus is about to issue. -/
def State.placeBundle (s : State) (n : Nat) : State :=
  let c := s.core
  { s with
    inputs := []
    iss := none
    core := { c with
      stat := .running
      pc := BitVec.ofNat 48 iloBase
      readyAt := 0
      issued := false
      returning := false
      frozen := false
      loopSt := { c.loopSt with levels := [], body := [], pos := 0, swap := none }
      claim := { c.claim with ilo := true }
      mem := { c.mem with activeHi := false, ih := wrNat c.mem.ih 0 32 n, ihClean := insertNew 0 c.mem.ihClean } } }

end Sys2Proof.Machine
end

