-- ==== Sys2Proof/Machine/Step.lean ====
section
/-! DEFINITION. One step of the machine: an input of the host or the platform, an event that is due, a bundle of the
core in focus, or the turn passing on (L4). -/

namespace Sys2Proof.Machine

/-- After a rejected image the module answers only management messages and module reset (R372); it does nothing else, and any other input
is lost. -/
def answersHalted : Instr → Bool
  | .mctpMessage _ | .moduleReset _ => true
  | _ => false

/-- A bundle's operations one after another; the first that does not answer a next state ends them. -/
def execAll : List Instr → State → Host.Outcome State Fault Refusal
  | [], s => .next s
  | i :: l, s =>
    match exec i s with
    | .next t => execAll l t
    | r => r

/-- A fetched bundle issues (R5, R6, R60, R117). -/
def issueBundle (n : Nat) (s : State) : Host.Outcome State Fault Refusal :=
  match decodeBundle n with
  | .error r => exec (.illegalBundle r.hdr r.slot r.reason) s
  | .ok ⟨[i], false⟩ => exec i s
  | .ok b =>
    match execAll b.ops (openBundle s b.bend) with
    | .next t => .next (closeBundle t)
    | r => r

/-- The core in focus fetches at its program counter and issues; what the target of a SWAPI does to the halves is undone where it
stalls (R113). -/
def issueStep (s : State) : Host.Outcome State Fault Refusal :=
  match s.nextBundle with
  | .go n => match issueBundle n (s.onCore takeSwap) with
    | .next t => .next (t.onCore (keepSwap s.core))
    | r => r
  | .wait st => .next (s.stallFetch st)
  | .fault code => .next ((s.onCore takeSwap).fetchFault code)

/-- One step. -/
def step (s : State) : Host.Outcome State Fault Refusal :=
  match s.inputs with
  | i :: l => if s.bringUpRejected && !answersHalted i then .next { s with inputs := l } else exec i { s with inputs := l }
  | [] =>
    if s.bringUpRejected then .next { s with clock := s.clock + 1 }
    else match s.nextEvent with
      | some i => exec i s
      | none => if s.canIssue then issueStep s else .next s.rotate

/-- The state with an instruction of the opcode table placed where the next step fetches (L4). -/
def State.withFetchWord (s : State) (nbits w : Nat) : State :=
  s.placeBundle ((tableBundle nbits w).getD (w % 2 ^ 256))

end Sys2Proof.Machine
end

