-- ==== Sys2Proof/Certificates/Slice0/Obligations.lean ====
section
/-! DEFINITION. The statements for the provers, one `def Obligations.<Name> : Prop` each, with the few definitions they are
written in (namespace `Sys2Proof.Claims`). -/

namespace Sys2Proof.Claims

open Sys2Proof.Machine

/-! ### Sources (R8, R9, R10, R44, R49) -/

/-- A read of an s register: its value and the core after it.  s0 reads 0; a queue gives its oldest entry, which leaves it unless
the read is a peek; none where the queue is empty. -/
def takeS (c : Core) (r : Fin 16) (pk : Bool) : Option (Word × Core) :=
  if r = 0 then some (0, c)
  else if sQueue c.csr.qmode r then match c.regs.s.get r with
    | [] => none
    | x :: l => some (x, if pk then c else { c with regs := { c.regs with s := c.regs.s.set r l } })
  else some ((c.regs.s.get r).headD 0, c)

/-- The same of a v register. -/
def takeV (c : Core) (r : Fin 16) (pk : Bool) : Option (VReg × Core) :=
  if r = 0 then some (VReg.zero, c)
  else if vQueue c.csr.qmode r then match c.regs.v.get r with
    | [] => none
    | x :: l => some (x, if pk then c else { c with regs := { c.regs with v := c.regs.v.set r l } })
  else some ((c.regs.v.get r).headD VReg.zero, c)

/-- A second source of class R or C: a register, or the long immediate, sign-extended for a scalar and unchanged in every lane for a
vector (R44). -/
def takeB (c : Core) : SrcB → Option (Word × Core)
  | .reg r pk => takeS c r pk
  | .imm v => some (v.signExtend 64, c)

def takeC (c : Core) : SrcC → Option (Word × Core)
  | .reg r => takeS c r false
  | .imm v => some (v.signExtend 64, c)

def takeBv (c : Core) : SrcB → Option (VReg × Core)
  | .reg r pk => takeV c r pk
  | .imm v => some (Vector.replicate 64 v, c)

def takeCv (c : Core) : SrcC → Option (VReg × Core)
  | .reg r => takeV c r false
  | .imm v => some (Vector.replicate 64 v, c)

/-! ### A bundle of one operation -/

/-- The bundle opened for one operation of a slot: nothing gathered but its destinations. -/
def opened (i : Instr) (slot : Fin 8) (s : State) : Issue :=
  { Issue.start s.core false with dests := i.dests.map fun d => (slot, d) }

/-- The state with what the operation left of the core, and what the bundle has gathered. -/
def gathered (s : State) (c : Core) (k : Issue) : State := { s with core := c, iss := some k }

/-- Nothing that concerns the bundle as a whole keeps it from committing: no stall for a queue's mode, a bank or the limit of results
in flight (R12, R34, R152), and no destination queue without room (R10). -/
def Clear (g : State) : Prop :=
  lateStall g g.issue = none ∧ overflowCauses g.core (g.issue.qmode.getD g.core.csr.qmode) g.issue.dests [] = []

/-- The instruction completes, with the effect of the gathered bundle. -/
def Completes (i : Instr) (s g : State) : Prop := Clear g → exec i s = .next (commitBundle g)

/-- An exact result of an operation issued now, `lat` clocks from its landing (R31). -/
def result (s : State) (slot : Fin 8) (lat : Nat) (d : Dest) (x : Val) (mask : Word) (f : Option Fev) : Flight :=
  ⟨s.clock + lat, s.clock, slot, s.core.pc, d, x, mask, f, false⟩

/-- The bundle of an operation whose whole effect is to read its sources and to put one result in flight. -/
def lands (i : Instr) (slot : Fin 8) (s : State) (c : Core) (r : Flight) : State :=
  gathered s c { opened i slot s with lands := [r] }

/-- A result without a record for FEVLOG. -/
def exactly {α β γ : Type} (f : α → β → γ) (a : α) (b : β) : γ × Option (BitVec 2) := (f a b, none)

/-- An FP32 operation on the low halves of two s registers: the rounded pattern, zero-extended, with its record (R103, R105). -/
def onF32 (f : Nat → Nat → FRes) (a b : Word) : Word × Option (BitVec 2) :=
  let r := f (a.toNat % 2 ^ 32) (b.toNat % 2 ^ 32)
  (BitVec.ofNat 64 r.1, r.2)

/-- The slot-S operations of two sources: latency, and result (R97, R103, R106). -/
def scalarTwoSource : List ((FR → Instr) × Nat × (Word → Word → Word × Option (BitVec 2))) :=
  [(.add, 1, exactly fun a b => a + b), (.sub, 1, exactly fun a b => a - b), (.mul, 3, exactly fun a b => a * b),
   (.mulh, 3, exactly fun a b => BitVec.ofInt 64 (a.toInt * b.toInt / 2 ^ 64)),
   (.mulhu, 3, exactly fun a b => BitVec.ofNat 64 (a.toNat * b.toNat / 2 ^ 64)),
   (.div, 16, exactly fun a b => if b = 0 then BitVec.allOnes 64 else BitVec.ofInt 64 (a.toInt.tdiv b.toInt)),
   (.divu, 16, exactly fun a b => if b = 0 then BitVec.allOnes 64 else BitVec.ofNat 64 (a.toNat / b.toNat)),
   (.rem, 16, exactly fun a b => if b = 0 then a else BitVec.ofInt 64 (a.toInt.tmod b.toInt)),
   (.remu, 16, exactly fun a b => if b = 0 then a else BitVec.ofNat 64 (a.toNat % b.toNat)),
   (.and, 1, exactly fun a b => a &&& b), (.or, 1, exactly fun a b => a ||| b), (.xor, 1, exactly fun a b => a ^^^ b),
   (.andn, 1, exactly fun a b => a &&& ~~~b), (.shl, 1, exactly fun a b => a <<< (b.toNat % 64)),
   (.shr, 1, exactly fun a b => a >>> (b.toNat % 64)), (.sra, 1, exactly fun a b => a.sshiftRight (b.toNat % 64)),
   (.rol, 1, exactly fun a b => a.rotateLeft (b.toNat % 64)),
   (.min, 1, exactly fun a b => if a.toInt ≤ b.toInt then a else b), (.max, 1, exactly fun a b => if b.toInt ≤ a.toInt then a else b),
   (.minu, 1, exactly fun a b => if a.toNat ≤ b.toNat then a else b), (.maxu, 1, exactly fun a b => if b.toNat ≤ a.toNat then a else b),
   (.rndc, 4, exactly fun a b =>
     let z := a + (b + 1) * 0x9E3779B97F4A7C15
     let y := (z ^^^ (z >>> 30)) * 0xBF58476D1CE4E5B9
     let x := (y ^^^ (y >>> 27)) * 0x94D049BB133111EB
     x ^^^ (x >>> 31)),
   (.sfadd, 3, onF32 (fpAdd fp32)), (.sfsub, 3, onF32 (fpSub fp32)), (.sfmul, 3, onF32 (fpMul fp32)), (.sfdiv, 12, onF32 (fpDiv fp32))]

/-- The codes of SFCVT: the formats of its source and its result, and its rounding (R105). -/
def scalarConversions : List (NumFmt × NumFmt × Rm) :=
  [(.f fp32, .i 32, .rtz), (.f fp32, .i 64, .rtz), (.i 32, .f fp32, .rne), (.i 64, .f fp32, .rne), (.f fp32, .f bf16, .rne),
   (.f bf16, .f fp32, .rne), (.f fp32, .f fp16, .rne), (.f fp16, .f fp32, .rne), (.f fp32, .f e4m3, .rne), (.f e4m3, .f fp32, .rne),
   (.f fp32, .f e5m2, .rne), (.f e5m2, .f fp32, .rne), (.f fp32, .i 32, .rne), (.f fp32, .i 64, .rne)]

/-- A conversion under policy 0, its result as an s register receives it: an integer sign-extended, a float's pattern zero-extended
(R75, R81). -/
def scalarConverted (s d : NumFmt) (rm : Rm) (x : Nat) : Word × Option (BitVec 2) := match convert s d rm 0 x with
  | .ok y f => (match d with
    | .f _ => BitVec.ofNat 64 y
    | .i n => (BitVec.ofNat n y).signExtend 64, f)
  | .trap => (0, none)

/-- The compares of slot S (R102, R104). -/
def scalarCompares : List ((FC → Instr) × Nat × (Word → Word → Bool)) :=
  [(.cmpeq, 1, fun a b => a == b), (.cmpne, 1, fun a b => a != b), (.cmplt, 1, fun a b => a.toInt < b.toInt),
   (.cmple, 1, fun a b => a.toInt ≤ b.toInt), (.cmpltu, 1, fun a b => a.toNat < b.toNat), (.cmpleu, 1, fun a b => a.toNat ≤ b.toNat),
   (.sfcmplt, 2, fun a b => fpLt fp32 (a.toNat % 2 ^ 32) (b.toNat % 2 ^ 32)),
   (.sfcmpeq, 2, fun a b => fpEq fp32 (a.toNat % 2 ^ 32) (b.toNat % 2 ^ 32))]

/-- The operations of slot S on one s register that land in an s register one clock later (R98, R100): the number of leading zeros, the
number of ones, the bits in reverse, the value itself. -/
def scalarOneSource : List ((FR → Instr) × (Word → Word)) :=
  [(.clz, fun a => BitVec.ofNat 64 ((List.range 64).filter fun i => decide (a.toNat < 2 ^ i)).length),
   (.popc, fun a => BitVec.ofNat 64 ((List.range 64).filter fun i => a.getLsbD i).length),
   (.brev, fun a => a.reverse), (.mov, fun a => a)]

/-- The immediate of class I as a 64-bit value: four bits, sign-extended where SX is set, or the long one, sign-extended (R44, R48). -/
def immediate : ImmI → Word
  | .short v sx => if sx then v.signExtend 64 else v.zeroExtend 64
  | .long v => v.signExtend 64

/-- QCNT's word (R108): OCC, RES, DEPTH and QM of a queue, which in register mode are 1, 1, 1 and 0. -/
def queueWord (c : Core) (d : DName) : Word :=
  if isQueue c.csr.qmode d then
    BitVec.ofNat 64 (occupancy c d + 8 * (occupancy c d + inFlightTo c d) + 64 * depthOf c.csr.qmode d + 512)
  else BitVec.ofNat 64 (1 + 8 + 64)

/-- The operations of slot X on two predicates (R189), and on one and E (R189 to R191), with latency 1. -/
def predicateTwo : List ((FP → Instr) × (Word → Word → Word)) :=
  [(.pand, fun a b => a &&& b), (.por, fun a b => a ||| b), (.pxor, fun a b => a ^^^ b), (.pandn, fun a b => a &&& ~~~b)]

def predicateOne : List ((FP → Instr) × (Nat → Word → Word)) :=
  [(.pnot, fun _ a => ~~~a), (.pmov, fun _ a => a),
   (.pset, fun n _ => BitVec.ofNat 64 (2 ^ (if n = 0 then 64 else n) - 1)),
   (.pclr, fun n _ => ~~~(BitVec.ofNat 64 (2 ^ (if n = 0 then 64 else n) - 1))),
   (.pfirst, fun _ a => a &&& -a), (.pshl, fun n a => a <<< n)]

/-! ### Vectors -/

/-- The record of a lane-by-lane result: that of the lowest active lane that has one (R27). -/
def laneRec (m : Word) (r : Nat → FRes) : Option Fev :=
  ((List.range 64).find? fun i => plane m i && (r i).2.isSome).bind fun i => (r i).2.map fun c => ⟨c, i⟩

/-- A lane-by-lane result landed under the predicate (R131, R132). -/
def vresult (s : State) (v1 : Bool) (lat : Nat) (d : Fin 16) (m : Word) (r : Nat → FRes) : Flight :=
  result s (vslot v1) lat (.v d) (.v (vlanes fun i => BitVec.ofNat 32 (r i).1)) m (laneRec m r)

/-- The same of a result that raises no record. -/
def vmoved (s : State) (v1 : Bool) (lat : Nat) (d : Fin 16) (m : Word) (r : Nat → Lane) : Flight :=
  result s (vslot v1) lat (.v d) (.v (vlanes r)) m none

def pure1 (f : Nat → Nat) (a : Nat) : FRes := (f a, none)
def pure2 (f : Nat → Nat → Nat) (a b : Nat) : FRes := (f a b, none)

/-- Two BF16 elements of a lane (R134): each is computed alone, and the lane's record is the lower element's, else the higher one's. -/
def packed (lo hi : FRes) : FRes := (lo.1 % 65536 + 65536 * hi.1, if lo.2.isSome then lo.2 else hi.2)

/-- Lane by lane from one v register (R133, R142). -/
def vectorOneSource : List ((Bool → FR → Instr) × Nat × (Nat → FRes)) :=
  [(.vabs, 2, pure1 fun a => a % 2 ^ 31), (.vneg, 2, pure1 fun a => a ^^^ 2 ^ 31), (.vsqrt, 14, fpSqrt fp32), (.vexp2, 10, fpExp2),
   (.vmov, 1, pure1 fun a => a)]

/-- Lane by lane from two (R133 to R135). -/
def vectorTwoSource : List ((Bool → FR → Instr) × Nat × (Nat → Nat → FRes)) :=
  [(.vadd, 4, fpAdd fp32), (.vsub, 4, fpSub fp32), (.vmul, 4, fpMul fp32), (.vdiv, 14, fpDiv fp32),
   (.vmin, 2, pure2 (fpMin fp32)), (.vmax, 2, pure2 (fpMax fp32)),
   (.vhadd, 4, fun a b => packed (fpAdd bf16 (a % 65536) (b % 65536)) (fpAdd bf16 (a / 65536) (b / 65536))),
   (.vhmul, 4, fun a b => packed (fpMul bf16 (a % 65536) (b % 65536)) (fpMul bf16 (a / 65536) (b / 65536))),
   (.viadd, 2, pure2 fun a b => (a + b) % 2 ^ 32), (.visub, 2, pure2 fun a b => (a + 2 ^ 32 - b) % 2 ^ 32),
   (.vimul, 4, pure2 fun a b => a * b % 2 ^ 32),
   (.vimin, 2, pure2 fun a b => if (BitVec.ofNat 32 a).toInt ≤ (BitVec.ofNat 32 b).toInt then a else b),
   (.vimax, 2, pure2 fun a b => if (BitVec.ofNat 32 b).toInt ≤ (BitVec.ofNat 32 a).toInt then a else b),
   (.vand, 2, pure2 fun a b => a &&& b), (.vor, 2, pure2 fun a b => a ||| b), (.vxor, 2, pure2 fun a b => a ^^^ b),
   (.vshl, 2, pure2 fun a b => a * 2 ^ (b % 32) % 2 ^ 32), (.vshr, 2, pure2 fun a b => a / 2 ^ (b % 32)),
   (.vsra, 2, pure2 fun a b => ((BitVec.ofNat 32 a).sshiftRight (b % 32)).toNat)]

/-- Lane by lane from three: D is the addend, read last (R133, R134). -/
def vectorThreeSource : List ((Bool → FR → Instr) × (Nat → Nat → Nat → FRes)) :=
  [(.vfma, fpFma fp32), (.vfms, fpFms fp32),
   (.vhfma, fun a b d => packed (fpFma bf16 (a % 65536) (b % 65536) (d % 65536)) (fpFma bf16 (a / 65536) (b / 65536) (d / 65536)))]

/-- The conditions of VCMPF and VCMPI by CC (R50, R136). -/
def floatCond (cc : BitVec 2) (a b : Nat) : Bool :=
  if cc = 0 then fpEq fp32 a b else if cc = 1 then fpLt fp32 a b else if cc = 2 then fpLt fp32 a b || fpEq fp32 a b
  else (fdec fp32 a).isNan || (fdec fp32 b).isNan

def intCond (cc : BitVec 2) (a b : Lane) : Bool :=
  if cc = 0 then a == b else if cc = 1 then a.toInt < b.toInt else if cc = 2 then a.toInt ≤ b.toInt else a.toNat < b.toNat

/-! ### Memory -/

/-- A formed address (R14): the register plus the immediate, bits [59:48] zero, aligned to `n` bytes. -/
def address (c : Core) (o : FL) : Word := c.regs.a.get o.a + (o.imm.getD 0).signExtend 64
def wellFormed (e : Word) (n : Nat) : Prop := field e.toNat 48 12 = 0 ∧ e.toNat % n = 0

/-- A formed local address (R14, R150): bits [59:21] zero, aligned to `n` bytes. -/
def wellFormedLocal (e : Word) (n : Nat) : Prop := field e.toNat 21 39 = 0 ∧ e.toNat % n = 0

/-- An access may be made at these addresses, the first ones it touches of each page (R148, R272, R351): none lies in the instruction
scratchpad, and each is covered by the core's translations, which allow it. -/
def Reach (s : State) (write : Bool) : List Nat → List Xl → Prop
  | [], [] => True
  | a :: l, x :: xs => a < 2 ^ 48 ∧ ihOffset a = none ∧ s.probe s.core.csr.sec write a = .ok x ∧ Reach s write l xs
  | _, _ => False

/-- Room for one more operation under a token (R16), and for one more in the request table (R3, R6, log L65). -/
abbrev TokenRoom (s : State) (k : Tok) : Prop := (s.core.regs.k.get k).count < 2048
abbrev Room (s : State) (k : Tok) : Prop := s.requests < 2048 ∧ TokenRoom s k

/-- Nothing that a local access of a class waits for is outstanding (R37, R199, R233, log L66). -/
abbrev Unheld (s : State) (cls : Nat) : Prop := ∀ i ∈ classAfter s.core cls, s.core.isOpen i = false

/-- An operation that leaves its slot now (R32, R37): its token, its ordering class, its world, what it waits for, and what it is. -/
def leaving (s : State) (slot : Fin 8) (k : Option Tok) (cls : Nat) (after : List Nat) (kind : TokKind) : TokOp :=
  ⟨s.nextId, s.draws, s.clock, slot, s.core.pc, k, BitVec.ofNat 4 cls, s.core.csr.sec, after, none, kind⟩

/-- The bundle of an operation that reads its sources and issues one access. -/
def issues (i : Instr) (slot : Fin 8) (s : State) (c : Core) (op : TokOp) : State :=
  { gathered s c { opened i slot s with ops := [op] } with nextId := s.nextId + 1, draws := s.draws + 1 }

/-- The access of a linear operation: its address, the translations of its pages, its world. -/
def linear (s : State) (e : Word) (xs : List Xl) : Lin := ⟨e.toNat % 2 ^ 48, xs, s.core.csr.sec⟩

/-- The access that a bundle holds in this slot is over, and no link has cut it (R200, R226, R290). -/
def HoldOver (s : State) (slot : Fin 8) : Prop :=
  ∃ h, s.core.holds.find? (fun h => h.slot == slot) = some h ∧ h.done = true ∧ h.err = none

/-- A synchronising access has been held until it was accepted (R200), no page of it is changing its bias (R288), its home is there
(R290), and its scope includes the core that last synchronised on its line (R200). -/
def Accepted (s : State) (slot : Fin 8) (scope : BitVec 3) (l : Lin) : Prop :=
  HoldOver s slot ∧ s.linWaits l s.clock = false ∧
  s.deadHome l.pa = false ∧ ∀ r, scopeRecord s (l.pa / 128) = some r → scopeIncludes scope.toNat s.core.id r.core = true

/-- The bundle of a synchronising access: the checker's record of the line is this core's, and the access is issued. -/
def synchronises (i : Instr) (slot : Fin 8) (scope : BitVec 3) (s : State) (c : Core) (l : Lin) (k : Option Tok) (cls : Nat)
    (after : List Nat) (kind : TokKind) : State :=
  { gathered s c { opened i slot s with
      ops := [leaving s slot k cls after kind]
      scopes := [⟨l.pa / 128, s.core.id, scope⟩] } with nextId := s.nextId + 1, draws := s.draws + 1 }

/-- The bundle of a local load (R22): exact results, or one operation with LANDMODE.SCR set. -/
def loads (i : Instr) (slot : Fin 8) (s : State) (c : Core) (k : Tok) (cls lat : Nat) (banks : List (Nat × Bool × Nat))
    (l : List (Dest × Val × Word)) : State :=
  if s.core.csr.scr then
    { gathered s c { opened i slot s with banks := banks, ops := [leaving s slot (some k) cls [] (.local l)] } with
      nextId := s.nextId + 1, draws := s.draws + 1 }
  else gathered s c { opened i slot s with banks := banks, lands := l.map fun r => result s slot lat r.1 r.2.1 r.2.2 none }

/-- The bundle of a local store. -/
def stores (i : Instr) (slot : Fin 8) (s : State) (c : Core) (banks : List (Nat × Bool × Nat)) (l : List LocalWr) : State :=
  gathered s c { opened i slot s with banks := banks, lwr := l }

/-- Every active lane's word at an offset of its own lies in a SCRATCH bank (R150). -/
def lanesLocal (c : Core) (m : Word) (off : Nat → Nat) : Prop :=
  ∀ i, i < 64 → plane m i = true → c.badLocal (off i) 4 = none

/-- No word with an uncorrectable error among the active lanes' (R292). -/
def lanesGood (c : Core) (m : Word) (off : Nat → Nat) : Prop :=
  ∀ i, i < 64 → plane m i = true → badWordIn c (off i) 4 = none

/-! ### Tensors and the matrix unit -/

/-- A handle is bound, and no TBIND of it is outstanding (R17, R224). -/
def Bound (s : State) (h : Fin 16) (x : Handle) : Prop :=
  s.core.regs.h.get h = some x ∧ ∀ o ∈ s.core.ops, ∀ e l, o.kind ≠ .tbind h e l

/-- A secure tensor is named by a secure task only (R161). -/
def InWorld (s : State) (x : Handle) : Prop := dWorld x.desc = true → s.core.csr.sec = true

/-- The bundle of an operation on a handle: one operation, and changes of handles for later bundles. -/
def handles (i : Instr) (slot : Fin 8) (s : State) (c : Core) (op : TokOp) (curs : List CurUpd) : State :=
  { gathered s c { opened i slot s with ops := [op], curs := curs } with nextId := s.nextId + 1, draws := s.draws + 1 }

/-- A precise write of a descriptor may be made now (R226): its access has been held until its turn, no page of it is changing its
bias, its home is there, and its line is good. -/
def Ready (s : State) (slot : Fin 8) (l : Lin) : Prop :=
  HoldOver s slot ∧ s.linWaits l s.clock = false ∧ s.deadHome l.pa = false ∧ s.store.poison.contains (l.pa / 128) = false

/-- The bundle of a policy write: the fields in memory and in the handle's copy. -/
def policies (i : Instr) (slot : Fin 8) (s : State) (c : Core) (h : Fin 16) (l : Lin) (fs : List (Nat × Nat × Nat)) : State :=
  gathered s c { opened i slot s with
    descs := fs.map fun f => (l, f.1, f.2.1, f.2.2)
    curs := fs.map fun f => .desc h f.1 f.2.1 f.2.2 }

/-- An operand of the matrix unit (R174, R181). -/
def OperandOk (s : State) (h : Fin 16) (x : Handle) (f : MFmt) : Prop :=
  Bound s h x ∧ InWorld s x ∧ 2 ≤ dRank x.desc ∧ fmtTakes f (dEtype x.desc) = true

/-- A row base in an address register, with tiles of 768 claimed rows at these offsets from it (R38, R181). -/
def RowsOk (s : State) (ac : BitVec 3) (offs : List Nat) (b : Nat) : Prop :=
  ac.toNat < 8 ∧ (vat s.core.regs.a ac.toNat).toNat = b ∧ b < 65536 ∧
  ∀ o ∈ offs, b + o + 767 < 65536 ∧ ∀ i, i < 768 → s.core.rowClaimed (b + o + i) = true

/-- The bundle of an operation that the matrix unit takes. -/
def takes (i : Instr) (slot : Fin 8) (s : State) (c : Core) (f : Matrix → Matrix) : State :=
  gathered s { c with mx := f s.core.mx } (opened i slot s)

/-- MDRN, MFILL and MZERO: one repetition, started at the issue. -/
def started (s : State) (o : MOp) (leave due : Nat) : MOp :=
  { o with next := 1, run := [⟨0, s.clock, s.clock + leave, s.clock + due, [], s.core.mx.scA, s.core.mx.scB, 0, 0, [], [], none⟩] }

/-- An access of a tensor in this class has its turn: what it waits for is performed (R37, R160, R175). -/
abbrev InTurn (s : State) (cls : Nat) : Prop := ∀ i ∈ tensorAfter s.core cls, s.core.isOpen i = false

/-- The operands of a staged operation stand in the OPBUF banks, each in its turn (R175). -/
def StagedOk (s : State) (needs : List Need) : Prop :=
  s.core.banksOf 3 ≠ [] ∧ overCapacity (65536 * (s.core.banksOf 3).length) 0 (distinctNeeds needs) = none ∧
  ∀ n ∈ distinctNeeds needs, InTurn s (dClass n.2.1.desc) ∧
    (s.core.mem.opbuf.any fun t => t.entry == needEntryOf n) = true

/-- The core once it has read the entries of those operands, whose lines its tile-table cache takes (R352). -/
def entriesRead (s : State) (needs : List Need) : Core :=
  cacheEntries s ((distinctNeeds needs).map fun n => needEntryOf n / 128) s.core

/-- Those operands. -/
def stagedTiles (s : State) (needs : List Need) : List Tile :=
  (distinctNeeds needs).filterMap fun n => (s.core.mem.opbuf.find? fun t => t.entry == needEntryOf n).map (·.tile)

/-! ### Copies -/

/-- A copy may read this linear range (R14, R206, R272): its form and alignment, and the halves of the instruction scratchpad it
reaches, claimed, and none for a copy that takes no half. -/
def ReadOk (c : Core) (e : Word) (n al : Nat) (half : Bool) : Prop :=
  wellFormed e al ∧ (∀ h ∈ halvesOf (e.toNat % 2 ^ 48) n, c.halfClaimed (halfOff h) = true) ∧
  (half = false → halvesOf (e.toNat % 2 ^ 48) n = [])

/-- A copy may write it: not the active half (R271). -/
def WriteOk (c : Core) (e : Word) (n al : Nat) (half : Bool) : Prop :=
  ReadOk c e n al half ∧ ∀ h ∈ halvesOf (e.toNat % 2 ^ 48) n, c.halfActive (halfOff h) = false

/-- A copy may name this local range (R207, R210). -/
def LocalOk (c : Core) (e : Word) (n al : Nat) : Prop := wellFormedLocal e al ∧ c.badLocal (e.toNat % 2 ^ 21) n = none

/-- The engine has room, the token has room, and a counted copy has its barrier (R16, R205, R317). -/
def CopyRoom (s : State) (c1 : Bool) (k : Tok) (cnt : Bool) : Prop :=
  s.entries c1 < 64 ∧ (s.core.regs.k.get k).count < 2048 ∧ (cnt = true → (s.core.eng c1).counted ≠ none)

/-- The bundle of a copy: an entry of its engine's queue, with its token, its world, and what it waits for (R203, R205). -/
def copies (i : Instr) (c1 : Bool) (s : State) (c : Core) (k : Tok) (cnt : Bool) (after : List Nat) (kind : CopyKind) : State :=
  { gathered s c { opened i (cslot c1) s with copies := [(c1, ⟨s.nextId, s.draws, s.clock, k, kind,
      if cnt then (s.core.eng c1).counted else none, s.core.csr.sec, after, false, s.core.pc, none, none, .start⟩)] } with
    nextId := s.nextId + 1, draws := s.draws + 1 }

/-- What a copy whose sides are of these classes waits for: the earlier accesses of them, acquires, and their fences (R37, R199, R203,
R233). -/
def following (s : State) (classes : List Nat) : List Nat := classes.flatMap (classAfter s.core)

/-! ### Barriers, the Tumbler and slot K -/

/-- A barrier that an address names (R218): the address has the form, the core is there, and the bytes stand in a SCRATCH bank or in the
image of a saved task. -/
abbrev BarrierNamed (s : State) (a : Word) (b : BarAddr) : Prop :=
  barAddr s.core a = some b ∧ s.deadCore b.core = false ∧ (s.barHome b).isSome = true

/-- A message may go to it: its bank is not draining (R263, R264). -/
abbrev BarrierOk (s : State) (a : Word) (b : BarAddr) : Prop :=
  BarrierNamed s a b ∧ (s.barHome b = some .live → bit (s.coreAt b.core).draining.toNat (b.off.toNat / 65536) = false)

/-- The bundle of a barrier message. -/
def messages (i : Instr) (c1 : Bool) (s : State) (c : Core) (b : BarAddr) (after : List Nat) (m : BarMsg) : State :=
  { gathered s c { opened i (cslot c1) s with posts := [⟨s.nextId, s.draws, s.clock, s.core.id, b, after, m⟩] } with
    nextId := s.nextId + 1, draws := s.draws + 1 }

/-- No WSET of the core is outstanding (R221). -/
def setSettled (s : State) : Prop := ∀ o ∈ s.core.ops, ∀ l h, o.kind ≠ .wset l h

/-- The point of WNEXT's word handed out (R222): the set's mark, and no arrival seen. -/
def handed (u : Tumbler) (x : Nat) : Tumbler :=
  { u with passDone := false, arrived := false
           set := u.set.map fun t => if x < 2 ^ 63 then { t with handed := (x % 2 ^ 16) :: t.handed } else t }

/-- The eligible points, and those of them whose deferral count has reached the limit (R222, R334). -/
def eligiblePoints (t : TumSet) : List Nat := (List.range t.count).filter fun p => !t.visited.contains p && !t.handed.contains p
def duePoints (t : TumSet) : List Nat := (eligiblePoints t).filter fun p => (if t.defer = 0 then 2 else t.defer) ≤ t.counts.getD p 0

/-- The word of WNEXT (R222): the lowest due point, marked; else the lowest ready one; the end of the set where none is eligible. -/
def nextWord (t : TumSet) : Option Nat :=
  match duePoints t, (eligiblePoints t).filter fun p => t.ready.contains p with
  | p :: _, _ => some (p + 2 ^ 16)
  | [], p :: _ => some p
  | [], [] => if eligiblePoints t = [] then some (2 ^ 63) else none

/-- The target of a direct transfer: a displacement counted in bundles of 32 bytes (R111). -/
def target (c : Core) (d : Disp) : BitVec 48 := match d with
  | .short t => c.pc + 32 * t.signExtend 48
  | .long v => c.pc + 32 * v.signExtend 48

/-- The masks of the control registers a CSRW writes in themselves (R19 to R30, R127). -/
def writeMasks : List (Nat × Word) :=
  [(0x000, 1), (0x002, 1), (0x007, 0x0000FFFFFFFFFFE1), (0x008, 0xFFFFFFFFFFFF0FFF), (0x009, 0x0000FFFFFFFFFFE0), (0x00A, 0xF)] ++
    (List.range 24).map fun i => (0x010 + i, 0x3FFFF)

/-- A wait that observes completed copies (R201, R217, R228, R230): where one of them has completed since, it acquires, and the lines
it wrote join those a publication covers; where none has, nothing changes. -/
def observed (c : Core) (p : Unobs → Bool) (always : Bool) : Core :=
  let d := { (if always || c.unobs.any p then acquireCore c else c) with
    obs := insertAll ((c.unobs.filter p).flatMap (·.lines)) c.obs
    unobs := c.unobs.filter fun u => !p u }
  if always || c.unobs.any p then d else c

/-- The landing of a wait's predicate, all ones or all zeros (R229 to R231). -/
def flagged (s : State) (p : PReg) (x : Bool) : Flight := result s 6 1 (.p p) (.w (if x then BitVec.allOnes 64 else 0)) allOnes none

/-- The poison trap a wait takes after its commit (R20, R229 to R231). -/
def poisoned (detail : Nat) : Cause := ⟨0x30, BitVec.ofNat 48 detail, some 6, false, none, false⟩

/-- A word read at its home without a token is there to be read (R196, R288, R290, R292). -/
def HomeOk (s : State) (l : Lin) : Prop :=
  s.linWaits l s.clock = false ∧ s.deadHome l.pa = false ∧ s.store.poison.contains (l.pa / 128) = false

/-! ### Bundles, frames and traps -/

/-- Words of the encoding tables (R46 to R58), each with its slot, its long immediate and REP, and the instruction it is. -/
def tableWords : List (Fin 8 × Nat × Option (BitVec 32) × BitVec 12 × Instr) :=
  [(0, 0b000001_0000_0011_0001_0010_10, none, 0, .add ⟨0, 3, ⟨1, true⟩, .reg 2 false⟩),
   (0, 0b011011_0000_0101_0000_0000_00, some 0xFFFFFFFE, 0, .movi ⟨0, 5, ⟨0, false⟩, .long 0xFFFFFFFE⟩),
   (0, 0b011111_0010_0100_0111_1000_00, none, 0, .cmplt ⟨2, 4, 7, .reg 8, 0⟩),
   (0, 0b101111_0000_0110_0010_011_110, some 64, 0, .sld ⟨0, 6, 2, 3, 6, some 64⟩),
   (1, 0b000001_0011_0101_0001_0010_01, none, 0, .vadd false ⟨3, 5, ⟨1, false⟩, .reg 2 true⟩),
   (2, 0b000100_0000_1001_0001_0010_00, none, 0, .vfma true ⟨0, 9, ⟨1, false⟩, .reg 2 false⟩),
   (3, 0b000001_0000_0001_0010_011_100, none, 5, .mma 5 ⟨0, 1, 2, 3, 4⟩),
   (4, 0b000001_0000_0010_0001_101_000, some 4096, 0, .cpy false ⟨0, 2, 1, 5, 0, some 4096⟩),
   (5, 0b010001_0000_0000_0011_0111_00, none, 0, .barrive true ⟨0, 0, ⟨3, false⟩, .reg 7 false⟩),
   (6, 0b000001_1100_0000_1111111110, none, 0, .br ⟨12, 0, .short 0x3FE⟩),
   (6, 0b001010_0000_000_110_0000_0000, none, 0, .waitk ⟨0, 0, 6, 0, 0, none⟩),
   (6, 0b010110_0000_0100_0000110000, none, 0, .csrr ⟨0, .reg 4, 0x030⟩),
   (7, 0b000001_0000_0010_0011_0100_00, none, 0, .pand ⟨0, 2, 3, 0b010000⟩)]

/-- A bundle of 32 bytes with one word in a slot (R41 to R45). -/
def wordBundle (slot : Fin 8) (w : Nat) (imm : Option (BitVec 32)) (rep : BitVec 12) : Nat :=
  w * 2 ^ (24 * slot.val) + rep.toNat * 2 ^ 208 + match imm with
    | some v => v.toNat * 2 ^ 224 + slot.val * 2 ^ 221 + 2 ^ 220
    | none => 0

/-- The guard of an operation outside the V slots (R15); SEL's guard is its selector. -/
def scalarGuard : Instr → Option Guard
  | .add o | .sub o | .mul o | .mulh o | .mulhu o | .div o | .divu o | .rem o | .remu o | .and o | .or o | .xor o | .andn o | .shl o
  | .shr o | .sra o | .rol o | .min o | .max o | .minu o | .maxu o | .clz o | .popc o | .brev o | .mov o | .sfadd o | .sfsub o
  | .sfmul o | .sfdiv o | .rndc o | .qcnt o | .amov o | .amovToS o | .aadd o | .mcfg o | .mstat o | .fevrd o => some o.g
  | .movCounter o => some o.g
  | .movi o | .addi o | .sfcvt o | .qcfg o | .loop o | .nest o | .trap o | .irqh o => some o.g
  | .cmpeq o | .cmpne o | .cmplt o | .cmple o | .cmpltu o | .cmpleu o | .sfcmplt o | .sfcmpeq o => some o.g
  | .sld o | .sst o | .sldl o | .sstl o | .slda o | .sstrl o | .satom o | .scas o | .sstp o => some o.g
  | .mma _ o | .mmaz _ o => some o.g
  | .mdrn o | .mfill o | .mzero o | .msync o | .mldcb o | .scld o | .sczero o => some o.g
  | .pand o | .por o | .pxor o | .pandn o | .pnot o | .pmov o | .pset o | .pclr o | .pcnt o | .pfirst o | .pshl o => some o.g
  | .cpy _ o | .cpyl _ o | .cpyt _ o | .cxpose _ o | .crun _ o | .cstamp _ o | .cfp _ o | .ccmp _ o | .csum _ o | .cxpnd _ o
  | .cpush _ o | .cpeer _ o | .cdisp _ o | .wset _ o | .tqry _ o | .tbind _ o | .cfill _ o => some o.g
  | .cnest _ o | .binit _ o | .barrive _ o | .bexpect _ o | .wnext _ o | .wdone _ o | .wresq _ o | .tset _ o | .tlock _ o
  | .tcur _ o => some o.g
  | .cbclose _ o => some o.g
  | .tadv _ o => some o.g
  | .br o | .bri o | .call o | .ret o | .swapi o => some o.g
  | .rft o | .texit o | .yield o | .hbeat o | .halt o => some o.g
  | .waitk o | .waitb o | .cbwait o | .monarm o | .waitmon o | .ssync o | .spawn o | .fence o | .pubc o => some o.g
  | .csrr o | .csrw o => some o.g
  | .qmodeWrite o | .bankroleWrite o | .stashmapWrite o | .wdogwinWrite o | .fevlogWrite o | .worldWrite o => some o.g
  | _ => none

/-- The guard of an operation of a V slot (R15); VSEL, VCOMP and VEXPD read theirs as data. -/
def vectorGuard : Instr → Option Guard
  | .vadd _ o | .vsub _ o | .vmul _ o | .vfma _ o | .vfms _ o | .vmin _ o | .vmax _ o | .vabs _ o | .vneg _ o | .vdiv _ o | .vsqrt _ o
  | .vexp2 _ o | .vhadd _ o | .vhmul _ o | .vhfma _ o | .viadd _ o | .visub _ o | .vimul _ o | .vimin _ o | .vimax _ o | .vand _ o
  | .vor _ o | .vxor _ o | .vshl _ o | .vshr _ o | .vsra _ o | .vpack _ o | .vunpk _ o | .vperm _ o | .vbcast _ o | .vcnz _ o
  | .vmov _ o | .vxfer _ o | .vins _ o => some o.g
  | .vcmpf _ o | .vcmpi _ o => some o.g
  | .vcvt _ o _ => some o.g
  | .vrot _ o | .viota _ o | .vscan _ o | .vred _ o => some o.g
  | .vld _ o | .vst _ o | .vldl _ o | .vstl _ o | .vgath _ o | .vscat _ o | .vldff _ o | .vldt _ o | .vstt _ o | .vstp _ o => some o.g
  | .vxferConst _ o => some o.g
  | .vxferCross _ o => some o.g
  | _ => none

/-- Instructions whose issue may write device memory: descriptor fields (R226), lines written through (R263, R268, R279), a poisoned
tile found by a scale load (R258). -/
def writesAtIssue : Instr → Bool
  | .tset _ _ | .tlock _ _ | .bankroleWrite _ | .stashmapWrite _ | .ssync _ | .scld _ => true
  | _ => false

/-- Those whose issue writes through what the core has written in SELFINV lines (R263, R268, R279), and nothing else. -/
def writesThrough : Instr → Bool
  | .bankroleWrite _ | .stashmapWrite _ | .ssync _ => true
  | _ => false

/-- Those whose issue reads a word at its home, where another core's E or M copy becomes S (R200, R231, R276). -/
def readsAtIssue : Instr → Bool
  | .monarm _ | .waitmon _ => true
  | _ => false

/-- A core but for the states of its lines. -/
def noLines (c : Core) : Core := { c with mem := { c.mem with lines := [], stash := [] } }

/-- Instructions whose issue writes local memory (R151, R223), or empties banks (R23). -/
def writesLocal : Instr → Bool
  | .sstl _ | .vstl _ _ | .vscat _ _ | .wdone _ _ | .bankroleWrite _ => true
  | _ => false

/-- Instructions that change a handle at their commit (R156, R182, R186, R225, R226). -/
def movesHandle : Instr → Bool
  | .vldt _ _ | .vstt _ _ | .mdrn _ | .mldcb _ | .tset _ _ | .tlock _ _ | .tcur _ _ | .tadv _ _ => true
  | _ => false

/-- Waits that land a predicate with the poison trap (R229 to R231). -/
def landsInWait : Instr → Bool
  | .waitb _ | .cbwait _ | .waitmon _ => true
  | _ => false

/-- Instructions that write control registers beside those of a trap (R12, R126, R127, R128). -/
def writesControl : Instr → Bool
  | .qcfg _ | .hbeat _ | .csrw _ | .qmodeWrite _ | .bankroleWrite _ | .stashmapWrite _ | .wdogwinWrite _ | .fevlogWrite _
  | .worldWrite _ | .fevrd _ => true
  | i => landsInWait i

/-- Instructions that give queues their mode, which empties the changed ones (R12). -/
def writesMode : Instr → Bool
  | .qcfg _ | .qmodeWrite _ => true
  | _ => false

/-- The control registers that a trap and RFT write (R28, R29). -/
def trapRegister (n : Nat) : Prop := n ∈ [0x008, 0x009, 0x00A] ∨ (0x010 ≤ n ∧ n ≤ 0x027)

/-- KIND and INDEX of a replay entry (R29). -/
def replayKind : Dest → Nat × Nat
  | .s r => (0, r.val)
  | .v r => (1, r.val)
  | .p r => (2, r.val)
  | .a r => (3, r.val)

/-- Results of a kind their destination takes. -/
def typed (f : Flight) : Prop := match f.dest, f.val with
  | .v _, .v _ => True
  | .v _, .w _ => False
  | _, .w _ => True
  | _, .v _ => False

/-- The results in flight that are due, in landing order (R33). -/
def landing (s : State) : List Flight := s.core.flights.filter fun f => f.due ≤ s.clock && !f.record

/-- The values of the landing results bound for an s register, and with their lanes for a v register. -/
def sLandings (s : State) (r : Fin 16) : List Word := (landing s).filterMap fun f => match f.dest, f.val with
  | .s q, .w x => if q = r then some x else none
  | _, _ => none

def vLandings (s : State) (r : Fin 16) : List (Word × VReg) := (landing s).filterMap fun f => match f.dest, f.val with
  | .v q, .v x => if q = r then some (f.mask, x) else none
  | _, _ => none

/-- The active lanes of a value over the lanes of another (R131). -/
def blend (m : Word) (x y : VReg) : VReg := vlanes fun i => if plane m i then vlane x i else vlane y i


/-! ### The register region, the schedulers' and the host's ports (R353, R354, R361 to R366, R286 to R288) -/

/-- The registers of R361 to R374 that a write gives the written bits, their reserved bits reading 0: offset, bits, and whether only a
secure access writes them. -/
def registerMasks : List (Nat × Word × Bool) :=
  [(0x1000, 0x000FFFFFFFFFF000, false), (0x1008, 0x000FFFFFFFFFF000, true), (0x2000, 0x000FFFFFFFFFF000, false), (0x2008, 0x1F, false),
   (0x2018, 0xFFFFFFFFFFFFFFFF, false), (0x2028, 0xFFFF83FF, false), (0x3000, 0xFFF, true), (0x3008, 0x0000007FFFFFF000, true)] ++
  ((List.range 8).flatMap fun b => [(0x8010 + 0x1000 * b, 0x0000007FFFFFFFF0, false), (0x8018 + 0x1000 * b, 0xFFFFFFFFFFFFFFFF, false),
    (0x8020 + 0x1000 * b, 0xFFFFFFFFFFFFFFFF, false), (0x8038 + 0x1000 * b, 0x0000007FFFFFFFF8, false)]) ++
  (List.range 64).flatMap fun i => [(0x5000 + 16 * i, 0x0000007FFFFF0003, true), (0x5008 + 16 * i, 0x0000007FFFFF0000, true)]

/-- A handle of a tensor of the stack. -/
def ofStack (stack : Nat) (c : Core) : Prop := ∃ x, some x ∈ c.regs.h.toList ∧ dHome x.desc = stack

/-- A translation lies outside what a withdrawal of pages `page` to `page + npg - 1` of a space covers. -/
def kept (space all : Bool) (page npg : Nat) (x : Xl) : Bool :=
  x.space != space || (!all && (decide ((page + npg) * 4096 ≤ x.va) || decide (x.va + x.size ≤ page * 4096)))

/-- Nothing outside one metadata window, and no memory, changes. -/
def windowOnly (s t : State) (stack : Fin 8) : Prop :=
  (∀ b : Fin 8, b ≠ stack → vat t.md b.val = vat s.md b.val) ∧ t.core = s.core ∧ t.before = s.before ∧ t.after = s.after ∧
    t.store = s.store ∧ t.host = s.host ∧ t.plat = s.plat ∧ t.sched = s.sched

/-! ### Device steps: the host, power, management and bring-up -/

/-- The host may reach an access of n bytes now: the link is up, and no line is absent, barred, dead, or on a page that is changing its
bias (R287, R288, R359, R360). -/
def hostReaches (s : State) (pa n : Nat) : Prop :=
  s.hostOpen = true ∧ ∀ a ∈ hostLines pa n, present a = true ∧ s.hostBarred a = false ∧ s.deadHome a = false ∧ s.biasChanging a = false

/-! ### The memory path and the core's pipelines (R16, R170, R175, R193, R197, R201, R270, R292, R333, R348) -/

/-- An operation of the core in focus that is performed now, without an error of its own; no store of the core waits in its cache, and
nothing that was issued later has landed in this clock (R33). -/
def Performs (s : State) (o : TokOp) : Prop :=
  s.core.opOf o.id = some o ∧ s.opDue o = true ∧ o.err = none ∧ dirtyLines s.core = [] ∧
  ∀ l ∈ s.core.landed, l.clock = s.clock → l.issue ≤ o.issue

/-- A listed access of n bytes within a line of memory at `pa`, on a page that is not SELFINV (R279). -/
def Lies (s : State) (a : Lin) (n pa : Nat) : Prop :=
  ∃ x, a.xl a.va = some x ∧ pa = x.paOf a.va ∧ x.coh ≠ 1 ∧ isReg pa = false ∧ s.deadHome pa = false ∧ pa % 128 + n ≤ 128

/-- The operation is no longer outstanding, and its token has fallen, with the first error recorded on it (R16). -/
def Fallen (s t : State) (o : TokOp) (e : Option Err) : Prop :=
  (∀ p ∈ t.core.ops, p.id ≠ o.id) ∧ ∀ k, o.k = some k → t.core.regs.k.get k = ⟨(s.core.regs.k.get k).count - 1,
    match (s.core.regs.k.get k).err with
      | some x => some x
      | none => e⟩

/-- What an s register holds once a value has landed in it (R7, R8). -/
def landed (s : State) (d : Fin 16) (x : Word) : List Word :=
  if d = 0 then s.core.regs.s.get d else if sQueue s.core.csr.qmode d then s.core.regs.s.get d ++ [x] else [x]

/-- What a v register holds once the active lanes of a value have landed in it (R7, R8, R131). -/
def vlanded (s : State) (d : Fin 16) (m : Word) (x : VReg) : List VReg :=
  let l := s.core.regs.v.get d
  if d = 0 then l else if vQueue s.core.csr.qmode d then l ++ [blend m x VReg.zero] else [blend m x (l.headD VReg.zero)]

/-- The operation has landed zeros, and ends in error, with its token, in a later clock (R32). -/
def Failed (s t : State) (o : TokOp) (e : Err) : Prop :=
  t.core.opOf o.id = some { o with kind := .ended, err := some e, issue := s.clock, draw := s.draws } ∧ t.core.regs.k = s.core.regs.k

/-- The operation goes on in another form; its token stands. -/
def GoesOn (s t : State) (o p : TokOp) : Prop := t.core.opOf o.id = some p ∧ t.core.regs.k = s.core.regs.k

/-- The physical address of a byte of a listed access. -/
def byteAt (a : Lin) (va : Nat) : Nat := match a.xl va with
  | some x => x.paOf va
  | none => 0

/-- Pieces of a listed access, each within a line: every one lies whole in a good line of memory, on a page that is not SELFINV. -/
def PiecesLie (s : State) (a : Lin) (ps : List (Nat × Nat)) : Prop :=
  ∀ p ∈ ps, ∃ x, (∀ v, p.1 ≤ v → v < p.1 + p.2 → a.xl v = some x) ∧ x.coh ≠ 1 ∧ x.paOf p.1 % 128 = p.1 % 128 ∧ isReg (x.paOf p.1) = false ∧
    s.deadHome (x.paOf p.1) = false ∧ x.paOf p.1 / 128 ∉ s.store.poison

/-- The lines of a vector's access that active lanes touch lie so, the lanes at places of their own. -/
def VLies (s : State) (a : Lin) (act : Word) : Prop :=
  a.va % 4 = 0 ∧ PiecesLie s a (vpieces a.va act) ∧ ∀ i j, i < 64 → j < 64 → plane act i = true → plane act j = true → i ≠ j →
    byteAt a (a.va + 4 * i) ≠ byteAt a (a.va + 4 * j)

/-- The lanes of memory that a vector's access reads. -/
def lanesAt (s : State) (a : Lin) : VReg := vlanes fun i => BitVec.ofNat 32 (rdNat s.store.bytes (byteAt a (a.va + 4 * i)) 4)

/-- The active lanes of a vector stand in memory, and every other byte is as it was (R149). -/
def lanesStored (s t : State) (a : Lin) (act : Word) (x : VReg) : Prop :=
  (∀ i, i < 64 → plane act i = true → rdNat t.store.bytes (byteAt a (a.va + 4 * i)) 4 = (vlane x i).toNat) ∧
  ∀ b, (∀ i, i < 64 → plane act i = true → b < byteAt a (a.va + 4 * i) ∨ byteAt a (a.va + 4 * i) + 4 ≤ b) →
    rd8 t.store.bytes b = rd8 s.store.bytes b

/-- A line may be pushed: it lies on a DIR page of device memory that is not host-biased (R163). -/
def Pushable (s : State) (a : Lin) (va : Nat) : Prop :=
  ∃ x, a.xl va = some x ∧ x.coh = 0 ∧ isDevice (x.paOf va) = true ∧ s.hostBiased (x.paOf va) = false

/-- What a performed push store leaves (R162): no core holds the lines, and each line is on its way to each core of the set; with no
core in the set the operation has ended. -/
def pushed (s t : State) (o : TokOp) (a : Lin) (vas : List Nat) (cores : BitVec 24) : Prop :=
  (∀ va ∈ vas, ∀ c ∈ t.cores, holdsLine (byteAt a va / 128) c = false) ∧
  (coreSet cores = [] → Fallen s t o none) ∧
  (coreSet cores ≠ [] → GoesOn s t o { o with kind := .pushing (vas.flatMap fun _ => coreSet cores) } ∧
    ∃ new, t.pushes = s.pushes ++ new ∧ (∀ p ∈ new, p.src = s.core.id ∧ p.opId = o.id ∧ p.isCopy = false) ∧
      new.map (fun p => (p.line, p.dst)) = vas.flatMap fun va => (coreSet cores).map fun c => (byteAt a va / 128, c))

/-- The bytes outside a range are as they were. -/
def sameBut (s t : State) (pa n : Nat) : Prop :=
  ∀ a, a < pa ∨ pa + n ≤ a → rd8 t.store.bytes a = rd8 s.store.bytes a

/-- The width of a scalar access, and the value a load of it gives, extended by W (R147). -/
def loadedWord (w : BitVec 3) (x : Nat) : Word :=
  if w = 0 then BitVec.ofNat 64 (x % 2 ^ 8) else if w = 1 then BitVec.ofNat 64 (x % 2 ^ 16) else if w = 2 then BitVec.ofNat 64 (x % 2 ^ 32)
  else if w = 4 then (BitVec.ofNat 8 x).signExtend 64 else if w = 5 then (BitVec.ofNat 16 x).signExtend 64
  else if w = 6 then (BitVec.ofNat 32 x).signExtend 64 else BitVec.ofNat 64 x

/-- A repetition's C tile: its first row, and whether it takes zeros for the rows (R177). -/
def tileBase (o : MOp) (r : Rep) : Nat := if cfgKSweep o.cfg then o.base else o.base + 768 * r.j
def tileZero (zero : Bool) (o : MOp) (r : Rep) : Bool := zero && (!cfgKSweep o.cfg || decide (r.j = 0))

/-- What an engine of the core in focus finds at a linear address: a translation that its copy holds, or one of the core's TLB, with its
checks (R206, R326, R351). -/
def Finds (s : State) (held : List Xl) (sec write : Bool) (va : Nat) (x : Xl) : Prop :=
  (match findXl held sec va with
    | some y => s.allows sec write va y
    | none => s.probe sec write va) = .ok x

/-- The translations that a copy holds once it has used one. -/
def holding (held : List Xl) (sec : Bool) (va : Nat) (x : Xl) : List Xl := if (findXl held sec va).isSome then held else x :: held

/-- A byte of memory that an engine may touch: good, at a home that is there, on a page that is not changing its bias (R288, R290,
R292). -/
def Good (s : State) (pa : Nat) : Prop :=
  isReg pa = false ∧ s.biasChanging pa = false ∧ s.deadHome pa = false ∧ pa / 128 ∉ s.store.poison

/-- An engine may touch n bytes of memory at a linear address, from `pa` on, under one translation of a page that is not SELFINV. -/
def EngineAt (s : State) (held : List Xl) (sec write : Bool) (va n : Nat) (x : Xl) (pa : Nat) : Prop :=
  x.coh ≠ 1 ∧ pa = x.paOf va ∧ va % 128 = pa % 128 ∧ ∀ i, i < n → va + i < 2 ^ 48 ∧ ihOffset (va + i) = none ∧
    Finds s held sec write (va + i) x ∧ x.paOf (va + i) = pa + i ∧ Good s (pa + i)

/-- A place that a copy reads or writes: memory, under a translation; a half of the instruction scratchpad; local memory. -/
inductive Spot where
  | mem (x : Xl) (pa : Nat)
  | half (off : Nat)
  | loc (off : Nat)

def Spot.byte (s : State) : Spot → Nat → Byte
  | .mem _ pa, i => rd8 s.store.bytes (pa + i)
  | .half o, i => rd8 s.core.mem.ih (o + i)
  | .loc o, i => rd8 s.core.mem.sram (o + i)

/-- n bytes of a side of a copy, from byte o on, stand at a place where the engine may read or write (R206, R207, R272, R292). -/
def Spot.serves (s : State) (held : List Xl) (sec write : Bool) (d : Side) (o n : Nat) : Spot → Prop
  | .mem x pa => ∃ a, d = .lin a ∧ EngineAt s held sec write (a + o) n x pa
  | .half h => ∃ a, d = .lin a ∧ ∀ i, i < n → a + o + i < 2 ^ 48 ∧ ihOffset (a + o + i) = some (h + i) ∧
      s.core.halfClaimed (h + i) = true ∧ (write = true → s.core.halfActive (h + i) = false)
  | .loc l => d = .loc (l - o) ∧ o ≤ l ∧ s.core.badLocal l n = none ∧ (write = false → badWordIn s.core l n = none)

/-- The translations that a copy holds once it has been there. -/
def Spot.after (held : List Xl) (sec : Bool) (d : Side) (o : Nat) : Spot → List Xl
  | .mem x _ => match d with
    | .lin a => holding held sec (a + o) x
    | .loc _ => held
  | _ => held

/-- A later copy of the core has written a byte: of memory (0), of local memory (1), of a half (2); `who` numbers the copy, and the copy of
a CRUN (R318). -/
def later (s : State) (who : Nat × Nat) (space a : Nat) : Bool := s.copyWrites.any fun w => w.covers s.core.id who space a

/-- Bytes stand from a place on, but where a later copy of the core has written; every other byte is as it was (R318). -/
def stands (s : State) (who : Nat × Nat) (space at_ : Nat) (bs : List Byte) (old new : Nat → Byte) : Prop :=
  ∀ a, new a = if at_ ≤ a ∧ a < at_ + bs.length ∧ later s who space a = false then bs.getD (a - at_) 0 else old a

/-- Nothing of memory, of the core's local memory or of its halves has changed. -/
def untouched (s t : State) : Prop :=
  t.store.bytes = s.store.bytes ∧ t.core.mem.sram = s.core.mem.sram ∧ t.core.mem.ih = s.core.mem.ih

/-- A copy has written bytes at a place, and nothing else; a line of a half that it has written is not clean (R211, R318). -/
def Wrote (s t : State) (who : Nat × Nat) (bs : List Byte) : Spot → Prop
  | .mem _ pa => stands s who 0 pa bs (rd8 s.store.bytes) (rd8 t.store.bytes) ∧ t.core.mem.sram = s.core.mem.sram ∧
      t.core.mem.ih = s.core.mem.ih
  | .half o => stands s who 2 o bs (rd8 s.core.mem.ih) (rd8 t.core.mem.ih) ∧ t.store.bytes = s.store.bytes ∧
      t.core.mem.sram = s.core.mem.sram ∧
      ∀ i, i < bs.length → later s who 2 (o + i) = false → (o + i) / 128 ∉ t.core.mem.ihClean
  | .loc o => stands s who 1 o bs (rd8 s.core.mem.sram) (rd8 t.core.mem.sram) ∧ t.store.bytes = s.store.bytes ∧
      t.core.mem.ih = s.core.mem.ih

/-- A copy of the core in focus that goes on now. -/
def Goes (s : State) (c1 : Bool) (k : Copy) : Prop :=
  s.core.copyOf k.id = some k ∧ s.core.engineOf k.id = some c1 ∧ copyDue s c1 k = true ∧ k.counted = none

/-- The copy has left its engine, and its token has fallen, with the first error recorded on it (R16, R317). -/
def Left (s t : State) (c1 : Bool) (k : Copy) (e : Option Err) : Prop :=
  (∀ q ∈ (t.core.eng c1).queue, q.id ≠ k.id) ∧ t.core.regs.k.get k.k = ⟨(s.core.regs.k.get k.k).count - 1,
    match (s.core.regs.k.get k.k).err with
      | some x => some x
      | none => e⟩

/-- The canonical form of what a core keeps of its own: SCRATCH, the instruction scratchpad and the accumulator store. -/
def LocalForm (c : Core) : Prop := Memory.wf c.mem.sram = true ∧ Memory.wf c.mem.ih = true ∧ cellsWf 0 c.mx.acc = true

/-- The copy goes on, with a progress of which a property holds; the registers are as they were. -/
def Onward (s t : State) (c1 : Bool) (k : Copy) (p : CopyProgress → Prop) : Prop :=
  (∃ q ∈ (t.core.eng c1).queue, q.id = k.id ∧ q.kind = k.kind ∧ q.err = none ∧ q.commits = none ∧ p q.prog) ∧ t.core.regs = s.core.regs

/-- A copy whose next piece is moved now: no error has ended it, it waits for nothing of what it has issued, and no withdrawal is pending;
no store of the core waits in its cache. -/
def Works (s : State) (c1 : Bool) (k : Copy) : Prop :=
  Goes s c1 k ∧ k.commits = none ∧ k.err = none ∧ k.prog.owed = [] ∧ k.prog.fail = none ∧ k.frozen s = false ∧ dirtyLines s.core = [] ∧
    s.core.stat ≠ .saved ∧ LocalForm s.core

/-- The bytes of a range of n, from `pos` on, that a copy moves at once: at most 128, within a page of each side (R206, R317). -/
def pieceOf (a b : Side) (pos n : Nat) : Nat :=
  let room (d : Side) : Nat := 4096 - (d.at_ + pos) % 4096
  min (n - pos) (min 128 (min (room a) (room b)))

def linear48 (a : Word) : Side := .lin (a.toNat % 2 ^ 48)

/-- A copy of bytes: its destination, its source, its length, and whether it is verified (R207). -/
def byteCopy : CopyKind → Option (Side × Side × Nat × Bool)
  | .cpy d a n v => some (linear48 d, linear48 a, n, v)
  | .cpyl false d a n v => some (.loc (d.toNat % 2 ^ 21), linear48 a, n, v)
  | .cpyl true d a n v => some (linear48 d, .loc (a.toNat % 2 ^ 21), n, v)
  | _ => none

/-- The task of a number, as the pool holds it after a step. -/
def poolTask (t : State) (id : Nat) (p : Task → Prop) : Prop := ∃ u, t.sched.task id = some u ∧ p u

/-- Every core and every saved context, with the core as it was before the bundle that is being issued. -/
def everyContext (s : State) : List Core := s.contexts ++ (s.iss.map (·.old)).toList

end Sys2Proof.Claims

open Sys2Proof Sys2Proof.Machine Sys2Proof.Claims

/-! ### Scalar, predicate and vector results -/

/-- R96, R97, R103, R106: a slot-S operation of two sources reads A, then B, and lands its result in D. -/
def Obligations.ScalarTwoSourceResults : Prop :=
  ∀ x ∈ scalarTwoSource, ∀ (o : FR) (s : State) (a b : Word) (c d : Core),
    s.iss = none → guardOn s.core o.g = true → takeS s.core o.a.r o.a.pk = some (a, c) → takeB c o.b = some (b, d) →
    Completes (x.1 o) s (lands (x.1 o) 0 s d
      (result s 0 x.2.1 (.s o.d) (.w (x.2.2 a b).1) allOnes ((x.2.2 a b).2.map fun f => ⟨f, 0⟩)))

/-- R98 to R101, R105, R109: CLZ, POPC, BREV, MOV, ADDI, SFCVT, AMOV and AADD.
R99 to R101, R108, R109: MOVI, MOV of a loop counter, AMOV to s, QCNT and SEL. -/
def Obligations.ScalarOneSourceResults : Prop :=
  (∀ (s : State), s.iss = none →
     (∀ x ∈ scalarOneSource, ∀ (o : FR) (a : Word) (c : Core),
       guardOn s.core o.g = true → takeS s.core o.a.r o.a.pk = some (a, c) →
       Completes (x.1 o) s (lands (x.1 o) 0 s c (result s 0 1 (.s o.d) (.w (x.2 a)) allOnes none))) ∧
     (∀ (o : FI) (a : Word) (c : Core), guardOn s.core o.g = true → takeS s.core o.a.r o.a.pk = some (a, c) →
       Completes (.addi o) s (lands (.addi o) 0 s c (result s 0 1 (.s o.d) (.w (a + immediate o.i)) allOnes none)) ∧
       ∀ x, scalarConversions[immCode o.i]? = some x →
         let y := scalarConverted x.1 x.2.1 x.2.2 a.toNat
         Completes (.sfcvt o) s (lands (.sfcvt o) 0 s c (result s 0 3 (.s o.d) (.w y.1) allOnes (y.2.map fun f => ⟨f, 0⟩)))) ∧
     (∀ (o : FR) (a : Word) (c : Core), guardOn s.core o.g = true → takeS s.core o.a.r o.a.pk = some (a, c) →
       Completes (.amov o) s (lands (.amov o) 0 s c (result s 0 1 (.a o.d) (.w a) allOnes none))) ∧
     (∀ (o : FR) (b : Word) (c : Core), guardOn s.core o.g = true → takeB s.core o.b = some (b, c) →
       Completes (.aadd o) s (lands (.aadd o) 0 s c (result s 0 1 (.a o.d) (.w (s.core.regs.a.get o.a.r + b)) allOnes none)))) ∧
  (∀ (s : State), s.iss = none →
     (∀ o : FI, guardOn s.core o.g = true →
       Completes (.movi o) s (lands (.movi o) 0 s s.core (result s 0 1 (.s o.d) (.w (immediate o.i)) allOnes none))) ∧
     (∀ o : FMovN, guardOn s.core o.g = true →
       Completes (.movCounter o) s (lands (.movCounter o) 0 s s.core
         (result s 0 1 (.s o.d) (.w ((s.core.loopSt.n.get o.n).zeroExtend 64)) allOnes none))) ∧
     (∀ o : FR, guardOn s.core o.g = true →
       Completes (.amovToS o) s (lands (.amovToS o) 0 s s.core (result s 0 1 (.s o.d) (.w (s.core.regs.a.get o.a.r)) allOnes none)) ∧
       Completes (.qcnt o) s (lands (.qcnt o) 0 s s.core (result s 0 1 (.s o.d)
         (.w (queueWord s.core (if o.b = .reg 1 false then .v o.a.r else .s o.a.r))) allOnes none))) ∧
     (∀ (o : FR) (a b : Word) (c d : Core), takeS s.core o.a.r o.a.pk = some (a, c) → takeB c o.b = some (b, d) →
       Completes (.sel o) s (lands (.sel o) 0 s d
         (result s 0 1 (.s o.d) (.w (if guardOn s.core o.g then a else b)) allOnes none))))

/-- R102, R104: a compare lands its one-bit result in all 64 bits of its predicate.
R188 to R191: the predicate operations read predicates as landed, the second one named in E[5:2]; PCNT counts one into an s
register. -/
def Obligations.CompareAndPredicateResults : Prop :=
  (∀ x ∈ scalarCompares, ∀ (o : FC) (s : State) (a b : Word) (c d : Core),
     s.iss = none → guardOn s.core o.g = true → takeS s.core o.a false = some (a, c) → takeC c o.b = some (b, d) →
     Completes (x.1 o) s (lands (x.1 o) 0 s d
       (result s 0 x.2.1 (.p o.p) (.w (if x.2.2 a b then BitVec.allOnes 64 else 0)) allOnes none))) ∧
  (∀ (s : State) (o : FP), s.iss = none → guardOn s.core o.g = true →
     let a := s.core.regs.p.get o.pa
     (∀ p : PReg, p.val = o.pd.val →
       (∀ q : PReg, q.val = o.e.toNat / 4 → ∀ x ∈ predicateTwo, Completes (x.1 o) s (lands (x.1 o) 7 s s.core
         (result s 7 1 (.p p) (.w (x.2 a (s.core.regs.p.get q))) allOnes none))) ∧
       ∀ x ∈ predicateOne, Completes (x.1 o) s (lands (x.1 o) 7 s s.core
         (result s 7 1 (.p p) (.w (x.2 o.e.toNat a)) allOnes none))) ∧
     Completes (.pcnt o) s (lands (.pcnt o) 7 s s.core (result s 7 1 (.s o.pd)
       (.w (BitVec.ofNat 64 ((List.range 64).filter fun i => a.getLsbD i).length)) allOnes none)))

/-- R131 to R135: a vector operation of one, two or three sources computes every lane, and lands the active ones.
R136: the vector compares land the active lanes of their predicate. -/
def Obligations.VectorArithmeticResults : Prop :=
  (∀ (v1 : Bool) (o : FR) (s : State) (m : Word) (a : VReg) (c : Core),
     s.iss = none → activeMask s.core o.g = m → m ≠ 0 → takeV s.core o.a.r o.a.pk = some (a, c) →
     (∀ x ∈ vectorOneSource, Completes (x.1 v1 o) s (lands (x.1 v1 o) (vslot v1) s c
       (vresult s v1 x.2.1 o.d m fun i => x.2.2 (vlane a i).toNat))) ∧
     ∀ (b : VReg) (d : Core), takeBv c o.b = some (b, d) →
       (∀ x ∈ vectorTwoSource, Completes (x.1 v1 o) s (lands (x.1 v1 o) (vslot v1) s d
         (vresult s v1 x.2.1 o.d m fun i => x.2.2 (vlane a i).toNat (vlane b i).toNat))) ∧
       ∀ (z : VReg) (e : Core), takeV d o.d false = some (z, e) →
         ∀ x ∈ vectorThreeSource, Completes (x.1 v1 o) s (lands (x.1 v1 o) (vslot v1) s e
           (vresult s v1 4 o.d m fun i => x.2 (vlane a i).toNat (vlane b i).toNat (vlane z i).toNat))) ∧
  (∀ (v1 : Bool) (o : FC) (s : State) (m : Word) (a b : VReg) (c d : Core),
     s.iss = none → activeMask s.core o.g = m → m ≠ 0 → takeV s.core o.a false = some (a, c) → takeCv c o.b = some (b, d) →
     Completes (.vcmpf v1 o) s (lands (.vcmpf v1 o) (vslot v1) s d (result s (vslot v1) 2 (.p o.p)
       (.w (pmask fun i => floatCond o.cc (vlane a i).toNat (vlane b i).toNat)) m none)) ∧
     Completes (.vcmpi v1 o) s (lands (.vcmpi v1 o) (vslot v1) s d (result s (vslot v1) 2 (.p o.p)
       (.w (pmask fun i => intCond o.cc (vlane a i) (vlane b i))) m none)))

/-- R137, R139 to R142, R146: VSEL, VPACK, VUNPK, VPERM, VROT, VBCAST, VIOTA, VCOMP and VEXPD. -/
def Obligations.VectorMovementResults : Prop :=
  ∀ (v1 : Bool) (s : State), s.iss = none →
    (∀ (o : FR) (m : Word) (a : VReg) (c : Core), activeMask s.core o.g = m → takeV s.core o.a.r o.a.pk = some (a, c) →
      Completes (.vcomp v1 o) s (lands (.vcomp v1 o) (vslot v1) s c
        (vmoved s v1 3 o.d allOnes fun i => (((List.range 64).filter (plane m)).map (vlane a)).getD i 0)) ∧
      Completes (.vexpd v1 o) s (lands (.vexpd v1 o) (vslot v1) s c (vmoved s v1 3 o.d allOnes fun i =>
        if plane m i then vlane a ((List.range i).filter (plane m)).length else 0)) ∧
      (m ≠ 0 → Completes (.vunpk v1 o) s (lands (.vunpk v1 o) (vslot v1) s c (vmoved s v1 3 o.d m fun i =>
        let h := (vlane a (i / 2)).toNat / 65536 ^ (i % 2) % 65536
        BitVec.ofNat 32 (convRes (.f fp32) (convert (.f bf16) (.f fp32) .rne 0 h)).1))) ∧
      ∀ (b : VReg) (d : Core), takeBv c o.b = some (b, d) →
        Completes (.vsel v1 o) s (lands (.vsel v1 o) (vslot v1) s d
          (vmoved s v1 2 o.d allOnes fun i => if plane m i then vlane a i else vlane b i)) ∧
        (m ≠ 0 →
          Completes (.vperm v1 o) s (lands (.vperm v1 o) (vslot v1) s d
            (vmoved s v1 3 o.d m fun i => vlane a ((vlane b i).toNat % 64))) ∧
          Completes (.vpack v1 o) s (lands (.vpack v1 o) (vslot v1) s d (vresult s v1 3 o.d m fun i =>
            let e (k : Nat) : FRes := toBf16 (if k < 64 then vlane a k else vlane b (k - 64)).toNat
            packed (e (2 * i)) (e (2 * i + 1)))))) ∧
    (∀ (o : FI) (m : Word) (a : VReg) (c : Core), activeMask s.core o.g = m → m ≠ 0 → takeV s.core o.a.r o.a.pk = some (a, c) →
      Completes (.vrot v1 o) s (lands (.vrot v1 o) (vslot v1) s c
        (vmoved s v1 2 o.d m fun i => vlane a (((i : Int) + (immediate o.i).toInt) % 64).toNat))) ∧
    (∀ (o : FR) (m : Word) (x : Word) (c : Core), activeMask s.core o.g = m → m ≠ 0 → takeS s.core o.a.r o.a.pk = some (x, c) →
      Completes (.vbcast v1 o) s (lands (.vbcast v1 o) (vslot v1) s c (vmoved s v1 2 o.d m fun _ => BitVec.ofNat 32 x.toNat))) ∧
    (∀ (o : FI) (m : Word), activeMask s.core o.g = m → m ≠ 0 →
      Completes (.viota v1 o) s (lands (.viota v1 o) (vslot v1) s s.core
        (vmoved s v1 1 o.d m fun i => BitVec.ofInt 32 ((immediate o.i).toInt + (i : Int)))))

/-- R138, R143 to R145: VCVT where no active lane's conversion traps, VSCAN, VRED and VCNZ.
R80, R138: a VCVT with an active lane whose conversion traps takes the conversion trap, with the lowest such lane in DETAIL, and nothing
of its bundle commits. -/
def Obligations.VectorConversionResults : Prop :=
  ∀ (v1 : Bool) (s : State) (m : Word) (a : VReg) (c : Core), s.iss = none → m ≠ 0 →
    (∀ (o : FI) (w : BitVec 32), activeMask s.core o.g = m → takeV s.core o.a.r o.a.pk = some (a, c) →
      let f (x : Lane) : Conv := convert (numFmt (w.toNat % 16)) (numFmt (w.toNat / 16 % 16)) (cvtRm o) (cvtOv o) x.toNat
      (∀ i, i < 64 → plane m i = true → f (vlane a i) ≠ .trap) →
      Completes (.vcvt v1 o w) s (lands (.vcvt v1 o w) (vslot v1) s c
        (vresult s v1 4 o.d m fun i => convRes (numFmt (w.toNat / 16 % 16)) (f (vlane a i))))) ∧
    (∀ (o : FI) (w : BitVec 32) (i : Nat), activeMask s.core o.g = m → takeV s.core o.a.r o.a.pk = some (a, c) →
      let f (x : Lane) : Conv := convert (numFmt (w.toNat % 16)) (numFmt (w.toNat / 16 % 16)) (cvtRm o) (cvtOv o) x.toNat
      i < 64 → plane m i = true → f (vlane a i) = .trap → (∀ j, j < i → plane m j = true → f (vlane a j) ≠ .trap) →
      Clear (gathered s c (opened (.vcvt v1 o w) (vslot v1) s)) →
      exec (.vcvt v1 o w) s = .next (takeFault (openBundle s false) ⟨0x2C, BitVec.ofNat 48 i, some (vslot v1), false, none, false⟩)) ∧
    (∀ o : FI, activeMask s.core o.g = m → takeV s.core o.a.r o.a.pk = some (a, c) →
      let l := (List.range 64).map fun i => if plane m i then (vlane a i).toNat else redId (immCode o.i)
      Completes (.vred v1 o) s (lands (.vred v1 o) (vslot v1) s c (result s (vslot v1) 8 (.v o.d)
        (.v (Vector.replicate 64 (BitVec.ofNat 32 (vreduce (immCode o.i) l).1))) allOnes
        ((vreduce (immCode o.i) l).2.map fun x => ⟨x.1, 2 * x.2⟩))) ∧
      Completes (.vscan v1 o) s (lands (.vscan v1 o) (vslot v1) s c (result s (vslot v1) 8 (.v o.d)
        (.v (vlanes fun i => BitVec.ofNat 32 ((vscanAll (immCode o.i) l).1.getD i 0))) m
        ((vscanAll (immCode o.i) l).2.map fun x => ⟨x.1, x.2⟩)))) ∧
    ∀ o : FR, activeMask s.core o.g = m → takeV s.core o.a.r o.a.pk = some (a, c) →
      let on (b : Nat) : List Nat := (List.range 16).filter fun j => plane m (16 * b + j) && (vlane a (16 * b + j)).toNat % 2 ^ 31 != 0
      Completes (.vcnz v1 o) s (lands (.vcnz v1 o) (vslot v1) s c (vmoved s v1 3 o.d allOnes fun i =>
        if i < 4 then BitVec.ofNat 32 (on i).length
        else if i < 8 then BitVec.ofNat 32 ((on (i - 4)).foldl (fun acc j => acc ||| 2 ^ j) 0) else 0))

/-- R165, R166: the lane transfers. -/
def Obligations.LaneTransferResults : Prop :=
  ∀ (v1 : Bool) (s : State) (m : Word), s.iss = none → m ≠ 0 →
    (∀ (o : FR) (a : VReg) (b : Word) (c d : Core), activeMask s.core o.g = m → takeV s.core o.a.r o.a.pk = some (a, c) →
      takeB c o.b = some (b, d) →
      Completes (.vxfer v1 o) s (lands (.vxfer v1 o) (vslot v1) s d (result s (vslot v1) 3 (.s o.d)
        (.w ((vlane a (b.toNat % 64)).zeroExtend 64)) allOnes none))) ∧
    (∀ (o : FXC) (a : VReg) (c : Core), activeMask s.core o.g = m → takeV s.core o.a.r o.a.pk = some (a, c) →
      Completes (.vxferConst v1 o) s (lands (.vxferConst v1 o) (vslot v1) s c (result s (vslot v1) 3 (.s o.d)
        (.w ((vlane a o.lane.toNat).zeroExtend 64)) allOnes none))) ∧
    (∀ (o : FXX) (a : VReg) (c : Core), activeMask s.core o.g = m → takeV s.core o.a.r o.a.pk = some (a, c) →
      Completes (.vxferCross v1 o) s (lands (.vxferCross v1 o) (vslot v1) s c (result s (vslot v1) 3 (.v o.d) (.v a) m none))) ∧
    ∀ (o : FR) (a b : Word) (c d : Core), activeMask s.core o.g = m → takeS s.core o.a.r o.a.pk = some (a, c) →
      takeB c o.b = some (b, d) →
      Completes (.vins v1 o) s (lands (.vins v1 o) (vslot v1) s d (result s (vslot v1) 2 (.v o.d)
        (.v (Vector.replicate 64 (BitVec.ofNat 32 a.toNat)))
        (if plane m (b.toNat % 64) then BitVec.ofNat 64 (2 ^ (b.toNat % 64)) else 0) none))

/-! ### Memory -/

/-- R147, R148, R196 to R198, R202, R16, R37: a linear load or store of slot S or of a V slot issues its access, with its class and
token, after the earlier accesses of its class. -/
def Obligations.LinearAccesses : Prop :=
  ∀ (s : State) (o : FL), s.iss = none → Room s o.k →
    (guardOn s.core o.g = true →
      (let e := address s.core o
       let cls := e.toNat / 2 ^ 60
       wellFormed e (2 ^ (o.w.toNat % 4)) →
       (∀ x, Reach s false [e.toNat % 2 ^ 48] [x] → Completes (.sld o) s (issues (.sld o) 0 s s.core
         (leaving s 0 (some o.k) cls (classAfter s.core cls) (.sld (linear s e [x]) o.w o.d)))) ∧
       ∀ x v c, Reach s true [e.toNat % 2 ^ 48] [x] → takeS s.core o.d false = some (v, c) →
         Completes (.sst o) s (issues (.sst o) 0 s c
           (leaving s 0 (some o.k) cls (classAfter s.core cls) (.sst (linear s e [x]) (2 ^ (o.w.toNat % 4)) v)))) ∧
      (let e := s.core.regs.a.get o.a
       let cls := e.toNat / 2 ^ 60
       ∀ x v c, wellFormed e 8 → Reach s true [e.toNat % 2 ^ 48] [x] → takeS s.core o.d false = some (v, c) →
         Completes (.sstp o) s (issues (.sstp o) 0 s c (leaving s 0 (some o.k) cls (classAfter s.core cls)
           (.sstp (linear s e [x]) v (BitVec.ofNat 24 (o.imm.getD 0).toNat)))))) ∧
    ∀ (v1 : Bool) (m : Word), activeMask s.core o.g = m → m ≠ 0 →
      (let e := address s.core o
       let cls := e.toNat / 2 ^ 60
       wellFormed e 4 →
       (∀ xs, Reach s false (laneFirsts (e.toNat % 2 ^ 48) m) xs → Completes (.vld v1 o) s (issues (.vld v1 o) (vslot v1) s s.core
         (leaving s (vslot v1) (some o.k) cls (classAfter s.core cls) (.vld (linear s e xs) m o.d)))) ∧
       ∀ xs v c, Reach s true (laneFirsts (e.toNat % 2 ^ 48) m) xs → takeV s.core o.d false = some (v, c) →
         Completes (.vst v1 o) s (issues (.vst v1 o) (vslot v1) s c
           (leaving s (vslot v1) (some o.k) cls (classAfter s.core cls) (.vst (linear s e xs) m v)))) ∧
      (let e := s.core.regs.a.get o.a
       let cls := e.toNat / 2 ^ 60
       ∀ xs v c, wellFormed e 256 → Reach s true (laneFirsts (e.toNat % 2 ^ 48) m) xs → takeV s.core o.d false = some (v, c) →
         Completes (.vstp v1 o) s (issues (.vstp v1 o) (vslot v1) s c (leaving s (vslot v1) (some o.k) cls (classAfter s.core cls)
           (.vstp (linear s e xs) m v (BitVec.ofNat 24 (o.imm.getD 0).toNat)))))

/-- R199 to R201: an accepted synchronising access is issued in its class; a release waits for every access of the core. -/
def Obligations.SynchronisingAccesses : Prop :=
  ∀ (s : State) (o : FL), s.iss = none → Room s o.k → guardOn s.core o.g = true →
    let e := s.core.regs.a.get o.a
    let cls := e.toNat / 2 ^ 60
    let ctl : BitVec 7 := BitVec.ofNat 7 (o.imm.getD 0).toNat
    let after := if 2 ≤ ctl.toNat / 2 ^ 5 then releaseAfter s.core else classAfter s.core cls
    ∀ x : Xl, Accepted s 0 o.w (linear s e [x]) →
      (wellFormed e 8 → Reach s false [e.toNat % 2 ^ 48] [x] →
        Completes (.slda o) s (synchronises (.slda o) 0 o.w s s.core (linear s e [x]) (some o.k) cls (classAfter s.core cls)
          (.slda (linear s e [x]) o.w o.d))) ∧
      ∀ v c, Reach s true [e.toNat % 2 ^ 48] [x] → takeS s.core o.d false = some (v, c) →
        (wellFormed e 8 →
          Completes (.sstrl o) s (synchronises (.sstrl o) 0 o.w s c (linear s e [x]) (some o.k) cls (releaseAfter s.core)
            (.sstrl (linear s e [x]) o.w v))) ∧
        (wellFormed e (if ctl.toNat / 2 ^ 4 % 2 = 1 then 8 else 4) →
          Completes (.satom o) s (synchronises (.satom o) 0 o.w s c (linear s e [x]) (some o.k) cls after
            (.satom (linear s e [x]) ctl o.w v o.d)) ∧
          ∀ w d, takeS c (Fin.ofNat 16 ctl.toNat) false = some (w, d) →
            Completes (.scas o) s (synchronises (.scas o) 0 o.w s d (linear s e [x]) (some o.k) cls after
              (.scas (linear s e [x]) ctl o.w v w o.d)))

/-- R22, R150 to R152, R197, R198: local loads and stores of slot S and of the V slots, once no access and no fence of their class, and no
acquire, is outstanding (R37, R199, R233, log L66). -/
def Obligations.LocalAccesses : Prop :=
  ∀ (s : State) (o : FL), s.iss = none →
    let room := s.core.csr.scr = true → TokenRoom s o.k
    let e := address s.core o
    let cls := e.toNat / 2 ^ 60
    let off := e.toNat % 2 ^ 21
    (∀ n, n = 2 ^ (o.w.toNat % 4) → guardOn s.core o.g = true → wellFormedLocal e n → s.core.badLocal off n = none → Unheld s cls →
      (room → badWordIn s.core off n = none → Completes (.sldl o) s (loads (.sldl o) 0 s s.core o.k cls 6 (rowsOf off n)
        [(.s o.d, .w (extW o.w (rdNat s.core.mem.sram off n)), allOnes)])) ∧
      ∀ v c, takeS s.core o.d false = some (v, c) →
        Completes (.sstl o) s (stores (.sstl o) 0 s c (rowsOf off n) [⟨off, toBytes n v.toNat⟩])) ∧
    ∀ (v1 : Bool) (m : Word), activeMask s.core o.g = m → m ≠ 0 → wellFormedLocal e 4 → Unheld s cls →
      lanesLocal s.core m (fun i => off + 4 * i) →
      let banks := rowBanks m off
      (room → lanesGood s.core m (fun i => off + 4 * i) →
        Completes (.vldl v1 o) s (loads (.vldl v1 o) (vslot v1) s s.core o.k cls 6 banks
          [(.v o.d, .v (vlanes fun i => if plane m i then BitVec.ofNat 32 (rdNat s.core.mem.sram (off + 4 * i) 4) else 0), m)])) ∧
      ∀ v c, takeV s.core o.d false = some (v, c) →
        Completes (.vstl v1 o) s (stores (.vstl v1 o) (vslot v1) s c banks
          ((lanesOf m).map fun i => ⟨off + 4 * i, toBytes 4 (vlane v i).toNat⟩))

/-- R152 to R154: a gather delivers the lanes below the first active one whose offset is invalid, and says in its predicate which; a
scatter of valid offsets writes every active lane; the banks asked for are those of every active lane's word whose offset lies in local
memory at all, which is the model's choice (log L52).
R155: the lanes of VLDFF up to the first page that faults; the first active lane's page must not. -/
def Obligations.GatherAndFirstFault : Prop :=
  (∀ (s : State) (o : FL) (v1 : Bool) (m : Word) (a : VReg) (c : Core), s.iss = none → Unheld s 0 →
     activeMask s.core o.g = m → m ≠ 0 → takeV s.core o.a false = some (a, c) →
     let off (i : Nat) : Nat := (vlane a i + o.imm.getD 0).toNat
     let ok (i : Nat) : Bool := off i % 4 == 0 && off i < 2097152 && s.core.isScratch (off i)
     (∀ (n : Nat) (p : PReg), (s.core.csr.scr = true → TokenRoom s o.k) → p.val = o.w.toNat →
       (∀ i, i < n → plane m i = true → ok i = true) → (n < 64 → plane m n = true ∧ ok n = false) → n ≤ 64 →
       (∃ i, i < n ∧ plane m i = true) →
       let got (i : Nat) : Bool := plane m i && decide (i < n)
       (∀ i, i < n → plane m i = true → badWordIn s.core (off i) 4 = none) →
       Completes (.vgath v1 o) s (loads (.vgath v1 o) (vslot v1) s c o.k 0 8 (wordBanks m off)
         [(.v o.d, .v (vlanes fun i => if got i then BitVec.ofNat 32 (rdNat s.core.mem.sram (off i) 4) else 0), pmask got),
          (.p p, .w (pmask got), allOnes)])) ∧
     ∀ v d, takeV c o.d false = some (v, d) → (∀ i, i < 64 → plane m i = true → ok i = true) →
       Completes (.vscat v1 o) s (stores (.vscat v1 o) (vslot v1) s d (wordBanks m off)
         ((lanesOf m).map fun i => ⟨off i, toBytes 4 (vlane v i).toNat⟩))) ∧
  (∀ (s : State) (o : FL) (v1 : Bool) (m : Word), s.iss = none → Room s o.k → activeMask s.core o.g = m → m ≠ 0 →
     let e := address s.core o
     let cls := e.toNat / 2 ^ 60
     let va := e.toNat % 2 ^ 48
     wellFormed e 4 → ∀ (p : PReg) (l r : List Nat) (xs : List Xl), p.val = o.w.toNat →
       laneFirsts va m = l ++ r → l ≠ [] → Reach s false l xs →
       (∀ a r', r = a :: r' → 2 ^ 48 ≤ a ∨ (a < 2 ^ 48 ∧ ihOffset a = none ∧
         (s.probe s.core.csr.sec false a = .fault 0x1A ∨ s.probe s.core.csr.sec false a = .fault 0x1C))) →
       Completes (.vldff v1 o) s (issues (.vldff v1 o) (vslot v1) s s.core
         (leaving s (vslot v1) (some o.k) cls (classAfter s.core cls) (.vldff (linear s e xs)
           (pmask fun i => plane m i && r.head?.all fun a => decide (va + 4 * i < a)) o.d p))))

/-! ### Tensors and the matrix unit -/

/-- R156 to R161: VLDT and VSTT issue their access in the descriptor's class, and `.adv` moves the cursor by the run for later
bundles. -/
def Obligations.TensorAccesses : Prop :=
  ∀ (s : State) (o : FL) (v1 : Bool) (m : Word) (x : Handle), s.iss = none → Room s o.k → activeMask s.core o.g = m → m ≠ 0 →
    Bound s o.a x → InWorld s x → (bit o.w.toNat 0 = true → dEtype x.desc ≠ 8) →
    let cls := dClass x.desc
    let wide := bit o.w.toNat 0
    let run := 64 * if wide then 1 else 32 / elemBits (dEtype x.desc)
    let curs := if bit o.w.toNat 1 then [CurUpd.add o.a 0 (BitVec.ofNat 32 run)] else []
    Completes (.vldt v1 o) s (handles (.vldt v1 o) (vslot v1) s s.core
      (leaving s (vslot v1) (some o.k) cls (tensorAfter s.core cls) (.vldt x wide m o.d)) curs) ∧
    ∀ v c, takeV s.core o.d false = some (v, c) →
      Completes (.vstt v1 o) s (handles (.vstt v1 o) (vslot v1) s c
        (leaving s (vslot v1) (some o.k) cls (tensorAfter s.core cls) (.vstt x wide m v)) curs)

/-- R224, R225, R227: TBIND and TQRY issue their access; TCUR and TADV change a coordinate for later bundles.
R226: TSET and TLOCK write policy fields of the descriptor in memory and of the handle's copy.
That TQRY accepts a long immediate and ignores it is the model's choice (log L67). -/
def Obligations.HandleOperations : Prop :=
  (∀ (c1 : Bool) (s : State), s.iss = none →
     (∀ o : FL, guardOn s.core o.g = true → Room s o.k → s.entries c1 < 64 →
       (let e := address s.core o
        let cls := e.toNat / 2 ^ 60
        ∀ x : Xl, wellFormed e 128 → Reach s false [e.toNat % 2 ^ 48] [x] → (∀ p ∈ s.core.ops, ∀ f l, p.kind ≠ .tbind o.d f l) →
          Completes (.tbind c1 o) s (issues (.tbind c1 o) (cslot c1) s s.core
            (leaving s (cslot c1) (some o.k) cls (classAfter s.core cls) (.tbind o.d e (linear s e [x]))))) ∧
       ∀ x, Bound s o.a x → InWorld s x →
         Completes (.tqry c1 o) s (issues (.tqry c1 o) (cslot c1) s s.core
           (leaving s (cslot c1) (some o.k) (dClass x.desc) (tensorAfter s.core (dClass x.desc)) (.tqry x o.d)))) ∧
     (∀ (o : FR) (a b : Word) (c d : Core) (x : Handle) (n : Fin 6), guardOn s.core o.g = true → takeS s.core o.a.r o.a.pk = some (a, c) →
       takeB c o.b = some (b, d) → Bound s o.d x → a.toNat = n.val →
       Completes (.tcur c1 o) s (gathered s d { opened (.tcur c1 o) (cslot c1) s with curs := [.set o.d n (BitVec.ofNat 32 b.toNat)] })) ∧
     ∀ (o : FI) (a : Word) (c : Core) (x : Handle) (n : Fin 6), guardOn s.core o.g = true → takeS s.core o.a.r o.a.pk = some (a, c) →
       Bound s o.d x → a.toNat = n.val →
       Completes (.tadv c1 o) s (gathered s c { opened (.tadv c1 o) (cslot c1) s with
         curs := [.add o.d n (BitVec.ofInt 32 (immediate o.i).toInt)] })) ∧
  (∀ (c1 : Bool) (s : State) (o : FR) (a b : Word) (c d : Core) (x : Handle) (xs : List Xl), s.iss = none → guardOn s.core o.g = true →
     takeS s.core o.a.r o.a.pk = some (a, c) → takeB c o.b = some (b, d) → Bound s o.d x →
     let va := x.addr.toNat % 2 ^ 48
     let l : Lin := ⟨va, xs, s.core.csr.sec⟩
     Reach s true (firstBytes va 128) xs → Ready s (cslot c1) l → b.toNat < 16 →
     (a = 0 → b ≠ 0 → Completes (.tset c1 o) s (policies (.tset c1 o) (cslot c1) s d o.d l [(24, 4, 15 - b.toNat)])) ∧
     (a = 1 → Completes (.tset c1 o) s (policies (.tset c1 o) (cslot c1) s d o.d l [(28, 4, b.toNat)])) ∧
     (a.toNat < 2 → Completes (.tlock c1 o) s (policies (.tlock c1 o) (cslot c1) s d o.d l
       ((32, 1, a.toNat) :: if b = 0 then [] else [(24, 4, 15 - b.toNat)]))))

/-- R168 to R175, R177, R181: MMA and MMAZ enter the unit: a staged operation with its tiles and its first repetition started, a
streamed one to wait for its tiles; a staged dense one has exact timing and no token, any other completes through its token. -/
def Obligations.MatrixMultiplies : Prop :=
  ∀ (s : State) (rep : BitVec 12) (o : FT) (x y : Handle) (b : Nat) (zero : Bool), s.iss = none → guardOn s.core o.g = true →
    let i : Instr := if zero then .mmaz rep o else .mma rep o
    let cfg := s.core.mx.cfg
    let n := rep.toNat + 1
    let cls := dClass x.desc
    OperandOk s o.h x (pairFmts (cfgPair cfg)).1 → OperandOk s o.b y (pairFmts (cfgPair cfg)).2 →
    RowsOk s o.ac (if cfgKSweep cfg then [0] else (List.range n).map fun j => 768 * j) b → stageBusy s.core.mx s.clock = false →
    let op := { newMOp s.nextId (.mma zero) none cfg s b n x y s.draws [] with hAn := some o.h, hBn := some o.b }
    let needs := (List.range n).flatMap fun j =>
      (repTilesA op j).map (fun t => (o.h, x, t)) ++ (repTilesB op j).map fun t => (o.b, y, t)
    (cfgStreamed cfg = true → TokenRoom s o.k →
      let after := tensorAfter s.core cls ++ tensorAfter s.core (dClass y.desc)
      Completes i s { takes i 3 s s.core (fun m => { m with ops := m.ops ++ [{ op with k := some o.k, after := after }] }) with
        nextId := s.nextId + 1, draws := s.draws + 2
        iss := some { opened i 3 s with ops :=
          [{ leaving s 3 (some o.k) cls after (.matrix (some (BitVec.ofNat 4 (dClass y.desc)))) with draw := s.draws + 1 }] } }) ∧
    (cfgStreamed cfg = false → StagedOk s needs →
      let tiles := stagedTiles s needs
      let go (op : MOp) (m : Matrix) : Matrix := { m with ops := m.ops ++ [startRep m s.clock { op with tiles := tiles } tiles [] none 0] }
      (cfgExact cfg = true → Completes i s { takes i 3 s (entriesRead s needs) (go op) with nextId := s.nextId + 1, draws := s.draws + 1 }) ∧
      (cfgExact cfg = false → TokenRoom s o.k → Completes i s { takes i 3 s (entriesRead s needs) (go { op with k := some o.k }) with
        nextId := s.nextId + 1, draws := s.draws + 2
        iss := some { opened i 3 s with ops :=
          [{ leaving s 3 (some o.k) cls [] (.matrix none) with draw := s.draws + 1 }] } }))

/-- R182 to R184: MDRN, MFILL and MZERO take the stage at their issue. -/
def Obligations.MatrixDrainsAndFills : Prop :=
  ∀ (s : State) (o : FT) (b : Nat), s.iss = none → guardOn s.core o.g = true → RowsOk s o.ac [0] b → stageBusy s.core.mx s.clock = false →
    let cfg := s.core.mx.cfg
    (∀ x : Handle, Bound s o.h x → InWorld s x → 2 ≤ dRank x.desc → TokenRoom s o.k →
      (if cfgPair cfg = 1 then 5 ≤ dEtype x.desc ∧ dEtype x.desc ≤ 7 else dEtype x.desc ≤ 4) →
      let cls := dClass x.desc
      let op := started s (newMOp s.nextId (.mdrn (BitVec.ofNat 2 (o.b.val / 4)) (bit o.b.val 0)) (some o.k) cfg s b 1 x x 0 []) 24 24
      Completes (.mdrn o) s { takes (.mdrn o) 3 s s.core (fun m => { m with ops := m.ops ++ [op] }) with
        nextId := s.nextId + 1, draws := s.draws + 1
        iss := some { opened (.mdrn o) 3 s with
          ops := [leaving s 3 (some o.k) cls (tensorAfter s.core cls) (.matrix (some (BitVec.ofNat 4 cls)))]
          curs := if bit o.b.val 1 then [.add o.h 0 96] else [] } }) ∧
    (let z : Handle := ⟨0, 0, Vector.replicate 6 0⟩
     let fill (w : BitVec 32) (m : Matrix) : Matrix :=
       { m with ops := m.ops ++ [started s (newMOp s.nextId (.fill w) none cfg s b 1 z z 0 []) 8 12] }
     (∀ v c, takeS s.core o.h false = some (v, c) →
       Completes (.mfill o) s { takes (.mfill o) 3 s c (fill (BitVec.ofNat 32 v.toNat)) with nextId := s.nextId + 1 }) ∧
     Completes (.mzero o) s { takes (.mzero o) 3 s s.core (fill 0) with nextId := s.nextId + 1 })

/-- R176, R185 to R187: MCFG, MSYNC, MLDCB and MSTAT, whose REPLEFT says 4,095 of the 4,096 repetitions of an operation that has started
none (the model's choice, L71). -/
def Obligations.MatrixControl : Prop :=
  ∀ (s : State), s.iss = none →
    (∀ (o : FR) (w : Word) (c : Core), guardOn s.core o.g = true → (∀ k ∈ s.core.mx.ops, k.held = true ∧ k.run = []) → drains s.core = [] →
      takeB s.core o.b = some (w, c) → w.toNat < 128 → w.toNat % 16 < 9 →
      Completes (.mcfg o) s (takes (.mcfg o) 3 s c fun m => { m with cfg := BitVec.ofNat 7 w.toNat })) ∧
    (∀ o : FT, guardOn s.core o.g = true → TokenRoom s o.k →
      let left := s.core.mx.ops.map (fun k => (k.id, if k.held then k.next else k.reps)) ++ (drains s.core).map fun d => (d.id, 1)
      Completes (.msync o) s { takes (.msync o) 3 s s.core (fun m => { m with err := none }) with
        nextId := s.nextId + 1, draws := s.draws + 1
        iss := some { opened (.msync o) 3 s with
          ops := [{ leaving s 3 (some o.k) 0 [] (.msync (drainScope s.core) left) with err := s.core.mx.err }] } }) ∧
    (∀ (o : FT) (v : VReg) (c : Core) (x : Handle), guardOn s.core o.g = true → takeV s.core o.b false = some (v, c) → Bound s o.h x →
      dEtype x.desc = 8 →
      let slot := !dCbact x.desc
      let t := codebookOf v
      let ver := ((dCbv x.desc (dCbact x.desc)).toNat + 1) % 256
      (∀ k ∈ s.core.mx.ops, ∀ r ∈ k.run, (o.h, slot) ∉ r.caps) →
      Completes (.mldcb o) s (gathered s { c with mx := { s.core.mx with ops := s.core.mx.ops.map fun k => { k with
          hA := if k.hAn = some o.h then { k.hA with desc := loadSlot k.hA.desc slot t ver } else k.hA
          hB := if k.hBn = some o.h then { k.hB with desc := loadSlot k.hB.desc slot t ver } else k.hB } } }
        { opened (.mldcb o) 3 s with curs :=
          [.desc o.h (if slot then 640 else 384) 256 t, .desc o.h (if slot then 904 else 896) 8 ver,
           .desc o.h 912 1 (if slot then 1 else 0)] })) ∧
    ∀ o : FR, guardOn s.core o.g = true →
      ∃ w, Completes (.mstat o) s (lands (.mstat o) 3 s s.core (result s 3 1 (.s o.d) (.w w) allOnes none)) ∧
        let part (i n : Nat) : Nat := field w.toNat i n
        part 0 7 = s.core.mx.cfg.toNat ∧ part 7 1 = 0 ∧ part 8 8 = min 255 (s.core.mx.ops.length + (drains s.core).length) ∧
        (part 16 1 = 1 ↔ ∃ l ∈ s.core.mx.loads, l.isB = false) ∧ (part 17 1 = 1 ↔ ∃ l ∈ s.core.mx.loads, l.isB = true) ∧
        part 18 14 = 0 ∧ part 44 20 = 0 ∧
        ((∀ k ∈ s.core.mx.ops, ∀ z, k.kind ≠ .mma z) → part 32 12 = 0) ∧
        ∀ l k r z, s.core.mx.ops = l ++ k :: r → (∀ q ∈ l, ∀ z, q.kind ≠ .mma z) → k.kind = .mma z →
          part 32 12 = min 4095 (k.reps - k.next)

/-- R192 to R194: the scale loads: a tile that is staged gives its scales in eight clocks, one in memory once the load has been held;
SCZERO gives ones in one clock. -/
def Obligations.ScaleLoads : Prop :=
  ∀ (s : State) (o : FT), s.iss = none → guardOn s.core o.g = true →
    let isB : Bool := o.b == 1
    let load (lat : Nat) (xs : List (BitVec 16)) (m : Matrix) : Matrix := { m with loads := m.loads ++ [⟨isB, s.clock + lat, s.clock, false, xs⟩] }
    Completes (.sczero o) s (takes (.sczero o) 7 s s.core (load 1 (List.replicate (if isB then 96 else 128) 0x3F80))) ∧
    ∀ x : Handle, Bound s o.h x → InWorld s x → dEtype x.desc = 1 → 2 ≤ dRank x.desc →
      let ps := scalePlaces x isB
      let ts := tilesOf ps
      let val (tiles : List Tile) : List (BitVec 16) := ps.map fun p => BitVec.ofNat 16 ((elemIn x.desc tiles p).getD 0).toNat
      let staged := ts.filterMap fun t => (s.core.mem.opbuf.find? fun g => g.entry == entryOf x.desc t).map (·.tile)
      (s.core.unstaged x.desc ts = [] → InTurn s (dClass x.desc) →
        Completes (.scld o) s (takes (.scld o) 7 s s.core (load 8 (val staged)))) ∧
      (s.core.unstaged x.desc ts ≠ [] → (∀ t ∈ s.core.unstaged x.desc ts, s.tileErr x.desc t = none) → s.pinRoom (s.pinnable x.desc ts) = true → HoldOver s 7 →
        ∀ r tiles, (gathered s s.core (opened (.scld o) 7 s)).readTiles x.desc ts = (r, tiles, none) →
          Completes (.scld o) s (r.onMx (load 8 (val tiles))))

/-! ### Copies -/

/-- R203 to R208: CPY, CPYL, CXPOSE and CFILL take an entry of their engine's queue.
R207: CPYT moves elements between a tensor and linear memory; a count of CB4 elements is even. -/
def Obligations.PlainCopies : Prop :=
  (∀ (c1 : Bool) (s : State) (o : FL), s.iss = none → guardOn s.core o.g = true →
     let d := s.core.regs.a.get o.d
     let a := s.core.regs.a.get o.a
     let cd := d.toNat / 2 ^ 60
     let ca := a.toNat / 2 ^ 60
     let n := (o.imm.getD 0).toNat
     let cnt := bit o.w.toNat 2
     let vfy := bit o.w.toNat 1
     let v := if vfy then 4 else 0
     let w := o.imm.getD 0
     (CopyRoom s c1 o.k cnt →
       (ReadOk s.core a (n + v) 1 true → WriteOk s.core d n 1 true →
         Completes (.cpy c1 o) s (copies (.cpy c1 o) c1 s s.core o.k cnt (following s [ca, cd]) (.cpy d a n vfy))) ∧
       (bit o.w.toNat 0 = true → LocalOk s.core a (n + v) 1 → WriteOk s.core d n 1 true →
         Completes (.cpyl c1 o) s (copies (.cpyl c1 o) c1 s s.core o.k cnt (following s [ca, cd]) (.cpyl true d a n vfy))) ∧
       (bit o.w.toNat 0 = false → ReadOk s.core a (n + v) 1 true → LocalOk s.core d n 1 →
         Completes (.cpyl c1 o) s (copies (.cpyl c1 o) c1 s s.core o.k cnt (following s [ca, cd]) (.cpyl false d a n vfy))) ∧
       (ReadOk s.core a 1 1 false → WriteOk s.core d 1 1 false → w.toNat % 4 ≠ 3 → xposeCols w * xposeWidth w ≤ xposePitch w →
         Completes (.cxpose c1 o) s (copies (.cxpose c1 o) c1 s s.core o.k cnt (following s [ca, cd]) (.cxpose d a w))) ∧
       ∀ x c, takeS s.core o.a false = some (x, c) → WriteOk s.core d n 1 true → n % 2 ^ (o.w.toNat % 4) = 0 →
         Completes (.cfill c1 o) s (copies (.cfill c1 o) c1 s c o.k cnt (following s [cd]) (.cfill d x (2 ^ (o.w.toNat % 4)) n)))) ∧
  (∀ (c1 : Bool) (s : State) (o : FL) (h : Handle), s.iss = none → guardOn s.core o.g = true →
     let n := (o.imm.getD 0).toNat
     let cnt := bit o.w.toNat 2
     CopyRoom s c1 o.k cnt → InWorld s h → (dEtype h.desc = 8 → n % 2 = 0) →
     (∀ d, d = s.core.regs.a.get o.d → bit o.w.toNat 0 = true → Bound s o.a h → WriteOk s.core d 1 1 false →
       Completes (.cpyt c1 o) s (copies (.cpyt c1 o) c1 s s.core o.k cnt (following s [dClass h.desc, d.toNat / 2 ^ 60]) (.cpytOut d h n))) ∧
     ∀ a, a = s.core.regs.a.get o.a → bit o.w.toNat 0 = false → Bound s o.d h → ReadOk s.core a 1 1 false →
       Completes (.cpyt c1 o) s
         (copies (.cpyt c1 o) c1 s s.core o.k cnt (following s [a.toNat / 2 ^ 60] ++ tensorAfter s.core (dClass h.desc)) (.cpytIn h a n)))

/-- R209, R216, R217, R319, R320: the nest sequencer, stamps and batches. -/
def Obligations.CopySequencing : Prop :=
  ∀ (c1 : Bool) (s : State), s.iss = none →
    (∀ (o : FR) (a b : Word) (c d : Core), guardOn s.core o.g = true → takeS s.core o.a.r o.a.pk = some (a, c) →
      takeB c o.b = some (b, d) → a.toNat < 2 ^ 36 → (bit a.toNat 35 = true → a.toNat / 2 ^ 32 % 8 < 6) →
      let strides : BitVec 32 × BitVec 32 := match o.b with
        | .imm v => (v, v)
        | .reg _ _ => (BitVec.ofNat 32 b.toNat, BitVec.ofNat 32 (b.toNat / 2 ^ 32))
      let level (old : Vector NestLevel 6) (l : Nat) : NestLevel :=
        if l = o.d.val then ⟨BitVec.ofNat 32 a.toNat, strides.1, strides.2,
          if bit a.toNat 35 then BitVec.ofNat 3 (a.toNat / 2 ^ 32 % 8) else (vat old l).rank⟩
        else vat old l
      Completes (.cnest c1 o) s (gathered s (d.modEng c1 fun e => { e with nest := vtab 6 (level e.nest) })
        (opened (.cnest c1 o) (cslot c1) s))) ∧
    (∀ o : FL, guardOn s.core o.g = true →
      let d := s.core.regs.a.get o.d
      let a := s.core.regs.a.get o.a
      let n := (o.imm.getD 0).toNat
      let kind := o.w.toNat % 4
      let cnt := bit o.w.toNat 2
      let nest := (s.core.eng c1).nest
      CopyRoom s c1 o.k cnt → (if kind = 2 then LocalOk s.core a 1 1 else ReadOk s.core a n 1 true) →
      (if kind = 1 then LocalOk s.core d 1 1 else WriteOk s.core d n 1 true) → (∀ r, r < 6 → ∃ l ∈ nest.toList, l.rank.toNat = r) →
      Completes (.crun c1 o) s
        (copies (.crun c1 o) c1 s s.core o.k cnt (following s [a.toNat / 2 ^ 60, d.toNat / 2 ^ 60]) (.crun (BitVec.ofNat 2 kind) d a n nest))) ∧
    (∀ o : FL, guardOn s.core o.g = true → CopyRoom s c1 o.k false →
      let e := address s.core o
      let g := s.core.eng c1
      WriteOk s.core e 8 8 false →
      Completes (.cstamp c1 o) s (copies (.cstamp c1 o) c1 s (s.core.modEng c1 fun g => { g with stamp := g.stamp + 1, since := [] }) o.k
        false (g.ids ++ classAfter s.core (e.toNat / 2 ^ 60)) (.cstamp e (g.stamp + 1) g.since))) ∧
    ∀ o : FN, guardOn s.core o.g = true → ((s.core.eng c1).open_.ids ≠ [] → (s.core.eng c1).closed.length < 16) →
      Completes (.cbclose c1 o) s (gathered s (s.core.modEng c1 closeBatch) (opened (.cbclose c1 o) (cslot c1) s))

/-- R210: CFP, CSUM and CCMP put their result in local memory.
R211 to R215: CXPND, CPUSH, CPEER and CDISP. -/
def Obligations.SpecialCopies : Prop :=
  (∀ (c1 : Bool) (s : State) (o : FL), s.iss = none → guardOn s.core o.g = true → CopyRoom s c1 o.k false →
     let r := s.core.regs.a.get o.d
     let a := s.core.regs.a.get o.a
     let cr := r.toNat / 2 ^ 60
     let ca := a.toNat / 2 ^ 60
     let n := (o.imm.getD 0).toNat
     (ReadOk s.core a n 1 true → LocalOk s.core r 8 8 →
       (n % 8 = 0 → Completes (.cfp c1 o) s (copies (.cfp c1 o) c1 s s.core o.k false (following s [ca, cr]) (.cfp r a n))) ∧
       Completes (.csum c1 o) s (copies (.csum c1 o) c1 s s.core o.k false (following s [ca, cr]) (.csum r a n))) ∧
     (let m := 64 * 2 ^ o.w.toNat
      let q : Word := BitVec.ofNat 64 n
      ReadOk s.core a m 1 true → ReadOk s.core r m 1 true → LocalOk s.core q 8 8 →
      Completes (.ccmp c1 o) s (copies (.ccmp c1 o) c1 s s.core o.k false (following s [ca, cr]) (.ccmp r a m q)))) ∧
  (∀ (c1 : Bool) (s : State) (o : FL), s.iss = none → guardOn s.core o.g = true → CopyRoom s c1 o.k false →
     let d := s.core.regs.a.get o.d
     let a := s.core.regs.a.get o.a
     let ca := a.toNat / 2 ^ 60
     let n := (o.imm.getD 0).toNat
     (ReadOk s.core a 1 1 false →
       (WriteOk s.core d 1 32 true →
         Completes (.cxpnd c1 o) s (copies (.cxpnd c1 o) c1 s s.core o.k false (following s [ca, d.toNat / 2 ^ 60]) (.cxpnd d a n))) ∧
       Completes (.cpush c1 o) s
         (copies (.cpush c1 o) c1 s s.core o.k false (following s [ca]) (.cpush a (BitVec.ofNat 24 n) none))) ∧
     (LocalOk s.core a n 1 → d.toNat < 2 ^ 46 → d.toNat % 8 = 0 → n % 8 = 0 → n ≤ 2097152 →
       Completes (.cpeer c1 o) s (copies (.cpeer c1 o) c1 s s.core o.k false (following s [ca]) (.cpeer d a n))) ∧
     (let e := address s.core o
      ReadOk s.core e 64 64 false →
      Completes (.cdisp c1 o) s (copies (.cdisp c1 o) c1 s s.core o.k false (following s [e.toNat / 2 ^ 60]) (.cdisp e))))

/-! ### Barriers and the Tumbler -/

/-- R218, R219: BINIT, BARRIVE and BEXPECT send one message; BARRIVE follows every earlier access, BEXPECT makes the barrier the one
the engine counts for. -/
def Obligations.BarrierMessages : Prop :=
  ∀ (c1 : Bool) (s : State) (o : FR) (n : Word) (c : Core) (b : BarAddr), s.iss = none → guardOn s.core o.g = true →
    takeB s.core o.b = some (n, c) → BarrierOk { s with core := c } (s.core.regs.a.get o.a.r) b →
    (1 ≤ n.toNat → n.toNat ≤ 65535 →
      Completes (.binit c1 o) s (messages (.binit c1 o) c1 s c b [] (.binit (BitVec.ofNat 16 n.toNat)))) ∧
    (n.toNat ≤ 65535 → Completes (.barrive c1 o) s (messages (.barrive c1 o) c1 s c b (releaseAfter s.core) (.arrive n.toNat))) ∧
    (-2 ^ 31 ≤ n.toInt → n.toInt < 2 ^ 31 →
      Completes (.bexpect c1 o) s (messages (.bexpect c1 o) c1 s (c.modEng c1 fun e => { e with counted := some b }) b []
        (.expect (BitVec.ofInt 32 n.toInt))))

/-- R221 to R223: WSET issues the read of its record; WNEXT hands out the point its rule names; WDONE marks a point in the map; WRESQ
says where a tile is. -/
def Obligations.TumblerOperations : Prop :=
  ∀ (c1 : Bool) (s : State), s.iss = none →
    (∀ (o : FL) (x : Xl), guardOn s.core o.g = true → Room s o.k → s.entries c1 < 64 →
      let e := address s.core o
      let cls := e.toNat / 2 ^ 60
      wellFormed e 32 → Reach s false [e.toNat % 2 ^ 48] [x] → (∀ p ∈ s.core.ops, ∀ h f l, p.kind ≠ .tbind h f l) →
      Completes (.wset c1 o) s (issues (.wset c1 o) (cslot c1) s s.core
        (leaving s (cslot c1) (some o.k) cls (classAfter s.core cls) (.wset (linear s e [x]) s.core.regs.h)))) ∧
    (∀ (o : FR) (x : Nat), guardOn s.core o.g = true → setSettled s →
      (match s.core.tum.set with
        | none => x = 2 ^ 63
        | some t => mapOk s.core t = true ∧ nextWord t = some x ∧
          (s.core.tum.passDone = true → s.core.tum.arrived = true ∨ duePoints t ≠ [] ∨ s.core.tum.awaits = false)) →
      let c := { s.core with tum := handed s.core.tum x }
      Completes (.wnext c1 o) s (lands (.wnext c1 o) (cslot c1) s c
        (result s (cslot c1) 4 (.s o.d) (.w (BitVec.ofNat 64 x)) allOnes none))) ∧
    (∀ (o : FR) (a : Word) (c : Core) (t : TumSet), guardOn s.core o.g = true → takeS s.core o.a.r o.a.pk = some (a, c) →
      s.core.tum.set = some t → mapOk s.core t = true → Unheld s 0 →
      let p := a.toNat % 65536
      let off := t.map.toNat + p / 8
      p < t.count →
      Completes (.wdone c1 o) s (gathered s { c with tum := { c.tum with set := some { t with visited := insertNew p t.visited } } }
        { opened (.wdone c1 o) (cslot c1) s with
          lwr := [⟨off, [BitVec.ofNat 8 ((rd8 s.core.mem.sram off).toNat ||| 2 ^ (p % 8))]⟩] })) ∧
    ∀ (o : FR) (b : Word) (c : Core) (x : Handle), guardOn s.core o.g = true → takeB s.core o.b = some (b, c) → Bound s o.a.r x →
      InWorld s x →
      let tile := b.toNat % 2 ^ 28
      let r := match residence s s.core x.desc tile with
        | .l2 => 1
        | .own => 2
        | .no => if tileComing s.core (entryOf x.desc tile) then 3 else 0
      Completes (.wresq c1 o) s (lands (.wresq c1 o) (cslot c1) s
        (cacheEntries s (if tile < tileCount x.desc then [entryOf x.desc tile / 128] else []) c)
        (result s (cslot c1) 4 (.s o.d) (.w (BitVec.ofNat 64 r)) allOnes none))

/-! ### Slot K -/

/-- R46, R110 to R113: NOP does nothing; a taken transfer names the bundle that follows; CALL also lands the return address; SWAPI goes
to the other half, which becomes the active one. -/
def Obligations.ControlTransfers : Prop :=
  ∀ (s : State), s.iss = none →
    Completes .nop s (gathered s s.core (opened .nop 0 s)) ∧
    ∀ o : FJ, guardOn s.core o.g = true →
      let go (i : Instr) (t : BitVec 48) : State := gathered s s.core { opened i 6 s with next := some t }
      Completes (.br o) s (go (.br o) (target s.core o.t)) ∧
      Completes (.call o) s (gathered s s.core { opened (.call o) 6 s with
        next := some (target s.core o.t)
        lands := [result s 6 1 (.a o.a) (.w ((s.core.pc + 32).zeroExtend 64)) allOnes none] }) ∧
      (∀ x, x = s.core.regs.a.get o.a → wellFormed x 32 →
        Completes (.bri o) s (go (.bri o) (BitVec.ofNat 48 x.toNat)) ∧ Completes (.ret o) s (go (.ret o) (BitVec.ofNat 48 x.toNat))) ∧
      ∀ a b hi, ihOffset s.core.pc.toNat = some a → ihOffset (target s.core o.t).toNat = some b → hi = decide (65536 ≤ b) →
        decide (65536 ≤ a) ≠ hi → (∀ k ∈ s.core.eng0.queue ++ s.core.eng1.queue, writesHalf hi k = false) →
        Completes (.swapi o) s (gathered s s.core { opened (.swapi o) 6 s with next := some (target s.core o.t), swap := true })

/-- R115 to R117: NEST opens a pending level with its count; LOOP opens the loop over the captured body, or skips the body where a count
is not positive.
R114, R117: the next bundle of an active loop: within the body the one that follows; at its end the innermost level that has
iterations left counts down and the levels inside it take their reload values; and with none left the loop is done.  That the position
in the body is taken from the program counter is the model's choice (log L41), and so is that a negative count leaves its low 32 bits in
the counter and its reload value (log L69). -/
def Obligations.Loops : Prop :=
  (∀ (s : State) (o : FI) (a : Word) (c : Core) (n : NReg), s.iss = none → guardOn s.core o.g = true →
     takeS s.core o.a.r o.a.pk = some (a, c) → o.d.val = n.val →
     let k := (a + immediate o.i).toInt
     k < 2 ^ 32 →
     let l := s.core.loopSt
     let counted := { l with n := l.n.set n (BitVec.ofInt 32 k), reload := l.reload.set n (BitVec.ofInt 32 k) }
     Completes (.nest o) s (gathered s
       { c with loopSt := { counted with pending := l.pending ++ [n], dead := l.dead || decide (k ≤ 0) } } (opened (.nest o) 6 s)) ∧
     ∀ body, s.capture 32 (s.core.pc + 32) [] = .body body → (∀ x ∈ body, opensLoop x.toNat = false) → hasTwice (n :: l.pending) = false →
       let start := { counted with pending := [], dead := false, pos := 0, start := s.core.pc + 32 }
       if l.dead = true ∨ k ≤ 0 then
         Completes (.loop o) s (gathered s c { opened (.loop o) 6 s with
           newLoop := some { start with levels := [], body := [] }, skip := body.length })
       else
         Completes (.loop o) s (gathered s c { opened (.loop o) 6 s with
           newLoop := some { start with levels := n :: l.pending.reverse, body := body } })) ∧
  (∀ (l : LoopState) (pc : BitVec 48) (k : Nat), l.levels ≠ [] → l.start.toNat ≤ pc.toNat → k = (pc.toNat - l.start.toNat) / 32 →
     k < l.body.length → l.levels.Nodup →
     (k + 1 < l.body.length → loopNext l pc = ({ l with pos := k + 1 }, pc + 32)) ∧
     (k + 1 = l.body.length →
       (∀ inner n outer, l.levels = inner ++ n :: outer → (∀ m ∈ inner, (l.n.get m).toNat ≤ 1) → 1 < (l.n.get n).toNat →
         let r := loopNext l pc
         r.2 = l.start ∧ r.1.levels = l.levels ∧ r.1.body = l.body ∧ r.1.pos = 0 ∧ r.1.n.get n = l.n.get n - 1 ∧
         (∀ m ∈ inner, r.1.n.get m = l.reload.get m) ∧ ∀ m, m ≠ n → m ∉ inner → r.1.n.get m = l.n.get m) ∧
       ((∀ m ∈ l.levels, (l.n.get m).toNat ≤ 1) →
         let r := loopNext l pc
         r.2 = pc + 32 ∧ r.1.levels = [] ∧ r.1.body = [] ∧ (∀ m ∈ l.levels, r.1.n.get m = 0) ∧
         ∀ m, m ∉ l.levels → r.1.n.get m = l.n.get m)))

/-- R119, R120, R124 to R126, R130: TRAP is taken after its bundle commits; RFT returns after it; TEXIT, HALT and YIELD leave the core,
YIELD only where another task may be placed and no handler runs; HBEAT restarts the watchdog's count.  That TRAP ignores SX of a short
immediate is the model's choice (log L68). -/
def Obligations.TaskControl : Prop :=
  ∀ (s : State), s.iss = none →
    (∀ o : FI, guardOn s.core o.g = true → Completes (.trap o) s (gathered s s.core { opened (.trap o) 6 s with
      post := [⟨0x01, BitVec.ofNat 48 (match o.i with
        | .short v _ => v.toNat
        | .long v => v.toNat), some 6, false, none, false⟩] })) ∧
    ∀ o : FN, guardOn s.core o.g = true →
      Completes (.rft o) s (gathered s s.core { opened (.rft o) 6 s with rft := true }) ∧
      Completes (.texit o) s (gathered s s.core { opened (.texit o) 6 s with leave := some .exit }) ∧
      Completes (.halt o) s (gathered s s.core { opened (.halt o) 6 s with leave := some (.halt 0x51 0) }) ∧
      Completes (.yield o) s (gathered s s.core { opened (.yield o) 6 s with
        leave := if s.yieldable && !s.core.inHandler then some .yield else none }) ∧
      Completes (.hbeat o) s (gathered s { s.core with wdcount := 0, csr := { s.core.csr with wdfired := false } } (opened (.hbeat o) 6 s))

/-- R127, R128: CSRR lands a register's value, FEVRD lands FEVLOG and clears its V; the CSRWs of WDOGWIN and FEVLOG act at once, those of
STASHMAP, WORLD and BANKROLE when the bundle commits; QCFG and a CSRW of QMODE give queues their mode.
R19 to R30, R127: a CSRW of a register that acts on nothing else gives it the written bits, the core's number kept, and leaves every
other control register as it was; a register that is read-only keeps its value. -/
def Obligations.ControlRegisters : Prop :=
  (∀ (s : State), s.iss = none →
     (∀ (o : FCS) (r : Fin 16), guardOn s.core o.g = true → o.s = .reg r →
       Completes (.csrr o) s (lands (.csrr o) 6 s s.core (result s 6 1 (.s r) (.w (csrRead s o.n.toNat)) allOnes none))) ∧
     (∀ o : FR, guardOn s.core o.g = true →
       Completes (.fevrd o) s (lands (.fevrd o) 6 s
         { s.core with csr := { s.core.csr with fevlog := BitVec.ofNat 64 (s.core.csr.fevlog.toNat / 2 * 2), fevRank := none } }
         (result s 6 1 (.s o.d) (.w s.core.csr.fevlog) allOnes none))) ∧
     (∀ (o : FI) (m : Nat), guardOn s.core o.g = true → m = (match o.i with
         | .short v _ => v.toNat
         | .long _ => 0) →
       let q := s.core.csr.qmode.toNat
       let q' := if o.a.r = 0 then setField q (2 * o.d.val) 2 m else setField q (32 + o.d.val) 1 m
       Completes (.qcfg o) s (gathered s s.core { opened (.qcfg o) 0 s with
         qmode := if q' = q then none else some (BitVec.ofNat 64 q') })) ∧
     ∀ (o : FW) (w : Word) (c : Core), guardOn s.core o.g = true → takeC s.core o.s = some (w, c) →
       Completes (.qmodeWrite o) s (gathered s c { opened (.qmodeWrite o) 6 s with
         qmode := if w &&& 0x0000FFFEFFFFFFFC = s.core.csr.qmode then none else some (w &&& 0x0000FFFEFFFFFFFC) }) ∧
       Completes (.wdogwinWrite o) s (gathered s { c with wdcount := 0, csr := { c.csr with
         wdwin := BitVec.ofNat 32 w.toNat, wdfired := false } } (opened (.wdogwinWrite o) 6 s)) ∧
       Completes (.fevlogWrite o) s (gathered s { c with csr := { c.csr with
         fevlog := w &&& 0x0007FFFFFFFFFFE7, fevRank := none } } (opened (.fevlogWrite o) 6 s)) ∧
       Completes (.stashmapWrite o) s (gathered s c { opened (.stashmapWrite o) 6 s with csrw := some (0x004, w) }) ∧
       (s.core.csr.sec = true → Completes (.worldWrite o) s (gathered s c { opened (.worldWrite o) 6 s with csrw := some (0x035, w) })) ∧
       (let ch := changedBanks s.core.csr.bankrole w
        (∀ n ∈ ch, s.core.bankClaimed n = true) → drainWaits s ch = false →
        Completes (.bankroleWrite o) s (gathered s c { opened (.bankroleWrite o) 6 s with
          drain := some (BitVec.ofNat 32 (ofOnes (ch.filter fun n => s.core.role n == 1))), csrw := some (0x003, w) }))) ∧
  (∀ (s : State) (o : FCS) (w : Word) (c : Core), s.iss = none → guardOn s.core o.g = true → takeC s.core o.s = some (w, c) →
     ∃ k : Csr,
       let g := gathered s { c with csr := k } (opened (.csrw o) 6 s)
       Completes (.csrw o) s g ∧
       (∀ x ∈ writeMasks, o.n.toNat = x.1 →
         csrRead g x.1 = (w &&& x.2) ||| if x.1 = 0 then BitVec.ofNat 64 (s.core.id.val * 2 ^ 16) else 0) ∧
       (o.n = 0x005 → csrRead g 0x005 = BitVec.ofNat 64 (min 512 (w.toNat % 1024) + s.core.csr.inuse.toNat * 2 ^ 16 + w.toNat / 2 ^ 32 * 2 ^ 32)) ∧
       ((∀ x ∈ writeMasks, o.n.toNat ≠ x.1) → o.n ≠ 0x005 → csrRead g o.n.toNat = csrRead s o.n.toNat) ∧
       ∀ n, n ≠ o.n.toNat → csrRead g n = csrRead s n)

/-- The line of a word read at its home; a device register has none. -/
def homeLines (pa : Nat) : List Nat := if isReg pa then [] else [pa / 128]

/-- R228 to R232: WAITK of a token whose count is 0, WAITB of a phase that is over, CBWAIT of batches that are retired, MONARM and
WAITMON of a word that has changed, SSYNC of a superstep that has completed.  That a WAITK acquires only where an operation of cluster
scope or wider, or a copy, has completed on its token is the model's choice (log L63). -/
def Obligations.Waits : Prop :=
  ∀ (s : State) (o : FY), s.iss = none → guardOn s.core o.g = true →
    (s.core.regs.k.get o.k = ⟨0, none⟩ →
      Completes (.waitk o) s (gathered s (observed { s.core with owed := s.core.owed.filter fun k => k != o.k } (fun u => u.k == o.k)
        (s.core.owed.contains o.k)) (opened (.waitk o) 6 s))) ∧
    (∀ (p : PReg), p.val = o.w.toNat % 8 →
      (∀ b n, BarrierNamed s (s.core.regs.a.get o.a) b → s.barRead b = some n → (n.testBit 32 ≠ o.w.getLsbD 3) →
        (∀ d ∈ b.core :: ((s.barSrcs.find? fun x => x.bar == b).map (·.last)).getD [], scopeIncludes o.sc.toNat s.core.id d = true) →
        let c := { (if o.sc = 0 then s.core else acquireCore s.core) with
          obs := insertAll ((s.core.unobs.filter fun u => u.bar == some b).flatMap (·.lines)) s.core.obs
          unobs := s.core.unobs.filter fun u => !(u.bar == some b) }
        Completes (.waitb o) s (gathered s c { opened (.waitb o) 6 s with
          lands := [flagged s p (n.testBit 41)]
          post := if n.testBit 41 && s.core.csr.ptrap then [poisoned 0] else [] })) ∧
      (let e := s.core.regs.a.get o.a
       wellFormed e 8 → ∀ x, Reach s false [e.toNat % 2 ^ 48] [x] →
        let l := linear s e [x]
        let v := s.monWord s.core.csr.sec l.pa
        HomeOk s l →
        ((∀ i ∈ classAfter s.core (e.toNat / 2 ^ 60), s.core.isOpen i = false) →
         Completes (.monarm o) s (gathered s { s.core with mon := some ⟨BitVec.ofNat 64 l.va, l.pa, v⟩ }
           { opened (.monarm o) 6 s with reads := homeLines l.pa })) ∧
        ((∀ m, s.core.mon = some m → m.addr.toNat = l.va → m.was ≠ v) →
         (∀ i ∈ classAfter s.core (e.toNat / 2 ^ 60), s.core.isOpen i = false) →
         (∀ r, scopeRecord s (l.pa / 128) = some r → scopeIncludes o.sc.toNat s.core.id r.core = true) →
         let c := if o.sc = 0 then s.core else acquireCore s.core
         let covered (u : Unobs) : Bool := s.core.stamps.any fun p => p.1 == l.pa && p.2.contains u.id
         let d := { c with
           obs := insertAll ((s.core.unobs.filter covered).flatMap (·.lines)) s.core.obs
           unobs := s.core.unobs.filter fun u => !covered u
           mon := if s.core.mon.any fun m => m.addr.toNat == l.va then none else s.core.mon }
         Completes (.waitmon o) s (gathered s d { opened (.waitmon o) 6 s with
           scopes := [⟨l.pa / 128, s.core.id, o.sc⟩]
           reads := homeLines l.pa
           lands := if o.w.getLsbD 3 then [flagged s p (v.getLsbD 0)] else []
           post := if v.getLsbD 0 && s.core.csr.ptrap then [poisoned 1] else [] })))) ∧
    (let e1 := o.w.getLsbD 3
     let g := (closeOn s.core e1).eng e1
     g.closed.length ≤ o.w.toNat % 8 → g.acc.err = none →
     let pn := (o.imm.getD 0).toNat % 16
     let c := observed (closeOn s.core e1) (fun u => g.retired.contains u.id) (!g.retired.isEmpty)
     ∀ p : PReg, (pn ≠ 0 → p.val = pn - 1) →
       Completes (.cbwait o) s (gathered s (c.modEng e1 fun k => { k with acc := ⟨false, none⟩, retired := [] })
         { opened (.cbwait o) 6 s with
           closes := [e1]
           lands := if pn = 0 then [] else [flagged s p g.acc.poison]
           post := if g.acc.poison && (pn == 0 || s.core.csr.ptrap) then [poisoned (if e1 then 3 else 2)] else [] })) ∧
    ∀ i, (domnOf s.core.csr.domn o.sc.toNat).isSome = true → s.instOf o.sc.toNat = some i →
      (o.sc = 1 → i.cluster = none ∨ i.cluster = some (clusterOf s.core.id)) → s.countWrong o.sc.toNat i = false →
      s.core.arrived = some o.sc → s.core.released = true →
      Completes (.ssync o) s (gathered s (observed s.core (fun _ => true) true) (opened (.ssync o) 6 s))

/-- R122, R129, R233, R234: SPAWN issues its read of the launch record; FENCE, PUBC and IRQH issue an operation that waits for what
stands before it, and do not wait themselves.  That IRQH ignores SX of a short immediate is the model's choice (log L68). -/
def Obligations.OrderingOperations : Prop :=
  ∀ (s : State), s.iss = none →
    (∀ o : FY, guardOn s.core o.g = true →
      (let e := s.core.regs.a.get o.a
       ∀ xs, wellFormed e 64 → Room s o.k → Reach s false (firstBytes (e.toNat % 2 ^ 48) 192) xs →
        Completes (.spawn o) s (issues (.spawn o) 6 s s.core
          (leaving s 6 (some o.k) (e.toNat / 2 ^ 60) (releaseAfter s.core) (.spawn (linear s e xs))))) ∧
      (let mask : BitVec 16 := (o.imm.map fun v => v.setWidth 16).getD 0xFFFF
       (mask = 0 → Completes (.fence o) s (gathered s s.core (opened (.fence o) 6 s))) ∧
       (mask ≠ 0 →
        Completes (.fence o) s (issues (.fence o) 6 s s.core (leaving s 6 none 0 (fencedIds s.core mask.toNat) (.fence mask))))) ∧
      Completes (.pubc o) s (issues (.pubc o) 6 s { s.core with obs := [] }
        (leaving s 6 none 0 (releaseAfter s.core) (.pubc o.sc s.core.obs)))) ∧
    ∀ (o : FI) (n : BitVec 32), guardOn s.core o.g = true → n = (match o.i with
        | .short v _ => v.zeroExtend 32
        | .long v => v) →
      Completes (.irqh o) s (issues (.irqh o) 6 s s.core (leaving s 6 none 0 (releaseAfter s.core) (.irqh n)))

/-! ### Encoding and stepping -/

/-- R41 to R58: words written out from the encoding tables decode to the instructions they stand for. -/
def Obligations.DecodeWords : Prop :=
  ∀ x ∈ tableWords, decodeBundle (wordBundle x.1 x.2.1 x.2.2.1 x.2.2.2.1) = .ok ⟨[x.2.2.2.2], false⟩

/-- Every well-formed operation of a slot, encoded, decodes to itself: no bit of an encoding is dropped. -/
def Obligations.DecodeEncodeRoundTrip : Prop :=
  ∀ (i : Instr) (e : Enc), i.wf = true → encode i = some e → onlyOp e.bundle = some i

/-- An input is taken first, then an event that is due; then the bundle at the program counter: the instruction it holds, or its
operations one after another in one bundle, or the fault of an illegal one.  Around it stand `takeSwap`, which makes the half of a SWAPI's
target active where that target issues now (R113), and `keepSwap`, which undoes it where the bundle has stalled.  A bundle of the
instruction scratchpad is the 32 bytes at the program counter (R41, R270). -/
def Obligations.StepRunsDecoded : Prop :=
  ∀ (s : State), s.bringUpRejected = false →
    (∀ i l, s.inputs = i :: l → step s = exec i { s with inputs := l }) ∧
    (s.inputs = [] →
      (∀ i, s.nextEvent = some i → step s = exec i s) ∧
      (s.nextEvent = none → s.canIssue = true →
        ∀ n, s.nextBundle = .go n →
          (∀ i t, decodeBundle n = .ok ⟨[i], false⟩ → exec i (s.onCore takeSwap) = .next t →
            step s = .next (t.onCore (keepSwap s.core))) ∧
          (∀ b t, decodeBundle n = .ok b → (∀ i, b ≠ ⟨[i], false⟩) → execAll b.ops (openBundle (s.onCore takeSwap) b.bend) = .next t →
            step s = .next ((closeBundle t).onCore (keepSwap s.core))) ∧
          (∀ r t, decodeBundle n = .error r → exec (.illegalBundle r.hdr r.slot r.reason) (s.onCore takeSwap) = .next t →
            step s = .next (t.onCore (keepSwap s.core))))) ∧
    (s.core.loopSt.swap = none → s.onCore takeSwap = s) ∧
    (s.core.loopSt.swap = some s.core.pc → (takeSwap s.core).mem.activeHi = decide (iloBase + 65536 ≤ s.core.pc.toNat)) ∧
    (∀ c, c.stall = none → keepSwap s.core c = c) ∧
    (s.core.loopSt.levels = [] → s.core.publishing = false → ∀ off, ihOffset s.core.pc.toNat = some off →
      s.core.halfClaimed off = true → off / 128 ∈ s.core.mem.ihClean → s.nextBundle = .go (rdNat s.core.mem.ih off 32))

/-- R11, R15: a guarded-off operation is a bundle that does nothing.
R6: a bundle that stalls changes no register, no memory and no result in flight, and its address stays; the stall of results in
flight keeps at most 24 of them (R34), among which results for s0 and v0 count (the model's choice, log L49). -/
def Obligations.StalledBundles : Prop :=
  (∀ (s : State) (i : Instr) (g : Guard), s.iss = none → liveFlights s.core.flights ≤ 24 →
     (scalarGuard i = some g → guardOn s.core g = false → exec i s = .next (commitBundle (openBundle s false))) ∧
     (vectorGuard i = some g → activeMask s.core g = 0 → exec i s = .next (commitBundle (openBundle s false)))) ∧
  (∀ (g : State),
     (∀ st, g.issue.stall = some st → g.issue.arrive = none →
       ∃ t, closeBundle g = t ∧ t.core.regs = g.issue.old.regs ∧ t.core.csr = g.issue.old.csr ∧ t.core.mem = g.issue.old.mem ∧
         t.core.mx = g.issue.old.mx ∧ t.core.flights = g.issue.old.flights ∧ t.core.ops = g.issue.old.ops ∧
         t.core.pc = g.issue.old.pc ∧ t.core.loopSt = g.issue.old.loopSt ∧ t.core.stall = some st ∧ t.core.issued = true ∧
         t.store = g.store ∧ t.posts = g.posts ∧ t.before = g.before ∧ t.after = g.after) ∧
     (g.issue.stall = none → 24 < liveFlights (g.core.flights ++ g.issue.lands) → ∃ st, closeBundle g = stallBundle g st))

/-- R10, R16, R31, R37, R110, R117, R151, R154: what a bundle that commits does to the core and to the device: results join those in
flight, operations and their tokens count, cursors move, local stores are made, of those to one byte the last in the order of the bundle's
slots and of their lanes (R151, R154), and the next bundle is the one that follows; nothing else changes but by a write of BANKROLE,
STASHMAP, WORLD or a descriptor, by a copy, by a read at a home, by leaving the core, or by a trap after it. -/
def Obligations.CommittedBundles : Prop :=
  ∀ (g : State) (k : Issue), g.iss = some k → k.post = [] → k.rft = false → k.leave = none → k.descs = [] → k.csrw = none →
    k.qmode = none → Memory.wf g.core.mem.sram = true →
    let t := commitBundle g
    t.core.flights = g.core.flights ++ k.lands ∧ t.core.ops = g.core.ops ++ k.ops ∧
    t.core.regs.s = g.core.regs.s ∧ t.core.regs.v = g.core.regs.v ∧ t.core.regs.a = g.core.regs.a ∧ t.core.regs.p = g.core.regs.p ∧
    (∀ x : Tok, t.core.regs.k.get x = ⟨(g.core.regs.k.get x).count + (k.ops.filter fun o => o.k == some x).length +
      (k.copies.filter fun p => p.2.k == x).length, (g.core.regs.k.get x).err⟩) ∧
    (k.curs = [] → t.core.regs.h = g.core.regs.h) ∧
    t.core.csr = g.core.csr ∧ t.core.mx = g.core.mx ∧ t.core.stat = g.core.stat ∧
    (∀ a, (∀ w ∈ k.lwr, a < w.off ∨ w.off + w.bytes.length ≤ a) → rd8 t.core.mem.sram a = rd8 g.core.mem.sram a) ∧
    (∀ pre w post, k.lwr = pre ++ w :: post → ∀ i x, w.bytes[i]? = some x →
      (∀ v ∈ post, w.off + i < v.off ∨ v.off + v.bytes.length ≤ w.off + i) → rd8 t.core.mem.sram (w.off + i) = x) ∧
    t.store.bytes = g.store.bytes ∧ (k.reads = [] → t.before = g.before ∧ t.after = g.after) ∧ t.posts = g.posts ++ k.posts ∧
    (k.copies = [] → t.core.eng0 = g.core.eng0 ∧ t.core.eng1 = g.core.eng1) ∧
    (∀ x, k.next = some x → t.core.pc = x ∧ t.core.readyAt = g.clock + 2 ∧ t.core.loopSt.levels = []) ∧
    (k.next = none → k.newLoop = none → g.core.loopSt.levels = [] →
      t.core.pc = g.core.pc + 32 ∧ t.core.readyAt = g.clock + 1 ∧ t.core.loopSt = g.core.loopSt) ∧
    (∀ l, k.next = none → k.newLoop = some l → t.core.loopSt = l ∧
      (k.skip = 0 → t.core.pc = l.start ∧ t.core.readyAt = g.clock + 1) ∧
      (k.skip ≠ 0 → t.core.pc = g.core.pc + 32 + BitVec.ofNat 48 (32 * k.skip) ∧ t.core.readyAt = g.clock + 1 + k.skip))

/-- What no operation of a slot changes at its issue, whether its bundle commits, stalls or takes a trap: R31, R32, R127.
R226: the bytes of memory that TSET and TLOCK may change: the fields' bytes of the descriptor that the handle was bound from, and what the
core's own SELFINV copy of its line had waiting.
R232, R258, R263, R268, R279: BANKROLE, STASHMAP and SSYNC may write through the core's dirty SELFINV lines, and nothing else; SCLD may
change the entries of the tiles it reads, where it finds one poisoned, and nothing else.
R25, R276: of the control registers beside those of a trap only PUSHQ may change, whose INUSE counts the SP lines of the core, where an
instruction writes memory at its issue. -/
def Obligations.SlotFrame : Prop :=
  ∀ (i : Instr) (s t : State), (encode i).isSome = true → s.iss = none → exec i s = .next t →
    (t.clock = s.clock ∧ t.sched = s.sched ∧ t.plat = s.plat ∧ t.md = s.md ∧ t.updates = s.updates ∧ t.pushes = s.pushes ∧
      t.host = s.host ∧ t.inputs = s.inputs ∧ t.iss = none ∧ t.core.id = s.core.id) ∧
    (writesAtIssue i = false → t.store.bytes = s.store.bytes ∧ t.before.map noLines = s.before.map noLines ∧
      t.after.map noLines = s.after.map noLines ∧ (readsAtIssue i = false → t.before = s.before ∧ t.after = s.after)) ∧
    (writesThrough i = true → Memory.wf s.store.bytes = true →
      (∀ a, (∀ l ∈ dirtyLines s.core, l.line ≠ a / 128) → rd8 t.store.bytes a = rd8 s.store.bytes a) ∧
      (dirtyLines s.core = [] → t.store.bytes = s.store.bytes)) ∧
    (∀ o, i = .scld o → Memory.wf s.store.bytes = true → ∀ a,
      (∀ x, s.core.regs.h.get o.h = some x → ∀ k ∈ tilesOf (scalePlaces x (o.b == 1)), a < entryOf x.desc k ∨ entryOf x.desc k + 16 ≤ a) →
      rd8 t.store.bytes a = rd8 s.store.bytes a) ∧
    (∀ (c1 : Bool) (o : FR) (n : Nat), (i = .tset c1 o ∧ n = 4) ∨ (i = .tlock c1 o ∧ n = 5) → Memory.wf s.store.bytes = true →
      (∀ h x, s.core.regs.h.get o.d = some h → s.core.tlbFind s.core.csr.sec (h.addr.toNat % 2 ^ 48) = some x →
        let pa := x.paOf (h.addr.toNat % 2 ^ 48)
        ∀ a, (a < pa + 3 ∨ pa + n ≤ a) → (dirtyLines s.core = [] ∨ a / 128 ≠ pa / 128) → rd8 t.store.bytes a = rd8 s.store.bytes a) ∧
      ((∀ h, s.core.regs.h.get o.d = some h → s.core.tlbFind s.core.csr.sec (h.addr.toNat % 2 ^ 48) = none) →
        t.store.bytes = s.store.bytes)) ∧
    (writesLocal i = false → t.core.mem.sram = s.core.mem.sram) ∧
    t.core.regs.a = s.core.regs.a ∧ t.core.mx.acc = s.core.mx.acc ∧ t.core.mem.ih = s.core.mem.ih ∧
    (landsInWait i = false → t.core.regs.p = s.core.regs.p) ∧
    (movesHandle i = false → t.core.regs.h = s.core.regs.h) ∧
    (writesMode i = false → ∀ r, (t.core.regs.s.get r).IsSuffix (s.core.regs.s.get r) ∧
      (t.core.regs.v.get r).IsSuffix (s.core.regs.v.get r) ∧
      (sQueue s.core.csr.qmode r = false → t.core.regs.s.get r = s.core.regs.s.get r) ∧
      (vQueue s.core.csr.qmode r = false → t.core.regs.v.get r = s.core.regs.v.get r)) ∧
    (writesControl i = false → ∀ n, ¬trapRegister n → (writesAtIssue i = true → n ≠ 0x005) → csrRead t n = csrRead s n)

/-! ### Traps -/

/-- R230, R337, R339: of a bundle's conditions the first in the order of R337 is its cause; nothing of the bundle commits but that a batch
its CBWAIT closed stays closed, its address is TRAPPC, and the trap is taken.
R60, R336, R339: an illegal bundle takes the illegal-bundle fault, with its reason, its slot or the header.
R9, R14, R127: a read of an empty queue, a badly formed address and a write of WORLD by a non-secure task are conditions of their
slots, with their codes and details. -/
def Obligations.BundleTraps : Prop :=
  (∀ (g : State), g.issue.stall = none → lateStall g g.issue = none →
     g.issue.causes ++ overflowCauses g.core (g.issue.qmode.getD g.core.csr.qmode) g.issue.dests [] ≠ [] →
     ∃ k ∈ g.issue.causes ++ overflowCauses g.core (g.issue.qmode.getD g.core.csr.qmode) g.issue.dests [],
       (∀ d ∈ g.issue.causes ++ overflowCauses g.core (g.issue.qmode.getD g.core.csr.qmode) g.issue.dests [], causeLt d k = false) ∧
       closeBundle g = enterTrap { g with core := g.issue.closes.foldl closeOn g.issue.old } k g.issue.old.pc 1) ∧
  (∀ (s : State) (hdr : Bool) (slot : Fin 8) (reason : BitVec 8), s.core.inHandler = false → s.core.csr.trapvec.toNat % 2 = 1 →
     ∃ t, exec (.illegalBundle hdr slot reason) s = .next t ∧ t.core.inHandler = true ∧
       t.core.pc = BitVec.ofNat 48 (s.core.csr.trapvec.toNat / 32 * 32) ∧ t.core.readyAt = s.clock + 2 ∧
       t.core.csr.trapcause = BitVec.ofNat 64 (0x10 + reason.toNat * 2 ^ 16) ∧
       t.core.csr.trappc = BitVec.ofNat 64 (s.core.pc.toNat / 32 * 32) ∧
       t.core.csr.trapslot.toNat / 8 = (if hdr then 1 else 0) ∧ (hdr = false → t.core.csr.trapslot.toNat % 8 = slot.val) ∧
       t.core.regs = s.core.regs ∧ t.core.mem = s.core.mem ∧ t.store = s.store) ∧
  (∀ (s : State), s.iss = none → lateStall (openBundle s false) (openBundle s false).issue = none →
     (∀ (o : FR) (r : Fin 16), guardOn s.core o.g = true → o.a.r = r → r ≠ 0 → sQueue s.core.csr.qmode r = true →
       s.core.regs.s.get r = [] → liveFlights s.core.flights ≤ 24 → (o.d = 0 ∨ sQueue s.core.csr.qmode o.d = false) →
       exec (.add o) s = .next (takeFault (openBundle s false) ⟨0x11, BitVec.ofNat 48 r.val, some 0, false, none, false⟩)) ∧
     (∀ (o : FL), guardOn s.core o.g = true → (o.d = 0 ∨ sQueue s.core.csr.qmode o.d = false) →
       let e := address s.core o
       ¬wellFormed e (2 ^ (o.w.toNat % 4)) →
       exec (.sld o) s = .next (takeFault (openBundle s false) ⟨0x18, BitVec.ofNat 48 (e.toNat % 2 ^ 48), some 0, false, none, false⟩)) ∧
     (∀ (o : FW) (w : Word) (c : Core), guardOn s.core o.g = true → takeC s.core o.s = some (w, c) → s.core.csr.sec = false →
       exec (.worldWrite o) s = .next (takeFault (openBundle s false) ⟨0x13, 0x035, some 6, false, none, false⟩)))

/-- R29, R35, R114, R121, R339: what taking a trap saves, and where it goes.  `extra` is 1 where the bundle of this clock did not commit and
issues again after the return: REMAIN is then one higher, so that every result keeps its distance to that bundle (the model's choice, L10);
the exception records stay in flight and land at their own clocks (L19); after a double trap the exact results land (L59). -/
def Obligations.TrapEntry : Prop :=
  ∀ (s : State) (k : Cause) (pc : BitVec 48) (extra : Nat),
    let t := enterTrap s k pc extra
    let c := s.core.csr
    (t.core.csr.trapcause = BitVec.ofNat 64 (k.code.toNat + (if k.wait = none then 0 else 2 ^ 8) +
        (match k.wait with
          | some (.token x) => x.val
          | _ => 0) * 2 ^ 9 + k.detail.toNat * 2 ^ 16) ∧
      t.core.csr.trappc = BitVec.ofNat 64 (pc.toNat / 32 * 32) ∧
      t.core.csr.trapslot.toNat / 8 = (if k.hdr then 1 else 0) ∧
      (∀ x, k.slot = some x → k.hdr = false → t.core.csr.trapslot.toNat % 8 = x.val) ∧
      t.core.csr.fevlog = c.fevlog ∧ t.core.csr.qmode = c.qmode ∧ t.core.csr.trapvec = c.trapvec ∧ t.core.csr.bankrole = c.bankrole ∧
      t.core.regs.s = s.core.regs.s ∧ t.core.regs.v = s.core.regs.v ∧ t.core.regs.a = s.core.regs.a ∧ t.core.regs.p = s.core.regs.p ∧
      t.core.regs.h = s.core.regs.h ∧ t.core.mem = s.core.mem ∧ t.core.ops = s.core.ops ∧ t.core.mx.acc = s.core.mx.acc ∧
      (∀ x : Tok, (t.core.regs.k.get x).count = (s.core.regs.k.get x).count ∧
        (k.wait ≠ some (.token x) → t.core.regs.k.get x = s.core.regs.k.get x)) ∧
      t.store = s.store ∧ t.before = s.before ∧ t.after = s.after ∧ t.sched = s.sched ∧ t.clock = s.clock) ∧
    (t.core.shadow = some s.core.loopSt ∧ t.core.loopSt.levels = [] ∧ t.core.loopSt.pending = []) ∧
    (s.core.inHandler = true → t.core.stat = .leaving (.halt 0x50 0) ∧ t.core.trapHalt = true ∧ t.core.flights = s.core.flights) ∧
    (s.core.inHandler = false →
      (c.trapvec.toNat % 2 = 0 → t.core.stat = .leaving (.halt 0x52 t.core.csr.trapcause) ∧ t.core.trapHalt = true ∧
        t.core.inHandler = false) ∧
      (c.trapvec.toNat % 2 = 1 → t.core.inHandler = true ∧ t.core.stat = s.core.stat ∧ t.core.readyAt = s.clock + 2 ∧
        t.core.pc = BitVec.ofNat 48 (c.trapvec.toNat / 32 * 32)) ∧
      (∀ f ∈ t.core.flights, f.record = true) ∧
      ((∀ r ∈ c.replay.toList, r.word.toNat % 2 = 0) → ∀ i f, i < 24 →
        (s.core.flights.filter fun f => !f.record)[i]? = some f →
        (vat t.core.csr.replay i).word = BitVec.ofNat 64 (1 + 2 * (replayKind f.dest).1 + 16 * (replayKind f.dest).2 +
          (match f.dest with
            | .s r => if sQueue c.qmode r then 256 else 0
            | .v r => if vQueue c.qmode r then 256 else 0
            | _ => 0) + 512 * f.slot.val + 4096 * ((f.due + extra - s.clock) % 64)) ∧
        (vat t.core.csr.replay i).mask = f.mask))

/-! ### Landing, and returning from a trap -/

/-- R7, R8, R31, R33, R131: results land in order: a register takes the last of them, a queue all of them behind its entries, a vector
register the active lanes over what it held, a queue entry the active lanes over zeros; what is not due stays in flight.  A result that
was issued before one that has landed in this clock leaves the register as that one left it (R33).
R120: once every exact result has landed, the matrix unit's among them, the return restores the loop state, continues at TRAPPC in the next
clock, puts the valid replay entries in flight and clears their V.
The records of frozen results are in flight beside them and land alone (the model's choice, L19); after a double trap the results land too
(L59); REMAIN counts from the clock of the return (L10); an entry of KIND 2 with INDEX 12 to 15 is discarded, and one of REMAIN 0 lands at
once (L64). -/
def Obligations.ResultLanding : Prop :=
  (∀ (s : State), s.core.returning = false → (∀ f ∈ s.core.flights, typed f) → (landing s).Pairwise (fun f g => f.issue ≤ g.issue) →
     (∀ l ∈ s.core.landed, l.clock ≠ s.clock) →
     ∃ t, exec .resultLanding s = .next t ∧
       t.core.flights = s.core.flights.filter (fun f => s.clock < f.due) ∧
       (∀ r, r ≠ 0 → t.core.regs.s.get r = if sQueue s.core.csr.qmode r then s.core.regs.s.get r ++ sLandings s r
         else match (sLandings s r).getLast? with
           | some x => [x]
           | none => s.core.regs.s.get r) ∧
       (∀ r, r ≠ 0 → t.core.regs.v.get r = if vQueue s.core.csr.qmode r then
           s.core.regs.v.get r ++ (vLandings s r).map fun p => blend p.1 p.2 VReg.zero
         else (vLandings s r).foldl (fun l p => [blend p.1 p.2 (l.headD VReg.zero)]) (s.core.regs.v.get r)) ∧
       (t.core.regs.s.get 0 = s.core.regs.s.get 0 ∧ t.core.regs.v.get 0 = s.core.regs.v.get 0) ∧
       (∀ r, (∀ f ∈ landing s, f.dest ≠ .a r) → t.core.regs.a.get r = s.core.regs.a.get r) ∧
       (∀ r f, landing s = [f] → f.dest = .a r → ∀ x, f.val = .w x → t.core.regs.a.get r = x) ∧
       (∀ r f x, landing s = [f] → f.dest = .p r → f.val = .w x → f.mask = BitVec.allOnes 64 → t.core.regs.p.get r = x) ∧
       (∀ r, (∀ f ∈ landing s, f.dest ≠ .p r) → t.core.regs.p.get r = s.core.regs.p.get r) ∧
       t.core.regs.k = s.core.regs.k ∧ t.core.regs.h = s.core.regs.h ∧ t.core.mem = s.core.mem ∧ t.store = s.store ∧
       t.core.pc = s.core.pc ∧ ((∀ f ∈ s.core.flights, f.due ≤ s.clock → f.fev = none) → t.core.csr = s.core.csr)) ∧
  (∀ (s : State) (f : Flight) (d : Fin 16), s.core.returning = false → landing s = [f] → f.dest = .s d →
     sQueue s.core.csr.qmode d = false → (∃ l ∈ s.core.landed, l.clock = s.clock ∧ l.dest = .s d ∧ f.issue < l.issue) →
     ∃ t, exec .resultLanding s = .next t ∧ t.core.regs.s = s.core.regs.s) ∧
  (∀ (s : State), s.core.returning = true → (∀ f ∈ s.core.flights, f.record = true ∧ s.clock < f.due) → exactSince s.core.mx = false →
     let c := s.core.csr
     let back := c.replay.toList.filterMap fun r => fromReplay r s.clock (BitVec.ofNat 48 c.trappc.toNat)
     replayOverflows s.core back = false →
     ∃ t, exec .resultLanding s = .next t ∧ t.core.pc = BitVec.ofNat 48 c.trappc.toNat ∧ t.core.readyAt = s.clock + 1 ∧
       t.core.inHandler = false ∧ t.core.returning = false ∧ (∀ l, s.core.shadow = some l → t.core.loopSt = l) ∧
       t.core.flights = s.core.flights ++ back ∧ (∀ i, i < 24 → (vat t.core.csr.replay i).word.toNat % 2 = 0) ∧
       t.core.regs = s.core.regs ∧ t.store = s.store ∧
       (∀ (r : Replay) (i : Fin 16), r.word.toNat % 2 = 1 → field r.word.toNat 1 3 = 0 → field r.word.toNat 4 4 = i.val →
         ∃ f, fromReplay r s.clock (BitVec.ofNat 48 c.trappc.toNat) = some f ∧ f.dest = .s i ∧ f.due = s.clock + field r.word.toNat 12 6))

/-! ### Reset and the memory's form -/

/-- R4, R20 to R30, R40, R364, R375: the values the manual gives the machine after reset; that a core is not secure then is the model's
choice (L5). -/
def Obligations.ResetState : Prop :=
  let s := State.reset
  s.cores.length = 128 ∧ (∀ c ∈ s.cores, c.stat = .idle ∧ c.regs.k = Vector.replicate 8 ⟨0, none⟩ ∧ c.regs.h = Vector.replicate 16 none ∧
    c.csr.qmode = 0 ∧ c.csr.scr = false ∧ c.csr.ptrap = false ∧ c.csr.fevlog = 0 ∧ c.csr.trapvec = 0 ∧ c.csr.trapcause = 0 ∧
    c.csr.stashmap = 0 ∧ c.csr.bankrole = 0xFFFF555500000000 ∧ c.csr.sec = false ∧
    (∀ r ∈ c.csr.replay.toList, r.word = 0) ∧ c.mx.cfg = 0 ∧ c.mx.scA = Vector.replicate 128 0x3F80 ∧
    c.mx.scB = Vector.replicate 96 0x3F80 ∧ c.mem.activeHi = false ∧ c.mem.tlb = []) ∧
  s.host.wdTaken = 0 ∧ s.host.wdDone = 0 ∧ s.host.lenable = false ∧ s.host.evseq = 0 ∧ s.plat.pcap = 2000 ∧
  s.plat.regions = [⟨true, true, 0, 0x800000⟩] ∧ s.store.pw = [] ∧ s.store.l2 = []

/-- The memory of the machine after reset has its canonical form, and lists nothing. -/
def Obligations.ResetMemoryForm : Prop :=
  Memory.wf State.reset.store.bytes = true ∧ (∀ a, rd8 State.reset.store.bytes a = 0) ∧ ∀ c ∈ everyContext State.reset, LocalForm c

/-- Every step keeps the canonical form of memory: addresses rising, no entry of the value an unlisted address reads as. -/
def Obligations.StepKeepsMemoryForm : Prop :=
  ∀ (s t : State), Memory.wf s.store.bytes = true → step s = .next t → Memory.wf t.store.bytes = true

/-! ### Device steps: registers -/

/-- The launch port's registers that the host reads (R362). -/
def launchRegister (h : HostPort) (off : Nat) : Word :=
  if off = 0x40 then h.ltaken else if off = 0x48 then h.lrefused else if off = 0x50 then h.ldiscard
  else if off = 0x58 ∧ h.lenable = true then 1 else 0

/-- R353, R358, R361 to R364, R366, R369, R374, R375: nothing reaches the registers before they are open; a write of a plain register of the
register region changes that register alone; a write to the launch port that is no record is discarded and counted; the host reads each
register at BAR0 plus its offset; LENABLE is taken only with a root and a ring.  That PCAP stands at offset 0x4000 (log L21), and that a
misaligned write of a register has no effect (log L24), is the model's choice. -/
def Obligations.RegisterWrites : Prop :=
  ∀ (s : State) (sec : Bool) (off : BitVec 16),
    (s.regsOpen sec = false → ∀ v, exec (.registerWrite sec off v) s = .next s) ∧
    (s.regsOpen sec = true →
      (∀ v, off.toNat < 64 → exec (.registerWrite sec off (some v)) s =
        .next (if sec then s else { s with host := { s.host with ldiscard := s.host.ldiscard + 1 } })) ∧
      (∀ v, 64 ≤ off.toNat → off.toNat % 8 ≠ 0 → exec (.registerWrite sec off (some v)) s = .next s) ∧
      (∀ v, 64 ≤ off.toNat → off.toNat % 8 = 0 → ∃ t, exec (.registerWrite sec off (some v)) s = .next t ∧
        (∀ x ∈ registerMasks, off.toNat = x.1 → (x.2.2 = true → sec = true) → t.regRead true off.toNat = v &&& x.2.1) ∧
        (∀ x ∈ registerMasks, off.toNat = x.1 → x.2.2 = true → sec = false → t = s) ∧
        (off.toNat = 0x4000 → sec = true → 500 ≤ v.toNat → v.toNat ≤ 2000 → t.regRead true 0x4000 = v) ∧
        (∀ n, n % 8 = 0 → n ≠ off.toNat → t.regRead true n = s.regRead true n) ∧
        t.core = s.core ∧ t.before = s.before ∧ t.after = s.after ∧ t.store = s.store ∧ t.sched = s.sched)) ∧
    (s.regsOpen false = true → 64 ≤ off.toNat → off.toNat % 8 = 0 →
      let w := if off.toNat < 4096 then launchRegister s.host off.toNat else s.regRead false off.toNat
      exec (.registerWrite false off none) s =
        .next { s with draws := s.draws + 8, host := { s.host with reply := (toBytes 8 w.toNat, false) } }) ∧
    ∀ (v : Word),
      (s.hostOpen = false → exec (.lenable v) s = .next s) ∧
      (s.hostOpen = true →
        (v.toNat % 2 = 0 → exec (.lenable v) s = .next { s with host := { s.host with lenable := false } }) ∧
        (v.toNat % 2 = 1 →
          let n := s.host.evsize.toNat % 32
          if s.host.root0 ≠ 0 ∧ 6 ≤ n ∧ n ≤ 20 then exec (.lenable v) s = .next { s with host := { s.host with lenable := true } }
          else exec (.lenable v) s = .next { s with host := { s.host with hdrop := s.host.hdrop + 1 } }))

/-- R327, R353, R354: WDREQ takes a request and drops the translations it covers, an engine with a copy in progress in the space
acknowledges, but not while one of its copies stands within a page, and once all have the request is complete and WDDONE rises. -/
def Obligations.Withdrawals : Prop :=
  ∀ (s : State),
    (∀ (sec : Bool) (v : Word),
      let space := bit v.toNat 1
      let all := bit v.toNat 0
      let keep := kept space all (field v.toNat 12 36) (field v.toNat 4 8 + 1)
      (s.regsOpen sec = false ∨ space = true ∧ sec = false → exec (.wdreq sec v) s = .next s) ∧
      (s.regsOpen sec = true → (space = true → sec = true) → ∃ t w, exec (.wdreq sec v) s = .next t ∧
        t.host = { s.host with wdTaken := s.host.wdTaken + 1, wdrs := s.host.wdrs ++ [w] } ∧
        w.all = all ∧ w.space = space ∧ w.page = field v.toNat 12 36 ∧ w.npg = field v.toNat 4 8 + 1 ∧
        t.cores.map (fun c => c.mem.tlb) = s.cores.map (fun c => c.mem.tlb.filter keep) ∧
        (∀ d, d < 4 → vat t.stlb d = (vat s.stlb d).filter keep) ∧
        t.cores.map (fun c => (c.regs, c.csr, c.pc, c.mem.sram)) = s.cores.map (fun c => (c.regs, c.csr, c.pc, c.mem.sram)) ∧
        t.store = s.store ∧ t.sched.launches = s.sched.launches ∧
        t.sched.tasks.map (fun u => (u.id, u.st, u.record)) = s.sched.tasks.map (fun u => (u.id, u.st, u.record)))) ∧
    (∀ (c1 : Bool) (w : Wdr) (l : List Wdr) (k : Copy), s.host.wdrs = w :: l → k ∈ (s.core.eng c1).queue → k.started = true →
      k.sec = w.space → k.commits = none → k.kind.delivering = none →
      (k.prog.pages.xls ≠ [] ∨ ∃ q ∈ k.prog.subs, q.pages.xls ≠ []) → k.paused s c1 = false →
      exec (.shootdownAcknowledge c1) s = .next s) ∧
    (∀ (c1 : Bool) (w : Wdr) (l : List Wdr), s.host.wdrs = w :: l → (s.core.eng c1).inSpace w.space = true → s.ackDue c1 = true →
      ∃ t, exec (.shootdownAcknowledge c1) s = .next t ∧ t.core = s.core.modEng c1 (fun e => { e with acked := true }) ∧
        t.store = s.store ∧ t.host = s.host) ∧
    (s.withdrawalDue = true → ∃ t, exec .withdrawalComplete s = .next t ∧
      t.host = { s.host with wdDone := s.host.wdDone + 1, wdrs := s.host.wdrs.drop 1 } ∧
      (∀ c ∈ t.cores, c.eng0.acked = false ∧ c.eng1.acked = false) ∧ t.store = s.store ∧
      t.cores.map (fun c => (c.regs, c.csr, c.mem)) = s.cores.map (fun c => (c.regs, c.csr, c.mem)))

/-- R255, R286, R287, R363: MDREG and POOL, refused while a tensor of the stack is bound or where the two windows would overlap; ENTGO's
updates, one after another, with PIN 0 and the old frame retired; and a change of bias, with its status word: where it ends at the host,
what the cores' stash lines of the page held has gone to memory (R293). -/
def Obligations.MetadataWindows : Prop :=
  ∀ (s : State) (stack : Fin 8) (v : Word), Memory.wf s.store.bytes = true →
    let m := vat s.md stack.val
    (s.hostOpen = false → ∀ i ∈ [Instr.mdreg stack v, .pool stack v, .entgo stack v, .biasreq stack v], exec i s = .next s) ∧
    (s.hostOpen = true → ∀ w, w = v &&& 0xFFFFFF7FFFFF0000 →
      let drop := { s with host := { s.host with hdrop := s.host.hdrop + 1 } }
      ((∃ c ∈ s.contexts, ofStack stack.val c) → exec (.mdreg stack v) s = .next drop ∧ exec (.pool stack v) s = .next drop) ∧
      ((∀ c ∈ s.contexts, ¬ofStack stack.val c) →
        (if winBase w < winLimit m.pool ∧ winBase m.pool < winLimit w then exec (.mdreg stack v) s = .next drop
        else ∃ t, exec (.mdreg stack v) s = .next t ∧ vat t.md stack.val = { m with mdreg := w } ∧ windowOnly s t stack) ∧
        (if winBase w < winLimit m.mdreg ∧ winBase m.mdreg < winLimit w then exec (.pool stack v) s = .next drop
        else ∃ t, exec (.pool stack v) s = .next t ∧ vat t.md stack.val = { m with pool := w } ∧ windowOnly s t stack))) ∧
    (v.toNat % 2 = 0 → exec (.entgo stack v) s = .next s) ∧
    (s.hostOpen = true → v.toNat % 2 = 1 → ∃ t, exec (.entgo stack v) s = .next t ∧ windowOnly s t stack ∧ vat t.md stack.val = { m with
      entgo := m.entgo ++ [(m.entaddr.toNat, BitVec.ofNat 128 (m.entdata0.toNat + 2 ^ 64 * m.entdata1.toNat))] }) ∧
    (∀ pa d, s.entgoDue stack.val = some (pa, d) →
      ∃ t, exec (.entgoUpdate stack) s = .next t ∧
        t.entryAt pa = { Entry.ofNat d.toNat with pin := 0, wlk := !t.entgoWaits pa && s.updates.any fun u => u.entry == pa } ∧
        (∀ a, a < pa ∨ pa + 16 ≤ a → rd8 t.store.bytes a = rd8 s.store.bytes a) ∧
        (vat t.md stack.val).entgo = m.entgo.erase (pa, d) ∧
        ((s.entryAt pa).size ≠ 0 → (s.entryAt pa).pin ≠ 0 → (vat t.md stack.val).retired =
          m.retired ++ [⟨64 * (s.entryAt pa).gaddr, (s.entryAt pa).size, (s.entryAt pa).pin⟩]) ∧
        ((s.entryAt pa).size = 0 ∨ (s.entryAt pa).pin = 0 → (vat t.md stack.val).retired = m.retired) ∧
        ∀ c ∈ t.cores, ∀ x ∈ c.mem.opbuf, x.entry ≠ pa) ∧
    (let toHost := bit v.toNat 0
     let page := field v.toNat 12 27
     let addr := m.biasst.toNat
     let answers (code : Nat) : Prop := ∃ t, exec (.biasreq stack v) s = .next t ∧ t.store.bias = s.store.bias ∧
       (isMemory addr = true → s.deadHome addr = false → rdNat t.store.bytes addr 8 = code) ∧
       ∀ a, a < addr ∨ addr + 8 ≤ a → rd8 t.store.bytes a = rd8 s.store.bytes a
     (s.hostOpen = true → s.biasChanging (4096 * page) = true ∨ s.hidden (4096 * page) = true → answers 0x80) ∧
     (s.hostOpen = true → s.biasChanging (4096 * page) = false → s.hidden (4096 * page) = false →
       if s.hostBiased (4096 * page) = toHost then answers (if toHost then 2 else 1)
       else ∃ t, exec (.biasreq stack v) s = .next t ∧ t.biasOf (4096 * page) = some (if toHost then .toHost s.clock s.draws addr
           else .toDevice s.clock s.draws addr) ∧ (∀ pa, pa / 4096 ≠ page → t.biasOf pa = s.biasOf pa) ∧
         t.store.bytes = s.store.bytes ∧ t.core = s.core)) ∧
    ∀ page since draw addr,
      let ends (b : Option Bias) (code : Nat) (kept : Nat → Prop) : Prop := ∃ t, exec (.biasChangeComplete page) s = .next t ∧ t.biasOf (4096 * page) = b ∧
        (isMemory addr = true → t.deadHome addr = false → rdNat t.store.bytes addr 8 = code) ∧
        (∀ a, kept a → a < addr ∨ addr + 8 ≤ a → rd8 t.store.bytes a = rd8 s.store.bytes a) ∧
        ∀ pa, pa / 4096 ≠ page → t.biasOf pa = s.biasOf pa
      s.biasDue page = true →
      (s.biasOf (4096 * page) = some (.toHost since draw addr) → ends (some .host) 2 (fun a => a / 4096 ≠ page) ∧
        ∃ t, exec (.biasChangeComplete page) s = .next t ∧ ∀ c ∈ t.cores, ∀ l, l / 32 = page → holdsLine l c = false ∧ l ∉ c.mem.icache) ∧
      (s.biasOf (4096 * page) = some (.toDevice since draw addr) → ends none 1 (fun _ => True) ∧
        ∃ t, exec (.biasChangeComplete page) s = .next t ∧ ∀ l ∈ t.store.hostCopies, l / 32 ≠ page)

/-- R283, R286, R288, R358, R359: what the host reads and writes of memory, what it is barred from, and its snoops. -/
def Obligations.HostAccesses : Prop :=
  ∀ (s : State) (pa n : Nat) (bs : List Byte), Memory.wf s.store.bytes = true →
    (hostReaches s pa n → (∀ l ∈ linesOf pa n, l ∉ s.store.poison) → ∃ t, exec (.hostMemAccess pa n none) s = .next t ∧
      t.host.reply = (rdBytes s.store.bytes pa n, false) ∧ t.store.bytes = s.store.bytes ∧ t.store.pw = s.store.pw) ∧
    (hostReaches s pa n → (∃ l ∈ linesOf pa n, l ∈ s.store.poison) → ∃ t, exec (.hostMemAccess pa n none) s = .next t ∧
      t.host.reply = (List.replicate n 0, true) ∧ t.store.bytes = s.store.bytes) ∧
    (hostReaches s pa bs.length → (∀ l ∈ linesOf pa bs.length, l ∉ s.store.poison) →
      ∃ t, exec (.hostMemAccess pa n (some bs)) s = .next t ∧ rdBytes t.store.bytes pa bs.length = bs ∧
        (∀ a, a < pa ∨ pa + bs.length ≤ a → rd8 t.store.bytes a = rd8 s.store.bytes a) ∧
        (∀ l ∈ linesOf pa bs.length, l < deviceEnd / 128 → isClean t.store l = false) ∧
        ∀ l ∈ linesOf pa bs.length, ∀ c ∈ t.cores, holdsLine l c = false) ∧
    (∀ a ∈ hostLines pa n, s.hostOpen = true → (∀ b ∈ hostLines pa n, present b = true) → s.hostBarred a = true →
      exec (.hostMemAccess pa n none) s = .next { s with host := { s.host with reply := (List.replicate n 0, true) } }) ∧
    (∀ a ∈ hostLines pa bs.length, s.hostOpen = true → (∀ b ∈ hostLines pa bs.length, present b = true) → s.hostBarred a = true →
      exec (.hostMemAccess pa n (some bs)) s = .next { s with host := { s.host with hdrop := s.host.hdrop + 1 } }) ∧
    (s.hostOpen = true → isHost pa = true → ∃ t, exec (.hostSnoop pa) s = .next t ∧ t.store.bytes = s.store.bytes ∧
      (∀ c ∈ t.cores, holdsLine (pa / 128) c = false ∧ pa / 128 ∉ c.mem.icache) ∧
      t.cores.map (fun c => (c.regs, c.pc, c.mem.sram)) = s.cores.map (fun c => (c.regs, c.pc, c.mem.sram)))

/-- R301 to R304, R362, R366: a launch is taken whole, each of its records with its task, or refused with its code; the end of a launch;
and the interrupt whose window has run out. -/
def Obligations.Launches : Prop :=
  ∀ (s : State), Memory.wf s.store.bytes = true →
    (∀ (rec : List Byte) (recs : List TaskRec) (d : Sched), s.hostOpen = true → rec.length = 64 →
      (s.host.pending.any Instr.isLaunch = false) → s.launchWaits (launchOf rec) = false → (launchOf rec).statusOk = true →
      let r := launchOf rec
      let refused (code : Nat) : Prop := ∃ t, exec (.launch rec true) s = .next t ∧ t.host.lrefused = s.host.lrefused + 1 ∧
        t.sched = s.sched ∧ (s.deadHome r.status = false → s.hidden r.status = false →
          s.secureAddr r.status = false → r.status / 128 ∉ s.store.poison →
          rdBytes t.store.bytes r.status 16 = toBytes 2 r.lid.toNat ++ [BitVec.ofNat 8 code] ++ List.replicate 13 0)
      (s.host.lenable = false ∨ r.formOk = false → refused 1) ∧
      (s.host.lenable = true → r.formOk = true →
        ((∃ l ∈ s.sched.launches, l.lid = r.lid) → refused 4) ∧
        ((∀ l ∈ s.sched.launches, l.lid ≠ r.lid) →
          (s.launchRecords r = none → refused 2) ∧
          (s.launchRecords r = some recs → s.sched.takeAll r.lid s.clock recs = none → refused 2) ∧
          (s.launchRecords r = some recs → s.sched.takeAll r.lid s.clock recs = some d →
            (d.fits = false → refused 3) ∧
            (d.fits = true → ∃ t new, exec (.launch rec true) s = .next t ∧ t.host.ltaken = s.host.ltaken + 1 ∧
              t.sched.tasks = s.sched.tasks ++ new ∧ new.map (fun u => u.record) = recs ∧
              (∀ u ∈ new, u.lid = r.lid ∧ u.home = none ∧ u.since = s.clock ∧
                u.st = (if u.record.depAddr = 0 then .ready else .dependent)) ∧
              (∃ l, t.sched.launches = s.sched.launches ++ [l] ∧ l.lid = r.lid ∧ l.status = r.status ∧ l.errs = 0) ∧
              ∀ p ∈ t.store.pw, 128 ∉ p.2))))) ∧
    (∀ (rec : List Byte) (aligned : Bool), s.hostOpen = true → rec.length ≠ 64 ∨ aligned = false →
      exec (.launch rec aligned) s = .next { s with host := { s.host with ldiscard := s.host.ldiscard + 1 } }) ∧
    (∀ (lid : BitVec 16) (l : Launch), s.sched.launches.find? (fun l => l.lid == lid) = some l → s.launchDone lid = true →
      ∃ t, exec (.launchEnd lid) s = .next t ∧ t.host.evseq = s.host.evseq + 1 ∧
        t.sched.launches = s.sched.launches.filter (fun k => k.lid != lid) ∧ t.sched.tasks = s.sched.tasks ∧
        (l.irq = true → l.win = 0 → (∀ i ∈ s.host.held, i.vec ≠ l.vec) → t.host.irqs = s.host.irqs ++ [(l.vec, s.clock)])) ∧
    ∀ (vec : BitVec 10), (∃ i ∈ s.host.held, i.vec = vec ∧ i.due ≤ s.clock) →
      exec (.interruptDelivery vec) s = .next { s with host := { s.host with
        held := s.host.held.filter (fun i => i.vec != vec), irqs := s.host.irqs ++ [(vec, s.clock)] } }

/-- R358, R364, R372 to R375: power periods, one every 4,200 clocks, in which only a die whose demand is above its grant is frozen;
temperature, management messages, and module reset with its bring-up.  The order of the four images, and that a missing image counts as
rejected (log L56), the encoding of the key in its digest (log L15), that the answers to messages and the arbiter's algorithm are opaque functions (logs L16,
L17), and that a step of the device whose preconditions fail changes nothing (log L58), is the model's choice. -/
def Obligations.PlatformSteps : Prop :=
  ∀ (s : State),
    (∀ demand, s.clock < (s.plat.periods + 1) * 4200 → exec (.powerPeriod demand) s = .next s) ∧
    (∀ demand, (s.plat.periods + 1) * 4200 ≤ s.clock → ∃ t, exec (.powerPeriod demand) s = .next t ∧
      t.plat.pdraw = BitVec.ofNat 64 (min (Config.wattsOf demand) s.plat.pcap.toNat) ∧
      (∀ k, k < 16 → (∀ x ∈ vat t.plat.freezes k, s.clock < x ∧ x ≤ s.clock + 4200) ∧
        (demand.getD (k / 4) 0 ≤ Config.grant demand s.plat.pcap.toNat (k / 4) → vat t.plat.freezes k = [])) ∧
      t = { s with plat := { s.plat with periods := s.plat.periods + 1, pdraw := t.plat.pdraw, freezes := t.plat.freezes } }) ∧
    (∀ die, ∃ t, exec (.therm die) s = .next t ∧ die ∈ t.plat.therm ∧ (∀ d, d ≠ die → (d ∈ t.plat.therm ↔ d ∈ s.plat.therm)) ∧
      t = { s with plat := { s.plat with therm := t.plat.therm } }) ∧
    (∀ die, ∃ t, exec (.thermClear die) s = .next t ∧ die ∉ t.plat.therm ∧ (∀ d, d ≠ die → (d ∈ t.plat.therm ↔ d ∈ s.plat.therm)) ∧
      t = { s with plat := { s.plat with therm := t.plat.therm } }) ∧
    (∀ m, ∃ b, exec (.mctpMessage m) s = .next { s with draws := s.draws + 64, host := { s.host with mctp := b } }) ∧
    ∀ fw : Firmware, ∃ t, exec (.moduleReset fw) s = .next t ∧ t.cores = State.reset.cores ∧ t.store = State.reset.store ∧
      t.host = State.reset.host ∧ t.sched = State.reset.sched ∧ t.clock = 0 ∧ t.md = State.reset.md ∧
      t.plat.idKey = Config.identityKey ∧ (keyDigest fw.key ≠ fw.fuses → t.plat.bringup = .rejected 0) ∧
      (∀ i, (i < max 4 fw.images.length) → imageOk fw i = false → (∀ j, j < i → imageOk fw j = true) →
        t.plat.bringup = .rejected i ∧ t.plat.regions = [⟨true, true, 0, 0x800000⟩] ∧ t.plat.hostLink = false) ∧
      ((∀ i, i < max 4 fw.images.length → imageOk fw i = true) →
        t.plat.bringup = .done ∧ t.plat.regions = fw.regions.getD [⟨true, false, 0, 0x800000⟩] ∧ t.plat.hostLink = fw.flit256 ∧
        t.plat.dead = [])

/-! ### Device steps: links and peers -/

/-- R289 to R291, R366, R368: what no path reaches once a link has failed is dead, each with its record; a surviving core keeps no line of
a dead home, and a task whose core held one is halted with 0x55.  A link whose loss leaves every agent in reach only cuts the writes whose
invalidations were on their way (`cutWrites`, R290; which ones is free, L77). -/
def Obligations.LinkFailures : Prop :=
  ∀ (s : State) (l : Link), s.plat.linkUp l = true →
    let new := (s.plat.cut l).unreached.filter fun a => !s.plat.unreached.contains a && !s.plat.dead.contains a
    ∃ t, exec (.linkFailure l) s = .next t ∧ t.plat.linkUp l = false ∧ t.plat.dead = s.plat.dead ++ new ∧
      t.host.evseq = s.host.evseq + BitVec.ofNat 64 (new.length + match l with
        | .peer _ => 1
        | _ => 0) ∧
      (new ≠ [] → (∀ c ∈ t.cores, t.deadCore c.id = false → ∀ x ∈ c.heldLines, t.deadHome (128 * x) = false) ∧
        ∀ c ∈ s.cores, c.stat = .running → t.deadCore c.id = false →
          (∃ x ∈ c.heldLines, t.deadHome (128 * x) = true ∧ x ∉ t.store.lost) →
          ∃ k ∈ t.cores, k.id = c.id ∧ k.stat = .leaving (.halt 0x55 0)) ∧
      (new = [] → (∀ x, l ≠ .peer x) → t = ({ s with plat := s.plat.cut l }).cutWrites)

/-- R368: a flit that passes its check and has the awaited number is acknowledged, by a flit of type 4, and delivered, by its type; one that
fails is refused so.  An acknowledgement lets the flits sent up to its number go; a refusal has its flit sent again.  That the ninth refusal
of a flit in a row, and the ninth failure of one that is sent again, is the link's failure, and that an acknowledgement takes no number of
its own, is the model's choice (L60), and what the payloads say is opaque (L38).
R370, R371: a transfer that an entry of the receiving task's grant table takes writes its bytes, then its flag bit; any other writes
nothing. -/
def Obligations.FlitsAndTransfers : Prop :=
  (∀ (s : State) (link : Fin 12) (flit : List Byte),
     let k := s.plat.links.get link
     let f := Config.fec flit
     let head := ofBytes (f.take 2)
     let payload := (f.drop 2).take 236
     let answered (ok : Bool) : List (List Byte) := k.answers ++ [flitOf k.seq 4 (Config.answerPayload k.seq ok)]
     let taken := s.modLink link fun k => { k with seq := k.seq + 1, refused := 0, answers := answered true }
     (k.up = false → exec (.flitReceive link flit) s = .next s) ∧
     (k.up = true → flitOk f = false →
       (k.refused < 8 → exec (.flitReceive link flit) s =
         .next (s.modLink link fun k => { k with refused := k.refused + 1, answers := answered false })) ∧
       (8 ≤ k.refused → ∃ t, exec (.flitReceive link flit) s = .next t ∧ t.plat.linkUp (.peer link) = false)) ∧
     (k.up = true → flitOk f = true → field head 10 6 = 4 →
       let at_ (n : BitVec 10) : Option Nat := (k.out.take 512).findIdx? fun f => flitNumber f == n
       (Config.flitAnswer payload = none → exec (.flitReceive link flit) s = .next s) ∧
       (∀ n i, Config.flitAnswer payload = some (n, true) → at_ n = some i → exec (.flitReceive link flit) s =
         .next (s.modLink link fun k => { k with out := k.out.drop (i + 1), replays := 0 })) ∧
       (∀ n i, Config.flitAnswer payload = some (n, false) → at_ n = some i →
         (k.replays < 8 → exec (.flitReceive link flit) s =
           .next (s.modLink link fun k => { k with retries := k.retries + 1, replays := k.replays + 1 })) ∧
         (8 ≤ k.replays → ∃ t, exec (.flitReceive link flit) s = .next t ∧ t.plat.linkUp (.peer link) = false)) ∧
       (∀ n ok, Config.flitAnswer payload = some (n, ok) → at_ n = none → exec (.flitReceive link flit) s = .next s)) ∧
     (k.up = true → flitOk f = true → field head 10 6 ≠ 4 →
       (BitVec.ofNat 10 head ≠ k.seq → exec (.flitReceive link flit) s = .next s) ∧
       (BitVec.ofNat 10 head = k.seq →
         (field head 10 6 = 0 ∨ 4 < field head 10 6 → exec (.flitReceive link flit) s = .next taken) ∧
         (∀ m, field head 10 6 = 2 → Config.superstepMsg payload = some m → exec (.flitReceive link flit) s =
           .next { taken with sched := s.sched.modInst ⟨4, 0, 0, m.1⟩ fun i =>
             { i with remote := i.remote + m.2.1, expected := i.expected - m.2.2 } }) ∧
         (∀ fab, field head 10 6 = 3 → Config.containmentMsg payload = some fab → exec (.flitReceive link flit) s =
           .next { taken with sched := s.sched.modInst ⟨4, 0, 0, fab⟩ fun i => { i with lost := true } }) ∧
         (field head 10 6 = 1 → Config.peerTransfer (k.parts ++ [payload]) = none → exec (.flitReceive link flit) s =
           .next (taken.modLink link fun k => { k with parts := k.parts ++ [payload] })) ∧
         (∀ x, field head 10 6 = 1 → Config.peerTransfer (k.parts ++ [payload]) = some x → exec (.flitReceive link flit) s =
           exec (.peerTransferReceive x) (taken.modLink link fun k => { k with parts := [] }))))) ∧
  (∀ (s : State) (x : PeerXfer),
     ((s.coreAt x.target).stat = .idle ∨ (∀ g ∈ (s.coreAt x.target).claim.grants, grantTakes (s.coreAt x.target) x g = false) →
       exec (.peerTransferReceive x) s = .next s) ∧
     ∀ g, s.coreAt x.target = s.core → s.core.id = x.target → s.core.stat ≠ .saved → s.core.stat ≠ .idle →
       s.core.claim.grants.find? (grantTakes s.core x) = some g →
       let m := wrBytes s.core.mem.sram x.off.toNat x.bytes
       ∃ t, exec (.peerTransferReceive x) s = .next t ∧
         t.core = { s.core with mem := { s.core.mem with
           sram := wrBytes m g.flag.toNat (toBytes 8 (rdNat m g.flag.toNat 8 ||| 2 ^ x.flag.toNat)) } } ∧
         t.store = s.store ∧ t.before = s.before ∧ t.after = s.after)

/-! ### Device steps: the memory path and the pipelines -/

/-- TOKEN_COMPLETION of an operation gives a next state of which a property holds. -/
def Gives (s : State) (o : TokOp) (p : State → Prop) : Prop := ∃ t, exec (.tokenCompletion o.id) s = .next t ∧ p t

/-- The register or lanes that a performed load lands in, and that its token falls and memory stays. -/
def LandsWord (s : State) (o : TokOp) (d : Fin 16) (x : Word) (t : State) : Prop :=
  Fallen s t o none ∧ t.store.bytes = s.store.bytes ∧ t.core.regs.s.get d = landed s d x ∧ ∀ r, r ≠ d → t.core.regs.s.get r = s.core.regs.s.get r
def LandsLanes (s : State) (o : TokOp) (d : Fin 16) (m : Word) (x : VReg) (t : State) : Prop :=
  Fallen s t o none ∧ t.store.bytes = s.store.bytes ∧ t.core.regs.v.get d = vlanded s d m x ∧ ∀ r, r ≠ d → t.core.regs.v.get r = s.core.regs.v.get r

/-- Scalar and local accesses as they are performed (R147, R197, R199, R201, R291, R292). -/
def scalarPerformed (s : State) (o : TokOp) : Prop :=
  (∀ a w d pa, o.kind = .sld a w d → Lies s a (2 ^ (w.toNat % 4)) pa → pa / 128 ∉ s.store.poison →
    Gives s o (LandsWord s o d (loadedWord w (rdNat s.store.bytes pa (2 ^ (w.toNat % 4)))))) ∧
  (∀ a sc d pa, o.kind = .slda a sc d → Lies s a 8 pa → pa / 128 ∉ s.store.poison →
    Gives s o (LandsWord s o d (BitVec.ofNat 64 (rdNat s.store.bytes pa 8)))) ∧
  (∀ a n x pa, o.kind = .sst a n x → Lies s a n pa → (pa / 128 ∉ s.store.poison ∨ n = 128) →
    Gives s o fun t => Fallen s t o none ∧ rdBytes t.store.bytes pa n = toBytes n x.toNat ∧ sameBut s t pa n ∧
      t.core.regs.s = s.core.regs.s ∧ (isDevice pa = true → 0 < n → isClean t.store (pa / 128) = false)) ∧
  (∀ a sc x pa, o.kind = .sstrl a sc x → Lies s a 8 pa → pa / 128 ∉ s.store.poison →
    Gives s o fun t => Fallen s t o none ∧ rdBytes t.store.bytes pa 8 = toBytes 8 x.toNat ∧ sameBut s t pa 8 ∧
      t.core.regs.s = s.core.regs.s) ∧
  (∀ a ctl sc x d pa, o.kind = .satom a ctl sc x d → Lies s a (atomSize ctl) pa → pa / 128 ∉ s.store.poison →
    let n := atomSize ctl
    let old := rdNat s.store.bytes pa n
    Gives s o fun t => Fallen s t o none ∧ sameBut s t pa n ∧ t.core.regs.s.get d = landed s d (BitVec.ofNat 64 old) ∧
      rdNat t.store.bytes pa n = atomOp (ctl.toNat % 16) n old (x.toNat % 2 ^ (8 * n)) % 2 ^ (8 * n)) ∧
  (∀ a ctl sc cmp new d pa, o.kind = .scas a ctl sc cmp new d → Lies s a (atomSize ctl) pa → pa / 128 ∉ s.store.poison →
    let n := atomSize ctl
    let old := rdNat s.store.bytes pa n
    Gives s o fun t => Fallen s t o none ∧ sameBut s t pa n ∧ t.core.regs.s.get d = landed s d (BitVec.ofNat 64 old) ∧
      rdNat t.store.bytes pa n = (if old = cmp.toNat % 2 ^ (8 * n) then new.toNat % 2 ^ (8 * n) else old)) ∧
  (∀ d x, o.kind = .local [(.s d, .w x, BitVec.allOnes 64)] → Gives s o (LandsWord s o d x)) ∧
  (∀ d m x, o.kind = .local [(.v d, .v x, m)] → Gives s o (LandsLanes s o d m x)) ∧
  ∀ a w d pa x, o.kind = .sld a w d → a.xl a.va = some x → pa = x.paOf a.va → isReg pa = false →
    (s.deadHome pa = true → Gives s o fun t => Failed s t o ⟨0x2D, BitVec.ofNat 48 (pa / 128 * 128)⟩ ∧
      t.core.regs.s.get d = landed s d 0 ∧ t.store = s.store) ∧
    (s.deadHome pa = false → pa / 128 ∈ s.store.poison → Gives s o fun t => Failed s t o ⟨0x1F, BitVec.ofNat 48 a.va⟩ ∧
      t.core.regs.s.get d = landed s d 0 ∧ t.store = s.store)

/-- Vector accesses (R147, R149, R155). -/
def vectorPerformed (s : State) (o : TokOp) : Prop :=
  (∀ a act d, o.kind = .vld a act d → a.va % 4 = 0 → PiecesLie s a (vpieces a.va act) → Gives s o (LandsLanes s o d act (lanesAt s a))) ∧
  (∀ a valid d p, o.kind = .vldff a valid d p → a.va % 4 = 0 → PiecesLie s a (vpieces a.va valid) →
    Gives s o fun t => LandsLanes s o d valid (lanesAt s a) t ∧ t.core.regs.p.get p = valid) ∧
  ∀ a act x, o.kind = .vst a act x → VLies s a act →
    Gives s o fun t => Fallen s t o none ∧ lanesStored s t a act x ∧ t.core.regs.v = s.core.regs.v

/-- Push stores, up to the end of their deliveries (R162). -/
def pushPerformed (s : State) (o : TokOp) : Prop :=
  (∀ a x cores pa, o.kind = .sstp a x cores → Lies s a 8 pa → pa / 128 ∉ s.store.poison → Pushable s a a.va →
    (∀ c ∈ coreSet cores, s.deadCore c = false) →
    Gives s o fun t => rdBytes t.store.bytes pa 8 = toBytes 8 x.toNat ∧ sameBut s t pa 8 ∧ pushed s t o a [a.va] cores) ∧
  (∀ a act x cores, o.kind = .vstp a act x cores → a.va % 256 = 0 → VLies s a act → Pushable s a a.va → Pushable s a (a.va + 128) →
    (∀ c ∈ coreSet cores, s.deadCore c = false) →
    Gives s o fun t => lanesStored s t a act x ∧ pushed s t o a [a.va, a.va + 128] cores) ∧
  (o.kind = .pushing [] → Gives s o fun t => Fallen s t o none ∧ t.store = s.store)

/-- Tensor accesses: VLDT pins and reads its tiles, then lands; VSTT and a drained MDRN hand one update per touched tile to the Pintle, and
end when the last has committed; TQRY and TBIND (R157 to R160, R224, R227, R254). -/
def tensorPerformed (s : State) (o : TokOp) : Prop :=
  (∀ h wide act d, o.kind = .vldt h wide act d →
    let ts := tilesOf ((placesOf h wide act).map (·.2.2))
    ∀ st tiles, s.readTiles h.desc ts = (st, tiles, none) → Gives s o fun t =>
      (∃ n, GoesOn s t o { o with draw := n, kind := .pinned d act (gatherLanes h wide act (elemIn h.desc tiles)) (s.pinsOf h.desc ts) }) ∧
      (∀ k ∈ ts, t.entryAt (entryOf h.desc k) = { s.entryAt (entryOf h.desc k) with pin := (s.entryAt (entryOf h.desc k)).pin + 1 }) ∧
      t.core.regs = s.core.regs) ∧
  (∀ d act x pins, o.kind = .pinned d act x pins → Gives s o fun t =>
    Fallen s t o none ∧ t.core.regs.v.get d = vlanded s d act x ∧ (pins = [] → t.store = s.store)) ∧
  (∀ h elems, (o.kind = .drained h elems ∨ ∃ wide act x, o.kind = .vstt h wide act x ∧ elems = (scatterLanes h wide act x).1) →
    let g := groupByTile elems
    (g = [] → Gives s o fun t => Fallen s t o none ∧ t.store = s.store) ∧
    (g ≠ [] → Gives s o fun t => ∃ new, t.updates = s.updates ++ new ∧ new.map (fun u => (u.tileNo, u.elems)) = g ∧
      (∀ u ∈ new, u.core = s.core.id ∧ u.opId = o.id ∧ u.desc = h.desc ∧ u.entry = entryOf h.desc u.tileNo) ∧
      GoesOn s t o { o with kind := .committing (dScope h.desc) (new.map (·.id)) } ∧ t.core.regs = s.core.regs)) ∧
  (∀ scope, o.kind = .committing scope [] → Gives s o fun t => Fallen s t o none ∧ t.store = s.store) ∧
  (∀ h d k off, o.kind = .tqry h d → locate h.desc (cursorAt h 0) = some (k, off) → s.tensorErr h.desc (entryOf h.desc k) 16 = none →
    s.poisoned (entryOf h.desc k) 16 = false →
    Gives s o (LandsWord s o d (BitVec.ofNat 64 ((s.entryAt (entryOf h.desc k)).toNat % 2 ^ 62)))) ∧
  ∀ h addr a pa, o.kind = .tbind h addr a → Lies s a 128 pa → pa / 128 ∉ s.store.poison →
    let d := BitVec.ofNat 1024 (rdNat s.store.bytes pa 128)
    (descOk d = true → Gives s o fun t => Fallen s t o none ∧ t.core.regs.h.get h = some ⟨d, addr, Vector.replicate 6 0⟩) ∧
    (descOk d = false → Gives s o fun t => Fallen s t o (some ⟨0x29, BitVec.ofNat 48 h.val⟩) ∧ t.core.regs.h.get h = none)

/-- SPAWN, PUBC and IRQH (R122, R123, R129, R234, R283, R285, R304). -/
def otherPerformed (s : State) (o : TokOp) : Prop :=
  (∀ a, o.kind = .spawn a → PiecesLie s a (linePieces a.va 192) →
    let r := recordOf (BitVec.ofNat 64 a.va) ((List.range 192).map fun i => rd8 s.store.bytes (byteAt a (a.va + i)))
    (r.ok s.sched s.core.csr.launch a.sec = false → Gives s o fun t => Fallen s t o (some ⟨0x40, 1⟩) ∧ t.sched = s.sched) ∧
    (r.ok s.sched s.core.csr.launch a.sec = true → s.sched.free (placeDie r).val = 0 →
      Gives s o fun t => Fallen s t o (some ⟨0x40, 0⟩) ∧ t.sched = s.sched) ∧
    (r.ok s.sched s.core.csr.launch a.sec = true → s.sched.free (placeDie r).val ≠ 0 →
      Gives s o fun t => Fallen s t o none ∧ t.sched = s.sched.take r s.core.csr.launch s.clock)) ∧
  (∀ scope copied, o.kind = .pubc scope copied → Gives s o fun t =>
    let mine (l : LineRef) : Prop := l ∈ s.core.wrote ∨ l ∈ copied
    Fallen s t o none ∧ t.store.bytes = s.store.bytes ∧ t.core.wrote = [] ∧
      (∀ l, mine (.mem l) → ∀ p ∈ t.store.pw, p.1 = l → s.core.id.val ∉ p.2) ∧
      (∀ l, mine (.mem l) → ∀ c ∈ t.cores, scopeIncludes scope.toNat s.core.id c.id = true → l ∉ c.mem.icache) ∧
      ∀ l, mine (.ih l) → l ∈ t.core.mem.ihClean) ∧
  ∀ code, o.kind = .irqh code → Gives s o fun t => Fallen s t o none ∧ t.host.evseq = s.host.evseq + 1 ∧ t.sched = s.sched ∧
    t.core.regs.s = s.core.regs.s ∧
    ∀ l, s.sched.launches.find? (fun l => l.lid == s.core.csr.launch) = some l → l.win = 0 → (∀ i ∈ s.host.held, i.vec ≠ l.vec) →
      t.host.irqs = s.host.irqs ++ [(l.vec, s.clock)]

/-- R7, R16, R32, R122, R129, R147, R149, R155 to R162, R197 to R201, R224, R227, R234, R254, R291, R292: when an operation of a slot is
performed its result lands and its token falls; an access of a line that is lost or holds uncorrectable data lands zeros at once and gives
its token the error in a later clock; a FENCE writes the core's dirty lines through; and the hold of a bundle ends.  That access and result
are one event (log L7), and that DETAIL of 0x2D is the physical address of the line (log L32), is the model's choice. -/
def Obligations.AccessesPerformed : Prop :=
  ∀ (s : State), Memory.wf s.store.bytes = true →
    (∀ o, Performs s o → scalarPerformed s o ∧ vectorPerformed s o ∧ pushPerformed s o ∧ tensorPerformed s o ∧ otherPerformed s o) ∧
    (∀ o, s.core.opOf o.id = some o → s.opDue o = true → o.kind = .ended → Gives s o fun t => Fallen s t o o.err ∧ t.store = s.store) ∧
    (∀ o mask, s.core.opOf o.id = some o → s.opDue o = true → o.err = none → o.kind = .fence mask →
      Gives s o fun t => Fallen s t o none ∧ dirtyLines t.core = [] ∧ t.core.regs.s = s.core.regs.s) ∧
    ∀ h ∈ s.core.holds, s.holdDue h = true → ∃ t, exec (.accessPerformed h.id) s = .next t ∧ { h with done := true } ∈ t.core.holds ∧
      (∀ k ∈ s.core.holds, k.id ≠ h.id → k ∈ t.core.holds) ∧ t = { s with core := { s.core with holds := t.core.holds } }

/-- R170, R173, R177, R182, R184, R193: scale loads land, the last of a side giving the registers; a repetition starts, with the scales
as they are; and when its rows complete a C tile has its results, a filled tile its value, a drained tile what it had or zeros. -/
def Obligations.MatrixSteps : Prop :=
  ∀ (s : State), cellsWf 0 s.core.mx.acc = true →
    (let due := s.core.mx.loads.filter fun l => !l.held && decide (l.due ≤ s.clock)
     ∃ t, exec .scaleLanding s = .next t ∧ t.core.mx.loads = s.core.mx.loads.filter (fun l => !(!l.held && decide (l.due ≤ s.clock))) ∧
       t.core.mx.scA = (match (due.filter fun l => !l.isB).getLast? with
         | some l => vofList 128 l.xs
         | none => s.core.mx.scA) ∧
       t.core.mx.scB = (match (due.filter fun l => l.isB).getLast? with
         | some l => vofList 96 l.xs
         | none => s.core.mx.scB) ∧
       t.core.mx.acc = s.core.mx.acc ∧ t.core.mx.ops = s.core.mx.ops ∧ t.core.regs = s.core.regs ∧ t.store = s.store) ∧
    (∀ o, s.startable = some o → ∃ t k r, exec .repetitionStart s = .next t ∧
      t.core.mx.ops = s.core.mx.ops.map (fun p => if p.id = o.id then k else p) ∧ k.id = o.id ∧ k.next = o.next + 1 ∧
      k.nextAt = r.leave ∧ k.run = o.run ++ [r] ∧ r.j = o.next ∧ r.start = s.clock ∧ r.due = r.leave + 6 ∧ s.clock + 4 ≤ r.leave ∧
      r.scA = s.core.mx.scA ∧ r.scB = s.core.mx.scB ∧ t.core.mx.acc = s.core.mx.acc ∧ t.core.regs = s.core.regs ∧
      (cfgStreamed o.cfg = false → t.store = s.store ∧ r.tiles = o.tiles ∧ (cfgSparse o.cfg = false → r.leave = s.clock + 32))) ∧
    ∀ o r, completing s.core.mx s.clock = some (o, r) →
      ∃ t, exec .repetitionComplete s = .next t ∧ t.core.regs.s = s.core.regs.s ∧ (r.pins = [] → t.store = s.store) ∧
        (o.reps ≤ o.next → (∀ q ∈ o.run, q.j = r.j) → ∀ p ∈ t.core.mx.ops, p.id ≠ o.id) ∧
        (∀ zero, o.kind = .mma zero → r.bad = none →
          let b := tileBase o r
          (∀ (i : Nat) (rs : List FRes), i < 768 → (tileResults s.core.mx o r b (tileZero zero o r))[i]? = some rs →
            accRow t.core.mx (b + i) = rowOf (rs.map (·.1)) ∧ b + i ∉ t.core.mx.badRows) ∧
          ∀ n, n < b ∨ b + 768 ≤ n → accRow t.core.mx n = accRow s.core.mx n) ∧
        (∀ zero, o.kind = .mma zero → r.bad ≠ none → t.core.mx.acc = s.core.mx.acc) ∧
        (∀ x, o.kind = .fill x →
          (∀ i, i < 768 → accRow t.core.mx (o.base + i) = rowOf (List.replicate 16 x.toNat) ∧ o.base + i ∉ t.core.mx.badRows) ∧
          ∀ n, n < o.base ∨ o.base + 768 ≤ n → accRow t.core.mx n = accRow s.core.mx n) ∧
        ∀ ov clr, o.kind = .mdrn ov clr →
          (∀ i, i < 768 → accRow t.core.mx (o.base + i) = if clr then 0 else accRow s.core.mx (o.base + i)) ∧
          (∀ n, n < o.base ∨ o.base + 768 ≤ n → accRow t.core.mx n = accRow s.core.mx n) ∧
          ∀ p ∈ t.core.ops, p.id = o.id → p.kind = .drained o.hA (drainTile s.core.mx o ov.toNat).1

/-- R175, R270, R333, R348, R350: a line is filled and its fetch answers; a walk gives the translation, or the failure, that the access
waits for; a prefetched tile is in the L2, and a point whose prefetch fails is due; a staged tile stands in the OPBUF banks. -/
def Obligations.FetchesAndWalks : Prop :=
  ∀ (s : State),
    (∀ va, s.core.fetchWait = some va → s.fillDue va = true → ∃ t x, exec .instructionFetch s = .next t ∧
      s.core.tlbFind s.core.csr.sec va.toNat = some x ∧ t.fetch va = .ok (rdNat s.store.bytes (x.paOf va.toNat) 32) ∧
      t.store.bytes = s.store.bytes ∧ t.core.regs = s.core.regs ∧ t.core.pc = s.core.pc) ∧
    (∀ space va x, s.walkFree space va.toNat = true →
      (findXl (vat s.stlb (dieOf s.core.id)) space va.toNat = some x ∨
        findXl (vat s.stlb (dieOf s.core.id)) space va.toNat = none ∧ s.walk space va.toNat = .ok x) →
      ∃ t, exec (.pageWalk space va) s = .next t ∧ t.core.tlbFind space va.toNat = some x ∧ t.core.regs = s.core.regs ∧
        t.store.bytes = s.store.bytes) ∧
    (∀ space va code, s.walkFree space va.toNat = true → findXl (vat s.stlb (dieOf s.core.id)) space va.toNat = none →
      s.walk space va.toNat = .fail code → ∃ t, exec (.pageWalk space va) s = .next t ∧ t.core.mem.tlb = s.core.mem.tlb ∧
        (space, va.toNat / 4096, code) ∈ t.core.walkFails ∧ t.store.bytes = s.store.bytes) ∧
    (∀ point f q d, s.core.tum.inflight.find? (fun f => f.point == point && decide (f.since + 1 + Config.latency f.draw ≤ s.clock)) = some f →
      s.core.tum.set = some q → wordDesc q f.word = some d → point < q.counts.length →
      ∃ t u, exec (.prefetchArrival point) s = .next t ∧ t.core.tum.set = some u ∧ t.core.tum.arrived = true ∧
        u.count = q.count ∧ u.visited = q.visited ∧ u.handed = q.handed ∧ t.store.bytes = s.store.bytes ∧ t.core.regs = s.core.regs ∧
        (∀ e, s.pinEntry d (wordTile f.word) = .error e → u.limit ≤ u.countOf point) ∧
        (∀ e, s.pinEntry d (wordTile f.word) = .ok e → (e.size = 0 ∨ s.tensorErr d (frameAddr e) (64 * e.size) = none ∧
          s.poisoned (frameAddr e) (64 * e.size) = false) → ∀ l ∈ entryOf d (wordTile f.word) / 128 :: frameLines e, l ∈ t.store.l2)) ∧
    ∀ id f, s.core.fetches.find? (fun f => f.id == id && s.fetchDue f) = some f →
      ∃ t, exec (.stagingFetchComplete id) s = .next t ∧ (∀ g ∈ t.core.fetches, g.id ≠ id) ∧ t.core.regs = s.core.regs ∧
        (∀ e, s.pinEntry f.h.desc f.tile = .ok e → e.size = 0 →
          t.store.bytes = s.store.bytes ∧ ∃ g ∈ t.core.mem.opbuf, g.entry = entryOf f.h.desc f.tile ∧ g.ver = BitVec.ofNat 8 e.ver ∧
            g.tile.elems = List.replicate 1024 none) ∧
        (∀ e, s.pinEntry f.h.desc f.tile = .error e → t.core.mem.opbuf = s.core.mem.opbuf)

/-! ### Device steps: engines, pushes, tiles and barriers -/

/-- COPY_COMPLETE of a copy gives a next state of which a property holds. -/
def Moves (s : State) (k : Copy) (p : State → Prop) : Prop := ∃ t, exec (.copyComplete k.id) s = .next t ∧ p t

/-- The next piece of a copy of bytes is read and written, but what a verified one holds back, whose sum goes on; a verified copy whose sum
does not agree ends poisoned, and else what was held back is written (R205, R207). -/
def copyMoves (s : State) (c1 : Bool) (k : Copy) : Prop :=
  ∀ dst src n v, byteCopy k.kind = some (dst, src, n, v) →
    let xls := k.prog.pages.xls
    let pos := k.prog.pos
    (n = 0 → Moves s k fun t => Left s t c1 k none ∧ untouched s t) ∧
    (pos < n → ∀ p q : Spot,
      let len := pieceOf src dst pos n
      let m := if v then min len (n - min n 256 - pos) else len
      let bs := (List.range len).map (p.byte s)
      p.serves s xls k.sec false src pos len → q.serves s (p.after xls k.sec src pos) k.sec true dst pos m →
      Moves s k fun t => Wrote s t (k.id, 0) (bs.take m) q ∧
        if v = false ∧ n ≤ pos + len then Left s t c1 k none
        else Onward s t c1 k fun r => r.pos = pos + len ∧ r.held = k.prog.held ++ bs.drop m ∧
          (v = true → r.acc = (k.prog.acc + sumNat ((List.range len).map fun i => (p.byte s i).toNat * 2 ^ (8 * ((pos + i) % 4)))) % 2 ^ 32)) ∧
    (0 < n → pos = n → v = true → ∀ p : Spot, p.serves s xls k.sec false src n 4 →
      Moves s k fun t => untouched s t ∧
        if (k.prog.acc ^^^ n) % 2 ^ 32 = ofBytes ((List.range 4).map (p.byte s)) then
          Onward s t c1 k fun r => r.pos = n + 1 ∧ r.held = k.prog.held
        else Left s t c1 k (some ⟨0x41, 0⟩)) ∧
    (0 < n → n < pos → v = true → k.prog.held.length = min n 256 →
      let w := pos - (n + 1)
      let o := n - min n 256 + w
      let len := pieceOf dst dst o n
      w < min n 256 → ∀ q : Spot, q.serves s xls k.sec true dst o len →
      Moves s k fun t => Wrote s t (k.id, 0) ((k.prog.held.drop w).take len) q ∧
        if n ≤ o + len then Left s t c1 k none else Onward s t c1 k fun r => r.pos = pos + len ∧ r.held = k.prog.held)

/-- CFILL repeats its value, from the range's first byte on; CFP and CSUM fold the bytes they read, and CCMP compares its, and their one
write is the result (R207, R210). -/
def copyComputes (s : State) (c1 : Bool) (k : Copy) : Prop :=
  let xls := k.prog.pages.xls
  let pos := k.prog.pos
  let results (r : Word) (n len x : Nat) (t : State) : Prop :=
    if n ≤ pos + len then
      s.core.badLocal (r.toNat % 2 ^ 21) 8 = none → Wrote s t (k.id, 0) (toBytes 8 x) (.loc (r.toNat % 2 ^ 21)) ∧ Left s t c1 k none
    else untouched s t ∧ Onward s t c1 k fun p => p.pos = pos + len ∧ p.acc = x
  (∀ d x w n, k.kind = .cfill d x w n → 0 < w → pos < n → ∀ q : Spot,
    let len := pieceOf (linear48 d) (linear48 d) pos n
    q.serves s xls k.sec true (linear48 d) pos len →
    Moves s k fun t => Wrote s t (k.id, 0) ((List.range len).map fun i => BitVec.ofNat 8 (x.toNat / 256 ^ ((pos + i) % w))) q ∧
      if n ≤ pos + len then Left s t c1 k none else Onward s t c1 k fun r => r.pos = pos + len) ∧
  (∀ r a n (p : Spot), pos < n →
    let len := pieceOf (linear48 a) (linear48 a) pos n
    p.serves s xls k.sec false (linear48 a) pos len →
    (k.kind = .cfp r a n → Moves s k (results r n len
      ((List.range len).foldl (fun (z : Word) i => z ^^^
        (BitVec.ofNat 64 ((p.byte s i).toNat * 2 ^ (8 * ((pos + i) % 8)))).rotateLeft ((pos + i) / 8 % 64)) (BitVec.ofNat 64 k.prog.acc)).toNat)) ∧
    (k.kind = .csum r a n →
      let sum := (k.prog.acc + sumNat ((List.range len).map fun i => (p.byte s i).toNat * 2 ^ (8 * ((pos + i) % 4)))) % 2 ^ 32
      Moves s k (results r n len (if n ≤ pos + len then (sum ^^^ n) % 2 ^ 64 else sum)))) ∧
  (∀ b a n r (p q : Spot), k.kind = .ccmp b a n r → pos < n →
    let len := min 64 (pieceOf (linear48 b) (linear48 a) pos n)
    p.serves s xls k.sec false (linear48 b) pos len →
    q.serves s (p.after xls k.sec (linear48 b) pos) k.sec false (linear48 a) pos len →
    ∃ x, (k.prog.acc ≠ 0 → x = k.prog.acc) ∧ (k.prog.acc = 0 → (∀ i, i < len → p.byte s i = q.byte s i) → x = 0) ∧
      (∀ i, k.prog.acc = 0 → i < len → p.byte s i ≠ q.byte s i → (∀ j, j < i → p.byte s j = q.byte s j) → x = pos + i + 1) ∧
      Moves s k (results r n len x))

/-- CXPOSE reads its source into the buffer, and then writes it, a row for each column of the source (R208, R321). -/
def copyTransposes (s : State) (c1 : Bool) (k : Copy) : Prop :=
  ∀ d a ctl x pa, k.kind = .cxpose d a ctl →
    let w := 2 ^ (ctl.toNat % 4)
    let rows := field ctl.toNat 2 6 + 1
    let cols := field ctl.toNat 8 4 + 1
    let size := rows * cols * w
    let pos := k.prog.pos
    let xls := k.prog.pages.xls
    (pos < size → k.prog.held.length = pos →
      let r := pos / (cols * w)
      let c := pos % (cols * w)
      let va := a.toNat % 2 ^ 48 + r * field ctl.toNat 12 20 + c
      let len := min (cols * w - c) (min 128 (4096 - va % 4096))
      EngineAt s xls k.sec false va len x pa →
      let src := k.prog.held ++ (List.range len).map fun i => rd8 s.store.bytes (pa + i)
      Moves s k fun t => untouched s t ∧ Onward s t c1 k fun p => p.pos = pos + len ∧ p.held.length = pos + len ∧
        (pos + len < size → p.held = src) ∧
        (pos + len = size → ∀ r c b, r < rows → c < cols → b < w →
          p.held.getD ((c * rows + r) * w + b) 0 = src.getD ((r * cols + c) * w + b) 0)) ∧
    (size ≤ pos → pos < 2 * size → k.prog.held.length = size →
      let o := pos - size
      let len := pieceOf (linear48 d) (linear48 d) o size
      EngineAt s xls k.sec true (d.toNat % 2 ^ 48 + o) len x pa →
      Moves s k fun t => Wrote s t (k.id, 0) ((k.prog.held.drop o).take len) (.mem x pa) ∧
        if 2 * size ≤ pos + len then Left s t c1 k none else Onward s t c1 k fun p => p.pos = pos + len ∧ p.held = k.prog.held)

/-- CPYT: `.out` pins and reads its tiles, then writes the elements of its run, packed; `.in` reads them, and then hands one update for each
touched tile to the Pintle (R156, R158, R160, R207, R254). -/
def copyTensors (s : State) (c1 : Bool) (k : Copy) : Prop :=
  let pos := k.prog.pos
  let xls := k.prog.pages.xls
  (∀ d h n, k.kind = .cpytOut d h n → 0 < n → (dEtype h.desc = 8 → n % 2 = 0) →
    let eb := elemBits (dEtype h.desc)
    let size := eb * n / 8
    (pos = 0 → ∀ st tiles, s.readTiles h.desc (tilesOf (runPlaces h n)) = (st, tiles, none) →
      Moves s k fun t => (Onward s t c1 k fun p => p.pos = 1 ∧ p.pins = s.pinsOf h.desc (tilesOf (runPlaces h n)) ∧ p.held.length = size ∧
        ∀ i, i < n → field (ofBytes p.held) (eb * i) eb =
          ((elemIn h.desc tiles (locate h.desc (cursorAt h i))).getD 0).toNat % 2 ^ eb) ∧
        ∀ u ∈ tilesOf (runPlaces h n), t.entryAt (entryOf h.desc u) =
          { s.entryAt (entryOf h.desc u) with pin := (s.entryAt (entryOf h.desc u)).pin + 1 }) ∧
    (0 < pos → pos ≤ size → k.prog.held.length = size →
      let len := pieceOf (linear48 d) (linear48 d) (pos - 1) size
      let bs := (k.prog.held.drop (pos - 1)).take len
      ∀ x pa, EngineAt s xls k.sec true (d.toNat % 2 ^ 48 + (pos - 1)) len x pa →
      Moves s k fun t =>
        (∀ a, (∀ p ∈ k.prog.pins, a < p.entry ∨ p.entry + 16 ≤ a) → rd8 t.store.bytes a =
          if pa ≤ a ∧ a < pa + bs.length ∧ later s (k.id, 0) 0 a = false then bs.getD (a - pa) 0 else rd8 s.store.bytes a) ∧
        if size < pos + len then Left s t c1 k none
        else Wrote s t (k.id, 0) bs (.mem x pa) ∧ Onward s t c1 k fun p => p.pos = pos + len ∧ p.held = k.prog.held ∧ p.pins = k.prog.pins)) ∧
  (∀ h a n x pa, k.kind = .cpytIn h a n → k.prog.pins = [] →
    let eb := elemBits (dEtype h.desc)
    let size := eb * n / 8
    let len := pieceOf (linear48 a) (linear48 a) pos size
    pos < size → k.prog.held.length = pos → EngineAt s xls k.sec false (a.toNat % 2 ^ 48 + pos) len x pa →
    let bs := k.prog.held ++ (List.range len).map fun i => rd8 s.store.bytes (pa + i)
    let elems := groupByTile ((runPlaces h n).zip ((List.range n).map fun i => BitVec.ofNat 32 (field (ofBytes bs) (eb * i) eb)))
    Moves s k fun t =>
      if pos + len < size then untouched s t ∧ Onward s t c1 k fun p => p.pos = pos + len ∧ p.held = bs
      else if elems = [] then untouched s t ∧ Left s t c1 k none
      else ∃ new, t.updates = s.updates ++ new ∧ new.map (fun u => (u.tileNo, u.elems)) = elems ∧
        (∀ u ∈ new, u.core = s.core.id ∧ u.opId = k.id ∧ u.desc = h.desc ∧ u.entry = entryOf h.desc u.tileNo) ∧
        (∀ a, (∀ u ∈ new, a < u.entry ∨ u.entry + 16 ≤ a) → rd8 t.store.bytes a = rd8 s.store.bytes a) ∧
        t.core.mem.sram = s.core.mem.sram ∧ t.core.regs = s.core.regs ∧ ∃ q ∈ (t.core.eng c1).queue, q.id = k.id ∧ q.commits = some (new.map (·.id)))

/-- The bundle that a tag and its words expand to: three bytes for each slot, and eight of header (R61). -/
def bundleOf (tag : Nat) (words : List Byte) : List Byte :=
  let before (i : Nat) : Nat := 3 * ((List.range i).filter tag.testBit).length
  ((List.range 24).map fun j => if tag.testBit (j / 3) then words.getD (before (j / 3) + j % 3) 0 else 0) ++
    (List.range 8).map fun j => if tag.testBit 8 then words.getD (before 8 + j) 0 else 0

/-- The bytes of a tag's words. -/
def wordsOf (tag : Nat) : Nat := 3 * ((List.range 8).filter tag.testBit).length + if tag.testBit 8 then 8 else 0

/-- CXPND checks the header, then expands a bundle in each step, until the stream is done or malformed (R61, R211). -/
def copyExpands (s : State) (c1 : Bool) (k : Copy) : Prop :=
  ∀ d a limit, k.kind = .cxpnd d a limit → k.prog.pins = [] →
    let xls := k.prog.pages.xls
    let src := a.toNat % 2 ^ 48
    let bad (j : Nat) (t : State) : Prop := Left s t c1 k (some ⟨0x42, BitVec.ofNat 48 j⟩)
    (k.prog.pos = 0 → ∀ x pa, EngineAt s xls k.sec false src 16 x pa →
      let h := rdNat s.store.bytes pa 16
      Moves s k fun t => untouched s t ∧
        if field h 0 32 ≠ 0x584E4B42 ∨ limit < field h 32 32 then bad 0 t
        else if 0 < field h 32 32 then Onward s t c1 k fun p => p.pos = 1 ∧ p.held = rdBytes s.store.bytes pa 16 ∧ p.acc = k.prog.acc
        else if field h 64 32 = 0 then Left s t c1 k none else bad 0 t) ∧
    ∀ j, k.prog.pos = j + 1 →
      let h := ofBytes k.prog.held
      let count := field h 32 32
      let len := field h 64 32
      let at_ := k.prog.acc
      field h 0 32 = 0x584E4B42 → count ≤ limit → j < count →
      (len < at_ + 2 → Moves s k fun t => untouched s t ∧ bad j t) ∧
      (at_ + 2 ≤ len → ∀ x pa, EngineAt s xls k.sec false (src + 16 + at_) 2 x pa →
        let tag := rdNat s.store.bytes pa 2
        let used := at_ + 2 + wordsOf tag
        (512 ≤ tag ∨ len < used → Moves s k fun t => untouched s t ∧ bad j t) ∧
        (tag < 512 → used ≤ len → EngineAt s xls k.sec false (src + 16 + at_) (2 + wordsOf tag) x pa → ∀ q : Spot,
          q.serves s (holding xls k.sec (src + 16 + at_) x) k.sec true (linear48 d) (32 * j) 32 →
          Moves s k fun t => Wrote s t (k.id, 0) (bundleOf tag (rdBytes s.store.bytes (pa + 2) (wordsOf tag))) q ∧
            if j + 1 < count then Onward s t c1 k fun p => p.pos = j + 2 ∧ p.held = k.prog.held ∧ p.acc = used
            else if used = len then Left s t c1 k none else bad count t))

/-- CPUSH reads its line at the home, where it leaves no E or M copy, and has it delivered to the cores of its set (R163, R212). -/
def copyPushes (s : State) (c1 : Bool) (k : Copy) : Prop :=
  ∀ a cores x pa, k.kind = .cpush a cores none → k.prog.pins = [] → EngineAt s k.prog.pages.xls k.sec false (a.toNat % 2 ^ 48) 1 x pa →
    Moves s k fun t => untouched s t ∧
      (∀ c ∈ t.cores, ∀ l ∈ c.mem.lines ++ c.mem.stash, l.line = pa / 128 → l.st ≠ .e ∧ l.st ≠ .m) ∧
      (¬(x.coh = 0 ∧ isDevice pa = true ∧ s.hostBiased pa = false) ∨ coreSet cores = [] → t.pushes = s.pushes ∧ Left s t c1 k none) ∧
      (x.coh = 0 → isDevice pa = true → s.hostBiased pa = false → coreSet cores ≠ [] → (∀ c ∈ coreSet cores, s.deadCore c = false) →
        (∃ new, t.pushes = s.pushes ++ new ∧ (∀ p ∈ new, p.src = s.core.id ∧ p.opId = k.id ∧ p.isCopy = true ∧ p.line = pa / 128) ∧
          new.map (·.dst) = coreSet cores) ∧
        t.core.regs = s.core.regs ∧ ∃ q ∈ (t.core.eng c1).queue, q.id = k.id ∧ q.kind = .cpush a cores (some (coreSet cores)))

/-- CPEER reads its bytes, and the core of this device that they are for takes all of them, with the flag bit, or none (R213, R371). -/
def copyToPeer (s : State) (c1 : Bool) (k : Copy) : Prop :=
  ∀ d a n, k.kind = .cpeer d a n → k.prog.pins = [] →
    let off := a.toNat % 2 ^ 21 + k.prog.pos
    (k.prog.pos < n →
      let len := min 128 (n - k.prog.pos)
      s.core.badLocal off len = none → badWordIn s.core off len = none →
      Moves s k fun t => untouched s t ∧ Onward s t c1 k fun p => p.pos = k.prog.pos + len ∧
        p.held = k.prog.held ++ rdBytes s.core.mem.sram off len) ∧
    (n ≤ k.prog.pos → field d.toNat 28 12 = s.plat.devnum.toNat → (∀ c ∈ s.cores, c.stat ≠ .saved) → (s.cores.map (·.id)).Nodup →
      ∀ target : CoreId, target.val = field d.toNat 21 7 → target ∈ s.cores.map (·.id) →
      let c := s.coreAt target
      let x : PeerXfer := ⟨BitVec.ofNat 12 s.plat.devnum.toNat, s.core.id, target, BitVec.ofNat 21 d.toNat, k.prog.held,
        BitVec.ofNat 6 (field d.toNat 40 6)⟩
      (s.deadCore target = true → Moves s k fun t => untouched s t ∧ Left s t c1 k (some ⟨0x2D, 0⟩)) ∧
      (s.deadCore target = false → c.stat = .idle ∨ (∀ g ∈ c.claim.grants, grantTakes c x g = false) →
        Moves s k fun t => untouched s t ∧ (t.coreAt target).mem = c.mem ∧ Left s t c1 k (some ⟨0x43, BitVec.ofNat 48 target.val⟩)) ∧
      ∀ g, s.deadCore target = false → target ≠ s.core.id → c.stat ≠ .idle → c.claim.grants.find? (grantTakes c x) = some g →
        let m := wrBytes c.mem.sram x.off.toNat x.bytes
        Moves s k fun t => untouched s t ∧ Left s t c1 k none ∧ (t.coreAt target).mem = { c.mem with
          sram := wrBytes m g.flag.toNat (toBytes 8 (rdNat m g.flag.toNat 8 ||| 2 ^ x.flag.toNat)) })

/-- An emission's place in the walk, its offset: level r of the order of the ranks, with the bound b_r, has the index that the number gives
in the mixed radix of the bounds, rank 0 fastest (R209, R320). -/
def walkOffset (o : Fin 6 → NestLevel) (stride : NestLevel → BitVec 32) (m : Nat) : Int :=
  let bound (r : Fin 6) : Nat := max 1 (o r).bound.toNat
  let below (r : Nat) : Nat := prodOf (((List.finRange 6).filter fun q => q.val < r).map bound)
  ((List.finRange 6).map fun r => ((m / below r.val % bound r : Nat) : Int) * (stride (o r)).toInt).sum

/-- CRUN emits the copies of its nest in the order of its walk, each from its own addresses, and moves them piece by piece; once the last
is done the run is (R209, R318, R320). -/
def copyRuns (s : State) (c1 : Bool) (k : Copy) : Prop :=
  ∀ kind d a n nest, k.kind = .crun kind d a n nest → k.prog.pins = [] → 0 < n →
    let total := prodOf (nest.toList.map fun l => max 1 l.bound.toNat)
    let side (isLocal : Bool) (e : Word) : Side := if isLocal then .loc (e.toNat % 2 ^ 21) else linear48 e
    let formed (isLocal : Bool) (e : Word) : Prop := if isLocal then field e.toNat 21 39 = 0 else field e.toNat 48 12 = 0
    (∀ (o : Fin 6 → NestLevel) m (p q : Spot), (nest.toList.map (·.rank)).Nodup → (∀ r, o r ∈ nest.toList ∧ (o r).rank.toNat = r.val) →
      k.prog.subs = [] → k.prog.emit = m → m + 1 = total → s.engineLoad c1 ≤ 8 →
      let ae := a + BitVec.ofInt 64 (walkOffset o (·.sstr) m)
      let de := d + BitVec.ofInt 64 (walkOffset o (·.dstr) m)
      let src := side (kind == 2) ae
      let dst := side (kind == 1) de
      let len := pieceOf src dst 0 n
      formed (kind == 2) ae → formed (kind == 1) de → p.serves s [] k.sec false src 0 len → q.serves s (p.after [] k.sec src 0) k.sec true dst 0 len →
      Moves s k fun t => Wrote s t (k.id, m) ((List.range len).map (p.byte s)) q ∧
        if n ≤ len then Left s t c1 k none
        else Onward s t c1 k fun r => r.emit = total ∧ ∃ u, r.subs = [u] ∧ u.dst = dst ∧ u.src = src ∧ u.n = n ∧ u.pos = len ∧ u.no = m) ∧
    ∀ (u : SubCopy) (p q : Spot), k.prog.subs = [u] → nestTotal nest ≤ k.prog.emit → u.pos < u.n → u.flag = none →
      let len := pieceOf u.src u.dst u.pos u.n
      p.serves s u.pages.xls k.sec false u.src u.pos len → q.serves s (p.after u.pages.xls k.sec u.src u.pos) k.sec true u.dst u.pos len →
      Moves s k fun t => Wrote s t (k.id, u.no) ((List.range len).map (p.byte s)) q ∧
        if u.n ≤ u.pos + len then Left s t c1 k none
        else Onward s t c1 k fun r => r.emit = k.prog.emit ∧ ∃ v, r.subs = [v] ∧ v.dst = u.dst ∧ v.src = u.src ∧ v.n = u.n ∧
          v.pos = u.pos + len ∧ v.no = u.no

/-- CDISP reads its record; a choice within the capacity adds one to its expert's counter, and its row goes to the slot that the counter
gave; any other adds one to the residual counter, and its row goes there with its flag word; rows and flag words are written piece by piece
(R214, R215, R328). -/
def copyDispatches (s : State) (c1 : Bool) (k : Copy) : Prop :=
  ∀ a, k.kind = .cdisp a → k.prog.pins = [] →
    let xls := k.prog.pages.xls
    (k.prog.pos = 0 → k.prog.subs = [] → k.prog.emit = 0 → ∀ x pa, EngineAt s xls k.sec false (a.toNat % 2 ^ 48) 64 x pa →
      let r := DispRec.ofNat (rdNat s.store.bytes pa 64)
      Moves s k fun t => untouched s t ∧
        if r.ok = false then Left s t c1 k (some ⟨0x26, 0⟩)
        else if r.ntok * r.ksel = 0 then Left s t c1 k none
        else Onward s t c1 k fun p => p.pos = 1 ∧ p.held = rdBytes s.store.bytes pa 64) ∧
    (∀ i, k.prog.pos = i + 1 →
      let r := (DispRec.ofNat (ofBytes k.prog.held)).plain
      let tok := i / r.ksel
      let cho := i % r.ksel
      let row := r.src + tok * r.rowb
      i < r.ntok * r.ksel → 0 < r.ksel → 0 < r.rowb → k.prog.subs = [] → k.prog.emit = 0 → s.engineLoad c1 ≤ 8 →
      ∀ x pe, EngineAt s xls k.sec false (r.eidx + 2 * i) 2 x pe →
      let e := rdNat s.store.bytes pe 2
      let h1 := holding xls k.sec (r.eidx + 2 * i) x
      (e = 0xFFFF → Moves s k fun t => untouched s t ∧
        if i + 1 < r.ntok * r.ksel then Onward s t c1 k fun p => p.pos = i + 2 ∧ p.subs = [] else Left s t c1 k none) ∧
      (e ≠ 0xFFFF → ∀ y, row % 4096 + r.rowb ≤ 4096 → row < 2 ^ 48 → ihOffset row = none → Finds s h1 k.sec false row y →
        let h2 := holding h1 k.sec row y
        let starts (dst : Nat) (flag : Option (Nat × Nat)) (t : State) : Prop := Onward s t c1 k fun p => p.pos = i + 2 ∧
          ∃ u, p.subs = [u] ∧ u.dst = .lin dst ∧ u.src = .lin row ∧ u.n = r.rowb ∧ u.pos = 0 ∧ u.flag = flag
        let residual (n : Nat) (t : State) : Prop := starts (r.res + n * (r.rowb + 64))
          (some (r.res + n * (r.rowb + 64) + r.rowb, tok + e * 2 ^ 32 + cho * 2 ^ 48)) t
        (r.nexp ≤ e → ∀ z pr, EngineAt s h2 k.sec true r.rcnt 4 z pr → pr % 128 + 4 ≤ 128 →
          Moves s k fun t => residual (rdNat s.store.bytes pr 4) t ∧ sameBut s t pr 4 ∧
            rdNat t.store.bytes pr 4 = (rdNat s.store.bytes pr 4 + 1) % 2 ^ 32) ∧
        (e < r.nexp → ∀ z pc, EngineAt s h2 k.sec true (r.cnt + 4 * e) 4 z pc → pc % 128 + 4 ≤ 128 →
          let slot := rdNat s.store.bytes pc 4
          let h3 := holding h2 k.sec (r.cnt + 4 * e) z
          (slot < r.cap → ∀ w pb, EngineAt s h3 k.sec false (r.buft + 8 * e) 8 w pb → pb + 8 ≤ pc ∨ pc + 4 ≤ pb →
            let base := rdNat s.store.bytes pb 8
            field base 48 12 = 0 → Moves s k fun t => starts (base % 2 ^ 48 + slot * r.rowb) none t ∧ sameBut s t pc 4 ∧
              rdNat t.store.bytes pc 4 = (slot + 1) % 2 ^ 32) ∧
          (r.cap ≤ slot → ∀ w pr, EngineAt s h3 k.sec true r.rcnt 4 w pr → pr % 128 + 4 ≤ 128 → pr + 4 ≤ pc ∨ pc + 4 ≤ pr →
            Moves s k fun t => residual (rdNat s.store.bytes pr 4) t ∧ rdNat t.store.bytes pc 4 = (slot + 1) % 2 ^ 32 ∧
              rdNat t.store.bytes pr 4 = (rdNat s.store.bytes pr 4 + 1) % 2 ^ 32 ∧
              ∀ b, (b < pc ∨ pc + 4 ≤ b) → (b < pr ∨ pr + 4 ≤ b) → rd8 t.store.bytes b = rd8 s.store.bytes b)))) ∧
    ∀ u : SubCopy, k.prog.subs = [u] → (DispRec.ofNat (ofBytes k.prog.held)).plain.total < k.prog.pos →
      (u.pos < u.n → ∀ p q : Spot,
        let len := pieceOf u.src u.dst u.pos u.n
        p.serves s xls k.sec false u.src u.pos len → q.serves s (p.after xls k.sec u.src u.pos) k.sec true u.dst u.pos len →
        Moves s k fun t => Wrote s t (k.id, u.no) ((List.range len).map (p.byte s)) q ∧
          if u.n ≤ u.pos + len ∧ u.flag = none then Left s t c1 k none
          else Onward s t c1 k fun r => ∃ v, r.subs = [v] ∧ v.dst = u.dst ∧ v.src = u.src ∧ v.n = u.n ∧ v.pos = u.pos + len ∧
            v.flag = u.flag) ∧
      (u.n ≤ u.pos → ∀ f v, u.flag = some (f, v) → ∀ x pa, EngineAt s xls k.sec true f 8 x pa →
        Moves s k fun t => Wrote s t (k.id, u.no) (toBytes 8 v) (.mem x pa) ∧ Left s t c1 k none)

/-- R203, R205 to R217, R317, R318, R320 to R323, R328: the oldest copy that waits starts; a copy in progress moves its next piece, whatever
its kind, and its token falls with the last; one whose next page faults ends in error, and what it has written stays; a stamp writes its
count with its poison bit; and a batch retires into the accumulated status. -/
def Obligations.CopyEngineSteps : Prop :=
  ∀ (s : State) (c1 : Bool), Memory.wf s.store.bytes = true →
    (∀ k, startableCopy s c1 = some k → k ∈ (s.core.eng c1).queue →
      ∃ t, exec (.copyStart c1) s = .next t ∧ { k with started := true } ∈ (t.core.eng c1).queue ∧
        (∀ q ∈ (s.core.eng c1).queue, q.started = false → k.id ≤ q.id) ∧ t.core.regs = s.core.regs ∧ t.store = s.store) ∧
    (∀ k, Works s c1 k →
      (k.prog.pins = [] → copyMoves s c1 k ∧ copyComputes s c1 k ∧ copyTransposes s c1 k) ∧ copyTensors s c1 k ∧ copyExpands s c1 k ∧
      copyPushes s c1 k ∧ copyToPeer s c1 k ∧ copyRuns s c1 k ∧ copyDispatches s c1 k) ∧
    (∀ k d a n code, Goes s c1 k → k.kind = .cpyl false d a n false → k.commits = none → k.err = none → k.prog.pos < n →
      k.prog.owed = [] → k.prog.pins = [] → k.frozen s = false → dirtyLines s.core = [] →
      let va := a.toNat % 2 ^ 48 + k.prog.pos
      va < 2 ^ 48 → ihOffset va = none → findXl k.prog.pages.xls k.sec va = none → s.probe k.sec false va = .fault code →
      ∃ t, exec (.copyComplete k.id) s = .next t ∧ Left s t c1 k (some ⟨code, BitVec.ofNat 48 va⟩) ∧ t.store.bytes = s.store.bytes ∧
        t.core.mem.sram = s.core.mem.sram ∧ t.core.regs.s = s.core.regs.s) ∧
    (∀ k d n covers x pa, Goes s c1 k → k.kind = .cstamp d n covers → k.commits = none → dirtyLines s.core = [] → s.core.stat ≠ .saved →
      EngineAt s [] k.sec true (d.toNat % 2 ^ 48) 8 x pa → pa % 128 + 8 ≤ 128 → (∀ r ∈ s.store.scopes, r.line ≠ pa / 128) →
      ∃ t, exec (.stampWrite k.id) s = .next t ∧ Left s t c1 k none ∧ Wrote s t (k.id, 0)
        (toBytes 8 (2 * n.toNat + if covers.any fun i => (s.core.eng c1).failed.contains i then 1 else 0)) (.mem x pa)) ∧
    ∀ b l, (s.core.eng c1).closed = b :: l → b.pend = [] →
      ∃ t, exec (.batchRetire c1) s = .next t ∧ (t.core.eng c1).closed = l ∧ (t.core.eng c1).retired = b.ids ++ (s.core.eng c1).retired ∧
        (t.core.eng c1).acc.poison = ((s.core.eng c1).acc.poison || b.st.poison) ∧
        (t.core.eng c1).acc.err = (match (s.core.eng c1).acc.err with
          | some e => some e
          | none => b.st.err) ∧ t.core.regs = s.core.regs

/-- R162 to R164, R276, R277: a delivery to a core that holds the line changes nothing there, one over its quota,
or to its stash window, is refused and counted (to the stash window also where the core holds the line, log L72), and one that finds a way
gives the line in the state SP. -/
def Obligations.PushDeliveries : Prop :=
  ∀ (s : State) (p : Push), s.pushes.find? (fun q => q.id == p.id) = some p → pushDue s p = true → p.dst = s.core.id →
    s.core.stat ≠ .saved → s.deadCore p.dst = false →
    ∃ t, exec (.pushDelivery p.id) s = .next t ∧ (∀ q ∈ t.pushes, q.id ≠ p.id) ∧ t.core.regs = s.core.regs ∧
      let c := s.core
      let refusedOnce := if c.csr.refused = BitVec.allOnes 32 then c.csr.refused else c.csr.refused + 1
      (s.inStash p.line = false → holdsLine p.line c = true → t.core.mem = c.mem ∧ t.core.csr = c.csr) ∧
      ((s.inStash p.line = true ∨ holdsLine p.line c = false ∧ c.csr.quota.toNat ≤ c.csr.inuse.toNat) →
        t.core.mem = c.mem ∧ t.core.csr = { c.csr with refused := refusedOnce }) ∧
      (holdsLine p.line c = false → c.csr.inuse.toNat < c.csr.quota.toNat → s.inStash p.line = false →
        (fillBank c p.line (fun l => l.st == .s || l.st == .e) = none → t.core.csr.refused = refusedOnce) ∧
        ∀ b v, fillBank c p.line (fun l => l.st == .s || l.st == .e) = some (b, v) →
          ⟨p.line, Fin.ofNat 32 b, cacheSet p.line, .sp⟩ ∈ t.core.mem.lines ∧ t.core.csr.refused = c.csr.refused)

/-- R242, R252, R257, R259: the Pintle commits the update in turn: its entry has the next VER, PIN 0, PSN 0, and WLK only if another
update waits; a tile that is poisoned keeps its entry; where the pool has no run the tile keeps its version. -/
def Obligations.PintleCommits : Prop :=
  ∀ (s : State) (u : Update) (e : Entry) (dpa : Nat), Memory.wf s.store.bytes = true → s.updateAt u.entry = some u → s.commitDue u = true →
    u.entry = entryOf u.desc u.tileNo → s.tensorErr u.desc u.entry 16 = none → s.poisoned u.entry 16 = false → e = s.entryAt u.entry →
    u.descPa = .inr dpa →
    let waits := !s.entgoWaits u.entry && s.updates.any fun v => v.entry == u.entry && v.id != u.id
    let c := contents u.desc u.tileNo (mergeElems (s.frameElems u.desc u.tileNo e) u.elems)
    let w := rdNat s.store.bytes dpa 8
    let sz (t : Nat) : Nat := sizeUnder t (elemBits (dEtype u.desc)) c.1 c.2
    let tag := decideTag (field w 24 4) (field w 28 4) (bit w 32) e.tag sz
    ∃ t, exec (.pintleCommit u.entry) s = .next t ∧ (∀ v ∈ t.updates, v.id ≠ u.id) ∧
      (e.psn = true → t.entryAt u.entry = { e with wlk := waits }) ∧
      (e.psn = false → (e.size = 0 ∨ s.tensorErr u.desc (64 * e.gaddr) (64 * e.size) = none ∧ s.poisoned (64 * e.gaddr) (64 * e.size) = false) →
        (sz tag = 0 → t.entryAt u.entry = ⟨0, 0, (e.ver + 1) % 256, tag % 4, false, waits, 0, (nonZeros c.2).length % 2048⟩) ∧
        (0 < sz tag → sz tag < 256 → ∀ a, allocFrame (vat s.md (dHome u.desc)) s.draws (sz tag) = some a → a < 2 ^ 48 →
          t.entryAt u.entry = ⟨a / 64, sz tag, (e.ver + 1) % 256, tag % 4, false, waits, 0, (nonZeros c.2).length % 2048⟩) ∧
        (0 < sz tag → allocFrame (vat s.md (dHome u.desc)) s.draws (sz tag) = none →
          t.entryAt u.entry = { e with wlk := waits } ∧ ∀ a, a < u.entry ∨ u.entry + 16 ≤ a → rd8 t.store.bytes a = rd8 s.store.bytes a))

/-- R219, R220: a barrier's update in a clock whose messages are arrivals: the sum is capped by the quorum, and once it meets the quorum
with the expected bytes written the generation completes. -/
def Obligations.BarrierUpdates : Prop :=
  ∀ (s : State) (b : BarAddr) (n : Nat), Memory.wf s.core.mem.sram = true → s.barDue b = true → s.barHome b = some .live →
    s.core.id = b.core → s.core.stat ≠ .saved → s.deadCore b.core = false → (∀ c ∈ s.before ++ s.after, c.id ≠ b.core) →
    (∀ p ∈ duePosts s b, ∃ k, p.msg = .arrive k) →
    n = rdNat s.core.mem.sram b.off.toNat 16 →
    let sum := field n 0 16 + sumNat ((duePosts s b).map fun p => p.msg.arrivals)
    let q := field n 16 16
    ∃ t, exec (.barrierUpdate b.core b.off) s = .next t ∧ (∀ p ∈ duePosts s b, p ∉ t.posts) ∧
      (∀ a, a < b.off.toNat ∨ b.off.toNat + 16 ≤ a → rd8 t.core.mem.sram a = rd8 s.core.mem.sram a) ∧
      let m := rdNat t.core.mem.sram b.off.toNat 16
      field m 16 16 = q ∧ field m 42 1 = (if q < sum then 1 else field n 42 1) ∧
      (if q ≤ sum ∧ field n 96 32 = field n 64 32 then
        field m 0 16 = 0 ∧ field m 32 8 = (field n 32 8 + 1) % 256 ∧ field m 40 1 = 0 ∧ field m 41 1 = field n 40 1 ∧
          field m 64 32 = 0 ∧ field m 96 32 = 0
      else field m 0 16 = min sum q ∧ field m 32 8 = field n 32 8 ∧ field m 40 1 = field n 40 1 ∧ field m 41 1 = field n 41 1 ∧
        field m 64 32 = field n 64 32 ∧ field m 96 32 = field n 96 32)

/-! ### Device steps: the schedulers -/

/-- The bundles that the body of a packed stream gives, n of them and nothing after them (R63, R211). -/
def unpack : Nat → List Byte → Option (List Byte)
  | 0, bs => if bs = [] then some [] else none
  | n + 1, bs =>
    let tag := ofBytes (bs.take 2)
    if bs.length < 2 ∨ 512 ≤ tag ∨ bs.length < 2 + wordsOf tag then none
    else (unpack n (bs.drop (2 + wordsOf tag))).map (bundleOf tag ((bs.drop 2).take (wordsOf tag)) ++ ·)

/-- The bundles of a whole stream: its header, of the number of its bundles, the length of its body and its checksum, agrees with the
body (R63, R211, R296). -/
def stream (h : Nat) (body : List Byte) : Option (List Byte) :=
  if field h 0 32 = 0x584E4B42 ∧ field h 32 32 ≤ 2048 ∧ csumOf body % 2 ^ 32 = field h 96 32 then unpack (field h 32 32) body else none

/-- n bytes of memory that an engine may read from a linear address on, byte i under translation i: those of one line under one, and no
translation reaching into another's bytes. -/
def StreamAt (s : State) (sec : Bool) (va n : Nat) (xl : Nat → Xl) : Prop :=
  ∀ i, i < n → va + i < 2 ^ 48 ∧ ihOffset (va + i) = none ∧ s.probe sec false (va + i) = .ok (xl i) ∧ (xl i).coh ≠ 1 ∧
    Good s ((xl i).paOf (va + i)) ∧ (xl i).paOf (va + i) % 128 = (va + i) % 128 ∧
    (∀ j, j < n → (xl i).va ≤ va + j → va + j < (xl i).va + (xl i).size → xl j = xl i) ∧
    (i + 1 < n → (va + i + 1) % 128 ≠ 0 → xl (i + 1) = xl i)

/-- The registers and claims of a first placement. -/
def firstPlaced (s n : State) (t : Task) : Prop :=
  let r := t.record
  n.core.task = some t.id ∧ n.core.pc = BitVec.ofNat 48 r.entry.toNat ∧ n.core.readyAt = s.clock + 1 ∧
  (∀ i : Fin 16, n.core.regs.s.get i = if 1 ≤ i.val ∧ i.val ≤ 8 then [r.args.getD (i.val - 1) 0] else []) ∧
  (∀ i : Fin 16, n.core.regs.v.get i = [] ∧ n.core.regs.a.get i = (if i = 1 then r.addr else 0) ∧ n.core.regs.h.get i = none) ∧
  (∀ k : Tok, n.core.regs.k.get k = ⟨0, none⟩) ∧ (∀ p : PReg, n.core.regs.p.get p = 0) ∧
  n.core.csr.quota = BitVec.ofNat 10 r.quota.toNat ∧ n.core.csr.wdwin = r.wdog ∧ n.core.csr.domn = r.domn ∧
  n.core.csr.sec = r.sec ∧ n.core.csr.task = r.task ∧ n.core.csr.launch = t.lid ∧ n.core.csr.prio = t.prio ∧ n.core.csr.qmode = 0 ∧
  (∀ b, b < 32 → n.core.role b = if bit r.banks.toNat b then field r.roles.toNat (2 * b) 2 else 0) ∧
  n.core.claim.banks = r.banks ∧ n.core.claim.rows = r.rows ∧ n.core.claim.ilo = r.ilo ∧ n.core.claim.ihi = r.ihi ∧
  n.core.mem.sram = []

/-- A replay entry of a context area. -/
def savedReplay (s : State) (g : Core) (i : Nat) : Replay :=
  ⟨s.readWord g (0x580 + 8 * i) &&& 0x3FFFF, vregOf (s.readPart g (0x4800 + 256 * i) 256), s.readWord g (0x640 + 8 * i), 0⟩

/-- R63, R211, R295 to R298, R305, R311, R345: a ready task takes a free core.  At its first placement it begins at ENTRY in the next clock,
with ARGS in s1 to s8 and the record's address in a1, everything else of the registers as before a first placement, and the claims and
control registers of its record; the stream at IPRE, on however many lines and pages, fills the half of ENTRY, and a malformed one, or one
whose checksum differs, ends the task in error; one on a page that is changing its bias is waited for (R286).  A task with a saved context resumes at its address,
as RFT does, with the registers that its context area holds. -/
def Obligations.Placements : Prop :=
  ∀ (s : State) (t : Task), s.core.stat = .idle → s.sched.task t.id = some t → t.st = .ready → eligible s.sched t s.core.id = true →
    s.deadCore s.core.id = false → s.contextReadable t = true →
    let r := t.record
    let placed (n : State) : Prop := exec (.taskPlacement t.id s.core.id) s = .next n ∧
      poolTask n t.id fun u => u.st = .running s.core.id ∧ u.home = some s.core.id ∧ u.ctx = none
    (t.ctx = none → r.ipre = 0 → ∃ n, placed n ∧ firstPlaced s n t ∧ n.core.stat = .running) ∧
    (∀ xl : Nat → Xl, t.ctx = none → r.ipre ≠ 0 → dirtyLines s.core = [] →
      let bytes (o n : Nat) : List Byte := (List.range n).map fun i => rd8 s.store.bytes ((xl (o + i)).paOf (r.ipre.toNat + (o + i)))
      let h := ofBytes (bytes 0 16)
      let body := bytes 16 (field h 64 32)
      let off := if r.entryHalf = some true then 65536 else 0
      StreamAt s r.sec r.ipre.toNat (16 + field h 64 32) xl →
      ∃ n, placed n ∧ firstPlaced s n t ∧ match stream h body with
        | some bs => (if r.entryHalf = some true then r.ihi else r.ilo) = true → n.core.stat = .running ∧
            rdBytes n.core.mem.ih off bs.length = bs ∧ ∀ l ∈ linesOf off bs.length, l ∈ n.core.mem.ihClean
        | none => n.core.stat = .leaving (.inError ⟨0x53, 0⟩)) ∧
    (∀ x, t.ctx = none → r.ipre ≠ 0 → r.ipre.toNat < 2 ^ 48 → ihOffset r.ipre.toNat = none → s.probe r.sec false r.ipre.toNat = .ok x →
      s.biasChanging (x.paOf r.ipre.toNat) = true → ∃ n, placed n ∧ firstPlaced s n t ∧ n.core.stat = .loading) ∧
    ∀ g, t.ctx = some g → dirtyLines s.core = [] →
      let w (off : Nat) : Word := s.readWord g off
      let q := w 0x028 &&& 0x0000FFFEFFFFFFFC
      let pc := BitVec.ofNat 48 ((w 0x000).toNat / 32 * 32)
      (q = 0 ∨ ∀ i, i < 24 → (savedReplay s g i).word.toNat % 2 = 0) →
      ∃ n, placed n ∧ n.core.stat = .running ∧ n.core.pc = pc ∧ n.core.readyAt = s.clock + 1 ∧
        n.core.inHandler = bit (w 0x080).toNat 1 ∧ n.core.mem.activeHi = bit (w 0x080).toNat 0 ∧
        (∀ i : Fin 16, n.core.regs.a.get i = w (0x300 + 8 * i.val)) ∧ (∀ p : PReg, n.core.regs.p.get p = w (0x380 + 8 * p.val)) ∧
        (∀ i : Fin 16, n.core.regs.s.get i = entriesOf (sQueue q i) (ofBytes (s.readPart g (0x3E0 + i.val) 1)) (sDepth q i.val)
          ((List.range 4).map fun j => w (0x100 + 32 * i.val + 8 * j))) ∧
        n.core.csr.qmode = q ∧ n.core.csr.trapvec = (w 0x018 &&& 0x0000FFFFFFFFFFE1) ∧ n.core.csr.bankrole = w 0x038 ∧
        n.core.csr.fevlog = (w 0x050 &&& 0x0007FFFFFFFFFFE7) ∧ n.core.csr.wdwin = BitVec.ofNat 32 (w 0x058).toNat ∧
        n.core.csr.domn = BitVec.ofNat 40 (w 0x068).toNat ∧ n.core.csr.sec = bit (w 0x070).toNat 0 ∧
        n.core.claim.banks = g.claim.banks ∧ n.core.claim.rows = g.claim.rows ∧
        n.core.flights = g.flights ++ (List.range 24).filterMap fun i => fromReplay (savedReplay s g i) s.clock pc

/-- R125, R299, R306 to R308, R343: parking and pre-emption, their decision and their save; a decision freezes the core at the boundary after
the clock, and the records of what it freezes land at their own clocks (the model's choice, L19); a save gives the core up and keeps the
registers with the task, in the pool. -/
def Obligations.ParkingAndPreemption : Prop :=
  ∀ (s : State),
    let decides (i : Instr) (why : Leave) : Prop := ∃ n, exec i s = .next n ∧ n.core.stat = .leaving why ∧ n.core.pc = s.core.pc ∧
      n.core.issued = true ∧ (∀ f ∈ n.core.flights, f.record = true) ∧ n.core.regs = s.core.regs ∧ n.store = s.store ∧ n.sched = s.sched
    let saves (i : Instr) (t : Task) (st : TState) : Prop := ∃ n g, exec i s = .next n ∧ n.core.stat = .idle ∧ n.core.task = none ∧
      g.regs = s.core.regs ∧ g.claim = s.core.claim ∧ g.csr.trappc.toNat = s.core.pc.toNat / 32 * 32 ∧
      poolTask n t.id fun u => (u.st = st ∨ u.st = .halted) ∧ u.home = some s.core.id ∧ u.ctx = some g
    (∀ t, s.parkFor = some t → decides .parking (.park t.id)) ∧
    (∀ t id, s.core.stat = .leaving (.park id) → saveReady s.core = true → s.taskOf s.core = some t → saves .parking t .parked) ∧
    (∀ id t, s.core.task = some id → s.preemptFor = some t → decides (.preemption id) (.preempt t.id)) ∧
    ∀ t, ((∃ id, s.core.stat = .leaving (.preempt id)) ∨ s.core.stat = .leaving .yield) → saveReady s.core = true → s.taskOf s.core = some t →
      saves (.preemption t.id) t .ready

/-- R121, R124, R130, R296, R300, R314, R315, R338: the end of a task that has exited, with everything it issued done, or that ended in
error; a halt, its freeze and its save; and the watchdog, which runs on while the task waits to exit (that the trap of an
expiry while a task leaves its core is taken at its next bundle boundary is the model's choice, L78). -/
def Obligations.TaskEndings : Prop :=
  ∀ (s : State) (t : Task), s.taskOf s.core = some t →
    (s.core.stat = .leaving .exit → s.exitReady = true → (∀ k : Tok, (s.core.regs.k.get k).err = none) → s.core.mx.err = none →
      ∃ n, exec .taskEnd s = .next n ∧ n.core.stat = .idle ∧ n.core.task = none ∧ (∀ u ∈ n.sched.tasks, u.id ≠ t.id) ∧
        (∀ u ∈ s.sched.tasks, u.id ≠ t.id → u ∈ n.sched.tasks) ∧ n.host.evseq = s.host.evseq ∧ n.sched.launches = s.sched.launches) ∧
    (∀ e, s.core.stat = .leaving (.inError e) → ∃ n, exec .taskEnd s = .next n ∧ n.core.stat = .idle ∧
      (∀ u ∈ n.sched.tasks, u.id ≠ t.id) ∧ n.host.evseq = s.host.evseq + 1 ∧
      n.sched.launches = s.sched.launches.map fun l => if l.lid == t.lid then { l with errs := l.errs + 1 } else l) ∧
    (∀ code d, s.core.stat = .leaving (.halt code d) → haltReady s.core code = true → ∃ n, exec .taskHalted s = .next n ∧
      n.core.stat = .leaving (.haltSave code d) ∧ n.core.regs = s.core.regs ∧ n.core.pc = s.core.pc ∧ n.store = s.store) ∧
    (∀ code d, s.core.stat = .leaving (.haltSave code d) → saveReady s.core = true → ∃ n, exec .taskHalted s = .next n ∧
      n.core.stat = .idle ∧ n.host.evseq = s.host.evseq + 1 ∧
      poolTask n t.id fun u => u.st = .halted ∧ u.home = some s.core.id ∧ ∃ g, u.ctx = some g ∧ g.regs = s.core.regs) ∧
    (s.core.stat = .leaving .exit → s.core.csr.wdwin ≠ 0 → s.core.csr.wdwin.toNat ≤ s.core.wdcount →
      ∃ n, exec .watchdogExpiry s = .next n ∧ n.core.wdcount = 0 ∧ n.core.regs = s.core.regs ∧ n.core.pc = s.core.pc ∧
        (s.core.csr.wdfired = true ∨ s.core.csr.trapvec.toNat % 2 = 0 → n.core.stat = .leaving (.halt 0x02 0)) ∧
        (s.core.csr.wdfired = false → s.core.csr.trapvec.toNat % 2 = 1 → n.core.csr.wdfired = true ∧ n.core.stat = .leaving .exit ∧
          (s.core.inHandler = false → n.core.alarm = true))) ∧
    (watchdogDue s.core = false → s.core.alarm = true → s.core.stat = .running → s.core.inHandler = false →
      s.core.csr.trapvec.toNat % 2 = 1 → ∃ n, exec .watchdogExpiry s = .next n ∧ n.core.alarm = false ∧ n.core.inHandler = true ∧
        n.core.regs = s.core.regs ∧ n.core.csr.trapcause = 2 ∧ n.core.csr.trappc.toNat = s.core.pc.toNat / 32 * 32 ∧
        n.core.pc = BitVec.ofNat 48 (s.core.csr.trapvec.toNat / 32 * 32)) ∧
    (s.core.stat = .running → s.core.csr.wdwin ≠ 0 → s.core.csr.wdwin.toNat ≤ s.core.wdcount →
      let en := decide (s.core.csr.trapvec.toNat % 2 = 1)
      (s.core.csr.wdfired = true ∨ en = false → ∃ n, exec .watchdogExpiry s = .next n ∧ n.core.stat = .leaving (.halt 0x02 0) ∧
        n.core.wdcount = 0 ∧ n.core.regs = s.core.regs) ∧
      (s.core.csr.wdfired = false → en = true → ∃ n, exec .watchdogExpiry s = .next n ∧ n.core.csr.wdfired = true ∧ n.core.wdcount = 0 ∧
        n.core.inHandler = true ∧ n.core.regs = s.core.regs ∧
        (s.core.inHandler = true → n.core.pc = s.core.pc ∧ n.core.csr.trapcause = s.core.csr.trapcause) ∧
        (s.core.inHandler = false → n.core.csr.trapcause = 2 ∧ n.core.csr.trappc.toNat = s.core.pc.toNat / 32 * 32 ∧
          n.core.pc = BitVec.ofNat 48 (s.core.csr.trapvec.toNat / 32 * 32))))

/-- R299, R300, R306, R308, R312, R313, R325: what changes a task's state in its pool, and the completion of a superstep. -/
def Obligations.TaskStates : Prop :=
  ∀ (s : State),
    (∀ t, s.sched.task t.id = some t →
      let becomes (i : Instr) (f : Task → Task) : Prop := exec i s = .next { s with sched := { s.sched with
        tasks := s.sched.tasks.map fun u => if u.id == t.id then f u else u } }
      (s.dependenceHolds t = true → becomes (.dependenceSatisfied t.id) fun u => { u with st := .ready, since := s.clock, promo := s.clock }) ∧
      (s.parkedReady t = true → becomes (.parkedTaskReady t.id) fun u => { u with st := .ready, since := s.clock, promo := s.clock }) ∧
      (t.st = .halted → becomes (.taskResume t.id) fun u =>
        { u with st := .ready, since := s.clock, promo := s.clock, prio := BitVec.ofNat 2 u.record.flags.toNat, aged := false }) ∧
      (t.st = .ready → t.aged = false → t.promo + 16384 * 1050 ≤ s.clock → becomes (.priorityPromotion t.id) fun u =>
        if u.prio = 3 then { u with aged := true } else { u with prio := u.prio + 1, promo := s.clock }) ∧
      ((t.st = .halted ∨ t.st = .dependent ∨ t.st = .ready ∨ t.st = .parked) → ∃ n, exec (.taskDiscard t.id) s = .next n ∧
        n.sched.launches = s.sched.launches.map (fun l => if l.lid == t.lid then { l with errs := l.errs + 1 } else l) ∧
        n.core.regs = s.core.regs ∧
        (∀ u ∈ n.sched.tasks, u.id = t.id → u.st = .discarded) ∧ (∀ u ∈ s.sched.tasks, u.id ≠ t.id → u ∈ n.sched.tasks) ∧
        (t.record.doneAddr = 0 → n.store = s.store))) ∧
    ∀ k i, s.sched.insts[k]? = some i → s.superstepDue i = true → ∃ n, exec (.superstepComplete k) s = .next n ∧
      (∀ u, u ∈ s.sched.tasks → u.inPool = true → u.keys.contains i.key = true → s.core.task = some u.id → s.taskOf s.core = some u →
        (arrivedAt i.key.level s.core = true → n.core.released = true) ∧
        (s.core.kept = some (i.key.level, false) → n.core.kept = some (i.key.level, true))) ∧
      (∀ j ∈ n.sched.insts, j.key = i.key → j.remote = 0) ∧ n.core.regs = s.core.regs ∧ n.store = s.store

/-- Every step keeps the canonical form of the local memories, the instruction scratchpads and the accumulator stores. -/
def Obligations.StepKeepsLocalForm : Prop :=
  ∀ (s t : State), (∀ c ∈ everyContext s, LocalForm c) → step s = .next t → ∀ c ∈ everyContext t, LocalForm c
end

