-- ==== Sys2Proof/Laws/State.lean ====
section
/-! SUPPORT. What the updates of the state leave alone and what they change: one lemma per field per update, true by
unfolding, so that no later proof unfolds a record update. -/

namespace Sys2Proof.Machine

/-! ### A change of the core in focus -/

@[simp] theorem State.onCore_clock (s : State) (f : Core → Core) : (s.onCore f).clock = s.clock := rfl
@[simp] theorem State.onCore_before (s : State) (f : Core → Core) : (s.onCore f).before = s.before := rfl
@[simp] theorem State.onCore_core (s : State) (f : Core → Core) : (s.onCore f).core = f s.core := rfl
@[simp] theorem State.onCore_after (s : State) (f : Core → Core) : (s.onCore f).after = s.after := rfl
@[simp] theorem State.onCore_store (s : State) (f : Core → Core) : (s.onCore f).store = s.store := rfl
@[simp] theorem State.onCore_md (s : State) (f : Core → Core) : (s.onCore f).md = s.md := rfl
@[simp] theorem State.onCore_updates (s : State) (f : Core → Core) : (s.onCore f).updates = s.updates := rfl
@[simp] theorem State.onCore_posts (s : State) (f : Core → Core) : (s.onCore f).posts = s.posts := rfl
@[simp] theorem State.onCore_barSrcs (s : State) (f : Core → Core) : (s.onCore f).barSrcs = s.barSrcs := rfl
@[simp] theorem State.onCore_pushes (s : State) (f : Core → Core) : (s.onCore f).pushes = s.pushes := rfl
@[simp] theorem State.onCore_sched (s : State) (f : Core → Core) : (s.onCore f).sched = s.sched := rfl
@[simp] theorem State.onCore_host (s : State) (f : Core → Core) : (s.onCore f).host = s.host := rfl
@[simp] theorem State.onCore_plat (s : State) (f : Core → Core) : (s.onCore f).plat = s.plat := rfl
@[simp] theorem State.onCore_stlb (s : State) (f : Core → Core) : (s.onCore f).stlb = s.stlb := rfl
@[simp] theorem State.onCore_nextId (s : State) (f : Core → Core) : (s.onCore f).nextId = s.nextId := rfl
@[simp] theorem State.onCore_draws (s : State) (f : Core → Core) : (s.onCore f).draws = s.draws := rfl
@[simp] theorem State.onCore_inputs (s : State) (f : Core → Core) : (s.onCore f).inputs = s.inputs := rfl
@[simp] theorem State.onCore_iss (s : State) (f : Core → Core) : (s.onCore f).iss = s.iss := rfl

/-! ### A change of every core -/

@[simp] theorem State.mapCores_clock (s : State) (f : Core → Core) : (s.mapCores f).clock = s.clock := rfl
@[simp] theorem State.mapCores_before (s : State) (f : Core → Core) : (s.mapCores f).before = s.before.map f := rfl
@[simp] theorem State.mapCores_core (s : State) (f : Core → Core) : (s.mapCores f).core = f s.core := rfl
@[simp] theorem State.mapCores_after (s : State) (f : Core → Core) : (s.mapCores f).after = s.after.map f := rfl
@[simp] theorem State.mapCores_store (s : State) (f : Core → Core) : (s.mapCores f).store = s.store := rfl
@[simp] theorem State.mapCores_md (s : State) (f : Core → Core) : (s.mapCores f).md = s.md := rfl
@[simp] theorem State.mapCores_updates (s : State) (f : Core → Core) : (s.mapCores f).updates = s.updates := rfl
@[simp] theorem State.mapCores_posts (s : State) (f : Core → Core) : (s.mapCores f).posts = s.posts := rfl
@[simp] theorem State.mapCores_barSrcs (s : State) (f : Core → Core) : (s.mapCores f).barSrcs = s.barSrcs := rfl
@[simp] theorem State.mapCores_pushes (s : State) (f : Core → Core) : (s.mapCores f).pushes = s.pushes := rfl
@[simp] theorem State.mapCores_sched (s : State) (f : Core → Core) : (s.mapCores f).sched = s.sched := rfl
@[simp] theorem State.mapCores_host (s : State) (f : Core → Core) : (s.mapCores f).host = s.host := rfl
@[simp] theorem State.mapCores_plat (s : State) (f : Core → Core) : (s.mapCores f).plat = s.plat := rfl
@[simp] theorem State.mapCores_stlb (s : State) (f : Core → Core) : (s.mapCores f).stlb = s.stlb := rfl
@[simp] theorem State.mapCores_nextId (s : State) (f : Core → Core) : (s.mapCores f).nextId = s.nextId := rfl
@[simp] theorem State.mapCores_draws (s : State) (f : Core → Core) : (s.mapCores f).draws = s.draws := rfl
@[simp] theorem State.mapCores_inputs (s : State) (f : Core → Core) : (s.mapCores f).inputs = s.inputs := rfl
@[simp] theorem State.mapCores_iss (s : State) (f : Core → Core) : (s.mapCores f).iss = s.iss := rfl

/-! ### A change of the matrix unit -/

@[simp] theorem State.onMx_clock (s : State) (f : Matrix → Matrix) : (s.onMx f).clock = s.clock := rfl
@[simp] theorem State.onMx_before (s : State) (f : Matrix → Matrix) : (s.onMx f).before = s.before := rfl
@[simp] theorem State.onMx_core (s : State) (f : Matrix → Matrix) : (s.onMx f).core = { s.core with mx := f s.core.mx } := rfl
@[simp] theorem State.onMx_after (s : State) (f : Matrix → Matrix) : (s.onMx f).after = s.after := rfl
@[simp] theorem State.onMx_store (s : State) (f : Matrix → Matrix) : (s.onMx f).store = s.store := rfl
@[simp] theorem State.onMx_md (s : State) (f : Matrix → Matrix) : (s.onMx f).md = s.md := rfl
@[simp] theorem State.onMx_updates (s : State) (f : Matrix → Matrix) : (s.onMx f).updates = s.updates := rfl
@[simp] theorem State.onMx_posts (s : State) (f : Matrix → Matrix) : (s.onMx f).posts = s.posts := rfl
@[simp] theorem State.onMx_barSrcs (s : State) (f : Matrix → Matrix) : (s.onMx f).barSrcs = s.barSrcs := rfl
@[simp] theorem State.onMx_pushes (s : State) (f : Matrix → Matrix) : (s.onMx f).pushes = s.pushes := rfl
@[simp] theorem State.onMx_sched (s : State) (f : Matrix → Matrix) : (s.onMx f).sched = s.sched := rfl
@[simp] theorem State.onMx_host (s : State) (f : Matrix → Matrix) : (s.onMx f).host = s.host := rfl
@[simp] theorem State.onMx_plat (s : State) (f : Matrix → Matrix) : (s.onMx f).plat = s.plat := rfl
@[simp] theorem State.onMx_stlb (s : State) (f : Matrix → Matrix) : (s.onMx f).stlb = s.stlb := rfl
@[simp] theorem State.onMx_nextId (s : State) (f : Matrix → Matrix) : (s.onMx f).nextId = s.nextId := rfl
@[simp] theorem State.onMx_draws (s : State) (f : Matrix → Matrix) : (s.onMx f).draws = s.draws := rfl
@[simp] theorem State.onMx_inputs (s : State) (f : Matrix → Matrix) : (s.onMx f).inputs = s.inputs := rfl
@[simp] theorem State.onMx_iss (s : State) (f : Matrix → Matrix) : (s.onMx f).iss = s.iss := rfl

/-! ### A bundle is opened -/

@[simp] theorem openBundle_clock (s : State) (b : Bool) : (openBundle s b).clock = s.clock := rfl
@[simp] theorem openBundle_before (s : State) (b : Bool) : (openBundle s b).before = s.before := rfl
@[simp] theorem openBundle_core (s : State) (b : Bool) : (openBundle s b).core = s.core := rfl
@[simp] theorem openBundle_after (s : State) (b : Bool) : (openBundle s b).after = s.after := rfl
@[simp] theorem openBundle_store (s : State) (b : Bool) : (openBundle s b).store = s.store := rfl
@[simp] theorem openBundle_md (s : State) (b : Bool) : (openBundle s b).md = s.md := rfl
@[simp] theorem openBundle_updates (s : State) (b : Bool) : (openBundle s b).updates = s.updates := rfl
@[simp] theorem openBundle_posts (s : State) (b : Bool) : (openBundle s b).posts = s.posts := rfl
@[simp] theorem openBundle_barSrcs (s : State) (b : Bool) : (openBundle s b).barSrcs = s.barSrcs := rfl
@[simp] theorem openBundle_pushes (s : State) (b : Bool) : (openBundle s b).pushes = s.pushes := rfl
@[simp] theorem openBundle_sched (s : State) (b : Bool) : (openBundle s b).sched = s.sched := rfl
@[simp] theorem openBundle_host (s : State) (b : Bool) : (openBundle s b).host = s.host := rfl
@[simp] theorem openBundle_plat (s : State) (b : Bool) : (openBundle s b).plat = s.plat := rfl
@[simp] theorem openBundle_stlb (s : State) (b : Bool) : (openBundle s b).stlb = s.stlb := rfl
@[simp] theorem openBundle_nextId (s : State) (b : Bool) : (openBundle s b).nextId = s.nextId := rfl
@[simp] theorem openBundle_draws (s : State) (b : Bool) : (openBundle s b).draws = s.draws := rfl
@[simp] theorem openBundle_inputs (s : State) (b : Bool) : (openBundle s b).inputs = s.inputs := rfl
@[simp] theorem openBundle_iss (s : State) (b : Bool) : (openBundle s b).iss = some (Issue.start s.core b) := rfl

/-! ### A change of a metadata window -/

@[simp] theorem State.modMd_clock (s : State) (n : Nat) (f : MdWin → MdWin) : (s.modMd n f).clock = s.clock := rfl
@[simp] theorem State.modMd_before (s : State) (n : Nat) (f : MdWin → MdWin) : (s.modMd n f).before = s.before := rfl
@[simp] theorem State.modMd_core (s : State) (n : Nat) (f : MdWin → MdWin) : (s.modMd n f).core = s.core := rfl
@[simp] theorem State.modMd_after (s : State) (n : Nat) (f : MdWin → MdWin) : (s.modMd n f).after = s.after := rfl
@[simp] theorem State.modMd_store (s : State) (n : Nat) (f : MdWin → MdWin) : (s.modMd n f).store = s.store := rfl
@[simp] theorem State.modMd_md (s : State) (n : Nat) (f : MdWin → MdWin) : (s.modMd n f).md = vtab 8 fun i => if i = n then f (vat s.md i) else vat s.md i := rfl
@[simp] theorem State.modMd_updates (s : State) (n : Nat) (f : MdWin → MdWin) : (s.modMd n f).updates = s.updates := rfl
@[simp] theorem State.modMd_posts (s : State) (n : Nat) (f : MdWin → MdWin) : (s.modMd n f).posts = s.posts := rfl
@[simp] theorem State.modMd_barSrcs (s : State) (n : Nat) (f : MdWin → MdWin) : (s.modMd n f).barSrcs = s.barSrcs := rfl
@[simp] theorem State.modMd_pushes (s : State) (n : Nat) (f : MdWin → MdWin) : (s.modMd n f).pushes = s.pushes := rfl
@[simp] theorem State.modMd_sched (s : State) (n : Nat) (f : MdWin → MdWin) : (s.modMd n f).sched = s.sched := rfl
@[simp] theorem State.modMd_host (s : State) (n : Nat) (f : MdWin → MdWin) : (s.modMd n f).host = s.host := rfl
@[simp] theorem State.modMd_plat (s : State) (n : Nat) (f : MdWin → MdWin) : (s.modMd n f).plat = s.plat := rfl
@[simp] theorem State.modMd_stlb (s : State) (n : Nat) (f : MdWin → MdWin) : (s.modMd n f).stlb = s.stlb := rfl
@[simp] theorem State.modMd_nextId (s : State) (n : Nat) (f : MdWin → MdWin) : (s.modMd n f).nextId = s.nextId := rfl
@[simp] theorem State.modMd_draws (s : State) (n : Nat) (f : MdWin → MdWin) : (s.modMd n f).draws = s.draws := rfl
@[simp] theorem State.modMd_inputs (s : State) (n : Nat) (f : MdWin → MdWin) : (s.modMd n f).inputs = s.inputs := rfl
@[simp] theorem State.modMd_iss (s : State) (n : Nat) (f : MdWin → MdWin) : (s.modMd n f).iss = s.iss := rfl

/-! ### A change of a link -/

@[simp] theorem State.modLink_clock (s : State) (l : Fin 12) (f : LinkSt → LinkSt) :
    (s.modLink l f).clock = s.clock := rfl
@[simp] theorem State.modLink_before (s : State) (l : Fin 12) (f : LinkSt → LinkSt) :
    (s.modLink l f).before = s.before := rfl
@[simp] theorem State.modLink_core (s : State) (l : Fin 12) (f : LinkSt → LinkSt) :
    (s.modLink l f).core = s.core := rfl
@[simp] theorem State.modLink_after (s : State) (l : Fin 12) (f : LinkSt → LinkSt) :
    (s.modLink l f).after = s.after := rfl
@[simp] theorem State.modLink_store (s : State) (l : Fin 12) (f : LinkSt → LinkSt) :
    (s.modLink l f).store = s.store := rfl
@[simp] theorem State.modLink_md (s : State) (l : Fin 12) (f : LinkSt → LinkSt) :
    (s.modLink l f).md = s.md := rfl
@[simp] theorem State.modLink_updates (s : State) (l : Fin 12) (f : LinkSt → LinkSt) :
    (s.modLink l f).updates = s.updates := rfl
@[simp] theorem State.modLink_posts (s : State) (l : Fin 12) (f : LinkSt → LinkSt) :
    (s.modLink l f).posts = s.posts := rfl
@[simp] theorem State.modLink_barSrcs (s : State) (l : Fin 12) (f : LinkSt → LinkSt) :
    (s.modLink l f).barSrcs = s.barSrcs := rfl
@[simp] theorem State.modLink_pushes (s : State) (l : Fin 12) (f : LinkSt → LinkSt) :
    (s.modLink l f).pushes = s.pushes := rfl
@[simp] theorem State.modLink_sched (s : State) (l : Fin 12) (f : LinkSt → LinkSt) :
    (s.modLink l f).sched = s.sched := rfl
@[simp] theorem State.modLink_host (s : State) (l : Fin 12) (f : LinkSt → LinkSt) :
    (s.modLink l f).host = s.host := rfl
@[simp] theorem State.modLink_plat (s : State) (l : Fin 12) (f : LinkSt → LinkSt) :
    (s.modLink l f).plat = { s.plat with links := s.plat.links.set l (f (s.plat.links.get l)) } := rfl
@[simp] theorem State.modLink_stlb (s : State) (l : Fin 12) (f : LinkSt → LinkSt) :
    (s.modLink l f).stlb = s.stlb := rfl
@[simp] theorem State.modLink_nextId (s : State) (l : Fin 12) (f : LinkSt → LinkSt) :
    (s.modLink l f).nextId = s.nextId := rfl
@[simp] theorem State.modLink_draws (s : State) (l : Fin 12) (f : LinkSt → LinkSt) :
    (s.modLink l f).draws = s.draws := rfl
@[simp] theorem State.modLink_inputs (s : State) (l : Fin 12) (f : LinkSt → LinkSt) :
    (s.modLink l f).inputs = s.inputs := rfl
@[simp] theorem State.modLink_iss (s : State) (l : Fin 12) (f : LinkSt → LinkSt) :
    (s.modLink l f).iss = s.iss := rfl

end Sys2Proof.Machine
end

