-- ==== Sys2Proof/Laws/Issue.lean ====
section
/-! SUPPORT. The monad in which an operation gathers what its bundle will do: what each of its steps answers, and how a
bundle of one operation comes to commit. -/

namespace Sys2Proof.Machine

/-! ### The steps of the monad -/

@[simp] theorem issM_bind {α β : Type} (m : IssM α) (f : α → IssM β) (s : State) :
    (m >>= f) s = match m s with
      | .ok a t => f a t
      | .error e t => .error e t := by
  cases h : m s <;> simp [bind, EStateM.bind, h]

@[simp] theorem issM_map {α β : Type} (f : α → β) (m : IssM α) (s : State) :
    (f <$> m) s = match m s with
      | .ok a t => .ok (f a) t
      | .error e t => .error e t := by
  cases h : m s <;> simp [Functor.map, EStateM.map, h]

@[simp] theorem issM_pure {α : Type} (a : α) (s : State) : (pure a : IssM α) s = .ok a s := rfl
@[simp] theorem issM_get (s : State) : (get : IssM State) s = .ok s s := rfl
@[simp] theorem issM_set (s t : State) : (set t : IssM Unit) s = .ok () t := rfl
@[simp] theorem issM_modify (f : State → State) (s : State) : (modify f : IssM Unit) s = .ok () (f s) := rfl
@[simp] theorem issM_throw {α : Type} (s : State) : (throw () : IssM α) s = .error () s := rfl
@[simp] theorem getCore_run (s : State) : getCore s = .ok s.core s := rfl
@[simp] theorem getIss_run (s : State) : getIss s = .ok s.issue s := rfl
@[simp] theorem modIss_run (f : Issue → Issue) (s : State) : modIss f s = .ok () { s with iss := s.iss.map f } := rfl
@[simp] theorem modCore_run (f : Core → Core) (s : State) : modCore f s = .ok () { s with core := f s.core } := rfl
@[simp] theorem freshId_run (s : State) : freshId s = .ok s.nextId { s with nextId := s.nextId + 1 } := rfl
@[simp] theorem freshDraw_run (s : State) : freshDraw s = .ok s.draws { s with draws := s.draws + 1 } := rfl

/-- A condition of kind F or W is kept, and the operation ends. -/
@[simp] theorem trapWith_run {α : Type} (c : Cause) (s : State) :
    (trapWith c : IssM α) s = .error () { s with iss := s.iss.map fun i => { i with causes := i.causes ++ [c] } } := rfl

@[simp] theorem trapF_run {α : Type} (slot : Fin 8) (code detail : Nat) (s : State) :
    (trapF slot code detail : IssM α) s = .error () { s with iss := s.iss.map fun i => { i with causes := i.causes ++
      [⟨BitVec.ofNat 8 code, BitVec.ofNat 48 detail, some slot, false, none, false⟩] } } := rfl

@[simp] theorem stallFor_run {α : Type} (st : Stall) (s : State) :
    (stallFor st : IssM α) s = .error () { s with iss := s.iss.map fun i => { i with stall := some (i.stall.getD st) } } := rfl

@[simp] theorem landAt_run (slot : Fin 8) (lat : Nat) (d : Dest) (x : Val) (mask : Word) (fev : Option Fev) (s : State) :
    landAt slot lat d x mask fev s = .ok () { s with iss := s.iss.map fun i => { i with lands := i.lands ++
      [⟨s.clock + lat, s.clock, slot, s.core.pc, d, x, mask, fev, false⟩] } } := rfl

@[simp] theorem landS_run (slot : Fin 8) (lat : Nat) (d : Fin 16) (x : Word) (s : State) :
    landS slot lat d x s = landAt slot lat (.s d) (.w x) allOnes none s := rfl
@[simp] theorem landA_run (slot : Fin 8) (lat : Nat) (d : Fin 16) (x : Word) (s : State) :
    landA slot lat d x s = landAt slot lat (.a d) (.w x) allOnes none s := rfl
@[simp] theorem landP_run (slot : Fin 8) (lat : Nat) (d : PReg) (x : Word) (s : State) :
    landP slot lat d x s = landAt slot lat (.p d) (.w x) allOnes none s := rfl

/-- What an attempt answers; the conditions that it has met are kept. -/
theorem attempt_ok {α : Type} {m : IssM α} {s t : State} {a : α} (h : m s = .ok a t) : attempt m s = .ok (some a) t := by
  simp [attempt, tryCatch, tryCatchThe, MonadExceptOf.tryCatch, EStateM.tryCatch, h]

theorem attempt_error {α : Type} {m : IssM α} {s t : State} (h : m s = .error () t) : attempt m s = .ok none t := by
  simp [attempt, tryCatch, tryCatchThe, MonadExceptOf.tryCatch, EStateM.tryCatch, EStateM.Backtrackable.restore, EStateM.dummyRestore, h]

/-! ### Sources (R8 to R10) -/

theorem readS_zero (slot : Fin 8) (pk : Bool) (s : State) : readS slot 0 pk s = .ok 0 s := rfl

/-- Register mode: the value, and nothing removed. -/
theorem readS_reg {slot : Fin 8} {r : Fin 16} {pk : Bool} {s : State} (h0 : r ≠ 0) (hq : sQueue s.core.csr.qmode r = false) :
    readS slot r pk s = .ok ((s.core.regs.s.get r).headD 0) s := by
  simp [readS, h0, hq]

/-- A peek of a queue leaves it as it is. -/
theorem readS_peek {slot : Fin 8} {r : Fin 16} {s : State} {x : Word} {l : List Word} (h0 : r ≠ 0)
    (hq : sQueue s.core.csr.qmode r = true) (hx : s.core.regs.s.get r = x :: l) : readS slot r true s = .ok x s := by
  simp [readS, h0, hq, hx]

/-- Any other read of a queue removes its head. -/
theorem readS_take {slot : Fin 8} {r : Fin 16} {s : State} {x : Word} {l : List Word} (h0 : r ≠ 0)
    (hq : sQueue s.core.csr.qmode r = true) (hx : s.core.regs.s.get r = x :: l) :
    readS slot r false s = .ok x { s with core := { s.core with regs := { s.core.regs with s := s.core.regs.s.set r l } } } := by
  simp [readS, h0, hq, hx]

/-- A read of an empty queue is the underflow trap of its slot. -/
theorem readS_empty {slot : Fin 8} {r : Fin 16} {pk : Bool} {s : State} (h0 : r ≠ 0) (hq : sQueue s.core.csr.qmode r = true)
    (hx : s.core.regs.s.get r = []) : readS slot r pk s = trapF slot 0x11 r.val s := by
  simp [readS, h0, hq, hx]

theorem readV_zero (slot : Fin 8) (pk : Bool) (s : State) : readV slot 0 pk s = .ok VReg.zero s := rfl

theorem readV_reg {slot : Fin 8} {r : Fin 16} {pk : Bool} {s : State} (h0 : r ≠ 0) (hq : vQueue s.core.csr.qmode r = false) :
    readV slot r pk s = .ok ((s.core.regs.v.get r).headD VReg.zero) s := by
  simp [readV, h0, hq]

theorem readV_peek {slot : Fin 8} {r : Fin 16} {s : State} {x : VReg} {l : List VReg} (h0 : r ≠ 0)
    (hq : vQueue s.core.csr.qmode r = true) (hx : s.core.regs.v.get r = x :: l) : readV slot r true s = .ok x s := by
  simp [readV, h0, hq, hx]

theorem readV_take {slot : Fin 8} {r : Fin 16} {s : State} {x : VReg} {l : List VReg} (h0 : r ≠ 0)
    (hq : vQueue s.core.csr.qmode r = true) (hx : s.core.regs.v.get r = x :: l) :
    readV slot r false s = .ok x { s with core := { s.core with regs := { s.core.regs with v := s.core.regs.v.set r l } } } := by
  simp [readV, h0, hq, hx]

theorem readV_empty {slot : Fin 8} {r : Fin 16} {pk : Bool} {s : State} (h0 : r ≠ 0) (hq : vQueue s.core.csr.qmode r = true)
    (hx : s.core.regs.v.get r = []) : readV slot r pk s = trapF slot 0x11 (16 + r.val) s := by
  simp [readV, h0, hq, hx]

@[simp] theorem srcBs_imm (slot : Fin 8) (v : BitVec 32) (s : State) : srcBs slot (.imm v) s = .ok (immW v) s := rfl
@[simp] theorem srcBv_imm (slot : Fin 8) (v : BitVec 32) (s : State) : srcBv slot (.imm v) s = .ok (vsplat v) s := rfl
@[simp] theorem srcCs_imm (slot : Fin 8) (v : BitVec 32) (s : State) : srcCs slot (.imm v) s = .ok (immW v) s := rfl
@[simp] theorem srcCv_imm (slot : Fin 8) (v : BitVec 32) (s : State) : srcCv slot (.imm v) s = .ok (vsplat v) s := rfl

/-! ### A bundle of one operation -/

theorem runOp_alone {i : Instr} {slot : Fin 8} {on : Core → Bool} {body : IssM Unit} {s : State} (h : s.iss = none) :
    runOp i slot on body s = .next (closeBundle (issueOp i slot on body (openBundle s false))) := by
  simp [runOp, h]

/-- Within a bundle an operation only gathers. -/
theorem runOp_inside {i : Instr} {slot : Fin 8} {on : Core → Bool} {body : IssM Unit} {s : State} {k : Issue} (h : s.iss = some k) :
    runOp i slot on body s = .next (issueOp i slot on body s) := by
  simp [runOp, h]

/-- R11: a guarded-off operation does nothing. -/
theorem issueOp_off {i : Instr} {slot : Fin 8} {on : Core → Bool} {body : IssM Unit} {s : State} (h : on s.core = false) :
    issueOp i slot on body s = s := by
  simp [issueOp, h]

/-- What an enabled operation gathers is what its body leaves. -/
theorem issueOp_ok {i : Instr} {slot : Fin 8} {on : Core → Bool} {body : IssM Unit} {s g : State} (h : on s.core = true)
    (hb : body { s with iss := s.iss.map fun k => { k with dests := k.dests ++ i.dests.map fun d => (slot, d) } } = .ok () g) :
    issueOp i slot on body s = g := by
  simp [issueOp, h, hb]

theorem issueOp_error {i : Instr} {slot : Fin 8} {on : Core → Bool} {body : IssM Unit} {s g : State} (h : on s.core = true)
    (hb : body { s with iss := s.iss.map fun k => { k with dests := k.dests ++ i.dests.map fun d => (slot, d) } } = .error () g) :
    issueOp i slot on body s = g := by
  simp [issueOp, h, hb]

/-- A bundle without a stall and without a condition commits (R6, R10, R337). -/
theorem closeBundle_commits {g : State} (hs : g.issue.stall = none) (hl : lateStall g g.issue = none) (hc : g.issue.causes = [])
    (ho : overflowCauses g.core (g.issue.qmode.getD g.core.csr.qmode) g.issue.dests [] = []) : closeBundle g = commitBundle g := by
  simp [closeBundle, hs, hl, hc, ho, chooseCause]

/-- A bundle with a stall waits, whatever else it has met. -/
theorem closeBundle_stalls {g : State} {st : Stall} (hs : g.issue.stall = some st) : closeBundle g = stallBundle g st := by
  simp [closeBundle, hs]

/-- A bundle with a condition and no stall takes the trap of its first one (R337). -/
theorem closeBundle_traps {g : State} {c : Cause} (hs : g.issue.stall = none) (hl : lateStall g g.issue = none)
    (hc : chooseCause (g.issue.causes ++ overflowCauses g.core (g.issue.qmode.getD g.core.csr.qmode) g.issue.dests []) = some c) :
    closeBundle g = takeFault g c := by
  simp [closeBundle, hs, hl, hc]

/-- The one condition of a bundle is its cause. -/
@[simp] theorem chooseCause_one (c : Cause) : chooseCause [c] = some c := rfl

/-- One operation alone, enabled, whose body gathers `g`: the bundle commits it. -/
theorem runOp_commits {i : Instr} {slot : Fin 8} {on : Core → Bool} {body : IssM Unit} {s g : State} (h : s.iss = none)
    (hon : on s.core = true)
    (hb : body { s with iss := some { Issue.start s.core false with dests := i.dests.map fun d => (slot, d) } } = .ok () g)
    (hs : g.issue.stall = none) (hl : lateStall g g.issue = none) (hc : g.issue.causes = [])
    (ho : overflowCauses g.core (g.issue.qmode.getD g.core.csr.qmode) g.issue.dests [] = []) :
    runOp i slot on body s = .next (commitBundle g) := by
  rw [runOp_alone h, issueOp_ok (g := g) (by simpa using hon) (by simpa [openBundle, Issue.start] using hb),
    closeBundle_commits hs hl hc ho]

/-- The same of an operation that stalls. -/
theorem runOp_stalls {i : Instr} {slot : Fin 8} {on : Core → Bool} {body : IssM Unit} {s g : State} {st : Stall} (h : s.iss = none)
    (hon : on s.core = true)
    (hb : body { s with iss := some { Issue.start s.core false with dests := i.dests.map fun d => (slot, d) } } = .error () g)
    (hs : g.issue.stall = some st) : runOp i slot on body s = .next (stallBundle g st) := by
  rw [runOp_alone h, issueOp_error (g := g) (by simpa using hon) (by simpa [openBundle, Issue.start] using hb), closeBundle_stalls hs]

end Sys2Proof.Machine
end

