-- ==== Sys2Proof/Laws/Bits.lean ====
section
/-! SUPPORT. Bit fields, counts of ones, masks and vectors: what each of their operations answers. -/

namespace Sys2Proof.Machine

theorem bit_testBit (x i : Nat) : bit x i = x.testBit i := by
  rw [Nat.testBit_eq_decide_div_mod_eq, bit]; rfl

theorem plane_getLsbD (p : Word) (i : Nat) : plane p i = p.getLsbD i := by
  rw [plane, bit_testBit]; rfl

theorem onesFrom_eq (x n : Nat) : ∀ i, onesFrom n i (x / 2 ^ i) = (List.range' i n).filter fun j => bit x j := by
  induction n with
  | zero => intro i; rfl
  | succ n ih =>
    intro i
    have : x / 2 ^ i / 2 = x / 2 ^ (i + 1) := by rw [Nat.div_div_eq_div_mul, Nat.pow_succ]
    simp only [onesFrom, this, ih, List.range'_succ, List.filter_cons, bit]

theorem ones_eq (n x : Nat) : ones n x = (List.range n).filter fun j => bit x j := by
  simpa [List.range_eq_range', ones] using onesFrom_eq x n 0

theorem mem_ones {n x i : Nat} : i ∈ ones n x ↔ i < n ∧ bit x i = true := by simp [ones_eq]

theorem popcount_shift (x n : Nat) : ∀ i, popcount n (x / 2 ^ i) = ((List.range' i n).filter fun j => bit x j).length := by
  induction n with
  | zero => intro i; rfl
  | succ n ih =>
    intro i
    have h : x / 2 ^ i / 2 = x / 2 ^ (i + 1) := by rw [Nat.div_div_eq_div_mul, Nat.pow_succ]
    simp only [popcount, h, ih, List.range'_succ, List.filter_cons, bit]
    by_cases hb : x / 2 ^ i % 2 = 1
    · simp [hb]; omega
    · have : x / 2 ^ i % 2 = 0 := by omega
      simp [this]

theorem popcount_eq (n x : Nat) : popcount n x = ((List.range n).filter fun j => bit x j).length := by
  simpa [List.range_eq_range'] using popcount_shift x n 0

theorem testBit_foldl_or (l : List Nat) (i : Nat) : ∀ acc : Nat,
    (l.foldl (fun acc i => acc ||| 2 ^ i) acc).testBit i = (acc.testBit i || l.contains i) := by
  induction l with
  | nil => simp
  | cons a l ih =>
    intro acc
    simp only [List.foldl_cons, ih, Nat.testBit_or, Nat.testBit_two_pow, List.contains_cons]
    by_cases h : a = i
    · subst h; simp
    · have : (i == a) = false := by simpa using Ne.symm h
      simp [h, this]

theorem bit_ofOnes (l : List Nat) (i : Nat) : bit (ofOnes l) i = l.contains i := by
  rw [bit_testBit, ofOnes, testBit_foldl_or]; simp

theorem plane_pmask (f : Nat → Bool) {i : Nat} (h : i < 64) : plane (pmask f) i = f i := by
  rw [plane, pmask, bit_testBit, BitVec.toNat_ofNat, Nat.testBit_mod_two_pow, ← bit_testBit, bit_ofOnes]
  simp [h]

theorem bitrev_lt (n x : Nat) : bitrev n x < 2 ^ n := by
  induction n generalizing x with
  | zero => simp [bitrev]
  | succ n ih =>
    have h := ih (x / 2)
    have : x % 2 ≤ 1 := by omega
    have h2 : x % 2 * 2 ^ n ≤ 2 ^ n := by
      calc x % 2 * 2 ^ n ≤ 1 * 2 ^ n := Nat.mul_le_mul_right _ this
        _ = 2 ^ n := Nat.one_mul _
    simp only [bitrev, Nat.pow_succ]; omega

theorem testBit_bitrev (n : Nat) : ∀ x i, (bitrev n x).testBit i = (decide (i < n) && x.testBit (n - 1 - i)) := by
  induction n with
  | zero => intro x i; simp [bitrev]
  | succ n ih =>
    intro x i
    have hlt := bitrev_lt n (x / 2)
    have hx : bitrev (n + 1) x = 2 ^ n * (x % 2) + bitrev n (x / 2) := by simp [bitrev, Nat.mul_comm]
    rw [hx, Nat.testBit_two_pow_mul_add _ hlt]
    by_cases h : i < n
    · have h2 : n + 1 - 1 - i = (n - 1 - i) + 1 := by omega
      simp only [h, if_true, ih, h2, Nat.testBit_add_one, decide_true, Bool.true_and]
      have : i < n + 1 := by omega
      simp [this]
    · by_cases h3 : i = n
      · subst h3
        simp only [Nat.lt_irrefl, if_false, Nat.sub_self, Nat.testBit_zero, Nat.lt_succ_self, decide_true, Bool.true_and,
          Nat.add_sub_cancel]
        have : x % 2 % 2 = x % 2 := by omega
        simp [this]
      · have h4 : ¬ i < n + 1 := by omega
        have h5 : (x % 2).testBit (i - n) = false := by
          have : x % 2 < 2 ^ (i - n) := by
            have h6 : 1 ≤ i - n := by omega
            have : 2 ^ 1 ≤ 2 ^ (i - n) := Nat.pow_le_pow_right (by decide) h6
            omega
          exact Nat.testBit_lt_two_pow this
        simp [h, h4, h5]

theorem bitrev_reverse (a : Word) : BitVec.ofNat 64 (bitrev 64 a.toNat) = a.reverse := by
  apply BitVec.eq_of_getLsbD_eq
  intro i hi
  rw [BitVec.getLsbD_reverse, BitVec.getLsbD_ofNat, testBit_bitrev, BitVec.getMsbD]
  simp [hi]
  rfl

/-! ### Vectors -/

theorem vat_vtab {α : Type} [Inhabited α] {n : Nat} (f : Nat → α) {i : Nat} (h : i < n) : vat (vtab n f) i = f i := by
  simp [vat, vtab, Vector.toList, h]

theorem vlane_vlanes (f : Nat → Lane) {i : Nat} (h : i < 64) : vlane (vlanes f) i = f i := vat_vtab f h

theorem vtab_congr {α : Type} {n : Nat} {f g : Nat → α} (h : ∀ i, i < n → f i = g i) : vtab n f = vtab n g := by
  unfold vtab
  congr 2
  exact List.map_congr_left fun i hi => h i (List.mem_range.mp hi)

theorem vlanes_congr {f g : Nat → Lane} (h : ∀ i, i < 64 → f i = g i) : vlanes f = vlanes g := vtab_congr h

theorem vat_get {α : Type} [Inhabited α] {n : Nat} (v : Vector α n) {i : Nat} (h : i < n) : vat v i = v.get ⟨i, h⟩ := by
  simp [vat, Vector.get, h]

/-- The elements of a vector, by their numbers. -/
theorem toList_vat {α : Type} [Inhabited α] {n : Nat} (v : Vector α n) : v.toList = (List.range n).map (vat v) := by
  apply List.ext_getElem
  · simp
  · intro i h1 h2
    have : i < n := by simpa using h1
    simp [vat, this]

/-- A map over the lanes, as a list. -/
theorem toList_vlane (v : VReg) : v.toList = (List.range 64).map (vlane v) := toList_vat v

/-- A vector from a list of its full length. -/
theorem vofLanes_map (f : Nat → Lane) : vofLanes ((List.range 64).map f) = vlanes f := by
  unfold vofLanes vofList vlanes
  apply vtab_congr
  intro i hi
  simp [hi]

theorem vsplat_eq (x : Lane) : vsplat x = vlanes fun _ => x := by
  apply Vector.ext
  intro i h
  rw [vsplat, Vector.getElem_replicate, vlanes, vtab, Vector.getElem_mk, List.getElem_toArray, List.getElem_map]

end Sys2Proof.Machine
end

