-- ==== Sys2Proof/Laws/Vector.lean ====
section
/-! SUPPORT. The counts of slot S and the lane results of the V slots: what the shared functions compute, element by element. -/

namespace Sys2Proof.Machine

/-- The ranks of a word's leading zeros: the powers of two above it. -/
theorem clz64_eq (a : Word) : clz64 a = ((List.range 64).filter fun i => decide (a.toNat < 2 ^ i)).length := by
  have hcount : ∀ n m : Nat, m ≤ n → ((List.range n).filter fun i => decide (m ≤ i)).length = n - m := by
    intro n m
    induction n with
    | zero => intro h; simp
    | succ n ih =>
      intro h
      rw [List.range_succ, List.filter_append, List.length_append]
      by_cases hm : m ≤ n
      · simp [ih hm, hm]; omega
      · have : m = n + 1 := by omega
        subst this
        have hnil : (List.range n).filter (fun i => decide (n + 1 ≤ i)) = [] := by
          rw [List.filter_eq_nil_iff]
          intro i hi
          have := List.mem_range.mp hi
          rw [decide_eq_true_eq]
          omega
        rw [hnil, List.filter_cons, if_neg (by rw [decide_eq_true_eq]; omega), List.filter_nil, List.length_nil]
        omega
  by_cases h0 : a = 0
  · subst h0
    have : ((List.range 64).filter fun i => decide ((0 : Word).toNat < 2 ^ i)).length = 64 := by
      have := hcount 64 0 (by omega)
      have h2 : (List.range 64).filter (fun i => decide ((0 : Word).toNat < 2 ^ i)) = (List.range 64).filter fun i => decide (0 ≤ i) := by
        apply List.filter_congr
        intro i _
        simp [Nat.two_pow_pos]
      rw [h2, this]
    rw [this]; rfl
  · have hn : a.toNat ≠ 0 := fun h => h0 (BitVec.eq_of_toNat_eq (by simpa using h))
    have hlog : Nat.log2 a.toNat < 64 := (Nat.log2_lt hn).mpr a.isLt
    have h2 : (List.range 64).filter (fun i => decide (a.toNat < 2 ^ i)) = (List.range 64).filter fun i => decide (Nat.log2 a.toNat + 1 ≤ i) := by
      apply List.filter_congr
      intro i _
      have := @Nat.log2_lt a.toNat i hn
      simp only [decide_eq_decide]
      omega
    rw [h2, hcount 64 _ (by omega), clz64, if_neg h0]
    omega

/-- A value of slot S in every lane of a result vector. -/
theorem resV_map (f : Nat → FRes) : resV ((List.range 64).map f) = vlanes fun i => BitVec.ofNat 32 (f i).1 := by
  rw [resV, List.map_map, ← vofLanes_map]; rfl

theorem find?_congr_mem {α : Type} {p q : α → Bool} : ∀ {l : List α}, (∀ x ∈ l, p x = q x) → l.find? p = l.find? q
  | [], _ => rfl
  | x :: l, h => by
    rw [List.find?_cons, List.find?_cons, h x (by simp), find?_congr_mem fun y hy => h y (by simp [hy])]

theorem firstFevAux_eq (l : List FRes) : ∀ k, firstFevAux k l =
    ((List.range' k l.length).find? fun i => ((l.getD (i - k) (0, none)).2).isSome).bind fun i =>
      ((l.getD (i - k) (0, none)).2).map fun c => (c, i) := by
  induction l with
  | nil => intro k; rfl
  | cons r l ih =>
    intro k
    have hrest : firstFevAux (k + 1) l =
        ((List.range' (k + 1) l.length).find? fun i => (((r :: l).getD (i - k) (0, none)).2).isSome).bind fun i =>
          (((r :: l).getD (i - k) (0, none)).2).map fun c => (c, i) := by
      rw [ih (k + 1)]
      have he : ∀ i ∈ List.range' (k + 1) l.length, (r :: l).getD (i - k) (0, none) = l.getD (i - (k + 1)) (0, none) := by
        intro i hi
        have := (List.mem_range'_1.mp hi).1
        have h3 : i - k = (i - (k + 1)) + 1 := by omega
        rw [h3, List.getD_cons_succ]
      rw [find?_congr_mem (p := fun i => ((l.getD (i - (k + 1)) (0, none)).2).isSome)
        (q := fun i => (((r :: l).getD (i - k) (0, none)).2).isSome) fun i hi => by rw [he i hi]]
      cases hq : (List.range' (k + 1) l.length).find? fun i => (((r :: l).getD (i - k) (0, none)).2).isSome with
      | none => rfl
      | some i =>
        have := List.mem_of_find?_eq_some hq
        simp only [Option.bind_some, he i this]
    obtain ⟨x, y⟩ := r
    cases y with
    | none => rw [firstFevAux, hrest]; simp [List.range'_succ]
    | some c => simp [firstFevAux, List.range'_succ]

/-- The record of a lane-by-lane result is that of the lowest active lane that has one (R27). -/
theorem laneFev_map (m : Word) (f : Nat → FRes) : laneFev m ((List.range 64).map f) =
    ((List.range 64).find? fun i => plane m i && (f i).2.isSome).bind fun i => (f i).2.map fun c => ⟨c, i⟩ := by
  have hz : List.zipWith (fun i (r : FRes) => if plane m i then r else (r.1, none)) (List.range 64) ((List.range 64).map f) =
      (List.range 64).map fun i => if plane m i then f i else ((f i).1, none) := by
    rw [List.zipWith_map_right, List.zipWith_self]
  rw [laneFev, hz, firstFev, firstFevAux_eq]
  simp only [List.length_map, List.length_range, ← List.range_eq_range', Nat.sub_zero]
  have hg : ∀ i ∈ List.range 64, ((List.range 64).map fun i => if plane m i then f i else ((f i).1, none)).getD i (0, none) =
      if plane m i then f i else ((f i).1, none) := by
    intro i hi
    have := List.mem_range.mp hi
    simp [List.getD, this]
  rw [find?_congr_mem (q := fun i => plane m i && (f i).2.isSome) (fun i hi => by
    rw [hg i hi]; cases plane m i <;> simp)]
  cases hq : (List.range 64).find? fun i => plane m i && (f i).2.isSome with
  | none => rfl
  | some i =>
    have hm := List.mem_of_find?_eq_some hq
    have hp := List.find?_some hq
    simp only [Bool.and_eq_true] at hp
    simp only [Option.bind_some, hg i hm, hp.1, if_true, Option.map_map]
    rfl

/-- The lanes of two vectors combined, as one list over the lane numbers. -/
theorem zipWith_lanes {β : Type} (f : Lane → Lane → β) (a b : VReg) :
    List.zipWith f a.toList b.toList = (List.range 64).map fun i => f (vlane a i) (vlane b i) := by
  rw [toList_vlane a, toList_vlane b, List.zipWith_map_left, List.zipWith_map_right, List.zipWith_self]

theorem zip_lanes (a b : VReg) : List.zip a.toList b.toList = (List.range 64).map fun i => (vlane a i, vlane b i) := by
  rw [List.zip, zipWith_lanes]

theorem map_lanes {β : Type} (f : Lane → β) (a : VReg) : a.toList.map f = (List.range 64).map fun i => f (vlane a i) := by
  rw [toList_vlane a, List.map_map]; rfl

/-- A selection lane by lane (R131, R137). -/
theorem vblend_eq (m : Word) (a b : VReg) : vblend m a b = vlanes fun i => if plane m i then vlane a i else vlane b i := by
  rw [vblend, zip_lanes, List.zipWith_map_right, List.zipWith_self, ← vofLanes_map]

end Sys2Proof.Machine
end

