-- ==== Sys2Proof/Laws/Sources.lean ====
section
/-! SUPPORT. What the shared operations of a bundle do, in the terms of the statements: reading sources, checking and translating an
address, issuing a token-guarded operation, and how a meaning completes. -/

namespace Sys2Proof.Laws

open Sys2Proof Sys2Proof.Machine Sys2Proof.Claims

theorem takeS_run {slot : Fin 8} {r : Fin 16} {pk : Bool} {s : State} {x : Word} {c : Core} (h : takeS s.core r pk = some (x, c)) :
    readS slot r pk s = .ok x { s with core := c } := by
  unfold takeS at h
  split at h
  · next h0 => subst h0; simp only [Option.some.injEq, Prod.mk.injEq] at h; obtain ⟨rfl, rfl⟩ := h; rfl
  · next h0 =>
    split at h
    · next hq =>
      split at h
      · exact absurd h (by simp)
      · next y l hl =>
        simp only [Option.some.injEq, Prod.mk.injEq] at h; obtain ⟨rfl, rfl⟩ := h
        cases pk
        · simpa using readS_take h0 hq hl
        · simpa using readS_peek h0 hq hl
    · next hq =>
      simp only [Option.some.injEq, Prod.mk.injEq] at h; obtain ⟨rfl, rfl⟩ := h
      exact readS_reg h0 (by simpa using hq)

theorem takeB_run {slot : Fin 8} {b : SrcB} {s : State} {x : Word} {c : Core} (h : takeB s.core b = some (x, c)) :
    srcBs slot b s = .ok x { s with core := c } := by
  cases b with
  | reg r pk => exact takeS_run h
  | imm v => simp only [takeB, Option.some.injEq, Prod.mk.injEq] at h; obtain ⟨rfl, rfl⟩ := h; rfl

theorem takeC_run {slot : Fin 8} {b : SrcC} {s : State} {x : Word} {c : Core} (h : takeC s.core b = some (x, c)) :
    srcCs slot b s = .ok x { s with core := c } := by
  cases b with
  | reg r => exact takeS_run h
  | imm v => simp only [takeC, Option.some.injEq, Prod.mk.injEq] at h; obtain ⟨rfl, rfl⟩ := h; rfl

theorem completes_of {i : Instr} {slot : Fin 8} {on : Core → Bool} {body : IssM Unit} {s g : State} (h : s.iss = none)
    (hon : on s.core = true) (hx : exec i s = runOp i slot on body s)
    (hb : body (gathered s s.core (opened i slot s)) = .ok () g)
    (hs : g.issue.stall = none) (hc : g.issue.causes = []) : Completes i s g := by
  rintro ⟨hl, ho⟩
  rw [hx]
  exact runOp_commits h hon hb hs hl hc ho

theorem takeS_pc {c d : Core} {r : Fin 16} {pk : Bool} {x : Word} (h : takeS c r pk = some (x, d)) : d.pc = c.pc := by
  unfold takeS at h
  split at h
  · simp only [Option.some.injEq, Prod.mk.injEq] at h; rw [← h.2]
  · split at h
    · split at h
      · exact absurd h (by simp)
      · simp only [Option.some.injEq, Prod.mk.injEq] at h; rw [← h.2]; split <;> rfl
    · simp only [Option.some.injEq, Prod.mk.injEq] at h; rw [← h.2]

theorem takeB_pc {c d : Core} {b : SrcB} {x : Word} (h : takeB c b = some (x, d)) : d.pc = c.pc := by
  cases b with
  | reg r pk => exact takeS_pc h
  | imm v => simp only [takeB, Option.some.injEq, Prod.mk.injEq] at h; rw [← h.2]

theorem takeC_pc {c d : Core} {b : SrcC} {x : Word} (h : takeC c b = some (x, d)) : d.pc = c.pc := by
  cases b with
  | reg r => exact takeS_pc h
  | imm v => simp only [takeC, Option.some.injEq, Prod.mk.injEq] at h; rw [← h.2]

theorem readS_g {slot : Fin 8} {r : Fin 16} {pk : Bool} {s : State} {c0 : Core} {k : Issue} {x : Word} {c : Core} (h : takeS c0 r pk = some (x, c)) :
    readS slot r pk (gathered s c0 k) = .ok x (gathered s c k) := takeS_run (s := gathered s c0 k) h

theorem srcBs_g {slot : Fin 8} {b : SrcB} {s : State} {c0 : Core} {k : Issue} {x : Word} {c : Core} (h : takeB c0 b = some (x, c)) :
    srcBs slot b (gathered s c0 k) = .ok x (gathered s c k) := takeB_run (s := gathered s c0 k) h

theorem srcCs_g {slot : Fin 8} {b : SrcC} {s : State} {c0 : Core} {k : Issue} {x : Word} {c : Core} (h : takeC c0 b = some (x, c)) :
    srcCs slot b (gathered s c0 k) = .ok x (gathered s c k) := takeC_run (s := gathered s c0 k) h

theorem landAt_g {slot : Fin 8} {lat : Nat} {d : Dest} {x : Val} {m : Word} {f : Option Fev} {i : Instr} {sl : Fin 8} {s : State} {c : Core} (hpc : c.pc = s.core.pc) :
    landAt slot lat d x m f (gathered s c (opened i sl s)) = .ok () (lands i sl s c (result s slot lat d x m f)) := by
  simp only [landAt_run, lands, gathered, result, hpc]; rfl

theorem takeS_regs {c d : Core} {r : Fin 16} {pk : Bool} {x : Word} (h : takeS c r pk = some (x, d)) :
    ∃ l, d = { c with regs := { c.regs with s := l } } := by
  unfold takeS at h
  split at h
  · simp only [Option.some.injEq, Prod.mk.injEq] at h; exact ⟨c.regs.s, by rw [← h.2]⟩
  · split at h
    · split at h
      · exact absurd h (by simp)
      · simp only [Option.some.injEq, Prod.mk.injEq] at h; rw [← h.2]
        split
        · exact ⟨c.regs.s, rfl⟩
        · exact ⟨_, rfl⟩
    · simp only [Option.some.injEq, Prod.mk.injEq] at h; exact ⟨c.regs.s, by rw [← h.2]⟩

theorem takeV_regs {c d : Core} {r : Fin 16} {pk : Bool} {x : VReg} (h : takeV c r pk = some (x, d)) :
    ∃ l, d = { c with regs := { c.regs with v := l } } := by
  unfold takeV at h
  split at h
  · simp only [Option.some.injEq, Prod.mk.injEq] at h; exact ⟨c.regs.v, by rw [← h.2]⟩
  · split at h
    · split at h
      · exact absurd h (by simp)
      · simp only [Option.some.injEq, Prod.mk.injEq] at h; rw [← h.2]
        split
        · exact ⟨c.regs.v, rfl⟩
        · exact ⟨_, rfl⟩
    · simp only [Option.some.injEq, Prod.mk.injEq] at h; exact ⟨c.regs.v, by rw [← h.2]⟩

theorem takeB_regs {c d : Core} {b : SrcB} {x : Word} (h : takeB c b = some (x, d)) :
    ∃ l, d = { c with regs := { c.regs with s := l } } := by
  cases b with
  | reg r pk => exact takeS_regs h
  | imm v => simp only [takeB, Option.some.injEq, Prod.mk.injEq] at h; exact ⟨c.regs.s, by rw [← h.2]⟩

theorem takeBv_regs {c d : Core} {b : SrcB} {x : VReg} (h : takeBv c b = some (x, d)) :
    ∃ l, d = { c with regs := { c.regs with v := l } } := by
  cases b with
  | reg r pk => exact takeV_regs h
  | imm v => simp only [takeBv, Option.some.injEq, Prod.mk.injEq] at h; exact ⟨c.regs.v, by rw [← h.2]⟩

theorem takeCv_regs {c d : Core} {b : SrcC} {x : VReg} (h : takeCv c b = some (x, d)) :
    ∃ l, d = { c with regs := { c.regs with v := l } } := by
  cases b with
  | reg r => exact takeV_regs h
  | imm v => simp only [takeCv, Option.some.injEq, Prod.mk.injEq] at h; exact ⟨c.regs.v, by rw [← h.2]⟩

theorem takeV_run {slot : Fin 8} {r : Fin 16} {pk : Bool} {s : State} {x : VReg} {c : Core} (h : takeV s.core r pk = some (x, c)) :
    readV slot r pk s = .ok x { s with core := c } := by
  unfold takeV at h
  split at h
  · next h0 => subst h0; simp only [Option.some.injEq, Prod.mk.injEq] at h; obtain ⟨rfl, rfl⟩ := h; rfl
  · next h0 =>
    split at h
    · next hq =>
      split at h
      · exact absurd h (by simp)
      · next y l hl =>
        simp only [Option.some.injEq, Prod.mk.injEq] at h; obtain ⟨rfl, rfl⟩ := h
        cases pk
        · simpa using readV_take h0 hq hl
        · simpa using readV_peek h0 hq hl
    · next hq =>
      simp only [Option.some.injEq, Prod.mk.injEq] at h; obtain ⟨rfl, rfl⟩ := h
      exact readV_reg h0 (by simpa using hq)

theorem readV_g {slot : Fin 8} {r : Fin 16} {pk : Bool} {s : State} {c0 : Core} {k : Issue} {x : VReg} {c : Core} (h : takeV c0 r pk = some (x, c)) :
    readV slot r pk (gathered s c0 k) = .ok x (gathered s c k) := takeV_run (s := gathered s c0 k) h

theorem srcBv_g {slot : Fin 8} {b : SrcB} {s : State} {c0 : Core} {k : Issue} {x : VReg} {c : Core} (h : takeBv c0 b = some (x, c)) :
    srcBv slot b (gathered s c0 k) = .ok x (gathered s c k) := by
  cases b with
  | reg r pk => exact readV_g h
  | imm v => simp only [takeBv, Option.some.injEq, Prod.mk.injEq] at h; obtain ⟨rfl, rfl⟩ := h; rfl

theorem srcCv_g {slot : Fin 8} {b : SrcC} {s : State} {c0 : Core} {k : Issue} {x : VReg} {c : Core} (h : takeCv c0 b = some (x, c)) :
    srcCv slot b (gathered s c0 k) = .ok x (gathered s c k) := by
  cases b with
  | reg r => exact readV_g h
  | imm v => simp only [takeCv, Option.some.injEq, Prod.mk.injEq] at h; obtain ⟨rfl, rfl⟩ := h; rfl

/-- for vector ops -/

theorem vcompletes {i : Instr} {v1 : Bool} {gd : Guard} {body : Word → IssM Unit} {s g : State} {m : Word} (h : s.iss = none)
    (hm : activeMask s.core gd = m) (h0 : m ≠ 0) (hx : exec i s = runV i v1 gd body s)
    (hb : body m (gathered s s.core (opened i (vslot v1) s)) = .ok () g)
    (hs : g.issue.stall = none) (hc : g.issue.causes = []) : Completes i s g := by
  refine completes_of (slot := vslot v1) (on := fun c => vguardOn c gd) (body := do body (activeMask (← getCore) gd)) h ?_ hx ?_ hs hc
  · simpa [vguardOn, hm] using h0
  · simp only [issM_bind, getCore_run]
    have : (gathered s s.core (opened i (vslot v1) s)).core = s.core := rfl
    rw [this, hm]; exact hb

/-- The request table's entries are those before the bundle: no source changes them. -/
theorem requests_g {s : State} {c : Core} {k : Issue} (hi : c.id = s.core.id) (ho : c.ops = s.core.ops) :
    (gathered s c k).requests = s.requests := by
  simp only [State.requests, State.ghosts, gathered, hi, ho]

theorem issueTok_g {i : Instr} {sl slot : Fin 8} {s : State} {c : Core} {k : Tok} {cls : Nat} {after : List Nat} {kind : TokKind}
    (hr : Room s k) (hi : c.id = s.core.id) (ho : c.ops = s.core.ops) (hk : c.regs.k = s.core.regs.k) (hp : c.pc = s.core.pc)
    (hs : c.csr.sec = s.core.csr.sec) :
    issueTok slot (some k) cls after kind (gathered s c (opened i sl s)) =
      .ok s.nextId (issues i sl s c (leaving s slot (some k) cls after kind)) := by
  have h1 : ¬ 2048 ≤ (s.core.regs.k.get k).count := Nat.not_le.mpr hr.2
  have h2 : ¬ 2048 ≤ s.requests := Nat.not_le.mpr hr.1
  have h3 : ∀ k, (gathered s c k).requests = s.requests := fun _ => requests_g hi ho
  unfold gathered at h3
  simp [issueTok, issueErr, tokenRoom, gathered, opened, Issue.start, State.issue, Issue.counted, requestsOf, h3, hk, h1, h2, hp, hs, issues, leaving]

theorem linAddr_g {slot : Fin 8} {e : Word} {n : Nat} {l : List Nat} {s : State} (h : wellFormed e n) :
    linAddr slot e n l s = .ok (e.toNat % 2 ^ 48) s := by
  simp [linAddr, checkForm, h.1, h.2, vaOf]

theorem translate_g {slot : Fin 8} {w : Bool} : ∀ {l : List Nat} {xs : List Xl} {s : State}, Reach s w l xs → translate slot w l s = .ok xs s
  | [], [], s, _ => rfl
  | [], _ :: _, _, h => h.elim
  | _ :: _, [], _, h => h.elim
  | a :: l, x :: xs, s, ⟨h1, h2, h3, h4⟩ => by
    have ho : translateOne slot w a s = .ok x s := by
      have hl : ¬ 281474976710656 ≤ a := Nat.not_le.mpr h1
      simp [translateOne, hl, h2, h3]
    simp [Machine.translate, attempt_ok ho, translate_g h4]

theorem reach_congr {s : State} {w : Bool} {c : Core} {k : Option Issue} (hm : c.mem = s.core.mem) (hc : c.csr.sec = s.core.csr.sec) (hw : c.walkFails = s.core.walkFails) :
    ∀ {l : List Nat} {xs : List Xl}, Reach s w l xs → Reach { s with core := c, iss := k } w l xs
  | [], [], _ => trivial
  | [], _ :: _, h => h.elim
  | _ :: _, [], h => h.elim
  | a :: l, x :: xs, ⟨h1, h2, h3, h4⟩ => by
    refine ⟨h1, h2, ?_, reach_congr hm hc hw h4⟩
    rw [← h3]
    simp only [State.probe, Core.tlbFind, hm, hc, hw]
    rfl

theorem firstBytes_one {va n : Nat} (hn : n ∈ [1, 2, 4, 8, 16, 32, 64, 128, 256]) (h : va % n = 0) : firstBytes va n = [va] := by
  have h0 : n ≠ 0 := by rintro rfl; simp at hn
  have hp : (va + n - 1) / 4096 = va / 4096 := by
    simp only [List.mem_cons, List.not_mem_nil, or_false] at hn
    rcases hn with rfl | rfl | rfl | rfl | rfl | rfl | rfl | rfl | rfl <;> omega
  have : max va (4096 * (va / 4096)) = va := by omega
  simp [firstBytes, pagesOf, h0, hp, this]

theorem bind_ok {α β : Type} {m : IssM α} {f : α → IssM β} {s t : State} {a : α} {r : EStateM.Result Unit State β} (h : m s = .ok a t)
    (h2 : f a t = r) : (m >>= f) s = r := by simp [h, h2]

/-- Only the entries of s and v registers differ. -/

structure Same (c d : Core) : Prop where
  eq : ∃ l m, d = { c with regs := { c.regs with s := l, v := m } }

theorem Same.refl (c : Core) : Same c c := ⟨c.regs.s, c.regs.v, rfl⟩

theorem Same.trans {c d e : Core} (h : Same c d) (k : Same d e) : Same c e := by
  obtain ⟨l, m, rfl⟩ := h.eq; obtain ⟨l', m', rfl⟩ := k.eq; exact ⟨l', m', rfl⟩

theorem takeS_same {c d : Core} {r : Fin 16} {pk : Bool} {x : Word} (h : takeS c r pk = some (x, d)) : Same c d := by
  obtain ⟨l, rfl⟩ := takeS_regs h; exact ⟨l, c.regs.v, rfl⟩

theorem takeV_same {c d : Core} {r : Fin 16} {pk : Bool} {x : VReg} (h : takeV c r pk = some (x, d)) : Same c d := by
  obtain ⟨l, rfl⟩ := takeV_regs h; exact ⟨c.regs.s, l, rfl⟩

theorem takeB_same {c d : Core} {b : SrcB} {x : Word} (h : takeB c b = some (x, d)) : Same c d := by
  obtain ⟨l, rfl⟩ := takeB_regs h; exact ⟨l, c.regs.v, rfl⟩

theorem takeC_same {c d : Core} {b : SrcC} {x : Word} (h : takeC c b = some (x, d)) : Same c d := by
  cases b with
  | reg r => exact takeS_same h
  | imm v => simp only [takeC, Option.some.injEq, Prod.mk.injEq] at h; rw [← h.2]; exact .refl _

theorem takeBv_same {c d : Core} {b : SrcB} {x : VReg} (h : takeBv c b = some (x, d)) : Same c d := by
  obtain ⟨l, rfl⟩ := takeBv_regs h; exact ⟨c.regs.s, l, rfl⟩

theorem takeCv_same {c d : Core} {b : SrcC} {x : VReg} (h : takeCv c b = some (x, d)) : Same c d := by
  obtain ⟨l, rfl⟩ := takeCv_regs h; exact ⟨c.regs.s, l, rfl⟩

namespace Same

variable {c d : Core} (h : Same c d)
include h

theorem ops : d.ops = c.ops := by obtain ⟨l, m, rfl⟩ := h.eq; rfl

theorem mem : d.mem = c.mem := by obtain ⟨l, m, rfl⟩ := h.eq; rfl

theorem csr : d.csr = c.csr := by obtain ⟨l, m, rfl⟩ := h.eq; rfl

theorem wf : d.walkFails = c.walkFails := by obtain ⟨l, m, rfl⟩ := h.eq; rfl

theorem pc : d.pc = c.pc := by obtain ⟨l, m, rfl⟩ := h.eq; rfl

theorem k : d.regs.k = c.regs.k := by obtain ⟨l, m, rfl⟩ := h.eq; rfl

theorem a : d.regs.a = c.regs.a := by obtain ⟨l, m, rfl⟩ := h.eq; rfl

theorem p : d.regs.p = c.regs.p := by obtain ⟨l, m, rfl⟩ := h.eq; rfl

theorem hh : d.regs.h = c.regs.h := by obtain ⟨l, m, rfl⟩ := h.eq; rfl

theorem holds : d.holds = c.holds := by obtain ⟨l, m, rfl⟩ := h.eq; rfl

theorem id : d.id = c.id := by obtain ⟨l, m, rfl⟩ := h.eq; rfl

theorem mx : d.mx = c.mx := by obtain ⟨l, m, rfl⟩ := h.eq; rfl

theorem classAfter (n : Nat) : Machine.classAfter d n = Machine.classAfter c n := by obtain ⟨l, m, rfl⟩ := h.eq; rfl

theorem isOpen (i : Nat) : d.isOpen i = c.isOpen i := by obtain ⟨l, m, rfl⟩ := h.eq; rfl

theorem acquireIds : Machine.acquireIds d = Machine.acquireIds c := by obtain ⟨l, m, rfl⟩ := h.eq; rfl

theorem fenceIds (n : Nat) : Machine.fenceIds d n = Machine.fenceIds c n := by obtain ⟨l, m, rfl⟩ := h.eq; rfl

theorem releaseAfter : Machine.releaseAfter d = Machine.releaseAfter c := by obtain ⟨l, m, rfl⟩ := h.eq; rfl

theorem badLocal (o n : Nat) : d.badLocal o n = c.badLocal o n := by obtain ⟨l, m, rfl⟩ := h.eq; rfl

theorem isScratch (o : Nat) : d.isScratch o = c.isScratch o := by obtain ⟨l, m, rfl⟩ := h.eq; rfl

theorem badWordIn (o n : Nat) : Machine.badWordIn d o n = Machine.badWordIn c o n := by obtain ⟨l, m, rfl⟩ := h.eq; rfl

theorem address (o : FL) : Claims.address d o = Claims.address c o := by rw [Claims.address, Claims.address, h.a]

end Same

theorem gathered_core {s : State} {c : Core} {k : Issue} : (gathered s c k).core = c := rfl

theorem getCore_g {s : State} {c : Core} {k : Issue} : getCore (gathered s c k) = .ok c (gathered s c k) := rfl

theorem get_g {s : State} {c : Core} {k : Issue} : (get : IssM State) (gathered s c k) = .ok (gathered s c k) (gathered s c k) := rfl

theorem addrL_g {o : FL} {s : State} {c : Core} {k : Issue} (h : Same s.core c) : addrL o (gathered s c k) = .ok (address s.core o) (gathered s c k) := by
  rw [← h.address o]; rfl

theorem addrA_g {o : FL} {s : State} {c : Core} {k : Issue} (h : Same s.core c) : addrA o (gathered s c k) = .ok (s.core.regs.a.get o.a) (gathered s c k) := by
  rw [← h.a]; rfl

theorem classOf_eq (e : Word) : classOf e = e.toNat / 2 ^ 60 := by
  simp only [classOf, field]; have := e.isLt; omega

theorem access_g {slot : Fin 8} {w : Bool} {va n : Nat} {xs : List Xl} {s : State} {c : Core} {k : Issue}
    (h : Reach s w (firstBytes va n) xs) (hc : Same s.core c) :
    access slot w va n (gathered s c k) = .ok ⟨va, xs, s.core.csr.sec⟩ (gathered s c k) := by
  simp [access, gathered, translate_g (reach_congr hc.mem (by rw [hc.csr]) hc.wf h), hc.csr]

theorem laneAccess_g {slot : Fin 8} {w : Bool} {va : Nat} {m : Word} {xs : List Xl} {s : State} {c : Core} {k : Issue}
    (h : Reach s w (laneFirsts va m) xs) (hc : Same s.core c) :
    laneAccess slot w va m (gathered s c k) = .ok ⟨va, xs, s.core.csr.sec⟩ (gathered s c k) := by
  simp [laneAccess, gathered, translate_g (reach_congr hc.mem (by rw [hc.csr]) hc.wf h), hc.csr]

theorem issue_g {i : Instr} {sl slot : Fin 8} {s : State} {c : Core} {k : Tok} {cls : Nat} {after : List Nat} {kind : TokKind}
    (hr : Room s k) (hc : Same s.core c) :
    issueTok slot (some k) cls after kind (gathered s c (opened i sl s)) =
      .ok s.nextId (issues i sl s c (leaving s slot (some k) cls after kind)) := issueTok_g hr hc.id hc.ops hc.k hc.pc (by rw [hc.csr])

theorem mod48 (e n : Nat) (h : e % n = 0) (hn : n ∣ 2 ^ 48) : (e % 2 ^ 48) % n = 0 := by
  rw [Nat.mod_mod_of_dvd _ hn, h]

theorem width_cases (w : BitVec 3) : widthOf w ∈ [1, 2, 4, 8, 16, 32, 64, 128, 256] ∧ widthOf w ∣ 2 ^ 48 := by
  have : w.toNat % 4 < 4 := Nat.mod_lt _ (by decide)
  unfold widthOf
  generalize w.toNat % 4 = n at this
  match n, this with
  | 0, _ => decide
  | 1, _ => decide
  | 2, _ => decide
  | 3, _ => decide
  | n + 4, h => omega

end Sys2Proof.Laws
end

