-- ==== Sys2Proof/Laws/Results.lean ====
section
/-! SUPPORT. What the shared shapes of scalar and vector operations do: results that land, lane by lane operations, compares. -/

namespace Sys2Proof.Laws

open Sys2Proof Sys2Proof.Machine Sys2Proof.Claims

theorem aluS_ok {i : Instr} {o : FR} {lat : Nat} {f : Word → Word → Word} {s : State} {a b : Word} {c d : Core}
    (hx : exec i s = aluS i o lat f s)
    (h : s.iss = none) (hg : guardOn s.core o.g = true) (ha : takeS s.core o.a.r o.a.pk = some (a, c)) (hb : takeB c o.b = some (b, d)) :
    Completes i s (lands i 0 s d (result s 0 lat (.s o.d) (.w (f a b)) allOnes none)) := by
  refine completes_of h hg hx ?_ rfl rfl
  simp only [issM_bind, readSq, readS_g ha, srcBs_g hb, landS_run, landAt_g ((takeB_pc hb).trans (takeS_pc ha))]

theorem fpS_ok {i : Instr} {o : FR} {lat : Nat} {f : Nat → Nat → FRes} {s : State} {a b : Word} {c d : Core}
    (hx : exec i s = fpS i o lat f s)
    (h : s.iss = none) (hg : guardOn s.core o.g = true) (ha : takeS s.core o.a.r o.a.pk = some (a, c)) (hb : takeB c o.b = some (b, d)) :
    Completes i s (lands i 0 s d (result s 0 lat (.s o.d) (.w (onF32 f a b).1) allOnes ((onF32 f a b).2.map fun f => ⟨f, 0⟩))) := by
  refine completes_of h hg hx ?_ rfl rfl
  simp only [issM_bind, readSq, readS_g ha, srcBs_g hb, landAt_g ((takeB_pc hb).trans (takeS_pc ha))]
  rfl

theorem cmpS_ok {i : Instr} {o : FC} {lat : Nat} {f : Word → Word → Bool} {s : State} {a b : Word} {c d : Core}
    (hx : exec i s = cmpS i o lat f s)
    (h : s.iss = none) (hg : guardOn s.core o.g = true) (ha : takeS s.core o.a false = some (a, c)) (hb : takeC c o.b = some (b, d)) :
    Completes i s (lands i 0 s d (result s 0 lat (.p o.p) (.w (if f a b then BitVec.allOnes 64 else 0)) allOnes none)) := by
  refine completes_of h hg hx ?_ rfl rfl
  simp only [issM_bind, readS_g ha, srcCs_g hb, landP_run, landAt_g ((takeC_pc hb).trans (takeS_pc ha))]
  rfl

theorem aluS_ok' {i : FR → Instr} {o : FR} {lat : Nat} {f g : Word → Word → Word} {s : State} {a b : Word} {c d : Core}
    (hx : exec (i o) s = aluS (i o) o lat f s) (hf : f = g)
    (h : s.iss = none) (hg : guardOn s.core o.g = true) (ha : takeS s.core o.a.r o.a.pk = some (a, c)) (hb : takeB c o.b = some (b, d)) :
    let x : (FR → Instr) × Nat × (Word → Word → Word × Option (BitVec 2)) := (i, lat, exactly g)
    Completes (x.1 o) s (lands (x.1 o) 0 s d
      (result s 0 x.2.1 (.s o.d) (.w (x.2.2 a b).1) allOnes ((x.2.2 a b).2.map fun f => ⟨f, 0⟩))) := by
  subst hf
  exact aluS_ok hx h hg ha hb

theorem land_g {slot : Fin 8} {lat : Nat} {d : Dest} {x : Val} {m : Word} {f : Option Fev} {i : Instr} {sl : Fin 8} {s : State} {c : Core} (h : Same s.core c) :
    landAt slot lat d x m f (gathered s c (opened i sl s)) = .ok () (lands i sl s c (result s slot lat d x m f)) := landAt_g h.pc

theorem unS_ok {i : Instr} {o : FR} {f g : Word → Word} {s : State} {a : Word} {c : Core}
    (hx : exec i s = unS i o f s) (hf : f = g) (h : s.iss = none) (hg : guardOn s.core o.g = true) (ha : takeS s.core o.a.r o.a.pk = some (a, c)) :
    Completes i s (lands i 0 s c (result s 0 1 (.s o.d) (.w (g a)) allOnes none)) := by
  subst hf
  refine completes_of h hg hx ?_ rfl rfl
  refine bind_ok (readS_g ha) ?_
  exact land_g (takeS_same ha)

theorem imm_eq (i : ImmI) : BitVec.ofInt 64 (immInt i) = immediate i := by
  cases i with
  | short v immInt_eq =>
    cases immInt_eq
    · simp only [immInt, immediate, Bool.false_eq_true, if_false]
      apply BitVec.eq_of_toNat_eq; simp
    · simp only [immInt, immediate, if_true]
      have : ∀ v : BitVec 4, BitVec.ofInt 64 (sextInt v.toNat 4) = v.signExtend 64 := by decide
      exact this v
  | long v => rfl

theorem landV_g {v1 : Bool} {lat : Nat} {d : Fin 16} {m : Word} {f : Nat → FRes} {i : Instr} {s : State} {c : Core} (h : Same s.core c) :
    landV v1 lat d (resV ((List.range 64).map f)) m (laneFev m ((List.range 64).map f)) (gathered s c (opened i (vslot v1) s)) =
      .ok () (lands i (vslot v1) s c (vresult s v1 lat d m f)) := by
  rw [resV_map, laneFev_map]
  exact land_g h

theorem lane1_ok {i : Instr} {v1 : Bool} {o : FR} {lat : Nat} {f g : Nat → FRes} {s : State} {m : Word} {a : VReg} {c : Core}
    (hx : exec i s = lane1 i v1 o lat f s) (hf : f = g) (h : s.iss = none) (hm : activeMask s.core o.g = m) (h0 : m ≠ 0)
    (ha : takeV s.core o.a.r o.a.pk = some (a, c)) :
    Completes i s (lands i (vslot v1) s c (vresult s v1 lat o.d m fun i => g (vlane a i).toNat)) := by
  subst hf
  refine vcompletes h hm h0 hx ?_ rfl rfl
  refine bind_ok (readV_g ha) ?_
  rw [map_lanes]
  exact landV_g (takeV_same ha)

theorem lane2_ok {i : Instr} {v1 : Bool} {o : FR} {lat : Nat} {f g : Nat → Nat → FRes} {s : State} {m : Word} {a b : VReg} {c d : Core}
    (hx : exec i s = lane2 i v1 o lat f s) (hf : ∀ x y : Lane, f x.toNat y.toNat = g x.toNat y.toNat) (h : s.iss = none) (hm : activeMask s.core o.g = m) (h0 : m ≠ 0)
    (ha : takeV s.core o.a.r o.a.pk = some (a, c)) (hb : takeBv c o.b = some (b, d)) :
    Completes i s (lands i (vslot v1) s d (vresult s v1 lat o.d m fun i => g (vlane a i).toNat (vlane b i).toNat)) := by
  refine vcompletes h hm h0 hx ?_ rfl rfl
  refine bind_ok (readV_g ha) ?_
  refine bind_ok (srcBv_g hb) ?_
  rw [zipWith_lanes]
  simp only [hf]
  exact landV_g ((takeV_same ha).trans (takeBv_same hb))

theorem lane3_ok {i : Instr} {v1 : Bool} {o : FR} {lat : Nat} {f g : Nat → Nat → Nat → FRes} {s : State} {m : Word} {a b z : VReg} {c d e : Core}
    (hx : exec i s = lane3 i v1 o lat f s) (hf : ∀ x y z : Lane, f x.toNat y.toNat z.toNat = g x.toNat y.toNat z.toNat) (h : s.iss = none) (hm : activeMask s.core o.g = m) (h0 : m ≠ 0)
    (ha : takeV s.core o.a.r o.a.pk = some (a, c)) (hb : takeBv c o.b = some (b, d)) (hz : takeV d o.d false = some (z, e)) :
    Completes i s (lands i (vslot v1) s e (vresult s v1 lat o.d m fun i => g (vlane a i).toNat (vlane b i).toNat (vlane z i).toNat)) := by
  refine vcompletes h hm h0 hx ?_ rfl rfl
  refine bind_ok (readV_g ha) ?_
  refine bind_ok (srcBv_g hb) ?_
  refine bind_ok (readV_g hz) ?_
  rw [zip_lanes, toList_vlane a, List.zipWith_map_left, List.zipWith_map_right, List.zipWith_self]
  simp only [hf]
  exact landV_g (((takeV_same ha).trans (takeBv_same hb)).trans (takeV_same hz))

theorem sext32 (x : Lane) : sextInt x.toNat 32 = x.toInt := by
  have h := x.isLt
  rw [BitVec.toInt_eq_toNat_cond]
  simp only [sextInt]
  rw [Nat.mod_eq_of_lt h]
  have e31 : 2 * 2 ^ (32 - 1) = (2 ^ 32 : Nat) := by decide
  split <;> split <;> first | rfl | omega

theorem sra32 (x : Lane) (n : Nat) : toTwos 32 (sextInt x.toNat 32 / ((2 ^ n : Nat) : Int)) = (x.sshiftRight n).toNat := by
  rw [sext32, toTwos, BitVec.sshiftRight, BitVec.toNat_ofInt, Int.shiftRight_eq_div_pow]

theorem lane1_ok' {i : Bool → FR → Instr} {v1 : Bool} {o : FR} {lat : Nat} {f g : Nat → FRes} {s : State} {m : Word} {a : VReg} {c : Core}
    (hx : exec (i v1 o) s = lane1 (i v1 o) v1 o lat f s) (hf : f = g) (h : s.iss = none) (hm : activeMask s.core o.g = m) (h0 : m ≠ 0)
    (ha : takeV s.core o.a.r o.a.pk = some (a, c)) :
    let x : (Bool → FR → Instr) × Nat × (Nat → FRes) := (i, lat, g)
    Completes (x.1 v1 o) s (lands (x.1 v1 o) (vslot v1) s c (vresult s v1 x.2.1 o.d m fun i => x.2.2 (vlane a i).toNat)) :=
  lane1_ok hx hf h hm h0 ha

theorem lane2_ok' {i : Bool → FR → Instr} {v1 : Bool} {o : FR} {lat : Nat} {f g : Nat → Nat → FRes} {s : State} {m : Word} {a b : VReg} {c d : Core}
    (hx : exec (i v1 o) s = lane2 (i v1 o) v1 o lat f s) (hf : ∀ x y : Lane, f x.toNat y.toNat = g x.toNat y.toNat) (h : s.iss = none) (hm : activeMask s.core o.g = m) (h0 : m ≠ 0)
    (ha : takeV s.core o.a.r o.a.pk = some (a, c)) (hb : takeBv c o.b = some (b, d)) :
    let x : (Bool → FR → Instr) × Nat × (Nat → Nat → FRes) := (i, lat, g)
    Completes (x.1 v1 o) s (lands (x.1 v1 o) (vslot v1) s d (vresult s v1 x.2.1 o.d m fun i => x.2.2 (vlane a i).toNat (vlane b i).toNat)) :=
  lane2_ok hx hf h hm h0 ha hb

theorem lane3_ok' {i : Bool → FR → Instr} {v1 : Bool} {o : FR} {f g : Nat → Nat → Nat → FRes} {s : State} {m : Word} {a b z : VReg} {c d e : Core}
    (hx : exec (i v1 o) s = lane3 (i v1 o) v1 o 4 f s) (hf : ∀ x y z : Lane, f x.toNat y.toNat z.toNat = g x.toNat y.toNat z.toNat) (h : s.iss = none) (hm : activeMask s.core o.g = m) (h0 : m ≠ 0)
    (ha : takeV s.core o.a.r o.a.pk = some (a, c)) (hb : takeBv c o.b = some (b, d)) (hz : takeV d o.d false = some (z, e)) :
    let x : (Bool → FR → Instr) × (Nat → Nat → Nat → FRes) := (i, g)
    Completes (x.1 v1 o) s (lands (x.1 v1 o) (vslot v1) s e (vresult s v1 4 o.d m fun i => x.2 (vlane a i).toNat (vlane b i).toNat (vlane z i).toNat)) :=
  lane3_ok hx hf h hm h0 ha hb hz

theorem pmask_congr {f g : Nat → Bool} (h : ∀ i, i < 64 → f i = g i) : pmask f = pmask g := by
  unfold pmask
  rw [List.filter_congr (q := g) fun i hi => h i (List.mem_range.mp hi)]

theorem condF_eq (cc : BitVec 2) (a b : Nat) : condF cc a b = floatCond cc a b := by
  have : ∀ cc : BitVec 2, cc = 0 ∨ cc = 1 ∨ cc = 2 ∨ cc = 3 := by decide
  rcases this cc with rfl | rfl | rfl | rfl <;> rfl

theorem condI_eq (cc : BitVec 2) (a b : Lane) : condI cc a.toNat b.toNat = intCond cc a b := by
  have : ∀ cc : BitVec 2, cc = 0 ∨ cc = 1 ∨ cc = 2 ∨ cc = 3 := by decide
  rcases this cc with rfl | rfl | rfl | rfl
  · simp only [condI, intCond]; exact (Bool.eq_iff_iff.mpr (by simp [BitVec.toNat_inj]) : (a.toNat == b.toNat) = (a == b))
  · simp only [condI, intCond, sext32]; rfl
  · simp only [condI, intCond, sext32]; rfl
  · rfl

theorem immInt_eq (i : ImmI) : immInt i = (immediate i).toInt := by
  cases i with
  | short v immInt_eq =>
    cases immInt_eq
    · have : ∀ v : BitVec 4, ((v.toNat : Int)) = (v.zeroExtend 64).toInt := by decide
      exact this v
    · have : ∀ v : BitVec 4, sextInt v.toNat 4 = (v.signExtend 64).toInt := by decide
      exact this v
  | long v =>
    simp only [immInt, immediate]
    rw [BitVec.toInt_signExtend_of_le (by decide)]

theorem active_same {c d : Core} (h : Same c d) (g : Guard) : activeMask d g = activeMask c g := by
  simp only [activeMask, h.p]

theorem vmov_g {v1 : Bool} {lat : Nat} {d : Fin 16} {m : Word} {f : Nat → Lane} {x : VReg} {i : Instr} {s : State} {c : Core} (h : Same s.core c)
    (hx : x = vlanes f) :
    landV v1 lat d x m none (gathered s c (opened i (vslot v1) s)) = .ok () (lands i (vslot v1) s c (vmoved s v1 lat d m f)) := by
  subst hx
  exact land_g h

theorem findFrom_none {p : Nat → Bool} : ∀ {n i : Nat}, (∀ j, i ≤ j → j < i + n → p j = false) → findFrom p n i = none
  | 0, _, _ => rfl
  | n + 1, i, h => by
    rw [findFrom, h i (by omega) (by omega)]
    exact findFrom_none fun j h1 h2 => h j (by omega) (by omega)

theorem withId_eq (code : Nat) (m : Word) (a : VReg) : withId code m a = (List.range 64).map fun i => if plane m i then (vlane a i).toNat else redId code := by
  rw [withId, toList_vlane a, List.zipWith_map_right, List.zipWith_self]

end Sys2Proof.Laws
end

