-- ==== Sys2Proof/Laws/Accesses.lean ====
section
/-! SUPPORT. What the shared operations over memory and handles do: local and linear accesses, holds, lane checks, cursors, policies. -/

namespace Sys2Proof.Laws

open Sys2Proof Sys2Proof.Machine Sys2Proof.Claims

theorem pure_b {α : Type} {a : α} {s : State} : (pure a : IssM α) s = .ok a s := rfl

theorem holdFor_g {slot : Fin 8} {after : List Nat} {line : Option Nat} {s : State} {c : Core} {k : Issue} (hc : Same s.core c)
    (h : HoldOver s slot) : holdFor slot after line (gathered s c k) = .ok () (gathered s c k) := by
  obtain ⟨h1, h2, h3, h4⟩ := h
  simp [holdFor, gathered_core, hc.holds, h2, h3, h4]

theorem sync_g {slot : Fin 8} {i : Instr} {sl : Fin 8} {scope : BitVec 3} {w : Bool} {l : Lin} {s : State} {c : Core} (hc : Same s.core c)
    (h : Accepted s slot scope l) :
    synchronise slot scope w l (gathered s c (opened i sl s)) = .ok ()
      (gathered s c { opened i sl s with scopes := [⟨l.pa / 128, s.core.id, scope⟩] }) := by
  obtain ⟨h1, h2, h3, h4⟩ := h
  have e2 : (gathered s c (opened i sl s)).linWaits l (gathered s c (opened i sl s)).clock = false := h2
  have e3 : (gathered s c (opened i sl s)).deadHome l.pa = false := h3
  refine bind_ok (holdFor_g hc h1) ?_
  refine bind_ok get_g ?_
  simp only [e2, e3]
  refine bind_ok pure_b ?_
  refine bind_ok pure_b ?_
  have e4 : scopeRecord (gathered s c (opened i sl s)) (l.pa / 128) = scopeRecord s (l.pa / 128) := rfl
  have e5 : (gathered s c (opened i sl s)).core.id = s.core.id := hc.id
  rw [e4]
  cases hq : scopeRecord s (l.pa / 128) with
  | none => simp [gathered, opened, Issue.start, hc.id]
  | some r => simp [gathered, opened, Issue.start, hc.id, h4 r hq]

theorem syncIssue_g {slot : Fin 8} {i : Instr} {scope : BitVec 3} {l : Lin} {s : State} {c : Core} {k : Tok} {cls : Nat}
    {after : List Nat} {kind : TokKind} (hr : Room s k) (hc : Same s.core c) :
    issueTok slot (some k) cls after kind
      (gathered s c { opened i slot s with scopes := [⟨l.pa / 128, s.core.id, scope⟩] }) =
      .ok s.nextId (synchronises i slot scope s c l (some k) cls after kind) := by
  have h1 : ¬ 2048 ≤ (s.core.regs.k.get k).count := Nat.not_le.mpr hr.2
  have h2 : ¬ 2048 ≤ s.requests := Nat.not_le.mpr hr.1
  have h3 : ∀ k, (gathered s c k).requests = s.requests := fun _ => requests_g hc.id hc.ops
  unfold gathered at h3
  simp [issueTok, issueErr, tokenRoom, gathered, opened, Issue.start, State.issue, Issue.counted, requestsOf, h3, hc.k, hc.csr, h1, h2, hc.pc, leaving, synchronises]

theorem atomAfter_eq {s : State} {c : Core} (hc : Same s.core c) (ctl : BitVec 7) (cls : Nat) :
    atomAfter c ctl cls = if 2 ≤ ctl.toNat / 2 ^ 5 then releaseAfter s.core else classAfter s.core cls := by
  have : ordOf ctl = ctl.toNat / 2 ^ 5 := by
    simp only [ordOf, field]; have := ctl.isLt; omega
  rw [atomAfter, this, hc.releaseAfter, hc.classAfter]

theorem atomSize_eq (ctl : BitVec 7) : atomSize ctl = if ctl.toNat / 2 ^ 4 % 2 = 1 then 8 else 4 := by
  simp [atomSize, bit]

theorem localAddr_g {slot : Fin 8} {e : Word} {n : Nat} {s : State} (h : wellFormedLocal e n) :
    localAddr slot e n s = .ok (e.toNat % 2 ^ 21) s := by
  have : field e.toNat 0 21 = e.toNat % 2 ^ 21 := by simp [field]
  simp [localAddr, h.1, h.2, this]

theorem checkLocal_g {slot : Fin 8} {off n : Nat} {s : State} {c : Core} {k : Issue} (hc : Same s.core c) (h : s.core.badLocal off n = none) :
    checkLocal slot off n (gathered s c k) = .ok () (gathered s c k) := by
  simp [checkLocal, gathered_core, hc.badLocal, h]

theorem addBanks_g {i : Instr} {sl : Fin 8} {s : State} {c : Core} {l : List (Nat × Bool × Nat)} :
    addBanks l (gathered s c (opened i sl s)) = .ok () (gathered s c { opened i sl s with banks := l }) := by
  simp [addBanks, gathered, opened, Issue.start]

theorem forM_lands {slot : Fin 8} {lat : Nat} {s : State} {c : Core} (hp : c.pc = s.core.pc) : ∀ {l : List (Dest × Val × Word)} {k : Issue},
    l.forM (fun r => landAt slot lat r.1 r.2.1 r.2.2 none) (gathered s c k) =
      .ok () (gathered s c { k with lands := k.lands ++ l.map fun r => result s slot lat r.1 r.2.1 r.2.2 none })
  | [], k => by simp
  | r :: l, k => by
    show (landAt slot lat r.1 r.2.1 r.2.2 none >>= fun _ => l.forM _) (gathered s c k) = _
    refine bind_ok (landAt_run _ _ _ _ _ _ _) ?_
    have : ({ gathered s c k with iss := (gathered s c k).iss.map fun i => { i with lands := i.lands ++
      [⟨(gathered s c k).clock + lat, (gathered s c k).clock, slot, (gathered s c k).core.pc, r.1, r.2.1, r.2.2, none, false⟩] } } : State) =
      gathered s c { k with lands := k.lands ++ [result s slot lat r.1 r.2.1 r.2.2 none] } := by
      simp [gathered, result, hp]
    rw [this, forM_lands hp]
    simp

/-- Nothing that a local access waits for is outstanding: it has its turn (R37, R199, R233). -/
theorem localTurn_g {cls : Nat} {s : State} {c : Core} {k : Issue} (hc : Same s.core c) (hu : Unheld s cls) :
    localTurn cls (gathered s c k) = .ok () (gathered s c k) := by
  have : c.settled (classAfter c cls) = true := by
    simp only [Core.settled, List.all_eq_true]
    intro i hi
    rw [hc.isOpen i, hu i (by rwa [hc.classAfter] at hi)]; rfl
  simp [localTurn, gathered_core, this]

theorem issueLocal_g {i : Instr} {slot : Fin 8} {s : State} {c : Core} {k : Tok} {cls : Nat} {banks : List (Nat × Bool × Nat)}
    {l : List (Dest × Val × Word)} (hr : TokenRoom s k) (hc : Same s.core c) :
    issueErr slot (some k) cls [] (.local l) none (gathered s c { opened i slot s with banks := banks }) =
      .ok s.nextId { gathered s c { opened i slot s with banks := banks, ops := [leaving s slot (some k) cls [] (.local l)] } with
        nextId := s.nextId + 1, draws := s.draws + 1 } := by
  have h1 : ¬ 2048 ≤ (s.core.regs.k.get k).count := Nat.not_le.mpr hr
  have h2 : (TokKind.local l).isRequest = false := rfl
  simp [issueErr, tokenRoom, gathered, opened, Issue.start, State.issue, Issue.counted, h2, hc.k, hc.csr, h1, hc.pc, leaving]

theorem landLocal_g {i : Instr} {slot : Fin 8} {s : State} {c : Core} {k : Tok} {cls lat : Nat} {banks : List (Nat × Bool × Nat)}
    {l : List (Dest × Val × Word)} (hr : s.core.csr.scr = true → TokenRoom s k) (hu : Unheld s cls) (hc : Same s.core c) :
    landLocal slot k cls lat none l (gathered s c { opened i slot s with banks := banks }) = .ok () (loads i slot s c k cls lat banks l) := by
  unfold landLocal loads
  refine bind_ok (localTurn_g hc hu) ?_
  refine bind_ok (getCore_run _) ?_
  cases h : s.core.csr.scr with
  | true => simp only [gathered_core, hc.csr, h, if_true, Option.map_none, issM_bind, issueLocal_g (hr h) hc, issM_pure]
  | false =>
    simp only [gathered_core, hc.csr, h, Bool.false_eq_true, if_false]
    rw [forM_lands hc.pc]
    simp [opened, Issue.start]

theorem onesFrom_eq (x : Nat) : ∀ n i, onesFrom n i (x / 2 ^ i) = (List.range' i n).filter fun j => bit x j := by
  intro n
  induction n with
  | zero => intro i; rfl
  | succ n ih =>
    intro i
    have : x / 2 ^ i / 2 = x / 2 ^ (i + 1) := by rw [Nat.div_div_eq_div_mul, Nat.pow_succ]
    simp only [onesFrom, this, ih, List.range'_succ, List.filter_cons, bit]

theorem ones_eq (n x : Nat) : ones n x = (List.range n).filter fun j => bit x j := by
  have := onesFrom_eq x n 0
  simpa [List.range_eq_range', ones] using this

theorem lanesOf_eq (m : Word) : lanesOf m = (List.range 64).filter (plane m) := ones_eq 64 m.toNat

theorem mem_lanesOf {m : Word} {i : Nat} : i ∈ lanesOf m ↔ i < 64 ∧ plane m i = true := by simp [lanesOf_eq]

theorem vlocal_g {i : Instr} {slot : Fin 8} {s : State} {c : Core} {e m : Word} (hc : Same s.core c) (hw : wellFormedLocal e 4)
    (h : lanesLocal s.core m (fun i => e.toNat % 2 ^ 21 + 4 * i)) :
    vlocal slot e m (gathered s c (opened i slot s)) = .ok (e.toNat % 2 ^ 21) (gathered s c { opened i slot s with
      banks := rowBanks m (e.toNat % 2 ^ 21) }) := by
  refine bind_ok (localAddr_g hw) ?_
  refine bind_ok addBanks_g ?_
  refine bind_ok getCore_g ?_
  have : ((lanesOf m).find? fun i => (c.badLocal (e.toNat % 2 ^ 21 + 4 * i) 4).isSome) = none := by
    rw [List.find?_eq_none]
    intro j hj
    obtain ⟨h1, h2⟩ := mem_lanesOf.mp hj
    rw [hc.badLocal, h j h1 h2]; simp
  simp only [this]
  rfl

theorem badLane_g {s : State} {c : Core} {off : Nat → Nat} (hc : Same s.core c) (l : List Nat)
    (h : ∀ i ∈ l, badWordIn s.core (off i) 4 = none) : badLane c (l.map off) = none := by
  have : (l.map off).filterMap (fun o => badWordIn c o 4) = [] := by
    rw [List.filterMap_eq_nil_iff]
    intro a ha
    obtain ⟨i, hi, rfl⟩ := List.mem_map.mp ha
    rw [hc.badWordIn, h i hi]
  simp [badLane, this]

theorem forM_stores {s : State} {c : Core} {off : Nat → Nat} {bs : Nat → List Byte} : ∀ {l : List Nat} {k : Issue},
    (l.forM fun i => localWrite (off i) (bs i)) (gathered s c k) =
      .ok () (gathered s c { k with lwr := k.lwr ++ l.map fun i => ⟨off i, bs i⟩ })
  | [], k => by simp
  | r :: l, k => by
    show (localWrite (off r) (bs r) >>= fun _ => l.forM _) (gathered s c k) = _
    refine bind_ok (t := gathered s c { k with lwr := k.lwr ++ [⟨off r, bs r⟩] }) (a := ()) rfl ?_
    rw [forM_stores]
    simp

theorem lanes_valid {c : Core} {m : Word} {off : Nat → Nat} {n : Nat} (h1 : ∀ i, i < n → plane m i = true → offValid c (off i) = true)
    (h2 : n < 64 → plane m n = true ∧ offValid c (off n) = false) (h3 : n ≤ 64) :
    ((lanesOf m).find? fun i => !offValid c (off i)).getD 64 = n := by
  rw [lanesOf_eq]
  by_cases hn : n < 64
  · have : ((List.range 64).filter (plane m)).find? (fun i => !offValid c (off i)) = some n := by
      rw [List.find?_filter, List.find?_range_eq_some]
      refine ⟨by simp [h2 hn], by simpa using hn, ?_⟩
      intro j hj
      by_cases hp : plane m j = true
      · simp [hp, h1 j hj hp]
      · simp [hp]
    rw [this]; rfl
  · have hn' : n = 64 := by omega
    have : ((List.range 64).filter (plane m)).find? (fun i => !offValid c (off i)) = none := by
      rw [List.find?_eq_none]
      intro j hj
      simp only [List.mem_filter, List.mem_range] at hj
      simp [h1 j (by omega) hj.2]
    rw [this, hn']; rfl

theorem bit_testBit (x i : Nat) : bit x i = x.testBit i := by
  rw [Nat.testBit_eq_decide_div_mod_eq, bit]; rfl

theorem testBit_ofOnes (l : List Nat) (i : Nat) : ∀ acc : Nat, (l.foldl (fun acc i => acc ||| 2 ^ i) acc).testBit i = (acc.testBit i || l.contains i) := by
  induction l with
  | nil => simp
  | cons a l ih =>
    intro acc
    simp only [List.foldl_cons, ih, Nat.testBit_or, Nat.testBit_two_pow, List.contains_cons]
    by_cases h : a = i
    · subst h; simp
    · have : (i == a) = false := by simpa using Ne.symm h
      simp [h, this]

theorem plane_pmask (f : Nat → Bool) (i : Nat) (h : i < 64) : plane (pmask f) i = f i := by
  rw [plane, pmask, bit_testBit, BitVec.toNat_ofNat, Nat.testBit_mod_two_pow, ofOnes, testBit_ofOnes]
  simp [h]

theorem translateFF_g {slot : Fin 8} {s : State} : ∀ {l r : List Nat} {xs : List Xl}, Reach s false l xs →
    (∀ a r', r = a :: r' → 2 ^ 48 ≤ a ∨ (a < 2 ^ 48 ∧ ihOffset a = none ∧
      (s.probe s.core.csr.sec false a = .fault 0x1A ∨ s.probe s.core.csr.sec false a = .fault 0x1C))) →
    translateFF slot (l ++ r) s = .ok (xs, r.head?) s
  | [], [], [], _, _ => rfl
  | [], a :: r, [], _, h => by
    rcases h a r rfl with h | ⟨h1, h2, h3 | h3⟩
    · rw [List.nil_append, translateFF]
      refine bind_ok (t := s) (a := s) rfl ?_
      rw [if_neg (Nat.not_lt.mpr h)]
      rfl
    all_goals
      rw [List.nil_append, translateFF]
      refine bind_ok (t := s) (a := s) rfl ?_
      rw [if_pos h1, h2]
      dsimp only
      rw [h3]
      rfl
  | [], _, _ :: _, h, _ => h.elim
  | _ :: _, _, [], h, _ => h.elim
  | a :: l, r, x :: xs, ⟨h1, h2, h3, h4⟩, hr => by
    rw [List.cons_append, translateFF]
    refine bind_ok (t := s) (a := s) rfl ?_
    rw [if_pos h1, h2]
    dsimp only
    rw [h3]
    exact bind_ok (translateFF_g h4 hr) rfl

theorem notBinding {c : Core} {h : Fin 16} (hb : ∀ o ∈ c.ops, ∀ e l, o.kind ≠ .tbind h e l) : c.binding h = false := by
  rw [Core.binding, List.any_eq_false]
  intro o ho
  cases hk : o.kind <;> simp
  rename_i k e l
  intro he
  subst he
  exact hb o ho e l hk

theorem needBound_g {h : Fin 16} {s : State} {c : Core} {k : Issue} (hc : Same s.core c) (hb : ∀ o ∈ s.core.ops, ∀ e l, o.kind ≠ .tbind h e l) :
    needBound h (gathered s c k) = .ok () (gathered s c k) := by
  have : c.binding h = false := notBinding (by rw [hc.ops]; exact hb)
  simp [needBound, gathered_core, this]

theorem bound_g {slot : Fin 8} {h : Fin 16} {x : Handle} {s : State} {c : Core} {k : Issue} (hc : Same s.core c) (hb : Bound s h x) :
    bound slot h (gathered s c k) = .ok x (gathered s c k) := by
  refine bind_ok (needBound_g hc hb.2) ?_
  refine bind_ok getCore_g ?_
  simp only [hc.hh, hb.1]
  rfl

theorem world_g {slot : Fin 8} {h : Fin 16} {x : Handle} {s : State} {c : Core} {k : Issue} (hc : Same s.core c) (hb : InWorld s x) :
    checkWorld slot h x (gathered s c k) = .ok () (gathered s c k) := by
  unfold checkWorld
  refine bind_ok getCore_g ?_
  rw [hc.csr]
  cases hw : dWorld x.desc with
  | false => rfl
  | true => simp [hb hw]

theorem runHandle_g {slot : Fin 8} {o : FL} {x : Handle} {s : State} {c : Core} {k : Issue} (hc : Same s.core c) (hb : Bound s o.a x) (hw : InWorld s x)
    (h8 : bit o.w.toNat 0 = true → dEtype x.desc ≠ 8) : runHandle slot o (gathered s c k) = .ok x (gathered s c k) := by
  refine bind_ok (bound_g hc hb) ?_
  have : (wideOf o && dEtype x.desc == 8) = false := by
    cases hwd : wideOf o with
    | false => rfl
    | true => simpa using h8 hwd
  simp only [this]
  exact bind_ok (world_g hc hw) rfl

theorem advance_g {i : Instr} {sl : Fin 8} {s : State} {c : Core} {op : TokOp} {o : FL} {x : Handle} :
    advance o x (issues i sl s c op) = .ok () (handles i sl s c op
      (if bit o.w.toNat 1 then [CurUpd.add o.a 0 (BitVec.ofNat 32 (64 * if bit o.w.toNat 0 then 1 else 32 / elemBits (dEtype x.desc)))] else [])) := by
  unfold advance advOf
  split
  · rfl
  · simp [issues, handles, gathered, opened, Issue.start]

theorem needEntry_g {c1 : Bool} {s : State} {k : Issue} (h : s.entries c1 < 64) : needEntry c1 (gathered s s.core k) = .ok () (gathered s s.core k) := by
  refine bind_ok get_g ?_
  have : (gathered s s.core k).entries c1 = s.entries c1 := rfl
  rw [this, if_neg (by omega)]
  rfl

theorem coordinate_g {slot : Fin 8} {h : Fin 16} {a : Word} {x : Handle} {n : Fin 6} {s : State} {c : Core} {k : Issue} (hc : Same s.core c) (hb : Bound s h x)
    (hn : a.toNat = n.val) : coordinate slot h a (gathered s c k) = .ok n (gathered s c k) := by
  refine bind_ok (needBound_g hc hb.2) ?_
  refine bind_ok getCore_g ?_
  have := n.isLt
  simp [hc.hh, hb.1, hn, this]

theorem setPolicy_g {slot : Fin 8} {h : Fin 16} {x : Handle} {i : Instr} {s : State} {c : Core} {xs : List Xl} {fs : List (Nat × Nat × Nat)} (hc : Same s.core c)
    (hx : Reach s true (firstBytes (x.addr.toNat % 2 ^ 48) 128) xs) (hr : Ready s slot ⟨x.addr.toNat % 2 ^ 48, xs, s.core.csr.sec⟩) :
    setPolicy slot h x fs (gathered s c (opened i slot s)) = .ok () (policies i slot s c h ⟨x.addr.toNat % 2 ^ 48, xs, s.core.csr.sec⟩ fs) := by
  obtain ⟨⟨h1, h2, h3⟩, h4, h5, h6⟩ := hr
  refine bind_ok (access_g hx hc) ?_
  refine bind_ok getCore_g ?_
  refine bind_ok (t := gathered s c (opened i slot s)) (a := ()) ?_ ?_
  · simp [holdFor, gathered_core, hc.holds, h2, h3]
  refine bind_ok get_g ?_
  have e4 : (gathered s c (opened i slot s)).linWaits ⟨x.addr.toNat % 2 ^ 48, xs, s.core.csr.sec⟩ (gathered s c (opened i slot s)).clock = false := h4
  have e5 : (gathered s c (opened i slot s)).deadHome (Lin.pa ⟨x.addr.toNat % 2 ^ 48, xs, s.core.csr.sec⟩) = false := h5
  have e6 : (gathered s c (opened i slot s)).store.poison.contains (Lin.pa ⟨x.addr.toNat % 2 ^ 48, xs, s.core.csr.sec⟩ / 128) = false := h6
  have e7 : vaOf x.addr = x.addr.toNat % 2 ^ 48 := rfl
  simp only [e7]
  rw [e4]
  rw [e5]
  simp only [e6]
  simp [gathered, opened, Issue.start, policies]

end Sys2Proof.Laws
end

