-- ==== Sys2Proof/Laws/Units.lean ====
section
/-! SUPPORT. What the shared operations of the matrix unit, the copy engines, the barrier network and the Tumbler do at issue. -/

namespace Sys2Proof.Laws

open Sys2Proof Sys2Proof.Machine Sys2Proof.Claims

theorem rowBase_g {ac : BitVec 3} {offs : List Nat} {b : Nat} {s : State} {c : Core} {k : Issue} (hc : Same s.core c) (h : RowsOk s ac offs b) :
    rowBase ac offs (gathered s c k) = .ok b (gathered s c k) := by
  obtain ⟨h1, h2, h3, h4⟩ := h
  refine bind_ok getCore_g ?_
  have e0 : ¬ 65536 ≤ (vat c.regs.a ac.toNat).toNat := by rw [hc.a, h2]; omega
  have e1 : (offs.any fun o => decide (65535 < (vat c.regs.a ac.toNat).toNat + o + 767)) = false := by
    rw [hc.a, h2, List.any_eq_false]
    intro o ho
    have := (h4 o ho).1
    simp; omega
  have e2 : ((offs.flatMap fun o => (List.range 768).map fun i => (vat c.regs.a ac.toNat).toNat + o + i).find? fun r =>
      decide (r < 65536) && !c.rowClaimed r) = none := by
    rw [hc.a, h2, List.find?_eq_none]
    intro r hr
    simp only [List.mem_flatMap, List.mem_map, List.mem_range] at hr
    obtain ⟨o, ho, i, hi, rfl⟩ := hr
    have : c.rowClaimed (b + o + i) = s.core.rowClaimed (b + o + i) := by obtain ⟨l, m, rfl⟩ := hc.eq; rfl
    rw [this, (h4 o ho).2 i hi]; simp
  simp only [e0, e1, e2, if_false]
  rw [hc.a, h2]
  rfl

theorem operand_g {h : Fin 16} {x : Handle} {f : MFmt} {s : State} {k : Issue} (h1 : 2 ≤ dRank x.desc) (h2 : fmtTakes f (dEtype x.desc) = true) :
    checkOperand h x f (gathered s s.core k) = .ok () (gathered s s.core k) := by
  have : (decide (dRank x.desc < 2) || !fmtTakes f (dEtype x.desc)) = false := by simp [h2]; omega
  unfold checkOperand
  rw [this]; rfl

theorem stage_g {s : State} {c : Core} {k : Issue} (hc : Same s.core c) (h : stageBusy s.core.mx s.clock = false) :
    needStage (gathered s c k) = .ok () (gathered s c k) := by
  refine bind_ok get_g ?_
  have : stageBusy (gathered s c k).core.mx (gathered s c k).clock = false := by rw [gathered_core, hc.mx]; exact h
  rw [this]; rfl

theorem readable_g {slot : Fin 8} {n : Need} {s : State} {c : Core} {k : Issue} (h : (gathered s c k).tileErr n.2.1.desc n.2.2 = none) :
    checkReadable slot n (gathered s c k) = .ok () (gathered s c k) := by
  refine bind_ok get_g ?_
  rw [h]; rfl

theorem checkAll_ok {s : State} : ∀ {l : List (IssM Unit)}, (∀ m ∈ l, m s = .ok () s) → checkAll l s = .ok () s
  | [], _ => rfl
  | m :: l, h => by
    have : (tryCatch (do m; pure true) fun _ => pure false : IssM Bool) s = .ok true s := by
      simp [tryCatch, tryCatchThe, MonadExceptOf.tryCatch, EStateM.tryCatch, h m (by simp)]
    refine bind_ok this (bind_ok (checkAll_ok fun x hx => h x (by simp [hx])) rfl)

theorem forM_ok {α : Type} {f : α → IssM Unit} {s : State} : ∀ {l : List α}, (∀ x ∈ l, f x s = .ok () s) → l.forM f s = .ok () s
  | [], _ => rfl
  | a :: l, h => bind_ok (h a (by simp)) (forM_ok fun x hx => h x (by simp [hx]))

theorem needOrder_g {cls : Nat} {s : State} {c : Core} {k : Issue} (h1 : tensorAfter c cls = tensorAfter s.core cls) (h2 : ∀ i, c.isOpen i = s.core.isOpen i)
    (h : InTurn s cls) : needOrder cls (gathered s c k) = .ok () (gathered s c k) := by
  refine bind_ok getCore_g ?_
  have : c.settled (tensorAfter c cls) = true := by
    rw [h1, Core.settled, List.all_eq_true]
    intro i hi
    rw [h2, h i hi]; rfl
  rw [this]; rfl

theorem stageTiles_g {x : Fin 16} {s : State} {needs : List Need} {k : Issue} (h : StagedOk s needs) :
    stageTiles x needs (gathered s s.core k) = .ok (stagedTiles s needs) (gathered s (entriesRead s needs) k) := by
  obtain ⟨h0, h1, h2⟩ := h
  unfold stageTiles
  refine bind_ok get_g ?_
  refine bind_ok (show modCore _ (gathered s s.core k) = .ok () (gathered s (entriesRead s needs) k) from rfl) ?_
  refine bind_ok getCore_g ?_
  have e2 : ((distinctNeeds needs).filter fun n => !((entriesRead s needs).mem.opbuf.any fun t => t.entry == needEntryOf n)) = [] := by
    rw [List.filter_eq_nil_iff]
    intro n hn
    have : ((entriesRead s needs).mem.opbuf.any fun t => t.entry == needEntryOf n) = true := (h2 n hn).2
    simp [this]
  simp only [e2]
  refine bind_ok (checkAll_ok ?_) ?_
  · intro m hm
    rw [List.map_nil, List.nil_append, List.mem_singleton] at hm
    subst hm
    refine bind_ok getCore_g ?_
    have e0 : ¬ (s.core.banksOf 3).length = 0 := fun e => h0 (List.length_eq_zero_iff.mp e)
    have e1 : (entriesRead s needs).banksOf 3 = s.core.banksOf 3 := rfl
    simp only [e1, e0, if_false]
    rw [h1]; rfl
  refine bind_ok (forM_ok fun n hn => needOrder_g rfl (fun _ => rfl) (h2 n hn).1) ?_
  rfl

theorem stageTiles_d {x : Fin 16} {s : State} {needs : List Need} {k : Issue} {n : Nat} (h : StagedOk s needs) :
    stageTiles x needs { gathered s s.core k with draws := n } = .ok (stagedTiles s needs) { gathered s (entriesRead s needs) k with draws := n } :=
  stageTiles_g (s := { s with draws := n }) h

theorem issue_s {i : Instr} {sl slot : Fin 8} {s : State} {c : Core} {k : Tok} {cls : Nat} {after : List Nat} {kind : TokKind} (hr : TokenRoom s k)
    (hk : kind.isRequest = false) (ht : c.regs.k = s.core.regs.k) (hp : c.pc = s.core.pc) (hs : c.csr.sec = s.core.csr.sec) :
    issueTok slot (some k) cls after kind { gathered s c (opened i sl s) with draws := s.draws + 1 } =
      .ok s.nextId { gathered s c { opened i sl s with ops := [{ leaving s slot (some k) cls after kind with draw := s.draws + 1 }] } with
        nextId := s.nextId + 1, draws := s.draws + 2 } := by
  have h1 : ¬ 2048 ≤ (s.core.regs.k.get k).count := Nat.not_le.mpr hr
  simp [issueTok, issueErr, tokenRoom, gathered, opened, Issue.start, State.issue, Issue.counted, h1, hk, ht, hp, hs, leaving]

theorem readHomes_iss {ls : List Nat} : ∀ {s : State}, (ls.foldl State.readHome s).iss = s.iss ∧ (ls.foldl State.readHome s).clock = s.clock := by
  induction ls with
  | nil => exact ⟨rfl, rfl⟩
  | cons l ls ih => intro s; exact ih (s := s.readHome l)

theorem readTile_iss {s r : State} {d : Desc} {t : Nat} {x : Tile} (h : s.readTile d t = (r, x, none)) : r.iss = s.iss ∧ r.clock = s.clock := by
  unfold State.readTile at h
  dsimp only at h
  split at h
  · exact absurd (Prod.mk.inj (Prod.mk.inj h).2).2 (by exact fun h => nomatch h)
  · split at h
    · rw [← (Prod.mk.inj h).1]; exact ⟨rfl, rfl⟩
    · split at h
      · exact absurd (Prod.mk.inj (Prod.mk.inj h).2).2 (by exact fun h => nomatch h)
      · split at h
        · exact absurd (Prod.mk.inj (Prod.mk.inj h).2).2 (by exact fun h => nomatch h)
        · rw [← (Prod.mk.inj h).1]; exact readHomes_iss (s := s.readHome _)

theorem readTiles_iss {d : Desc} : ∀ {l : List Nat} {s r : State} {xs : List Tile}, s.readTiles d l = (r, xs, none) → r.iss = s.iss ∧ r.clock = s.clock
  | [], s, r, xs, h => by simp only [State.readTiles, Prod.mk.injEq] at h; rw [← h.1]; exact ⟨rfl, rfl⟩
  | t :: ts, s, r, xs, h => by
    rw [State.readTiles] at h
    simp only [Prod.mk.injEq] at h
    obtain ⟨h1, h2, h3⟩ := h
    rcases h4 : s.readTile d t with ⟨r1, x1, e1⟩
    rw [h4] at h1 h2 h3
    cases e1 with
    | some e => simp at h3
    | none =>
      rcases h5 : r1.readTiles d ts with ⟨r2, x2, e2⟩
      simp only [h5] at h1 h3
      subst h1; subst h3
      have h6 := readTiles_iss h5
      have h7 := readTile_iss h4
      exact ⟨h6.1.trans h7.1, h6.2.trans h7.2⟩

theorem eng_same {c d : Core} (h : Same c d) (c1 : Bool) : d.eng c1 = c.eng c1 := by obtain ⟨l, m, rfl⟩ := h.eq; rfl

theorem claim_same {c d : Core} (h : Same c d) (n : Nat) : d.halfClaimed n = c.halfClaimed n := by obtain ⟨l, m, rfl⟩ := h.eq; rfl

theorem halfActive_same {c d : Core} (h : Same c d) (n : Nat) : d.halfActive n = c.halfActive n := by obtain ⟨l, m, rfl⟩ := h.eq; rfl

theorem acq_same {c d : Core} (h : Same c d) : acquireIds d = acquireIds c := by obtain ⟨l, m, rfl⟩ := h.eq; rfl

theorem fence_same {c d : Core} (h : Same c d) (n : Nat) : fenceIds d n = fenceIds c n := by obtain ⟨l, m, rfl⟩ := h.eq; rfl

theorem regD_g {o : FL} {s : State} {c : Core} {k : Issue} (h : Same s.core c) : regD o (gathered s c k) = .ok (s.core.regs.a.get o.d) (gathered s c k) := by
  rw [← h.a]; rfl

theorem copyRead_g {slot : Fin 8} {e : Word} {n al : Nat} {half : Bool} {s : State} {c : Core} {k : Issue} (hc : Same s.core c) (h : ReadOk s.core e n al half) :
    copyRead slot e n al half (gathered s c k) = .ok () (gathered s c k) := by
  obtain ⟨h1, h2, h3⟩ := h
  have hv : vaOf e = e.toNat % 2 ^ 48 := rfl
  have hf : checkForm slot e (gathered s c k) = .ok () (gathered s c k) := by simp [checkForm, h1.1]
  refine bind_ok hf ?_
  refine bind_ok (t := gathered s c k) (a := ()) ?_ ?_
  · refine bind_ok getCore_g ?_
    have : ((halvesOf (vaOf e) n).any fun h => !c.halfClaimed (halfOff h)) = false := by
      rw [List.any_eq_false]
      intro x hx
      rw [claim_same hc, h2 x hx]; simp
    rw [this]; rfl
  refine bind_ok (linAddr_g h1) ?_
  have : (!half && !(halvesOf (vaOf e) n).isEmpty) = false := by
    cases half with
    | true => rfl
    | false => rw [hv, h3 rfl]; rfl
  rw [this]; rfl

theorem copyWrite_g {slot : Fin 8} {e : Word} {n al : Nat} {half : Bool} {s : State} {c : Core} {k : Issue} (hc : Same s.core c) (h : WriteOk s.core e n al half) :
    copyWrite slot e n al half (gathered s c k) = .ok () (gathered s c k) := by
  refine bind_ok (copyRead_g hc h.1) ?_
  refine bind_ok getCore_g ?_
  have : ((halvesOf (vaOf e) n).any fun h => c.halfActive (halfOff h)) = false := by
    rw [List.any_eq_false]
    intro x hx
    rw [halfActive_same hc, h.2 x hx]; simp
  rw [this]; rfl

theorem copyLocal_g {slot : Fin 8} {e : Word} {n al : Nat} {s : State} {c : Core} {k : Issue} (hc : Same s.core c) (h : LocalOk s.core e n al) :
    copyLocal slot e n al (gathered s c k) = .ok () (gathered s c k) := by
  have : field e.toNat 0 21 = e.toNat % 2 ^ 21 := by simp [field]
  refine bind_ok (t := gathered s c k) (a := e.toNat % 2 ^ 21) ?_ ?_
  · simp [localAddr, h.1.1, h.1.2, this]
  have hb : c.badLocal (e.toNat % 2 ^ 21) n = none := (hc.badLocal ..).trans h.2
  refine bind_ok getCore_g ?_
  rw [hb]
  rfl

theorem takeCopy_g {c1 : Bool} {o : FL} {cnt : Bool} {after : List Nat} {kind : CopyKind} {i : Instr} {s : State} {c : Core} (hc : Same s.core c)
    (h : CopyRoom s c1 o.k cnt) :
    takeCopy c1 o cnt after kind (gathered s c (opened i (cslot c1) s)) = .ok () (copies i c1 s c o.k cnt after kind) := by
  obtain ⟨h1, h2, h3⟩ := h
  refine bind_ok getCore_g ?_
  have e1 : (cnt && (c.eng c1).counted.isNone) = false := by
    rw [eng_same hc]
    cases cnt with
    | false => rfl
    | true =>
      have := h3 rfl
      cases hq : (s.core.eng c1).counted with
      | none => exact absurd hq this
      | some _ => rfl
  rw [e1]
  have e2 : (gathered s c (opened i (cslot c1) s)).entries c1 = s.entries c1 := by
    obtain ⟨l, m, rfl⟩ := hc.eq; rfl
  have e3 : ¬ 64 ≤ s.entries c1 := by omega
  have e4 : ¬ 2048 ≤ (s.core.regs.k.get o.k).count := by omega
  refine bind_ok (t := gathered s c (opened i (cslot c1) s)) (a := ()) ?_ ?_
  · refine bind_ok get_g ?_
    rw [e2, if_neg e3]; rfl
  refine bind_ok (t := gathered s c (opened i (cslot c1) s)) (a := ()) ?_ ?_
  · refine bind_ok get_g ?_
    simp [hc.k, State.issue, gathered, opened, Issue.start, Issue.counted, e4]
  simp [gathered, opened, Issue.start, copies, eng_same hc, hc.csr, hc.pc]

theorem after_eq {s : State} {c : Core} (hc : Same s.core c) (l : List Nat) : copyAfter c l = following s l := by
  unfold copyAfter following
  induction l with
  | nil => rfl
  | cons a l ih => rw [List.flatMap_cons, List.flatMap_cons, ih, hc.classAfter]

theorem namedBarrier_g {slot : Fin 8} {a : Word} {b : BarAddr} {s : State} {c : Core} {k : Issue} (h : BarrierNamed { s with core := c } a b) :
    namedBarrier slot a (gathered s c k) = .ok b (gathered s c k) := by
  obtain ⟨h1, h2, h3⟩ := h
  refine bind_ok get_g ?_
  have e1 : barAddr (gathered s c k).core a = some b := h1
  simp only [e1]
  have e2 : (gathered s c k).deadCore b.core = false := h2
  have e3 : ((gathered s c k).barHome b).isNone = false := by
    have : ((gathered s c k).barHome b).isSome = true := h3
    rw [Option.isNone_eq_false_iff]; exact this
  rw [e2, e3]; rfl

theorem barrierOf_g {slot : Fin 8} {a : Word} {b : BarAddr} {s : State} {c : Core} {k : Issue} (h : BarrierOk { s with core := c } a b) :
    barrierOf slot a (gathered s c k) = .ok b (gathered s c k) := by
  refine bind_ok (namedBarrier_g h.1) ?_
  refine bind_ok get_g ?_
  have : (gathered s c k).barDraining b = false := by
    rw [State.barDraining, Bool.and_eq_false_iff]
    by_cases e : (gathered s c k).barHome b = some .live
    · exact .inr (h.2 e)
    · exact .inl (by simpa using e)
  rw [this]; rfl

theorem post_ok {i : Instr} {c1 : Bool} {o : FR} {ok : Int → Bool} {msg : Int → BarMsg} {after : Core → List Nat} {bd : Bool} {s : State}
    {n : Word} {c : Core} {b : BarAddr} (hx : exec i s = postBarrier i c1 o ok msg after bd s) (h : s.iss = none) (hg : guardOn s.core o.g = true)
    (hn : takeB s.core o.b = some (n, c)) (hb : BarrierOk { s with core := c } (s.core.regs.a.get o.a.r) b) (hok : ok n.toInt = true) :
    Completes i s (messages i c1 s (if bd then c.modEng c1 fun e => { e with counted := some b } else c) b (after c) (msg n.toInt)) := by
  have hs := takeB_same hn
  refine completes_of h hg (show exec i s = _ by rw [hx, postBarrier]) ?_ rfl rfl
  refine bind_ok (srcBs_g hn) ?_
  refine bind_ok getCore_g ?_
  simp only [hok, hs.a]
  refine bind_ok (barrierOf_g hb) ?_
  refine bind_ok (freshId_run _) ?_
  refine bind_ok (freshDraw_run _) ?_
  refine bind_ok (issM_get _) ?_
  have hid : c.id = s.core.id := hs.id
  cases bd with
  | false => simp [messages, gathered, opened, Issue.start, hid]
  | true => simp [messages, gathered, opened, Issue.start, hid]

theorem small {n : Word} (h : n.toNat ≤ 65535) : n.toInt = (n.toNat : Int) := by
  rw [BitVec.toInt_eq_toNat_cond]
  rw [if_pos (by omega)]

theorem notwset {s : State} (h : setSettled s) : (s.core.ops.any fun o => match o.kind with
      | .wset _ _ => true
      | _ => false) = false := by
  rw [List.any_eq_false]
  intro o ho
  cases hk : o.kind <;> simp
  exact h o ho _ _ hk

theorem choose_eq (t : TumSet) : choosePoint t = nextWord t := by
  have hd : (t.open_.find? fun p => decide (t.limit ≤ t.countOf p)) = (duePoints t).head? := by
    rw [duePoints, List.head?_filter]; rfl
  have hr : (t.open_.find? fun p => t.ready.contains p) = ((eligiblePoints t).filter fun p => t.ready.contains p).head? := by
    rw [List.head?_filter]; rfl
  have ho : t.open_ = eligiblePoints t := rfl
  unfold choosePoint nextWord
  rw [hd, hr, ho]
  cases hq : duePoints t with
  | cons p l => rfl
  | nil =>
    cases hq2 : (eligiblePoints t).filter fun p => t.ready.contains p with
    | cons p l => rfl
    | nil =>
      cases hq3 : eligiblePoints t with
      | nil => rfl
      | cons p l => rfl

theorem due_any (t : TumSet) : (t.open_.any fun p => decide (t.limit ≤ t.countOf p)) = !(duePoints t).isEmpty := by
  have : duePoints t = t.open_.filter fun p => decide (t.limit ≤ t.countOf p) := rfl
  rw [this]
  induction t.open_ with
  | nil => rfl
  | cons a l ih =>
    rw [List.any_cons, List.filter_cons, ih]
    cases decide (t.limit ≤ t.countOf a) <;> simp

theorem nextPoint_g {s : State} {k : Issue} {x : Nat}
    (h : match s.core.tum.set with
        | none => x = 2 ^ 63
        | some t => mapOk s.core t = true ∧ nextWord t = some x ∧ (s.core.tum.passDone = true → s.core.tum.arrived = true ∨ duePoints t ≠ [] ∨ s.core.tum.awaits = false)) :
    nextPoint (gathered s s.core k) = .ok x (gathered s s.core k) := by
  unfold nextPoint
  refine bind_ok get_g ?_
  rw [gathered_core]
  cases ht : s.core.tum.set with
  | none => rw [ht] at h; simp only [h]; rfl
  | some t =>
    rw [ht] at h
    obtain ⟨h1, h2, h3⟩ := h
    have hd : t.due = !(duePoints t).isEmpty := due_any t
    have hc : (s.core.tum.passDone && !s.core.tum.arrived && !t.due && s.core.tum.awaits) = false := by
      rw [hd]
      cases hp : s.core.tum.passDone with
      | false => rfl
      | true => rcases h3 hp with h4 | h4 | h4 <;> simp [h4]
    simp only [hc, choose_eq, h2]
    rfl

end Sys2Proof.Laws
end

