-- ==== Sys2Proof/Laws/Control.lean ====
section
/-! SUPPORT. What the shared operations of slot K do: targets, loop capture, control registers, reads at the home, waits. -/

namespace Sys2Proof.Laws

open Sys2Proof Sys2Proof.Machine Sys2Proof.Claims

theorem target_eq (c : Core) (d : Disp) : targetOf c.pc d = target c d := by
  cases d with
  | short t =>
    simp only [targetOf, target, dispInt]
    congr 1
    rw [BitVec.ofInt_mul]
    congr 1
  | long t =>
    simp only [targetOf, target, dispInt]
    congr 1
    rw [BitVec.ofInt_mul]
    congr 1

theorem indirect_g {s : State} {k : Issue} {a : Fin 16} (hw : wellFormed (s.core.regs.a.get a) 32) :
    indirect a (gathered s s.core k) = .ok (BitVec.ofNat 48 (s.core.regs.a.get a).toNat) (gathered s s.core k) := by
  have h2 : field (s.core.regs.a.get a).toNat 0 5 = 0 := by have := hw.2; simp only [field]; omega
  unfold indirect
  refine bind_ok getCore_g ?_
  simp [hw.1, h2]

theorem loopCount_g {o : FI} {s : State} {k : Issue} {a : Word} {c : Core} (hk : (a + immediate o.i).toInt < 2 ^ 32) :
    loopCount a o (gathered s c k) = .ok (a + immediate o.i).toInt (gathered s c k) := by
  unfold loopCount
  rw [imm_eq]
  have : ¬ (2 ^ 32 - 1 < (a + immediate o.i).toInt) := by omega
  simp only [if_neg this]
  rfl

theorem capture_g {s : State} {k : Issue} : ∀ (n : Nat) (va : BitVec 48) (acc : List (BitVec 256)), (gathered s s.core k).capture n va acc = s.capture n va acc
  | 0, _, _ => rfl
  | n + 1, va, acc => by
    have e : (gathered s s.core k).fetch va = s.fetch va := rfl
    rw [State.capture, State.capture, e]
    cases s.fetch va with
    | ok b => simp only [capture_g n]
    | _ => rfl

theorem csrRead_g {s : State} {k : Issue} (n : Nat) : csrRead (gathered s s.core k) n = csrRead s n := rfl

theorem csr_same {s : State} {c : Core} {k : Issue} (hc : Same s.core c) (f : Csr) (n : Nat) :
    csrRead (gathered s { c with csr := f } k) n = csrRead { s with core := { s.core with csr := f } } n := by
  obtain ⟨l, m, rfl⟩ := hc.eq; rfl

theorem tab {α : Type} [Inhabited α] {n : Nat} (f : Nat → α) {i : Nat} (h : i < n) : vat (vtab n f) i = f i := by
  simp [vat, vtab, h]

theorem one_eq (w : Word) : (if decide (w.toNat % 2 = 1) = true then (1 : Word) else 0) = (w &&& 1) ||| 0 := by
  have e : w &&& 1 = if w.toNat % 2 = 1 then (1 : Word) else 0 := by
    apply BitVec.eq_of_toNat_eq
    rw [BitVec.toNat_and]
    have : (1 : Word).toNat = 2 ^ 1 - 1 := rfl
    rw [this, Nat.and_two_pow_sub_one_eq_mod]
    split <;> simp <;> omega
  rw [e]
  split <;> simp_all

theorem coreid (w : Word) (s : State) :
    BitVec.ofNat 64 ((if decide (w.toNat % 2 = 1) = true then 1 else 0) + s.core.id.val * 2 ^ 16) = (w &&& 1) ||| if (0 : Nat) = 0 then BitVec.ofNat 64 (s.core.id.val * 2 ^ 16) else 0 := by
  have h := one_eq w
  rw [show (w &&& 1) ||| 0 = w &&& 1 from BitVec.or_zero] at h
  rw [← h, if_pos rfl]
  have : ∀ (b : Bool) (i : Fin 128), BitVec.ofNat 64 ((if b = true then 1 else 0) + i.val * 2 ^ 16) = (if b = true then (1 : Word) else 0) ||| BitVec.ofNat 64 (i.val * 2 ^ 16) := by decide +kernel
  exact this _ _

theorem others (s : State) (w : Word) {m n : Nat} (h : n ≠ m) :
    csrRead { s with core := { s.core with csr := csrWrite s.core.csr m w } } n = csrRead s n := by
  by_cases hm : 0x010 ≤ m ∧ m ≤ 0x027
  · simp only [csrRead, csrWrite, if_pos hm]
    split
    · next hn =>
      rw [tab _ (by omega), if_neg (by omega)]
    · rfl
  · simp only [csrRead, csrWrite, if_neg hm]
    split
    · split <;> rfl
    · split <;> first | rfl | (split <;> first | rfl | (exact absurd rfl h))

theorem bit_w {n : Nat} (w : BitVec n) (i : Nat) : bit w.toNat i = w.getLsbD i := by
  rw [BitVec.getLsbD, bit_testBit]

theorem powerRead_g {s : State} {c : Core} {k : Issue} (o : Nat) : powerRead (gathered s c k) o = powerRead s o := by
  unfold powerRead
  split <;> rfl

theorem regRead_g {s : State} {c : Core} {k : Issue} (b : Bool) (o : Nat) : (gathered s c k).regRead b o = s.regRead b o := by
  unfold State.regRead
  dsimp only
  split
  · split <;> rfl
  · split <;> rfl
  · split <;> rfl
  · exact powerRead_g _
  · rfl
  · rfl

theorem monWord_g {s : State} {c : Core} {k : Issue} (hm : c.mem = s.core.mem) (b : Bool) (pa : Nat) :
    (gathered s c k).monWord b pa = s.monWord b pa := by
  have : (gathered s c k).ownWord pa = s.ownWord pa := by simp only [State.ownWord, lineStOf, gathered, hm]
  simp only [State.monWord, regRead_g, this]

theorem readHome_g {slot : Fin 8} {l : Lin} {s : State} {c : Core} {k : Issue} (hm : c.mem = s.core.mem) (h : HomeOk s l) :
    readHome slot l (gathered s c k) = .ok (s.monWord l.sec l.pa) (gathered s c k) := by
  obtain ⟨h1, h2, h3⟩ := h
  unfold readHome
  refine bind_ok get_g ?_
  have e1 : (gathered s c k).linWaits l (gathered s c k).clock = false := h1
  have e2 : (gathered s c k).deadHome l.pa = false := h2
  have e3 : (gathered s c k).store.poison.contains (l.pa / 128) = false := h3
  simp only [e1, e2, e3, monWord_g hm]
  rfl

theorem spread_eq (b : Bool) : spread b = if b then BitVec.allOnes 64 else 0 := by cases b <;> rfl

theorem bit_w' (x i : Nat) : bit x i = x.testBit i := bit_testBit x i

theorem pnat {p : PReg} {n : Nat} (hp : p.val = n) : pOfNat n = p := by subst hp; simp [pOfNat, p.isLt]

theorem poison_step {b : Bool} {d : Nat} {s : State} {c : Core} {k : Issue} :
    (if b = true then poisonTrap d else pure () : IssM Unit) (gathered s c k) = .ok () (gathered s c { k with post := k.post ++ if b = true then [poisoned d] else [] }) := by
  cases b
  · simp [gathered]
  · rfl

theorem issueNone_g {i : Instr} {sl slot : Fin 8} {s : State} {c : Core} {cls : Nat} {after : List Nat} {kind : TokKind}
    (hk : kind.isRequest = false) (hc : Same s.core c) :
    issueTok slot none cls after kind (gathered s c (opened i sl s)) =
      .ok s.nextId (issues i sl s c (leaving s slot none cls after kind)) := by
  have hp := hc.pc
  have hs : c.csr.sec = s.core.csr.sec := by rw [hc.csr]
  simp [issueTok, issueErr, gathered, opened, Issue.start, State.issue, hk, hp, hs, issues, leaving]

end Sys2Proof.Laws
end

