-- ==== Sys2Proof/Laws/Memory.lean ====
section
/-! SUPPORT. The canonical form of memory is kept by every memory operation, and a read after a write answers what was
written there and is unchanged elsewhere. -/

namespace Sys2Proof.Machine

variable {α : Type} [DecidableEq α] {z : α}

/-! ### One cell -/

/-- A smaller bound is weaker. -/
theorem cellsFrom_mono {l : List (Nat × α)} : ∀ {m n : Nat}, m ≤ n → cellsFrom z n l = true → cellsFrom z m l = true := by
  cases l with
  | nil => intros; rfl
  | cons p l =>
    intro m n hmn h
    obtain ⟨b, v⟩ := p
    simp only [cellsFrom, Bool.and_eq_true, decide_eq_true_eq] at h ⊢
    exact ⟨⟨by omega, h.1.2⟩, h.2⟩

/-- Below the first entry every address reads as unlisted. -/
theorem cellGet_below {l : List (Nat × α)} {n a : Nat} (h : cellsFrom z n l = true) (ha : a < n) : cellGet z l a = z := by
  cases l with
  | nil => rfl
  | cons p l =>
    obtain ⟨b, v⟩ := p
    simp only [cellsFrom, Bool.and_eq_true, decide_eq_true_eq] at h
    have hb : a < b := by omega
    simp [cellGet, hb, Nat.ne_of_lt hb]

/-- Writing one cell keeps the canonical form. -/
theorem cellPut_from {l : List (Nat × α)} : ∀ {n a : Nat} {x : α}, n ≤ a → cellsFrom z n l = true →
    cellsFrom z n (cellPut z l a x) = true := by
  induction l with
  | nil =>
    intro n a x hn _
    by_cases hx : x = z <;> simp [cellPut, cellsFrom, hx, hn]
  | cons p l ih =>
    intro n a x hn h
    obtain ⟨b, v⟩ := p
    simp only [cellsFrom, Bool.and_eq_true, decide_eq_true_eq] at h
    obtain ⟨⟨hb, hv⟩, hl⟩ := h
    unfold cellPut
    split
    · next hab =>
      split
      · exact cellsFrom_mono (by omega) hl
      · next hx => simp [cellsFrom, hx, hab, hb, hl]
    · next hab =>
      split
      · next hlt =>
        split
        · simp [cellsFrom, hb, hv, hl]
        · next hx =>
          have hab' : a + 1 ≤ b := hlt
          simp [cellsFrom, hn, hx, hab', hv, hl]
      · next hlt =>
        have : b + 1 ≤ a := by omega
        simp [cellsFrom, hb, hv, ih this hl]

theorem cellPut_wf {l : List (Nat × α)} {a : Nat} {x : α} (h : cellsWf z l = true) : cellsWf z (cellPut z l a x) = true :=
  cellPut_from (Nat.zero_le a) h

/-- What an address reads after a write: the value written there, and what it read before elsewhere. -/
theorem cellGet_put {l : List (Nat × α)} : ∀ {n a b : Nat} {x : α}, cellsFrom z n l = true →
    cellGet z (cellPut z l a x) b = if b = a then x else cellGet z l b := by
  induction l with
  | nil =>
    intro n a b x _
    by_cases hx : x = z <;> by_cases hb : b = a <;> simp [cellPut, cellGet, hx, hb]
  | cons p l ih =>
    intro n a b x h
    obtain ⟨c, v⟩ := p
    simp only [cellsFrom, Bool.and_eq_true, decide_eq_true_eq] at h
    obtain ⟨⟨_, _⟩, hl⟩ := h
    unfold cellPut
    split
    · next hac =>
      subst hac
      split
      · next hx =>
        by_cases hb : b = a
        · simp [hb, hx, cellGet_below hl (Nat.lt_succ_self a)]
        · by_cases hlt : b < a
          · simp [hb, cellGet, hlt, cellGet_below hl (Nat.lt_succ_of_lt hlt)]
          · simp [hb, cellGet, hlt]
      · by_cases hb : b = a <;> simp [hb, cellGet]
    · next hac =>
      split
      · next hlt =>
        split
        · next hx =>
          by_cases hb : b = a
          · simp [hb, cellGet, hac, hlt, hx]
          · simp [hb]
        · by_cases hb : b = a
          · simp [hb, cellGet]
          · by_cases hba : b < a
            · have : b < c := by omega
              simp [hb, hba, cellGet, Nat.ne_of_lt this, this]
            · simp [hb, hba, cellGet]
      · next hlt =>
        by_cases hbc : b = c
        · have : ¬ b = a := by omega
          subst hbc
          simp [cellGet, this]
        · by_cases hb : b < c
          · have : ¬ b = a := by omega
            simp [cellGet, hbc, hb, this]
          · simp [cellGet, hbc, hb, ih hl]

/-! ### Bytes -/

theorem wr8_wf {l : List Host.Cell} {a : Nat} {b : Byte} (h : Memory.wf l = true) : Memory.wf (wr8 l a b) = true := cellPut_wf h

theorem rd8_wr8 {l : List Host.Cell} {a c : Nat} {b : Byte} (h : Memory.wf l = true) :
    rd8 (wr8 l a b) c = if c = a then b else rd8 l c := cellGet_put h

theorem wrBytes_wf {bs : List Byte} : ∀ {l : List Host.Cell} {a : Nat}, Memory.wf l = true → Memory.wf (wrBytes l a bs) = true := by
  induction bs with
  | nil => intro l a h; exact h
  | cons b bs ih => intro l a h; exact ih (wr8_wf h)

theorem wrNat_wf {l : List Host.Cell} {a n x : Nat} (h : Memory.wf l = true) : Memory.wf (wrNat l a n x) = true := wrBytes_wf h

/-- A write leaves every byte outside it alone. -/
theorem rd8_wrBytes_out {bs : List Byte} : ∀ {l : List Host.Cell} {a c : Nat}, Memory.wf l = true → (c < a ∨ a + bs.length ≤ c) →
    rd8 (wrBytes l a bs) c = rd8 l c := by
  induction bs with
  | nil => intros; rfl
  | cons b bs ih =>
    intro l a c h hc
    simp only [List.length_cons] at hc
    have hne : ¬ c = a := by omega
    simp only [wrBytes]
    rw [ih (wr8_wf h) (by omega), rd8_wr8 h, if_neg hne]

/-- A byte that a write covers reads as written. -/
theorem rd8_wrBytes_in {bs : List Byte} : ∀ {l : List Host.Cell} {a i : Nat} (hi : i < bs.length), Memory.wf l = true →
    rd8 (wrBytes l a bs) (a + i) = bs[i] := by
  induction bs with
  | nil => intro l a i hi; exact absurd hi (Nat.not_lt_zero _)
  | cons b bs ih =>
    intro l a i hi h
    cases i with
    | zero =>
      simp only [wrBytes]
      rw [rd8_wrBytes_out (wr8_wf h) (by omega), rd8_wr8 h]
      simp
    | succ i =>
      simp only [wrBytes]
      have := ih (l := wr8 l a b) (a := a + 1) (i := i) (by simpa using hi) (wr8_wf h)
      rw [show a + (i + 1) = a + 1 + i by omega, this]
      simp

theorem rdBytes_length {l : List Host.Cell} : ∀ {n a : Nat}, (rdBytes l a n).length = n := by
  intro n
  induction n with
  | zero => intro a; rfl
  | succ n ih => intro a; simp [rdBytes, ih]

/-- The bytes just written read back whole. -/
theorem rdBytes_wrBytes {bs : List Byte} : ∀ {l : List Host.Cell} {a : Nat}, Memory.wf l = true →
    rdBytes (wrBytes l a bs) a bs.length = bs := by
  induction bs with
  | nil => intros; rfl
  | cons b bs ih =>
    intro l a h
    have h0 := rd8_wrBytes_in (bs := b :: bs) (l := l) (a := a) (i := 0) (by simp) h
    simp only [List.length_cons, rdBytes]
    simp only [Nat.add_zero, List.getElem_cons_zero] at h0
    rw [h0]
    simp only [wrBytes]
    rw [ih (wr8_wf h)]

/-- Bytes outside a write read back as before. -/
theorem rdBytes_wrBytes_out {bs : List Byte} {l : List Host.Cell} {a : Nat} (h : Memory.wf l = true) : ∀ {n c : Nat},
    (c + n ≤ a ∨ a + bs.length ≤ c) → rdBytes (wrBytes l a bs) c n = rdBytes l c n := by
  intro n
  induction n with
  | zero => intros; rfl
  | succ n ih =>
    intro c hc
    simp only [rdBytes]
    rw [rd8_wrBytes_out h (by omega), ih (by omega)]

/-! ### Numbers -/

theorem toBytes_length : ∀ {n x : Nat}, (toBytes n x).length = n := by
  intro n
  induction n with
  | zero => intro x; rfl
  | succ n ih => intro x; simp [toBytes, ih]

theorem ofBytes_toBytes : ∀ {n x : Nat}, ofBytes (toBytes n x) = x % 256 ^ n := by
  intro n
  induction n with
  | zero => intro x; simp [toBytes, ofBytes, Nat.mod_one]
  | succ n ih =>
    intro x
    simp only [toBytes, ofBytes, ih, BitVec.toNat_ofNat]
    have h : (256 : Nat) ^ (n + 1) = 256 * 256 ^ n := by rw [Nat.pow_succ, Nat.mul_comm]
    rw [h, Nat.mod_mul]

/-- A number stored little-endian reads back, modulo its bytes. -/
theorem rdNat_wrNat {l : List Host.Cell} {a n x : Nat} (h : Memory.wf l = true) : rdNat (wrNat l a n x) a n = x % 256 ^ n := by
  unfold rdNat wrNat
  have := rdBytes_wrBytes (bs := toBytes n x) (l := l) (a := a) h
  rw [toBytes_length] at this
  rw [this, ofBytes_toBytes]

/-! ### The memories of reset -/

theorem reset_memory_wf : Memory.wf Store.reset.bytes = true := rfl

end Sys2Proof.Machine
end

