-- ==== Sys2Proof/Laws/PerInstr.lean ====
section
/-! SUPPORT. What holds of every instruction as syntax, one lemma per constructor: the destinations R33 compares are never s0 or
v0 (R8), and no operation names more than two of them. -/

namespace Sys2Proof.Laws.Destinations

/-- s0 and v0 are no destinations, and an operation has at most two (R8, R33). -/
def Statement (i : Instr) : Prop := DName.s 0 ∉ i.dests ∧ DName.v 0 ∉ i.dests ∧ i.dests.length ≤ 2

theorem of_none {i : Instr} (h : i.dests = []) : Statement i := by simp [Statement, h]
theorem of_s {i : Instr} (d : Fin 16) (h : i.dests = sD d) : Statement i := by
  by_cases hd : d = 0 <;> simp [Statement, h, sD, hd, eq_comm]
theorem of_v {i : Instr} (d : Fin 16) (h : i.dests = vD d) : Statement i := by
  by_cases hd : d = 0 <;> simp [Statement, h, vD, hd, eq_comm]
theorem of_vp {i : Instr} (d : Fin 16) (p : PReg) (h : i.dests = vD d ++ [.p p]) : Statement i := by
  by_cases hd : d = 0 <;> simp [Statement, h, vD, hd, eq_comm]
theorem of_p {i : Instr} (p : PReg) (h : i.dests = [.p p]) : Statement i := by simp [Statement, h]
theorem of_a {i : Instr} (d : Fin 16) (h : i.dests = [.a d]) : Statement i := by simp [Statement, h]
theorem of_h {i : Instr} (d : Fin 16) (h : i.dests = [.h d]) : Statement i := by simp [Statement, h]

theorem nop : Statement (.nop) := of_none rfl
theorem add (o) : Statement (.add o) := of_s o.d rfl
theorem sub (o) : Statement (.sub o) := of_s o.d rfl
theorem mul (o) : Statement (.mul o) := of_s o.d rfl
theorem mulh (o) : Statement (.mulh o) := of_s o.d rfl
theorem mulhu (o) : Statement (.mulhu o) := of_s o.d rfl
theorem div (o) : Statement (.div o) := of_s o.d rfl
theorem divu (o) : Statement (.divu o) := of_s o.d rfl
theorem rem (o) : Statement (.rem o) := of_s o.d rfl
theorem remu (o) : Statement (.remu o) := of_s o.d rfl
theorem and (o) : Statement (.and o) := of_s o.d rfl
theorem or (o) : Statement (.or o) := of_s o.d rfl
theorem xor (o) : Statement (.xor o) := of_s o.d rfl
theorem andn (o) : Statement (.andn o) := of_s o.d rfl
theorem shl (o) : Statement (.shl o) := of_s o.d rfl
theorem shr (o) : Statement (.shr o) := of_s o.d rfl
theorem sra (o) : Statement (.sra o) := of_s o.d rfl
theorem rol (o) : Statement (.rol o) := of_s o.d rfl
theorem min (o) : Statement (.min o) := of_s o.d rfl
theorem max (o) : Statement (.max o) := of_s o.d rfl
theorem minu (o) : Statement (.minu o) := of_s o.d rfl
theorem maxu (o) : Statement (.maxu o) := of_s o.d rfl
theorem clz (o) : Statement (.clz o) := of_s o.d rfl
theorem popc (o) : Statement (.popc o) := of_s o.d rfl
theorem brev (o) : Statement (.brev o) := of_s o.d rfl
theorem sel (o) : Statement (.sel o) := of_s o.d rfl
theorem mov (o) : Statement (.mov o) := of_s o.d rfl
theorem movCounter (o) : Statement (.movCounter o) := of_s o.d rfl
theorem movi (o) : Statement (.movi o) := of_s o.d rfl
theorem addi (o) : Statement (.addi o) := of_s o.d rfl
theorem cmpeq (o) : Statement (.cmpeq o) := of_p _ rfl
theorem cmpne (o) : Statement (.cmpne o) := of_p _ rfl
theorem cmplt (o) : Statement (.cmplt o) := of_p _ rfl
theorem cmple (o) : Statement (.cmple o) := of_p _ rfl
theorem cmpltu (o) : Statement (.cmpltu o) := of_p _ rfl
theorem cmpleu (o) : Statement (.cmpleu o) := of_p _ rfl
theorem sfadd (o) : Statement (.sfadd o) := of_s o.d rfl
theorem sfsub (o) : Statement (.sfsub o) := of_s o.d rfl
theorem sfmul (o) : Statement (.sfmul o) := of_s o.d rfl
theorem sfdiv (o) : Statement (.sfdiv o) := of_s o.d rfl
theorem sfcmplt (o) : Statement (.sfcmplt o) := of_p _ rfl
theorem sfcmpeq (o) : Statement (.sfcmpeq o) := of_p _ rfl
theorem sfcvt (o) : Statement (.sfcvt o) := of_s o.d rfl
theorem rndc (o) : Statement (.rndc o) := of_s o.d rfl
theorem qcfg (a) : Statement (.qcfg a) := of_none rfl
theorem qcnt (o) : Statement (.qcnt o) := of_s o.d rfl
theorem amov (o) : Statement (.amov o) := of_a _ rfl
theorem amovToS (o) : Statement (.amovToS o) := of_s o.d rfl
theorem aadd (o) : Statement (.aadd o) := of_a _ rfl
theorem sld (o) : Statement (.sld o) := of_s o.d rfl
theorem sst (a) : Statement (.sst a) := of_none rfl
theorem sldl (o) : Statement (.sldl o) := of_s o.d rfl
theorem sstl (a) : Statement (.sstl a) := of_none rfl
theorem slda (o) : Statement (.slda o) := of_s o.d rfl
theorem sstrl (a) : Statement (.sstrl a) := of_none rfl
theorem satom (o) : Statement (.satom o) := of_s o.d rfl
theorem scas (o) : Statement (.scas o) := of_s o.d rfl
theorem sstp (a) : Statement (.sstp a) := of_none rfl
theorem vadd (u o) : Statement (.vadd u o) := of_v o.d rfl
theorem vsub (u o) : Statement (.vsub u o) := of_v o.d rfl
theorem vmul (u o) : Statement (.vmul u o) := of_v o.d rfl
theorem vfma (u o) : Statement (.vfma u o) := of_v o.d rfl
theorem vfms (u o) : Statement (.vfms u o) := of_v o.d rfl
theorem vmin (u o) : Statement (.vmin u o) := of_v o.d rfl
theorem vmax (u o) : Statement (.vmax u o) := of_v o.d rfl
theorem vabs (u o) : Statement (.vabs u o) := of_v o.d rfl
theorem vneg (u o) : Statement (.vneg u o) := of_v o.d rfl
theorem vdiv (u o) : Statement (.vdiv u o) := of_v o.d rfl
theorem vsqrt (u o) : Statement (.vsqrt u o) := of_v o.d rfl
theorem vexp2 (u o) : Statement (.vexp2 u o) := of_v o.d rfl
theorem vhadd (u o) : Statement (.vhadd u o) := of_v o.d rfl
theorem vhmul (u o) : Statement (.vhmul u o) := of_v o.d rfl
theorem vhfma (u o) : Statement (.vhfma u o) := of_v o.d rfl
theorem viadd (u o) : Statement (.viadd u o) := of_v o.d rfl
theorem visub (u o) : Statement (.visub u o) := of_v o.d rfl
theorem vimul (u o) : Statement (.vimul u o) := of_v o.d rfl
theorem vimin (u o) : Statement (.vimin u o) := of_v o.d rfl
theorem vimax (u o) : Statement (.vimax u o) := of_v o.d rfl
theorem vand (u o) : Statement (.vand u o) := of_v o.d rfl
theorem vor (u o) : Statement (.vor u o) := of_v o.d rfl
theorem vxor (u o) : Statement (.vxor u o) := of_v o.d rfl
theorem vshl (u o) : Statement (.vshl u o) := of_v o.d rfl
theorem vshr (u o) : Statement (.vshr u o) := of_v o.d rfl
theorem vsra (u o) : Statement (.vsra u o) := of_v o.d rfl
theorem vcmpf (u o) : Statement (.vcmpf u o) := of_p _ rfl
theorem vcmpi (u o) : Statement (.vcmpi u o) := of_p _ rfl
theorem vsel (u o) : Statement (.vsel u o) := of_v o.d rfl
theorem vcvt (u o f) : Statement (.vcvt u o f) := of_v o.d rfl
theorem vpack (u o) : Statement (.vpack u o) := of_v o.d rfl
theorem vunpk (u o) : Statement (.vunpk u o) := of_v o.d rfl
theorem vperm (u o) : Statement (.vperm u o) := of_v o.d rfl
theorem vrot (u o) : Statement (.vrot u o) := of_v o.d rfl
theorem vbcast (u o) : Statement (.vbcast u o) := of_v o.d rfl
theorem viota (u o) : Statement (.viota u o) := of_v o.d rfl
theorem vscan (u o) : Statement (.vscan u o) := of_v o.d rfl
theorem vred (u o) : Statement (.vred u o) := of_v o.d rfl
theorem vcnz (u o) : Statement (.vcnz u o) := of_v o.d rfl
theorem vcomp (u o) : Statement (.vcomp u o) := of_v o.d rfl
theorem vexpd (u o) : Statement (.vexpd u o) := of_v o.d rfl
theorem vmov (u o) : Statement (.vmov u o) := of_v o.d rfl
theorem vld (u o) : Statement (.vld u o) := of_v o.d rfl
theorem vst (a b) : Statement (.vst a b) := of_none rfl
theorem vldl (u o) : Statement (.vldl u o) := of_v o.d rfl
theorem vstl (a b) : Statement (.vstl a b) := of_none rfl
theorem vgath (u o) : Statement (.vgath u o) := of_vp o.d (pOfW o.w) rfl
theorem vscat (a b) : Statement (.vscat a b) := of_none rfl
theorem vldff (u o) : Statement (.vldff u o) := of_vp o.d (pOfW o.w) rfl
theorem vldt (u o) : Statement (.vldt u o) := of_v o.d rfl
theorem vstt (a b) : Statement (.vstt a b) := of_none rfl
theorem vstp (a b) : Statement (.vstp a b) := of_none rfl
theorem vxfer (u o) : Statement (.vxfer u o) := of_s o.d rfl
theorem vxferConst (u o) : Statement (.vxferConst u o) := of_s o.d rfl
theorem vxferCross (u o) : Statement (.vxferCross u o) := of_v o.d rfl
theorem vins (u o) : Statement (.vins u o) := of_v o.d rfl
theorem mma (a b) : Statement (.mma a b) := of_none rfl
theorem mmaz (a b) : Statement (.mmaz a b) := of_none rfl
theorem mdrn (a) : Statement (.mdrn a) := of_none rfl
theorem mfill (a) : Statement (.mfill a) := of_none rfl
theorem mzero (a) : Statement (.mzero a) := of_none rfl
theorem mcfg (a) : Statement (.mcfg a) := of_none rfl
theorem msync (a) : Statement (.msync a) := of_none rfl
theorem mldcb (a) : Statement (.mldcb a) := of_none rfl
theorem mstat (o) : Statement (.mstat o) := of_s o.d rfl
theorem pand (o) : Statement (.pand o) := of_p _ rfl
theorem por (o) : Statement (.por o) := of_p _ rfl
theorem pxor (o) : Statement (.pxor o) := of_p _ rfl
theorem pandn (o) : Statement (.pandn o) := of_p _ rfl
theorem pnot (o) : Statement (.pnot o) := of_p _ rfl
theorem pmov (o) : Statement (.pmov o) := of_p _ rfl
theorem pset (o) : Statement (.pset o) := of_p _ rfl
theorem pclr (o) : Statement (.pclr o) := of_p _ rfl
theorem pcnt (o) : Statement (.pcnt o) := of_s o.pd rfl
theorem pfirst (o) : Statement (.pfirst o) := of_p _ rfl
theorem pshl (o) : Statement (.pshl o) := of_p _ rfl
theorem scld (a) : Statement (.scld a) := of_none rfl
theorem sczero (a) : Statement (.sczero a) := of_none rfl
theorem cpy (a b) : Statement (.cpy a b) := of_none rfl
theorem cpyl (a b) : Statement (.cpyl a b) := of_none rfl
theorem cpyt (a b) : Statement (.cpyt a b) := of_none rfl
theorem cxpose (a b) : Statement (.cxpose a b) := of_none rfl
theorem cnest (a b) : Statement (.cnest a b) := of_none rfl
theorem crun (a b) : Statement (.crun a b) := of_none rfl
theorem cstamp (a b) : Statement (.cstamp a b) := of_none rfl
theorem cbclose (a b) : Statement (.cbclose a b) := of_none rfl
theorem cfp (a b) : Statement (.cfp a b) := of_none rfl
theorem ccmp (a b) : Statement (.ccmp a b) := of_none rfl
theorem csum (a b) : Statement (.csum a b) := of_none rfl
theorem cxpnd (a b) : Statement (.cxpnd a b) := of_none rfl
theorem cpush (a b) : Statement (.cpush a b) := of_none rfl
theorem cpeer (a b) : Statement (.cpeer a b) := of_none rfl
theorem cdisp (a b) : Statement (.cdisp a b) := of_none rfl
theorem binit (a b) : Statement (.binit a b) := of_none rfl
theorem barrive (a b) : Statement (.barrive a b) := of_none rfl
theorem bexpect (a b) : Statement (.bexpect a b) := of_none rfl
theorem wset (a b) : Statement (.wset a b) := of_none rfl
theorem wnext (u o) : Statement (.wnext u o) := of_s o.d rfl
theorem wdone (a b) : Statement (.wdone a b) := of_none rfl
theorem wresq (u o) : Statement (.wresq u o) := of_s o.d rfl
theorem tset (u o) : Statement (.tset u o) := of_h o.d rfl
theorem tlock (u o) : Statement (.tlock u o) := of_h o.d rfl
theorem tqry (u o) : Statement (.tqry u o) := of_s o.d rfl
theorem tbind (u o) : Statement (.tbind u o) := of_h o.d rfl
theorem tcur (u o) : Statement (.tcur u o) := of_h o.d rfl
theorem tadv (u o) : Statement (.tadv u o) := of_h o.d rfl
theorem cfill (a b) : Statement (.cfill a b) := of_none rfl
theorem br (a) : Statement (.br a) := of_none rfl
theorem bri (a) : Statement (.bri a) := of_none rfl
theorem call (o) : Statement (.call o) := of_a _ rfl
theorem ret (a) : Statement (.ret a) := of_none rfl
theorem loop (a) : Statement (.loop a) := of_none rfl
theorem nest (a) : Statement (.nest a) := of_none rfl
theorem swapi (a) : Statement (.swapi a) := of_none rfl
theorem trap (a) : Statement (.trap a) := of_none rfl
theorem rft (a) : Statement (.rft a) := of_none rfl
theorem waitk (a) : Statement (.waitk a) := of_none rfl
theorem waitb (o) : Statement (.waitb o) := of_p _ rfl
theorem cbwait (o : FY) : Statement (.cbwait o) := by
  obtain ⟨g, sc, k, a, w, _ | c⟩ := o
  · exact of_none rfl
  · by_cases h : c.toNat = 0 ∨ 12 < c.toNat
    · exact of_none (if_pos h)
    · exact of_p _ (if_neg h)
theorem monarm (a) : Statement (.monarm a) := of_none rfl
theorem waitmon (o) : Statement (.waitmon o) := by
  by_cases h : o.w.toNat ≥ 8
  · exact of_p _ (if_pos h)
  · exact of_none (if_neg h)
theorem ssync (a) : Statement (.ssync a) := of_none rfl
theorem spawn (a) : Statement (.spawn a) := of_none rfl
theorem texit (a) : Statement (.texit a) := of_none rfl
theorem yield (a) : Statement (.yield a) := of_none rfl
theorem hbeat (a) : Statement (.hbeat a) := of_none rfl
theorem fence (a) : Statement (.fence a) := of_none rfl
theorem pubc (a) : Statement (.pubc a) := of_none rfl
theorem csrr (o : FCS) : Statement (.csrr o) := by
  obtain ⟨g, r | v, n⟩ := o
  · exact of_s r rfl
  · exact of_none rfl
theorem csrw (a) : Statement (.csrw a) := of_none rfl
theorem fevrd (o) : Statement (.fevrd o) := of_s o.d rfl
theorem irqh (a) : Statement (.irqh a) := of_none rfl
theorem halt (a) : Statement (.halt a) := of_none rfl
theorem illegalBundle (a b c) : Statement (.illegalBundle a b c) := of_none rfl
theorem tokenCompletion (a) : Statement (.tokenCompletion a) := of_none rfl
theorem pageWalk (a b) : Statement (.pageWalk a b) := of_none rfl
theorem pintleCommit (a) : Statement (.pintleCommit a) := of_none rfl
theorem copyStart (a) : Statement (.copyStart a) := of_none rfl
theorem copyComplete (a) : Statement (.copyComplete a) := of_none rfl
theorem shootdownAcknowledge (a) : Statement (.shootdownAcknowledge a) := of_none rfl
theorem batchRetire (a) : Statement (.batchRetire a) := of_none rfl
theorem stampWrite (a) : Statement (.stampWrite a) := of_none rfl
theorem barrierUpdate (a b) : Statement (.barrierUpdate a b) := of_none rfl
theorem prefetchArrival (a) : Statement (.prefetchArrival a) := of_none rfl
theorem pushDelivery (a) : Statement (.pushDelivery a) := of_none rfl
theorem peerTransferReceive (a) : Statement (.peerTransferReceive a) := of_none rfl
theorem flitReceive (a b) : Statement (.flitReceive a b) := of_none rfl
theorem linkFailure (a) : Statement (.linkFailure a) := of_none rfl
theorem taskPlacement (a b) : Statement (.taskPlacement a b) := of_none rfl
theorem preemption (a) : Statement (.preemption a) := of_none rfl
theorem parkedTaskReady (a) : Statement (.parkedTaskReady a) := of_none rfl
theorem dependenceSatisfied (a) : Statement (.dependenceSatisfied a) := of_none rfl
theorem priorityPromotion (a) : Statement (.priorityPromotion a) := of_none rfl
theorem taskResume (a) : Statement (.taskResume a) := of_none rfl
theorem taskDiscard (a) : Statement (.taskDiscard a) := of_none rfl
theorem superstepComplete (a) : Statement (.superstepComplete a) := of_none rfl
theorem launch (a b) : Statement (.launch a b) := of_none rfl
theorem launchEnd (a) : Statement (.launchEnd a) := of_none rfl
theorem interruptDelivery (a) : Statement (.interruptDelivery a) := of_none rfl
theorem lenable (a) : Statement (.lenable a) := of_none rfl
theorem wdreq (a b) : Statement (.wdreq a b) := of_none rfl
theorem entgo (a b) : Statement (.entgo a b) := of_none rfl
theorem entgoUpdate (a) : Statement (.entgoUpdate a) := of_none rfl
theorem biasreq (a b) : Statement (.biasreq a b) := of_none rfl
theorem biasChangeComplete (a) : Statement (.biasChangeComplete a) := of_none rfl
theorem mdreg (a b) : Statement (.mdreg a b) := of_none rfl
theorem pool (a b) : Statement (.pool a b) := of_none rfl
theorem bankroleWrite (a) : Statement (.bankroleWrite a) := of_none rfl
theorem stashmapWrite (a) : Statement (.stashmapWrite a) := of_none rfl
theorem qmodeWrite (a) : Statement (.qmodeWrite a) := of_none rfl
theorem wdogwinWrite (a) : Statement (.wdogwinWrite a) := of_none rfl
theorem fevlogWrite (a) : Statement (.fevlogWrite a) := of_none rfl
theorem worldWrite (a) : Statement (.worldWrite a) := of_none rfl
theorem registerWrite (a b c) : Statement (.registerWrite a b c) := of_none rfl
theorem hostMemAccess (a b c) : Statement (.hostMemAccess a b c) := of_none rfl
theorem powerPeriod (a) : Statement (.powerPeriod a) := of_none rfl
theorem therm (a) : Statement (.therm a) := of_none rfl
theorem moduleReset (a) : Statement (.moduleReset a) := of_none rfl
theorem mctpMessage (a) : Statement (.mctpMessage a) := of_none rfl
theorem hostSnoop (a) : Statement (.hostSnoop a) := of_none rfl
theorem thermClear (a) : Statement (.thermClear a) := of_none rfl
theorem stagingFetchComplete (a) : Statement (.stagingFetchComplete a) := of_none rfl
theorem accessPerformed (a) : Statement (.accessPerformed a) := of_none rfl
theorem resultLanding : Statement (.resultLanding) := of_none rfl
theorem instructionFetch : Statement (.instructionFetch) := of_none rfl
theorem repetitionStart : Statement (.repetitionStart) := of_none rfl
theorem repetitionComplete : Statement (.repetitionComplete) := of_none rfl
theorem scaleLanding : Statement (.scaleLanding) := of_none rfl
theorem withdrawalComplete : Statement (.withdrawalComplete) := of_none rfl
theorem taskEnd : Statement (.taskEnd) := of_none rfl
theorem taskHalted : Statement (.taskHalted) := of_none rfl
theorem parking : Statement (.parking) := of_none rfl
theorem watchdogExpiry : Statement (.watchdogExpiry) := of_none rfl

end Sys2Proof.Laws.Destinations
end

