-- ==== Sys2Proof/Safety.lean ====
section
/-! DEFINITION. What counts as a safe run of the machine: every step of it answers a next state. -/

namespace Sys2Proof

/-- The states that n steps reach from a state, each of which answered a next state. -/
def reaches : Nat → Machine.State → Machine.State → Prop
  | 0, s, t => t = s
  | n + 1, s, t => ∃ u, Machine.step s = .next u ∧ reaches n u t

/-- A state in which the machine does not stop. -/
def goesOn (s : Machine.State) : Prop := ∃ t, Machine.step s = .next t

/-- A safe run of n steps: none of them stops. -/
def safeRun (n : Nat) (s : Machine.State) : Prop := ∀ k t, k < n → reaches k s t → goesOn t

end Sys2Proof
end

