-- ==== Sys2Proof/Tests/Slice0.lean ====
section
/-! SUPPORT. Tests: the well-formedness smoke, decoding of every row's word, a witness of every statement's hypotheses, and single
steps whose results the manual gives. -/

namespace Sys2Proof.Tests

set_option Elab.async false

open Sys2Proof Sys2Proof.Machine Sys2Proof.Claims

/-! ### Decoding (R41 to R58): every row's word, its bits written out from the encoding tables -/

/-- A word decodes to the instruction, alone in its slot. -/
def reads (slot : Fin 8) (l : List (Nat × Option (BitVec 32) × BitVec 12 × Instr)) : Bool :=
  l.all fun x => onlyOp (Claims.wordBundle slot x.1 x.2.1 x.2.2.1) == some x.2.2.2

theorem test_decode_S_1 : reads 0 [
    (0b000001_0111_0101_1100_1011_1_0, none, 0, .add ⟨7, 5, ⟨12, true⟩, .reg 11 false⟩),
    (0b000010_1100_0010_0011_0000_1_0, some 0x80000001, 0, .sub ⟨12, 2, ⟨3, true⟩, .imm 0x80000001⟩),
    (0b000011_0100_1111_1001_0111_1_1, none, 0, .mul ⟨4, 15, ⟨9, true⟩, .reg 7 true⟩),
    (0b000100_1001_1101_1111_1101_1_0, none, 0, .mulh ⟨9, 13, ⟨15, true⟩, .reg 13 false⟩),
    (0b000101_0001_1010_0110_0011_1_0, none, 0, .mulhu ⟨1, 10, ⟨6, true⟩, .reg 3 false⟩),
    (0b000110_0110_0111_1100_1001_1_1, none, 0, .div ⟨6, 7, ⟨12, true⟩, .reg 9 true⟩),
    (0b000111_1011_0101_0010_1111_1_1, none, 0, .divu ⟨11, 5, ⟨2, true⟩, .reg 15 true⟩),
    (0b001000_0011_0010_1000_0101_1_0, none, 0, .rem ⟨3, 2, ⟨8, true⟩, .reg 5 false⟩),
    (0b001001_1000_1111_1111_1011_1_0, none, 0, .remu ⟨8, 15, ⟨15, true⟩, .reg 11 false⟩),
    (0b001010_0000_1101_0101_0001_1_1, none, 0, .and ⟨0, 13, ⟨5, true⟩, .reg 1 true⟩),
    (0b001011_0101_1010_1011_0111_1_1, none, 0, .or ⟨5, 10, ⟨11, true⟩, .reg 7 true⟩),
    (0b001100_1010_0111_0010_1101_1_0, none, 0, .xor ⟨10, 7, ⟨2, true⟩, .reg 13 false⟩),
    (0b001101_0010_0101_1000_0011_1_0, none, 0, .andn ⟨2, 5, ⟨8, true⟩, .reg 3 false⟩),
    (0b001110_0111_0010_1110_1001_1_1, none, 0, .shl ⟨7, 2, ⟨14, true⟩, .reg 9 true⟩)] = true := by decide +kernel

theorem test_decode_S_2 : reads 0 [
    (0b001111_1100_1111_0100_1111_1_1, none, 0, .shr ⟨12, 15, ⟨4, true⟩, .reg 15 true⟩),
    (0b010000_0100_1101_1011_0101_1_0, none, 0, .sra ⟨4, 13, ⟨11, true⟩, .reg 5 false⟩),
    (0b010001_1001_1010_0001_1011_1_0, none, 0, .rol ⟨9, 10, ⟨1, true⟩, .reg 11 false⟩),
    (0b010010_0001_0111_0111_0001_1_1, none, 0, .min ⟨1, 7, ⟨7, true⟩, .reg 1 true⟩),
    (0b010011_0110_0101_1110_0111_1_1, none, 0, .max ⟨6, 5, ⟨14, true⟩, .reg 7 true⟩),
    (0b010100_1011_0010_0100_1101_1_0, none, 0, .minu ⟨11, 2, ⟨4, true⟩, .reg 13 false⟩),
    (0b010101_0011_1111_1010_0011_1_0, none, 0, .maxu ⟨3, 15, ⟨10, true⟩, .reg 3 false⟩),
    (0b010110_1000_1101_0000_0000_1_0, none, 0, .clz ⟨8, 13, ⟨0, true⟩, .reg 0 false⟩),
    (0b010111_0000_1010_0111_0000_1_0, none, 0, .popc ⟨0, 10, ⟨7, true⟩, .reg 0 false⟩),
    (0b011000_0101_0111_1101_0000_1_0, none, 0, .brev ⟨5, 7, ⟨13, true⟩, .reg 0 false⟩),
    (0b011001_1010_0101_0011_1011_1_0, none, 0, .sel ⟨10, 5, ⟨3, true⟩, .reg 11 false⟩),
    (0b011010_0010_0010_1010_0000_1_0, none, 0, .mov ⟨2, 2, ⟨10, true⟩, .reg 0 false⟩),
    (0b011010_0111_1111_0000000000, some 0x4, 0, .movCounter ⟨7, 15, 4⟩),
    (0b011011_1100_1101_0000_0000_0_1, none, 0, .movi ⟨12, 13, ⟨0, false⟩, .short 0 true⟩)] = true := by decide +kernel

theorem test_decode_S_3 : reads 0 [
    (0b011100_0100_1010_1100_0000_1_0, some 0x7FFFFFFE, 0, .addi ⟨4, 10, ⟨12, true⟩, .long 0x7FFFFFFE⟩),
    (0b011101_1001_0111_0011_1001_00, none, 0, .cmpeq ⟨9, 7, 3, .reg 9, 0⟩),
    (0b011110_0001_0010_1001_1111_00, none, 0, .cmpne ⟨1, 2, 9, .reg 15, 0⟩),
    (0b011111_0110_1001_1111_0101_00, none, 0, .cmplt ⟨6, 9, 15, .reg 5, 0⟩),
    (0b100000_1011_0100_0110_0000_00, some 0x80000001, 0, .cmple ⟨11, 4, 6, .imm 0x80000001, 0⟩),
    (0b100001_0011_1011_1100_0001_00, none, 0, .cmpltu ⟨3, 11, 12, .reg 1, 0⟩),
    (0b100010_1000_0110_0010_0111_00, none, 0, .cmpleu ⟨8, 6, 2, .reg 7, 0⟩),
    (0b100011_0000_0111_1000_1101_1_0, none, 0, .sfadd ⟨0, 7, ⟨8, true⟩, .reg 13 false⟩),
    (0b100100_0101_0101_1111_0011_1_0, none, 0, .sfsub ⟨5, 5, ⟨15, true⟩, .reg 3 false⟩),
    (0b100101_1010_0010_0101_1001_1_1, none, 0, .sfmul ⟨10, 2, ⟨5, true⟩, .reg 9 true⟩),
    (0b100110_0010_1111_1011_1111_1_1, none, 0, .sfdiv ⟨2, 15, ⟨11, true⟩, .reg 15 true⟩),
    (0b100111_0111_0101_0010_0101_00, none, 0, .sfcmplt ⟨7, 5, 2, .reg 5, 0⟩),
    (0b101000_1100_0000_1000_1011_00, none, 0, .sfcmpeq ⟨12, 0, 8, .reg 11, 0⟩),
    (0b101001_0100_0111_1110_1011_1_0, none, 0, .sfcvt ⟨4, 7, ⟨14, true⟩, .short 11 false⟩)] = true := by decide +kernel

theorem test_decode_S_4 : reads 0 [
    (0b101010_1001_0101_0100_0111_1_1, none, 0, .rndc ⟨9, 5, ⟨4, true⟩, .reg 7 true⟩),
    (0b101011_0001_1001_0001_0001_00, none, 0, .qcfg ⟨1, 9, ⟨1, false⟩, .short 1 false⟩),
    (0b101100_0110_1111_1001_0001_00, none, 0, .qcnt ⟨6, 15, ⟨9, false⟩, .reg 1 false⟩),
    (0b101101_1011_1101_0111_0000_1_0, none, 0, .amov ⟨11, 13, ⟨7, true⟩, .reg 0 false⟩),
    (0b101101_0011_1010_1110_000100, none, 0, .amovToS ⟨3, 10, ⟨14, false⟩, .reg 1 false⟩),
    (0b101110_1000_0111_0100_0101_0_0, none, 0, .aadd ⟨8, 7, ⟨4, false⟩, .reg 5 false⟩),
    (0b101111_0000_0101_1010_000_100, some 0xFFFFFFC0, 0, .sld ⟨0, 5, 10, 0, 4, some 0xFFFFFFC0⟩),
    (0b110000_0101_0010_0000_101_010, none, 0, .sst ⟨5, 2, 0, 5, 2, none⟩),
    (0b110001_1010_1111_0111_010_000, some 0xFFFFFFC0, 0, .sldl ⟨10, 15, 7, 2, 0, some 0xFFFFFFC0⟩),
    (0b110010_0010_1101_1101_000_010, none, 0, .sstl ⟨2, 13, 13, 0, 2, none⟩),
    (0b110011_0111_1010_0011_101_100, none, 0, .slda ⟨7, 10, 3, 5, 4, none⟩),
    (0b110100_1100_0111_1010_010_010, none, 0, .sstrl ⟨12, 7, 10, 2, 2, none⟩),
    (0b110101_0100_0101_0000_000_000, some 0x35, 0, .satom ⟨4, 5, 0, 0, 0, some 0x35⟩),
    (0b110110_1001_0010_0110_101_001, some 0x45, 0, .scas ⟨9, 2, 6, 5, 1, some 0x45⟩)] = true := by decide +kernel

theorem test_decode_S_5 : reads 0 [
    (0b110111_0001_1111_1100_010_000, some 0x8000F0, 0, .sstp ⟨1, 15, 12, 2, 0, some 0x8000F0⟩)] = true := by decide +kernel

theorem test_decode_V0_1 : reads 1 [
    (0b000001_0110_0011_0011_0001_1_1, none, 0, .vadd false ⟨6, 3, ⟨3, true⟩, .reg 1 true⟩),
    (0b000010_1011_0100_1001_0111_1_1, none, 0, .vsub false ⟨11, 4, ⟨9, true⟩, .reg 7 true⟩),
    (0b000011_0011_0101_1111_0000_1_0, some 0x80000001, 0, .vmul false ⟨3, 5, ⟨15, true⟩, .imm 0x80000001⟩),
    (0b000100_1000_0110_0110_0011_1_0, none, 0, .vfma false ⟨8, 6, ⟨6, true⟩, .reg 3 false⟩),
    (0b000101_0000_0111_1100_1001_1_1, none, 0, .vfms false ⟨0, 7, ⟨12, true⟩, .reg 9 true⟩),
    (0b000110_0101_0001_0010_1111_1_1, none, 0, .vmin false ⟨5, 1, ⟨2, true⟩, .reg 15 true⟩),
    (0b000111_1010_0010_1000_0101_1_0, none, 0, .vmax false ⟨10, 2, ⟨8, true⟩, .reg 5 false⟩),
    (0b001000_0010_0011_1111_0000_1_0, none, 0, .vabs false ⟨2, 3, ⟨15, true⟩, .reg 0 false⟩),
    (0b001001_0111_0100_0101_0000_1_0, none, 0, .vneg false ⟨7, 4, ⟨5, true⟩, .reg 0 false⟩),
    (0b001010_1100_0101_1011_0111_1_1, none, 0, .vdiv false ⟨12, 5, ⟨11, true⟩, .reg 7 true⟩),
    (0b001011_0100_0110_0010_0000_1_0, none, 0, .vsqrt false ⟨4, 6, ⟨2, true⟩, .reg 0 false⟩),
    (0b001100_1001_0111_1000_0000_1_0, none, 0, .vexp2 false ⟨9, 7, ⟨8, true⟩, .reg 0 false⟩),
    (0b001101_0001_0001_1110_1001_1_1, none, 0, .vhadd false ⟨1, 1, ⟨14, true⟩, .reg 9 true⟩),
    (0b001110_0110_0010_0100_1111_1_1, none, 0, .vhmul false ⟨6, 2, ⟨4, true⟩, .reg 15 true⟩)] = true := by decide +kernel

theorem test_decode_V0_2 : reads 1 [
    (0b001111_1011_0011_1011_0101_1_0, none, 0, .vhfma false ⟨11, 3, ⟨11, true⟩, .reg 5 false⟩),
    (0b010000_0011_0100_0001_1011_1_0, none, 0, .viadd false ⟨3, 4, ⟨1, true⟩, .reg 11 false⟩),
    (0b010001_1000_0101_0111_0001_1_1, none, 0, .visub false ⟨8, 5, ⟨7, true⟩, .reg 1 true⟩),
    (0b010010_0000_0110_1110_0111_1_1, none, 0, .vimul false ⟨0, 6, ⟨14, true⟩, .reg 7 true⟩),
    (0b010011_0101_0111_0100_1101_1_0, none, 0, .vimin false ⟨5, 7, ⟨4, true⟩, .reg 13 false⟩),
    (0b010100_1010_0001_1010_0011_1_0, none, 0, .vimax false ⟨10, 1, ⟨10, true⟩, .reg 3 false⟩),
    (0b010101_0010_0010_0000_1001_1_1, none, 0, .vand false ⟨2, 2, ⟨0, true⟩, .reg 9 true⟩),
    (0b010110_0111_0011_0111_1111_1_1, none, 0, .vor false ⟨7, 3, ⟨7, true⟩, .reg 15 true⟩),
    (0b010111_1100_0100_1101_0101_1_0, none, 0, .vxor false ⟨12, 4, ⟨13, true⟩, .reg 5 false⟩),
    (0b011000_0100_0101_0011_1011_1_0, none, 0, .vshl false ⟨4, 5, ⟨3, true⟩, .reg 11 false⟩),
    (0b011001_1001_0110_1010_0001_1_1, none, 0, .vshr false ⟨9, 6, ⟨10, true⟩, .reg 1 true⟩),
    (0b011010_0001_0111_0000_0111_1_1, none, 0, .vsra false ⟨1, 7, ⟨0, true⟩, .reg 7 true⟩),
    (0b011011_0110_0001_0110_1101_00, none, 0, .vcmpf false ⟨6, 1, 6, .reg 13, 0⟩),
    (0b011100_1011_1000_1100_0000_11, some 0x80000001, 0, .vcmpi false ⟨11, 8, 12, .imm 0x80000001, 3⟩)] = true := by decide +kernel

theorem test_decode_V0_3 : reads 1 [
    (0b011101_0011_0011_0011_1001_1_1, none, 0, .vsel false ⟨3, 3, ⟨3, true⟩, .reg 9 true⟩),
    (0b011110_1000_0100_1001_11_01_00, some 0x52, 0, .vcvt false ⟨8, 4, ⟨9, false⟩, .short 13 false⟩ 0x52),
    (0b011111_0000_0101_1111_0101_1_0, none, 0, .vpack false ⟨0, 5, ⟨15, true⟩, .reg 5 false⟩),
    (0b100000_0101_0110_0110_0000_1_0, none, 0, .vunpk false ⟨5, 6, ⟨6, true⟩, .reg 0 false⟩),
    (0b100001_1010_0111_1100_0001_1_1, none, 0, .vperm false ⟨10, 7, ⟨12, true⟩, .reg 1 true⟩),
    (0b100010_0010_0001_0010_1010_1_0, none, 0, .vrot false ⟨2, 1, ⟨2, true⟩, .short 10 false⟩),
    (0b100011_0111_0010_1000_0000_1_0, none, 0, .vbcast false ⟨7, 2, ⟨8, true⟩, .reg 0 false⟩),
    (0b100100_1100_0011_0000_0000_0_0, some 0x7FFFFFFE, 0, .viota false ⟨12, 3, ⟨0, false⟩, .long 0x7FFFFFFE⟩),
    (0b100101_0100_0100_0101_0011_1_0, none, 0, .vscan false ⟨4, 4, ⟨5, true⟩, .short 3 false⟩),
    (0b100110_1001_0101_1011_1000_1_0, none, 0, .vred false ⟨9, 5, ⟨11, true⟩, .short 8 false⟩),
    (0b100111_0001_0110_0010_0000_1_0, none, 0, .vcnz false ⟨1, 6, ⟨2, true⟩, .reg 0 false⟩),
    (0b101000_0110_0111_1000_0000_1_0, none, 0, .vcomp false ⟨6, 7, ⟨8, true⟩, .reg 0 false⟩),
    (0b101001_1011_0001_1110_0000_1_0, none, 0, .vexpd false ⟨11, 1, ⟨14, true⟩, .reg 0 false⟩),
    (0b101010_0011_0010_0100_0000_1_0, none, 0, .vmov false ⟨3, 2, ⟨4, true⟩, .reg 0 false⟩)] = true := by decide +kernel

theorem test_decode_V0_4 : reads 1 [
    (0b101011_1000_0011_1011_000_000, some 0xFFFFFFC0, 0, .vld false ⟨8, 3, 11, 0, 0, some 0xFFFFFFC0⟩),
    (0b101100_0000_0100_0001_101_000, none, 0, .vst false ⟨0, 4, 1, 5, 0, none⟩),
    (0b101101_0101_0101_0111_010_000, none, 0, .vldl false ⟨5, 5, 7, 2, 0, none⟩),
    (0b101110_1010_0110_1110_000_000, none, 0, .vstl false ⟨10, 6, 14, 0, 0, none⟩),
    (0b101111_0010_0111_0100_101_110, none, 0, .vgath false ⟨2, 7, 4, 5, 6, none⟩),
    (0b110000_0111_0001_1010_000000, none, 0, .vscat false ⟨7, 1, 10, 0, 0, none⟩),
    (0b110001_1100_0010_0000_000_010, none, 0, .vldff false ⟨12, 2, 0, 0, 2, none⟩),
    (0b110010_0100_0011_0111_101_0_00, none, 0, .vldt false ⟨4, 3, 7, 5, 0, none⟩),
    (0b110011_1001_0100_1101_010_0_10, none, 0, .vstt false ⟨9, 4, 13, 2, 2, none⟩),
    (0b110100_0001_0101_0011_000_000, some 0x8000F0, 0, .vstp false ⟨1, 5, 3, 0, 0, some 0x8000F0⟩),
    (0b110101_0110_0010_1010_1001_1_1, none, 0, .vxfer false ⟨6, 2, ⟨10, true⟩, .reg 9 true⟩),
    (0b110101_1011_1111_0000_0000_1_0, some 0x2B, 0, .vxferConst false ⟨11, 15, ⟨0, true⟩, 43⟩),
    (0b110101_0011_1000_0110_0000_1_0, some 0x100, 0, .vxferCross false ⟨3, 8, ⟨6, true⟩⟩),
    (0b110110_1000_0010_1100_1011_1_0, none, 0, .vins false ⟨8, 2, ⟨12, true⟩, .reg 11 false⟩)] = true := by decide +kernel

theorem test_decode_M_1 : reads 3 [
    (0b000001_0000_0110_0001_011_010, none, 7, .mma 7 ⟨0, 6, 1, 3, 2⟩),
    (0b000010_0101_1100_0111_111_000, none, 4095, .mmaz 4095 ⟨5, 12, 7, 7, 0⟩),
    (0b000011_1010_0010_10_01_010_101, none, 0, .mdrn ⟨10, 2, 9, 2, 5⟩),
    (0b000100_0010_1001_0000_110_000, none, 0, .mfill ⟨2, 9, 0, 6, 0⟩),
    (0b000101_0111_00000000_001_000, none, 0, .mzero ⟨7, 0, 0, 1, 0⟩),
    (0b000110_1100_00000000_0000_0_0, some 0x80000001, 0, .mcfg ⟨12, 0, ⟨0, false⟩, .imm 0x80000001⟩),
    (0b000111_0100_00000000000_010, none, 0, .msync ⟨4, 0, 0, 0, 2⟩),
    (0b001000_1001_0010_1011_000000, none, 0, .mldcb ⟨9, 2, 11, 0, 0⟩),
    (0b001001_0001_0010_0000000000, none, 0, .mstat ⟨1, 2, ⟨0, false⟩, .reg 0 false⟩)] = true := by decide +kernel

theorem test_decode_C0_1 : reads 4 [
    (0b000001_0110_1101_1101_000_110, some 0xFFFFFFC0, 0, .cpy false ⟨6, 13, 13, 0, 6, some 0xFFFFFFC0⟩),
    (0b000010_1011_1010_0011_101_100, none, 0, .cpyl false ⟨11, 10, 3, 5, 4, none⟩),
    (0b000011_0011_0111_1010_010_101, none, 0, .cpyt false ⟨3, 7, 10, 2, 5, none⟩),
    (0b000100_1000_0101_0000_000_100, some 0xFFFFFFC0, 0, .cxpose false ⟨8, 5, 0, 0, 4, some 0xFFFFFFC0⟩),
    (0b000101_0000_0011_0110_1101_1_0, none, 0, .cnest false ⟨0, 3, ⟨6, true⟩, .reg 13 false⟩),
    (0b000110_0101_1111_1100_010_110, none, 0, .crun false ⟨5, 15, 12, 2, 6, none⟩),
    (0b000111_1010_0000_0011_000_000, none, 0, .cstamp false ⟨10, 0, 3, 0, 0, none⟩),
    (0b001000_0010_00000000000000, none, 0, .cbclose false ⟨2⟩),
    (0b001001_0111_0111_1111_010_000, none, 0, .cfp false ⟨7, 7, 15, 2, 0, none⟩),
    (0b001010_1100_0101_0110_000_011, none, 0, .ccmp false ⟨12, 5, 6, 0, 3, none⟩),
    (0b001011_0100_0010_1100_101_000, none, 0, .csum false ⟨4, 2, 12, 5, 0, none⟩),
    (0b001100_1001_1111_0010_010_000, none, 0, .cxpnd false ⟨9, 15, 2, 2, 0, none⟩),
    (0b001101_0001_0000_1000_000_000, some 0x8000F0, 0, .cpush false ⟨1, 0, 8, 0, 0, some 0x8000F0⟩),
    (0b001110_0110_1010_1111_101_000, none, 0, .cpeer false ⟨6, 10, 15, 5, 0, none⟩)] = true := by decide +kernel

theorem test_decode_C0_2 : reads 4 [
    (0b001111_1011_0000_0101_010_000, none, 0, .cdisp false ⟨11, 0, 5, 2, 0, none⟩),
    (0b010000_0011_0000_1011_1111_0_1, none, 0, .binit false ⟨3, 0, ⟨11, false⟩, .reg 15 true⟩),
    (0b010001_1000_0000_0010_0000_0_0, some 0x80000001, 0, .barrive false ⟨8, 0, ⟨2, false⟩, .imm 0x80000001⟩),
    (0b010010_0000_0000_1000_1011_0_0, none, 0, .bexpect false ⟨0, 0, ⟨8, false⟩, .reg 11 false⟩),
    (0b010011_0101_0000_1110_000_000, none, 0, .wset false ⟨5, 0, 14, 0, 0, none⟩),
    (0b010100_1010_1010_0000000000, none, 0, .wnext false ⟨10, 10, ⟨0, false⟩, .reg 0 false⟩),
    (0b010101_0010_0000_1011_0000_1_0, none, 0, .wdone false ⟨2, 0, ⟨11, true⟩, .reg 0 false⟩),
    (0b010110_0111_0101_0001_0011_0_0, none, 0, .wresq false ⟨7, 5, ⟨1, false⟩, .reg 3 false⟩),
    (0b010111_1100_0010_0111_1001_1_1, none, 0, .tset false ⟨12, 2, ⟨7, true⟩, .reg 9 true⟩),
    (0b011000_0100_1111_1110_1111_1_1, none, 0, .tlock false ⟨4, 15, ⟨14, true⟩, .reg 15 true⟩),
    (0b011001_1001_1101_0100_000_000, none, 0, .tqry false ⟨9, 13, 4, 0, 0, none⟩),
    (0b011010_0001_1010_1010_101_000, none, 0, .tbind false ⟨1, 10, 10, 5, 0, none⟩),
    (0b011011_0110_0111_0000_0000_1_0, some 0x80000001, 0, .tcur false ⟨6, 7, ⟨0, true⟩, .imm 0x80000001⟩),
    (0b011100_1011_0101_0111_1010_1_0, none, 0, .tadv false ⟨11, 5, ⟨7, true⟩, .short 10 false⟩)] = true := by decide +kernel

theorem test_decode_C0_3 : reads 4 [
    (0b011101_0011_0010_1101_101_110, some 0xFFFFFFC0, 0, .cfill false ⟨3, 2, 13, 5, 6, some 0xFFFFFFC0⟩)] = true := by decide +kernel

theorem test_decode_K_1 : reads 6 [
    (0b000001_1000_0000_1110110000, none, 0, .br ⟨8, 0, .short 0x3B0⟩),
    (0b000010_0000_1010_0000000000, none, 0, .bri ⟨0, 10, .short 0x0⟩),
    (0b000011_0101_0000_0000000000, some 0xFFFFFF00, 0, .call ⟨5, 0, .long 0xFFFFFF00⟩),
    (0b000100_1010_0110_0000000000, none, 0, .ret ⟨10, 6, .short 0x0⟩),
    (0b000101_0010_0011_1100_1110_1_1, none, 0, .loop ⟨2, 3, ⟨12, true⟩, .short 14 true⟩),
    (0b000110_0111_0011_0011_0000_1_0, some 0x7FFFFFFE, 0, .nest ⟨7, 3, ⟨3, true⟩, .long 0x7FFFFFFE⟩),
    (0b000111_1100_0000_1111100010, none, 0, .swapi ⟨12, 0, .short 0x3E2⟩),
    (0b001000_0100_00000000_0000_0_1, none, 0, .trap ⟨4, 0, ⟨0, false⟩, .short 0 true⟩),
    (0b001001_1001_00000000000000, none, 0, .rft ⟨9⟩),
    (0b001010_0001_000_010_00000000, none, 0, .waitk ⟨1, 0, 2, 0, 0, none⟩),
    (0b001011_0110_010_000_0010_0_101, none, 0, .waitb ⟨6, 2, 0, 2, 5, none⟩),
    (0b001100_1011_0000000000_1_101, some 0x9, 0, .cbwait ⟨11, 0, 0, 0, 13, some 0x9⟩),
    (0b001101_0011_010_000_1111_0000, none, 0, .monarm ⟨3, 2, 0, 15, 0, none⟩),
    (0b001110_1000_010_000_0101_1_111, none, 0, .waitmon ⟨8, 2, 0, 5, 15, none⟩)] = true := by decide +kernel

theorem test_decode_K_2 : reads 6 [
    (0b001111_0000_100_00000000000, none, 0, .ssync ⟨0, 4, 0, 0, 0, none⟩),
    (0b010000_0101_000_010_0010_0000, none, 0, .spawn ⟨5, 0, 2, 2, 0, none⟩),
    (0b010001_1010_00000000000000, none, 0, .texit ⟨10⟩),
    (0b010010_0010_00000000000000, none, 0, .yield ⟨2⟩),
    (0b010011_0111_00000000000000, none, 0, .hbeat ⟨7⟩),
    (0b010100_1100_00000000000000, some 0xA003, 0, .fence ⟨12, 0, 0, 0, 0, some 0xA003⟩),
    (0b010101_0100_011_00000000000, none, 0, .pubc ⟨4, 3, 0, 0, 0, none⟩),
    (0b010110_1001_0100_0000010011, none, 0, .csrr ⟨9, .reg 4, 0x13⟩),
    (0b010111_0001_0000_0000001000, some 0x12345678, 0, .csrw ⟨1, .imm 0x12345678, 0x8⟩),
    (0b011000_0110_0010_0000000000, none, 0, .fevrd ⟨6, 2, ⟨0, false⟩, .reg 0 false⟩),
    (0b011001_1011_00000000_0000_0_0, some 0x7FFFFFFE, 0, .irqh ⟨11, 0, ⟨0, false⟩, .long 0x7FFFFFFE⟩),
    (0b011010_0011_00000000000000, none, 0, .halt ⟨3⟩),
    (0b010111_0001_1111_0000000001, none, 0, .qmodeWrite ⟨1, .reg 15⟩),
    (0b010111_0010_1110_0000000011, none, 0, .bankroleWrite ⟨2, .reg 14⟩)] = true := by decide +kernel

theorem test_decode_K_3 : reads 6 [
    (0b010111_0011_1101_0000000100, none, 0, .stashmapWrite ⟨3, .reg 13⟩),
    (0b010111_0100_1100_0000000110, none, 0, .fevlogWrite ⟨4, .reg 12⟩),
    (0b010111_0101_1011_0000110000, none, 0, .wdogwinWrite ⟨5, .reg 11⟩),
    (0b010111_0110_1010_0000110101, none, 0, .worldWrite ⟨6, .reg 10⟩)] = true := by decide +kernel

theorem test_decode_X_1 : reads 7 [
    (0b000001_0110_1010_0111_1011_00, none, 0, .pand ⟨6, 10, 7, 44⟩),
    (0b000010_1011_0001_0000_0110_00, none, 0, .por ⟨11, 1, 0, 24⟩),
    (0b000011_0011_0100_0101_0001_00, none, 0, .pxor ⟨3, 4, 5, 4⟩),
    (0b000100_1000_0111_1010_1000_00, none, 0, .pandn ⟨8, 7, 10, 32⟩),
    (0b000101_0000_1010_0011_000000, none, 0, .pnot ⟨0, 10, 3, 0⟩),
    (0b000110_0101_0001_1000_000000, none, 0, .pmov ⟨5, 1, 8, 0⟩),
    (0b000111_1010_0100_0000_100110, none, 0, .pset ⟨10, 4, 0, 38⟩),
    (0b001000_0010_0111_0000_110000, none, 0, .pclr ⟨2, 7, 0, 48⟩),
    (0b001001_0111_1010_1011_000000, none, 0, .pcnt ⟨7, 10, 11, 0⟩),
    (0b001010_1100_0001_0100_000000, none, 0, .pfirst ⟨12, 1, 4, 0⟩),
    (0b001011_0100_0100_1001_001111, none, 0, .pshl ⟨4, 4, 9, 15⟩),
    (0b001100_1001_0011_0001_000000, none, 0, .scld ⟨9, 3, 1, 0, 0⟩),
    (0b001101_0001_0000_0001_000000, none, 0, .sczero ⟨1, 0, 1, 0, 0⟩)] = true := by decide +kernel

/-- Slots V1 and C1 read the same words; a destination of the other cluster, and a word of no row, are refused (R13, R60). -/
theorem test_decode_second_slots : reads 2 [(0b000001_0000_1001_0010_0100_0_0, none, 0, .vadd true ⟨0, 9, ⟨2, false⟩, .reg 4 false⟩)] = true ∧
    reads 5 [(0b001000_0101_00000000000000, none, 0, .cbclose true ⟨5⟩)] = true := by decide +kernel

theorem test_decode_nop : onlyOp 0 = some .nop := by decide +kernel

/-! ### Well-formedness: an ill-formed term for each check -/

def fr (d : Fin 16) (a b : Fin 16) : FR := ⟨0, d, ⟨a, false⟩, .reg b false⟩
def fl (d k : Nat) (w : BitVec 3) (imm : Option (BitVec 32)) : FL := ⟨0, Fin.ofNat 16 d, 1, Fin.ofNat 8 k, w, imm⟩
def fi (d : Fin 16) (a : Fin 16) (i : ImmI) : FI := ⟨0, d, ⟨a, false⟩, i⟩
def fy (sc : BitVec 3) (k : Tok) (a : Fin 16) (w : BitVec 4) (imm : Option (BitVec 32)) : FY := ⟨0, sc, k, a, w, imm⟩
def ft (h b : Fin 16) (ac : BitVec 3) (k : Tok) : FT := ⟨0, h, b, ac, k⟩
def fp (pd : Fin 16) (pa : PReg) (e : BitVec 6) : FP := ⟨0, pd, pa, e⟩
def fc (cc : BitVec 2) : FC := ⟨0, 1, 2, .reg 3, cc⟩
/-- An A field and a B field with their peek bits set; code words above every bound, with SX set, and in the long immediate. -/
def peekA : FR := ⟨0, 1, ⟨2, true⟩, .reg 0 false⟩
def peekB : FR := ⟨0, 1, ⟨0, false⟩, .reg 0 true⟩
def code (n : Nat) : ImmI := .short (BitVec.ofNat 4 n) false

/-- Zero fields: R50 and R51. -/
def illZeros : List Instr := [.clz (fr 1 2 3), .popc peekB, .brev (fr 1 2 3), .mov (fr 1 2 3), .movi (fi 1 2 (code 0)), .cmpeq (fc 1), .cmpne (fc 2), .cmplt (fc 3),
  .cmple (fc 1), .cmpltu (fc 1), .cmpleu (fc 1), .sfcmplt (fc 1), .sfcmpeq (fc 2), .vabs false (fr 1 2 3), .vneg true (fr 9 2 3), .vsqrt false (fr 1 2 3), .vexp2 false (fr 1 2 3),
  .vunpk false (fr 1 2 3), .vbcast false (fr 1 2 3), .viota false (fi 1 2 (code 0)), .vcnz false (fr 1 2 3), .vcomp false (fr 1 2 3), .vexpd false (fr 1 2 3), .vmov false (fr 1 2 3),
  .mcfg (fr 1 0 3), .mcfg (fr 0 2 3), .mstat (fr 1 2 0), .mstat (fr 1 0 2), .mfill (ft 1 1 0 0), .mfill (ft 1 0 0 1), .mzero (ft 1 0 0 0), .mzero (ft 0 1 0 0), .mzero (ft 0 0 0 1),
  .msync (ft 1 0 0 0), .msync (ft 0 1 0 0), .msync (ft 0 0 1 0), .mldcb (ft 1 0 1 0), .mldcb (ft 1 0 0 1), .pnot (fp 1 2 4), .pmov (fp 1 2 4), .pset (fp 1 2 0), .pclr (fp 1 2 0),
  .pcnt (fp 1 2 1), .pfirst (fp 1 2 1), .wnext true (fr 1 2 0), .wnext false (fr 1 0 2), .wdone true (fr 1 2 0), .wdone true (fr 0 2 3), .trap (fi 1 0 (code 0)), .trap (fi 0 1 (code 0)),
  .fevrd (fr 1 2 0), .fevrd (fr 1 0 2), .irqh (fi 1 0 (code 0)), .irqh (fi 0 1 (code 0)), .br ⟨0, 1, .short 0⟩, .bri ⟨0, 1, .short 1⟩, .ret ⟨0, 1, .long 0⟩, .swapi ⟨0, 1, .short 0⟩,
  .binit true (fr 1 2 3), .barrive false (fr 1 2 3), .bexpect true (fr 1 2 3), .cstamp true (fl 1 0 0 none), .cpush false (fl 1 0 0 (some 0)), .cdisp false (fl 1 0 0 none), .wset true (fl 1 0 0 none)]
theorem test_zero_fields : ∀ i ∈ illZeros, i.wf = false := by decide

/-- Ranges: R53 to R59. -/
def illRanges : List Instr := [.sfcvt (fi 1 2 (code 14)), .sfcvt (fi 1 2 (.short 0 true)), .sfcvt (fi 1 2 (.long 0)), .qcfg (fi 0 0 (code 1)), .qcfg (fi 1 0 (code 4)), .qcfg (fi 1 1 (code 2)),
  .qcfg (fi 1 2 (code 0)), .qcfg ⟨0, 1, ⟨0, true⟩, code 1⟩, .qcnt (fr 1 0 1), .qcnt (fr 1 2 2), .qcnt peekA, .amov (fr 1 2 1), .amov peekB, .amovToS (fr 1 2 0), .amovToS ⟨0, 1, ⟨2, true⟩, .reg 1 false⟩,
  .aadd peekA, .wresq true peekA, .binit true ⟨0, 0, ⟨2, true⟩, .reg 0 false⟩, .vcvt false ⟨0, 1, ⟨2, true⟩, code 0⟩ 0x10, .vcvt false (fi 1 2 (code 0)) 0x08, .vcvt false (fi 1 2 (code 0)) 0x80,
  .vcvt false (fi 1 2 (code 0)) 0x100, .vcvt false (fi 1 2 (.short 1 true)) 0x10, .vpack false ⟨0, 1, ⟨2, false⟩, .imm 0⟩, .vperm false ⟨0, 1, ⟨2, false⟩, .imm 0⟩, .vxfer false ⟨0, 1, ⟨2, false⟩, .imm 0⟩,
  .vscan false (fi 1 2 (code 9)), .vred false (fi 1 2 (code 9)), .sld (fl 1 0 7 none), .sst (fl 1 0 4 none), .sldl (fl 1 0 7 none), .sstl (fl 1 0 4 none), .sstl (fl 1 1 0 none), .slda (fl 1 0 5 none),
  .slda (fl 1 0 0 (some 0)), .sstrl (fl 1 0 5 none), .sstrl (fl 1 0 0 (some 0)), .satom (fl 1 0 5 (some 0)), .satom (fl 1 0 0 (some 9)), .satom (fl 1 0 0 (some 0x80)), .scas (fl 1 0 5 (some 0)),
  .scas (fl 1 0 0 (some 0x80)), .sstp (fl 1 0 1 (some 0)), .sstp (fl 1 0 0 (some 0x1000000)), .vld false (fl 1 0 1 none), .vst true (fl 1 0 1 none), .vldl false (fl 1 0 1 none), .vstl false (fl 1 0 1 none),
  .vstl false (fl 1 1 0 none), .vscat false (fl 1 0 1 none), .vscat false (fl 1 1 0 none), .vldt false (fl 1 0 4 none), .vldt false (fl 1 0 0 (some 0)), .vstt false (fl 1 0 4 none), .vstt false (fl 1 0 0 (some 0)),
  .vstp false (fl 1 0 1 (some 0)), .vstp false (fl 1 0 0 (some 0x1000000)), .mdrn (ft 1 12 0 0), .scld (ft 1 2 0 0), .scld (ft 1 0 1 0), .scld (ft 1 0 0 1), .sczero (ft 1 0 0 0), .sczero (ft 0 2 0 0),
  .sczero (ft 0 0 1 0), .sczero (ft 0 0 0 1), .pand (fp 12 0 0), .pand (fp 1 2 1), .por (fp 1 2 2), .pxor (fp 1 2 48), .pandn (fp 1 2 3), .pnot (fp 12 0 0), .pset (fp 12 0 0), .pfirst (fp 12 0 0), .pshl (fp 12 0 0)]
theorem test_ranges : ∀ i ∈ illRanges, i.wf = false := by decide

def illSystem : List Instr := [.cpy false (fl 1 0 1 none), .cpyt true (fl 1 0 2 none), .cxpose true (fl 1 0 1 none), .cnest true (fr 6 1 2), .crun false (fl 1 0 3 none), .crun false (fl 1 0 7 none),
  .cstamp true (fl 0 0 1 none), .cfp true (fl 1 0 1 none), .csum true (fl 1 0 1 none), .ccmp true (fl 1 0 7 none), .cxpnd false (fl 1 0 1 none), .cpush false (fl 0 0 1 (some 0)),
  .cpush false (fl 0 0 0 (some 0x1000000)), .cpeer true (fl 1 0 1 none), .cdisp true (fl 0 0 1 none), .wset true (fl 0 0 1 none), .tqry true (fl 1 0 1 none), .tbind true (fl 1 0 1 none),
  .loop (fi 6 1 (code 0)), .nest (fi 6 1 (code 0)), .waitk (fy 1 0 0 0 none), .waitk (fy 0 0 1 0 none), .waitk (fy 0 0 0 1 none), .waitk (fy 0 0 0 0 (some 0)), .waitb (fy 5 0 1 0 none), .waitb (fy 0 1 1 0 none),
  .waitb (fy 0 0 1 0 (some 0)), .cbwait (fy 1 0 0 0 none), .cbwait (fy 0 1 0 0 none), .cbwait (fy 0 0 1 0 none), .cbwait (fy 0 0 0 0 (some 13)), .monarm (fy 5 0 1 0 none), .monarm (fy 0 1 1 0 none),
  .monarm (fy 0 0 1 1 none), .monarm (fy 0 0 1 0 (some 0)), .waitmon (fy 5 0 1 0 none), .waitmon (fy 0 1 1 0 none), .waitmon (fy 0 0 1 7 none), .waitmon (fy 0 0 1 0 (some 0)), .ssync (fy 0 0 0 0 none),
  .ssync (fy 5 0 0 0 none), .ssync (fy 1 1 0 0 none), .ssync (fy 1 0 1 0 none), .ssync (fy 1 0 0 1 none), .ssync (fy 1 0 0 0 (some 0)), .spawn (fy 1 0 1 0 none), .spawn (fy 0 0 1 1 none),
  .spawn (fy 0 0 1 0 (some 0)), .fence (fy 1 0 0 0 none), .fence (fy 0 1 0 0 none), .fence (fy 0 0 1 0 none), .fence (fy 0 0 0 1 none), .fence (fy 0 0 0 0 (some 0x10000)), .pubc (fy 5 0 0 0 none),
  .pubc (fy 0 1 0 0 none), .pubc (fy 0 0 1 0 none), .pubc (fy 0 0 0 1 none), .pubc (fy 0 0 0 0 (some 0)), .csrr ⟨0, .reg 1, 0x00B⟩, .csrr ⟨0, .imm 1, 0x000⟩, .csrw ⟨0, .reg 1, 0x028⟩, .csrw ⟨0, .reg 1, 0x001⟩,
  .csrw ⟨0, .reg 1, 0x003⟩, .csrw ⟨0, .reg 1, 0x004⟩, .csrw ⟨0, .reg 1, 0x006⟩, .csrw ⟨0, .reg 1, 0x030⟩, .csrw ⟨0, .reg 1, 0x035⟩, .illegalBundle false 0 0, .illegalBundle false 0 9, .illegalBundle true 0 2,
  .illegalBundle false 0 1, .pintleCommit 8, .barrierUpdate 0 8, .prefetchArrival 65536, .peerTransferReceive ⟨0, 0, 0, 4, [], 0⟩, .peerTransferReceive ⟨0, 0, 0, 8, [1], 0⟩, .flitReceive 0 [],
  .registerWrite true 68 (some 0), .hostMemAccess 0 1 (some []), .powerPeriod []]
theorem test_system_fields : ∀ i ∈ illSystem, i.wf = false := by decide

/-- R13, the other cluster's register; R43, a long immediate that is not there. -/
def illClusters : List Instr := [.vadd false (fr 8 1 2), .vadd true (fr 7 1 2), .vmov true (fr 1 2 0), .vins false (fr 8 1 2), .vcvt false (fi 8 1 (code 0)) 0x10, .vrot true (fi 1 1 (code 0)), .vred false (fi 8 1 (code 0)),
  .vld true (fl 1 0 0 none), .vgath false (fl 8 0 0 none), .vldt true (fl 1 0 0 none), .satom (fl 1 0 0 none), .scas (fl 1 0 0 none), .sstp (fl 1 0 0 none), .vstp true (fl 1 0 0 none), .cpush true (fl 0 0 0 none)]
theorem test_clusters_and_immediates : ∀ i ∈ illClusters, i.wf = false := by decide

/-- The same forms at values their fields assign. -/
def wellFormedTerms : List Instr := [.clz (fr 1 2 0), .movi (fi 1 0 (.long 7)), .cmpeq (fc 0), .sfcvt (fi 1 2 (code 13)), .qcfg (fi 1 0 (code 3)), .qcfg (fi 1 1 (code 1)), .qcnt (fr 1 2 1), .amovToS (fr 1 2 1),
  .vadd false (fr 7 15 14), .vadd true (fr 8 1 2), .vadd true (fr 0 1 2), .vcvt false (fi 1 2 (code 15)) 0x77, .vred true (fi 8 2 (code 8)), .sld (fl 1 7 6 none), .sst (fl 1 7 3 none), .satom (fl 1 0 4 (some 0x78)),
  .scas (fl 1 0 4 (some 0x7F)), .sstp (fl 1 0 0 (some 0xFFFFFF)), .vldt false (fl 1 0 3 none), .mdrn (ft 1 11 7 7), .scld (ft 1 1 0 0), .pand (fp 11 11 44), .pcnt (fp 15 11 0), .cpy true (fl 1 7 6 none),
  .crun false (fl 1 0 6 none), .nest (fi 5 1 (code 0)), .waitb (fy 4 0 1 15 none), .cbwait (fy 0 0 0 15 (some 12)), .waitmon (fy 4 0 1 8 none), .ssync (fy 4 0 0 0 none), .fence (fy 0 0 0 0 (some 0xFFFF)),
  .csrr ⟨0, .reg 1, 0x035⟩, .csrw ⟨0, .imm 1, 0x005⟩, .illegalBundle true 0 1, .illegalBundle false 7 8, .registerWrite true 8 (some 0), .registerWrite false 4 none]
theorem test_well_formed : ∀ i ∈ wellFormedTerms, i.wf = true := by decide

/-! ### Witnesses: every statement's hypotheses are met by a concrete state and operands -/

/-- A device of one running core, every register at 0. -/
def tiny : State := { State.reset with after := [], core := { Core.reset 0 with stat := .running, task := some 0 } }

/-- The tiny device with changed registers, control registers and core memory. -/
def withRegs (f : Regs → Regs) : State := { tiny with core := { tiny.core with regs := f tiny.core.regs } }
def withCsr (f : Csr → Csr) (s : State) : State := { s with core := { s.core with csr := f s.core.csr } }

/-- s1 is a queue of two entries and s2 holds 7; v1 is a queue of one entry; bits 1 and 63 of p0 are set. -/
def queued : State := withCsr (fun c => { c with qmode := 0x000000020000000C })
  (withRegs fun r => { r with
    s := (r.s.set 1 [5, 6]).set 2 [7]
    v := (r.v.set 1 [Vector.replicate 64 9]).set 2 [Vector.replicate 64 0x40000000]
    p := r.p.set 0 0x8000000000000002
    a := r.a.set 3 0x1234 })

def clear (g : State) : Bool :=
  (lateStall g g.issue).isNone && (overflowCauses g.core (g.issue.qmode.getD g.core.csr.qmode) g.issue.dests []).isEmpty

theorem clear_iff {g : State} (h : clear g = true) : Clear g := by
  simpa [clear, Clear] using h

/-- s1's queue gives 5 and keeps 6; a peek keeps both; the long immediate is sign-extended; s0 reads 0. -/
theorem witness_sources : takeS queued.core 1 false = some (5, { queued.core with regs := { queued.core.regs with s := queued.core.regs.s.set 1 [6] } }) ∧
    takeS queued.core 1 true = some (5, queued.core) ∧ takeS queued.core 2 false = some (7, queued.core) ∧
    takeS queued.core 0 false = some (0, queued.core) ∧ takeB queued.core (.imm 0xFFFFFFFF) = some (0xFFFFFFFFFFFFFFFF, queued.core) ∧
    takeV queued.core 1 true = some (Vector.replicate 64 9, queued.core) ∧ takeV queued.core 0 false = some (VReg.zero, queued.core) :=
  ⟨rfl, rfl, rfl, rfl, rfl, rfl, rfl⟩

theorem witness_ScalarTwoSourceResults : ∀ x ∈ scalarTwoSource, ∃ (o : FR) (s : State) (a b : Word) (c d : Core),
    s.iss = none ∧ guardOn s.core o.g = true ∧ takeS s.core o.a.r o.a.pk = some (a, c) ∧ takeB c o.b = some (b, d) ∧
    Clear (lands (x.1 o) 0 s d (result s 0 x.2.1 (.s o.d) (.w (x.2.2 a b).1) allOnes ((x.2.2 a b).2.map fun f => ⟨f, 0⟩))) := by
  intro x hx
  refine ⟨⟨0, 2, ⟨1, true⟩, .reg 2 false⟩, queued, 5, 7, queued.core, queued.core, rfl, rfl, rfl, rfl, clear_iff ?_⟩
  simp only [scalarTwoSource, List.mem_cons, List.not_mem_nil, or_false] at hx
  rcases hx with rfl | rfl | rfl | rfl | rfl | rfl | rfl | rfl | rfl | rfl | rfl | rfl | rfl | rfl | rfl | rfl | rfl | rfl | rfl | rfl |
    rfl | rfl | rfl | rfl | rfl | rfl <;> rfl

theorem witness_ScalarOneSourceResults : ∃ s : State, s.iss = none ∧ (∃ (a b : Word) (c d : Core),
      guardOn s.core 0 = true ∧ takeS s.core 2 false = some (a, c) ∧ takeB c (.reg 1 false) = some (b, d) ∧ takeB s.core (.imm 1) = some (1, s.core)) ∧
    (∀ x ∈ scalarOneSource, Clear (lands (x.1 ⟨0, 3, ⟨2, false⟩, .reg 0 false⟩) 0 s s.core
      (result s 0 1 (.s 3) (.w (x.2 7)) allOnes none))) ∧
    Clear (lands (.addi ⟨0, 3, ⟨2, false⟩, .short 15 true⟩) 0 s s.core (result s 0 1 (.s 3) (.w 6) allOnes none)) ∧
    Clear (lands (.sfcvt ⟨0, 3, ⟨2, false⟩, .short 0 false⟩) 0 s s.core (result s 0 3 (.s 3) (.w 0) allOnes none)) ∧
    Clear (lands (.aadd ⟨0, 3, ⟨3, false⟩, .imm 1⟩) 0 s s.core (result s 0 1 (.a 3) (.w 0x1235) allOnes none)) ∧
    Clear (lands (.sel ⟨1, 1, ⟨2, false⟩, .reg 2 false⟩) 0 s s.core (result s 0 1 (.s 1) (.w 7) allOnes none)) ∧
    Clear (lands (.movCounter ⟨0, 3, 5⟩) 0 s s.core (result s 0 1 (.s 3) (.w 0) allOnes none)) := by
  refine ⟨queued, rfl, ⟨7, 5, queued.core, _, rfl, rfl, rfl, rfl⟩, ?_, clear_iff rfl, clear_iff rfl, clear_iff rfl, clear_iff rfl, clear_iff rfl⟩
  intro x hx
  simp only [scalarOneSource, List.mem_cons, List.not_mem_nil, or_false] at hx
  rcases hx with rfl | rfl | rfl | rfl <;> exact clear_iff rfl

theorem witness_CompareAndPredicateResults : ∃ s : State, s.iss = none ∧ guardOn s.core 0 = true ∧
    takeS s.core 2 false = some (7, s.core) ∧ takeC s.core (.imm 0x80000000) = some (0xFFFFFFFF80000000, s.core) ∧
    (∀ x ∈ scalarCompares, Clear (lands (x.1 ⟨0, 11, 2, .imm 0x80000000, 0⟩) 0 s s.core
      (result s 0 x.2.1 (.p 11) (.w (if x.2.2 7 0xFFFFFFFF80000000 then BitVec.allOnes 64 else 0)) allOnes none))) ∧
    (∃ p q : PReg, p.val = (11 : Fin 16).val ∧ q.val = (44 : BitVec 6).toNat / 4) ∧
    (∀ x ∈ predicateTwo, Clear (lands (x.1 ⟨0, 11, 0, 44⟩) 7 s s.core (result s 7 1 (.p 11) (.w (x.2 0 0)) allOnes none))) ∧
    (∀ x ∈ predicateOne, Clear (lands (x.1 ⟨0, 11, 0, 63⟩) 7 s s.core (result s 7 1 (.p 11) (.w (x.2 63 0)) allOnes none))) ∧
    Clear (lands (.pcnt ⟨0, 1, 0, 0⟩) 7 s s.core (result s 7 1 (.s 1) (.w 2) allOnes none)) := by
  refine ⟨queued, rfl, rfl, rfl, rfl, ?_, ⟨11, 11, rfl, rfl⟩, ?_, ?_, clear_iff rfl⟩
  · intro x hx
    simp only [scalarCompares, List.mem_cons, List.not_mem_nil, or_false] at hx
    rcases hx with rfl | rfl | rfl | rfl | rfl | rfl | rfl | rfl <;> exact clear_iff rfl
  · intro x hx
    simp only [predicateTwo, List.mem_cons, List.not_mem_nil, or_false] at hx
    rcases hx with rfl | rfl | rfl | rfl <;> exact clear_iff rfl
  · intro x hx
    simp only [predicateOne, List.mem_cons, List.not_mem_nil, or_false] at hx
    rcases hx with rfl | rfl | rfl | rfl | rfl | rfl <;> exact clear_iff rfl

theorem witness_VectorArithmeticResults : ∃ (s : State) (m : Word) (a : VReg), s.iss = none ∧ activeMask s.core 1 = m ∧ m ≠ 0 ∧
    takeV s.core 1 true = some (a, s.core) ∧ takeBv s.core (.imm 0x3F800000) = some (Vector.replicate 64 0x3F800000, s.core) ∧
    takeV s.core 3 false = some (VReg.zero, s.core) ∧
    (∀ (v1 : Bool) (r : Flight), r ∈ [vresult s v1 4 3 m fun _ => (0, none)] →
      Clear (lands (.vfma v1 ⟨1, 3, ⟨1, true⟩, .imm 0x3F800000⟩) (vslot v1) s s.core r)) ∧
    takeV s.core 2 false = some (Vector.replicate 64 0x40000000, s.core) ∧
    takeCv s.core (.reg 2) = some (Vector.replicate 64 0x40000000, s.core) ∧
    ∀ v1 : Bool, Clear (lands (.vcmpf v1 ⟨1, 11, 2, .reg 2, 3⟩) (vslot v1) s s.core (result s (vslot v1) 2 (.p 11) (.w 0) m none)) := by
  refine ⟨queued, 0x8000000000000002, Vector.replicate 64 9, rfl, rfl, by decide, rfl, rfl, rfl, ?_, rfl, rfl, ?_⟩
  · intro v1 r hr
    rw [List.mem_singleton] at hr
    subst hr
    cases v1 <;> exact clear_iff rfl
  · intro v1
    cases v1 <;> exact clear_iff rfl

/-- VSEL, VCOMP and VEXPD run with no active lane, the others with one. -/
theorem witness_VectorMovementResults : ∃ (s : State) (a : VReg), s.iss = none ∧ activeMask s.core 2 = 0 ∧
    activeMask s.core 1 = 0x8000000000000002 ∧ takeV s.core 2 false = some (a, s.core) ∧
    takeBv s.core (.reg 2 false) = some (a, s.core) ∧ takeS s.core 2 false = some (7, s.core) ∧
    (∀ v1 : Bool, Clear (lands (.vsel v1 ⟨2, 3, ⟨2, false⟩, .reg 2 false⟩) (vslot v1) s s.core (vmoved s v1 2 3 allOnes fun _ => 0))) ∧
    (∀ v1 : Bool, Clear (lands (.vrot v1 ⟨1, 3, ⟨2, false⟩, .short 15 true⟩) (vslot v1) s s.core (vmoved s v1 2 3 1 fun _ => 0))) ∧
    ∀ v1 : Bool, Clear (lands (.vpack v1 ⟨1, 3, ⟨2, false⟩, .reg 2 false⟩) (vslot v1) s s.core (vresult s v1 3 3 1 fun _ => (0, none))) := by
  refine ⟨queued, Vector.replicate 64 0x40000000, rfl, rfl, rfl, rfl, rfl, rfl, ?_, ?_, ?_⟩ <;> intro v1 <;> cases v1 <;> exact clear_iff rfl

/-- FP32 to FP32 by VCVT traps nowhere. -/
theorem witness_VectorConversionResults : ∃ (s : State) (m : Word) (a : VReg), s.iss = none ∧ m ≠ 0 ∧ activeMask s.core 1 = m ∧
    takeV s.core 2 false = some (a, s.core) ∧
    (∀ i, i < 64 → plane m i = true →
      convert (numFmt 0) (numFmt 0) (cvtRm ⟨1, 3, ⟨2, false⟩, .short 0 false⟩) (cvtOv ⟨1, 3, ⟨2, false⟩, .short 0 false⟩) (vlane a i).toNat ≠ .trap) ∧
    (∀ v1 : Bool, Clear (lands (.vcvt v1 ⟨1, 3, ⟨2, false⟩, .short 0 false⟩ 0) (vslot v1) s s.core (vresult s v1 4 3 m fun _ => (0, none)))) ∧
    (∀ v1 : Bool, Clear (lands (.vred v1 ⟨1, 3, ⟨2, false⟩, .short 8 false⟩) (vslot v1) s s.core
      (result s (vslot v1) 8 (.v 3) (.v VReg.zero) allOnes none))) ∧
    ∀ v1 : Bool, Clear (lands (.vcnz v1 ⟨1, 3, ⟨2, false⟩, .reg 0 false⟩) (vslot v1) s s.core (vmoved s v1 3 3 allOnes fun _ => 0)) := by
  refine ⟨queued, 0x8000000000000002, Vector.replicate 64 0x40000000, rfl, by decide, rfl, rfl, by decide +kernel, ?_, ?_, ?_⟩ <;>
    intro v1 <;> cases v1 <;> exact clear_iff rfl

theorem witness_LaneTransferResults : ∃ (s : State) (m : Word) (a : VReg), s.iss = none ∧ m ≠ 0 ∧ activeMask s.core 1 = m ∧
    takeV s.core 2 false = some (a, s.core) ∧ takeB s.core (.reg 2 false) = some (7, s.core) ∧ takeS s.core 2 false = some (7, s.core) ∧
    (∀ v1 : Bool, Clear (lands (.vxfer v1 ⟨1, 3, ⟨2, false⟩, .reg 2 false⟩) (vslot v1) s s.core
      (result s (vslot v1) 3 (.s 3) (.w 0) allOnes none))) ∧
    (∀ v1 : Bool, Clear (lands (.vxferConst v1 ⟨1, 3, ⟨2, false⟩, 63⟩) (vslot v1) s s.core
      (result s (vslot v1) 3 (.s 3) (.w 0) allOnes none))) ∧
    (∀ v1 : Bool, Clear (lands (.vxferCross v1 ⟨1, 8, ⟨2, false⟩⟩) (vslot v1) s s.core
      (result s (vslot v1) 3 (.v 8) (.v a) m none))) ∧
    ∀ v1 : Bool, Clear (lands (.vins v1 ⟨1, 3, ⟨2, false⟩, .reg 2 false⟩) (vslot v1) s s.core
      (result s (vslot v1) 2 (.v 3) (.v VReg.zero) 0 none)) := by
  refine ⟨queued, 0x8000000000000002, Vector.replicate 64 0x40000000, rfl, by decide, rfl, rfl, rfl, rfl, ?_, ?_, ?_, ?_⟩ <;>
    intro v1 <;> cases v1 <;> exact clear_iff rfl

/-- A page of 64 KiB at 0x10000, write and execute, at the physical address 0x20000. -/
def page : Xl := ⟨false, 0x10000, 0x10000, 0x20000, true, true, 0⟩

/-- The tiny device with that page, device memory open to the non-secure world, banks 0 and 1 of SCRATCH with the word 42 at 0x100,
a1 a linear address of class 5, a2 a local one of class 6, a3 the last byte of the linear space. -/
def mapped : State := { tiny with
  plat := { tiny.plat with regions := [⟨true, false, 0, 0x800000⟩] }
  core := { tiny.core with
    regs := { tiny.core.regs with
      s := (tiny.core.regs.s.set 2 [7]).set 3 [9]
      v := tiny.core.regs.v.set 2 [Vector.replicate 64 0x100]
      a := ((tiny.core.regs.a.set 1 0x5000000000010000).set 2 0x6000000000000100).set 3 0x0000FFFFFFFFFFF8
      p := tiny.core.regs.p.set 0 3 }
    mem := { tiny.core.mem with tlb := [page], sram := [⟨0x100, 42⟩] }
    csr := { tiny.core.csr with bankrole := 0xFFFF555500000005 }
    claim := { tiny.core.claim with banks := 3 } } }

theorem mapped_room : Room mapped 4 := ⟨by decide, by decide⟩

theorem reach_one {a : Nat} {w : Bool} (h : a < 2 ^ 48) (h1 : ihOffset a = none) (h2 : mapped.probe mapped.core.csr.sec w a = .ok page) :
    Reach mapped w [a] [page] := ⟨h, h1, h2, trivial⟩

/-- A word access and a vector access that ends in the page's last bytes. -/
theorem witness_LinearAccesses : mapped.iss = none ∧ Room mapped 4 ∧ guardOn mapped.core 0 = true ∧
    (∀ w : Bool, Reach mapped w [0x10FF8] [page]) ∧ wellFormed (address mapped.core ⟨0, 2, 1, 4, 3, some 0xFF8⟩) 8 ∧
    (address mapped.core ⟨0, 2, 1, 4, 3, some 0xFF8⟩).toNat % 2 ^ 48 = 0x10FF8 ∧ takeS mapped.core 2 false = some (7, mapped.core) ∧
    wellFormed (mapped.core.regs.a.get 1) 8 ∧ wellFormed (mapped.core.regs.a.get 1) 256 ∧ Reach mapped true [0x10000] [page] ∧
    activeMask mapped.core 1 = 3 ∧ (3 : Word) ≠ 0 ∧ takeV mapped.core 2 false = some (Vector.replicate 64 0x100, mapped.core) ∧
    (laneFirsts 0x1FFF8 3 = [0x1FFF8] ∧ ∀ w : Bool, Reach mapped w (laneFirsts 0x1FFF8 3) [page]) ∧
    Clear (issues (.sld ⟨0, 2, 1, 4, 3, some 0xFF8⟩) 0 mapped mapped.core (leaving mapped 0 (some 4) 5 [] (.sld (linear mapped 0x10FF8 [page]) 3 2))) ∧
    Clear (issues (.vst false ⟨1, 2, 1, 4, 0, none⟩) 1 mapped mapped.core (leaving mapped 1 (some 4) 5 [] (.vst (linear mapped 0x10000 [page]) 3 VReg.zero))) ∧
    Clear (issues (.vstp true ⟨1, 2, 1, 4, 0, some 0xFFFFFF⟩) 2 mapped mapped.core (leaving mapped 2 (some 4) 5 [] (.vst (linear mapped 0x10000 [page]) 3 VReg.zero))) := by
  refine ⟨rfl, mapped_room, rfl, fun w => reach_one (by decide) rfl (by cases w <;> rfl), ⟨by decide, by decide⟩, by decide, rfl, ⟨by decide, by decide⟩,
    ⟨by decide, by decide⟩, reach_one (by decide) rfl rfl, by decide, by decide, rfl, ⟨by decide, fun w => reach_one (by decide) rfl (by cases w <;> rfl)⟩,
    clear_iff rfl, clear_iff rfl, clear_iff rfl⟩

theorem no_record {s : State} (h : s.store.scopes = []) (l : Nat) (r : ScopeRec) : scopeRecord s l ≠ some r := by
  simp [scopeRecord, h]

/-- A synchronising access that has been held. -/
def held : State := { mapped with core := { mapped.core with holds := [⟨0, 0, 0, 0, [], true, none, none⟩, ⟨1, 1, 0, 4, [], true, none, none⟩, ⟨2, 2, 0, 7, [], true, none, none⟩] } }

theorem witness_SynchronisingAccesses : held.iss = none ∧ Room held 4 ∧ guardOn held.core 0 = true ∧
    Accepted held 0 4 (linear held (held.core.regs.a.get 1) [page]) ∧ wellFormed (held.core.regs.a.get 1) 8 ∧
    Reach held false [0x10000] [page] ∧ Reach held true [0x10000] [page] ∧ takeS held.core 2 false = some (7, held.core) ∧
    takeS held.core (Fin.ofNat 16 (0x72 : BitVec 7).toNat) false = some (7, held.core) ∧
    Clear (synchronises (.slda ⟨0, 3, 1, 4, 4, none⟩) 0 4 held held.core (linear held (held.core.regs.a.get 1) [page]) (some 4) 5 []
      (.slda (linear held (held.core.regs.a.get 1) [page]) 4 3)) ∧
    Clear (synchronises (.scas ⟨0, 3, 1, 4, 4, some 0x72⟩) 0 4 held held.core (linear held (held.core.regs.a.get 1) [page]) (some 4) 5 []
      (.slda (linear held (held.core.regs.a.get 1) [page]) 4 3)) := by
  refine ⟨rfl, ⟨by decide, by decide⟩, rfl, ⟨⟨_, rfl, rfl, rfl⟩, by decide, by decide, fun r h => absurd h (no_record rfl _ r)⟩,
    ⟨by decide, by decide⟩, ⟨by decide, rfl, rfl, trivial⟩, ⟨by decide, rfl, rfl, trivial⟩, rfl, rfl, clear_iff rfl, clear_iff rfl⟩

/-- The last word of the claimed SCRATCH banks, and 64 lanes from its start. -/
theorem witness_LocalAccesses : mapped.iss = none ∧ Room mapped 4 ∧ guardOn mapped.core 0 = true ∧
    wellFormedLocal (address mapped.core ⟨0, 3, 2, 4, 3, some 0x1FEF8⟩) 8 ∧
    (address mapped.core ⟨0, 3, 2, 4, 3, some 0x1FEF8⟩).toNat % 2 ^ 21 = 0x1FFF8 ∧ mapped.core.badLocal 0x1FFF8 8 = none ∧
    badWordIn mapped.core 0x1FFF8 8 = none ∧ takeS mapped.core 2 false = some (7, mapped.core) ∧
    activeMask mapped.core 0 = allOnes ∧ allOnes ≠ 0 ∧ wellFormedLocal (address mapped.core ⟨0, 3, 2, 4, 0, none⟩) 4 ∧
    lanesLocal mapped.core allOnes (fun i => 0x100 + 4 * i) ∧ lanesGood mapped.core allOnes (fun i => 0x100 + 4 * i) ∧
    takeV mapped.core 2 false = some (Vector.replicate 64 0x100, mapped.core) ∧
    Clear (loads (.sldl ⟨0, 3, 2, 4, 3, none⟩) 0 mapped mapped.core 4 6 6 (rowsOf 0x1FFF8 8) [(.s 3, .w 0, allOnes)]) ∧
    Clear (stores (.vstl false ⟨0, 2, 2, 0, 0, none⟩) 1 mapped mapped.core ((lanesOf allOnes).flatMap fun i => rowsOf (0x100 + 4 * i) 4)
      ((lanesOf allOnes).map fun i => ⟨0x100 + 4 * i, toBytes 4 0x100⟩)) := by
  refine ⟨rfl, mapped_room, rfl, ⟨by decide, by decide⟩, by decide, by decide +kernel, by decide, rfl, rfl, by decide, ⟨by decide, by decide⟩,
    by unfold lanesLocal; decide +kernel, by unfold lanesGood; decide +kernel, rfl, clear_iff (by decide +kernel), clear_iff (by decide +kernel)⟩

/-- Lane 0 of v4 is a valid offset, lane 1 of it is not aligned; page 0x20000 has no translation. -/
def partly : State := { mapped with core := { mapped.core with
  regs := { mapped.core.regs with v := mapped.core.regs.v.set 4 [vlanes fun i => if i = 0 then 0x100 else 0x102] }
  walkFails := [(false, 0x20, 0x1A)] } }

/-- A gather and a scatter of valid offsets (n = 64), a gather whose second lane is invalid (n = 1), a first-fault load of one page and
one whose second lane's page faults. -/
theorem witness_GatherAndFirstFault : partly.iss = none ∧ Room partly 0 ∧ activeMask partly.core 1 = 3 ∧ (3 : Word) ≠ 0 ∧
    takeV partly.core 2 false = some (Vector.replicate 64 0x100, partly.core) ∧
    takeV partly.core 4 false = some (vlanes fun i => if i = 0 then 0x100 else 0x102, partly.core) ∧
    (∃ p : PReg, p.val = (7 : BitVec 3).toNat) ∧
    (∀ i, i < 64 → plane 3 i = true → 0x100 % 4 = 0 ∧ 0x100 < 2097152 ∧ partly.core.isScratch 0x100 = true ∧ badWordIn partly.core 0x100 4 = none) ∧
    (plane 3 1 = true ∧ ((vlane (vlanes fun i => if i = 0 then 0x100 else 0x102) 1 + 0).toNat % 4 == 0) = false) ∧
    Clear (loads (.vgath true ⟨1, 9, 2, 0, 7, none⟩) 2 partly partly.core 0 0 8 (wordBanks 3 fun _ => 0x100)
      [(.v 9, .v VReg.zero, 3), (.p 7, .w 3, allOnes)]) ∧
    Clear (stores (.vscat false ⟨1, 2, 2, 0, 0, none⟩) 1 partly partly.core (wordBanks 3 fun _ => 0x100)
      ((lanesOf 3).map fun _ => ⟨0x100, toBytes 4 0x100⟩)) ∧
    laneFirsts 0x10000 3 = [0x10000] ++ [] ∧ laneFirsts 0x1FFFC 3 = [0x1FFFC] ++ [0x20000] ∧
    wellFormed (address partly.core ⟨1, 9, 1, 0, 7, some 0xFFFC⟩) 4 ∧ Reach partly false [0x1FFFC] [page] ∧
    (0x20000 < 2 ^ 48 ∧ ihOffset 0x20000 = none ∧ ∃ code, partly.probe partly.core.csr.sec false 0x20000 = .fault code) ∧
    Clear (issues (.vldff false ⟨1, 3, 1, 0, 7, some 0xFFFC⟩) 1 partly partly.core
      (leaving partly 1 (some 0) 5 [] (.vldff (linear partly 0x1FFFC [page]) 1 3 7))) := by
  refine ⟨rfl, ⟨by decide, by decide⟩, rfl, by decide, rfl, rfl, ⟨7, rfl⟩, by decide +kernel, by decide +kernel, clear_iff (by decide +kernel),
    clear_iff (by decide +kernel), by decide +kernel, by decide +kernel, ⟨by decide, by decide⟩, ⟨by decide, rfl, rfl, trivial⟩, ⟨by decide, rfl, 0x1A, rfl⟩, clear_iff rfl⟩

/-- A descriptor of an element type, rank 2, one element, class 3, with its tile table at 0x40000 on stack 0. -/
def desc (et : Nat) : Desc := BitVec.ofNat 1024 (et * 2 ^ 16 + 2 * 2 ^ 20 + 3 * 2 ^ 38 + 0x40000 * 2 ^ 64 + 2 ^ 128 + 2 ^ 160)
def handle (et : Nat) : Handle := ⟨desc et, 0x10000, Vector.replicate 6 0⟩

/-- h1 is a BF16 tensor, h2 an FP8 one, h3 a CB4 one; the only tile of each is staged. -/
def boundTo : State := { held with core := { held.core with
  regs := { held.core.regs with h := ((held.core.regs.h.set 1 (some (handle 1))).set 2 (some (handle 3))).set 3 (some (handle 8))
                                a := held.core.regs.a.set 4 0 }
  claim := { held.core.claim with rows := 0x0000FF00 }
  mem := { held.core.mem with opbuf := [⟨0x40000, 0, 2048, ⟨0x40000, List.replicate 1024 none⟩⟩] } } }

theorem bound_h (h : Fin 16) (x : Handle) (hx : boundTo.core.regs.h.get h = some x) : Bound boundTo h x :=
  ⟨hx, fun _ ho => absurd ho (List.not_mem_nil (a := _))⟩

theorem bound_world (x : Handle) (h : dWorld x.desc = false) : InWorld boundTo x := fun k => by simp [h] at k

theorem bound_room (k : Tok) : Room boundTo k := ⟨by decide, by revert k; decide⟩

theorem witness_TensorAccesses : boundTo.iss = none ∧ Room boundTo 0 ∧ activeMask boundTo.core 1 = 3 ∧ (3 : Word) ≠ 0 ∧
    Bound boundTo 1 (handle 1) ∧ InWorld boundTo (handle 1) ∧ (bit (3 : BitVec 3).toNat 0 = true → dEtype (desc 1) ≠ 8) ∧
    takeV boundTo.core 2 false = some (Vector.replicate 64 0x100, boundTo.core) ∧
    Clear (handles (.vldt false ⟨1, 3, 1, 0, 3, none⟩) 1 boundTo boundTo.core
      (leaving boundTo 1 (some 0) 3 [] (.vldt (handle 1) true 3 3)) [.add 1 0 64]) ∧
    Clear (handles (.vstt true ⟨1, 2, 1, 0, 3, none⟩) 2 boundTo boundTo.core
      (leaving boundTo 2 (some 0) 3 [] (.vstt (handle 1) true 3 VReg.zero)) [.add 1 0 64]) := by
  refine ⟨rfl, bound_room 0, rfl, by decide, bound_h 1 _ rfl, bound_world _ (by decide +kernel), by decide +kernel, rfl, clear_iff rfl, clear_iff rfl⟩

/-- TBIND to a free handle; TCUR of the last coordinate; TSET of a mask, TLOCK with a mask and without. -/
theorem witness_HandleOperations : boundTo.iss = none ∧ guardOn boundTo.core 0 = true ∧ Room boundTo 7 ∧
    (∀ c1 : Bool, boundTo.entries c1 < 64) ∧ wellFormed (address boundTo.core ⟨0, 4, 1, 7, 0, none⟩) 128 ∧ Reach boundTo false [0x10000] [page] ∧
    (∀ p ∈ boundTo.core.ops, ∀ f l, p.kind ≠ .tbind 4 f l) ∧ Bound boundTo 1 (handle 1) ∧ InWorld boundTo (handle 1) ∧
    takeB boundTo.core (.imm 5) = some (5, boundTo.core) ∧ takeS boundTo.core 0 false = some (0, boundTo.core) ∧
    (∃ n : Fin 6, (0 : Word).toNat = n.val) ∧ (∃ n : Fin 6, (5 : Word).toNat = n.val) ∧
    Reach boundTo true (firstBytes 0x10000 128) [page] ∧ (∀ c1 : Bool, c1 = false → Ready boundTo (cslot c1) ⟨0x10000, [page], false⟩) ∧
    (5 : Word).toNat < 16 ∧ takeB boundTo.core (.imm 15) = some (15, boundTo.core) ∧ (15 : Word).toNat < 16 ∧
    (∀ c1 : Bool, Clear (issues (.tbind c1 ⟨0, 4, 1, 7, 0, none⟩) (cslot c1) boundTo boundTo.core
      (leaving boundTo (cslot c1) (some 7) 5 [] (.tbind 4 0 ⟨0x10000, [page], false⟩)))) ∧
    (∀ c1 : Bool, Clear (gathered boundTo boundTo.core { opened (.tcur c1 ⟨0, 1, ⟨0, false⟩, .imm 5⟩) (cslot c1) boundTo with curs := [.set 1 0 5] })) ∧
    ∀ c1 : Bool, Clear (policies (.tlock c1 ⟨0, 1, ⟨0, false⟩, .imm 5⟩) (cslot c1) boundTo boundTo.core 1 ⟨0x10000, [page], false⟩
      [(32, 1, 0), (24, 4, 10)]) := by
  refine ⟨rfl, rfl, bound_room 7, by decide +kernel, ⟨by decide, by decide⟩, ⟨by decide, rfl, rfl, trivial⟩, fun _ hp => absurd hp (List.not_mem_nil (a := _)),
    bound_h 1 _ rfl, bound_world _ (by decide +kernel), rfl, rfl, ⟨0, rfl⟩, ⟨5, rfl⟩, ⟨by decide, rfl, rfl, trivial⟩, ?_, by decide, rfl, by decide, ?_, ?_, ?_⟩
  · rintro _ rfl
    exact ⟨⟨_, rfl, rfl, rfl⟩, by decide, by decide, by decide⟩
  all_goals intro c1; cases c1 <;> exact clear_iff rfl

/-- A matrix configuration: 0 staged and dense, 16 streamed, 32 staged and sparse, 64 the K-sweep; the pair is FP8. -/
def withCfg (n : Nat) : State := { boundTo with core := { boundTo.core with mx := { boundTo.core.mx with cfg := BitVec.ofNat 7 n } } }

theorem rows_claimed : ∀ i, i < 1536 → boundTo.core.rowClaimed i = true := by decide +kernel

theorem rows_ok (n : Nat) (offs : List Nat) (h : ∀ o ∈ offs, o ≤ 768) : RowsOk (withCfg n) 4 offs 0 := by
  refine ⟨by decide, rfl, by decide, fun o ho => ⟨?_, fun i hi => ?_⟩⟩
  · have := h o ho; omega
  · exact rows_claimed _ (by have := h o ho; omega)

theorem operand_ok (n : Nat) (h : Fin 16) (x : Handle) (f : MFmt) (hx : (withCfg n).core.regs.h.get h = some x) (hw : dWorld x.desc = false)
    (hr : 2 ≤ dRank x.desc) (hf : fmtTakes f (dEtype x.desc) = true) : OperandOk (withCfg n) h x f :=
  ⟨⟨hx, fun _ ho => absurd ho (List.not_mem_nil (a := _))⟩, fun k => by simp [hw] at k, hr, hf⟩

def needsOf (op : MOp) (reps : Nat) : List Need :=
  (List.range reps).flatMap fun j =>
    (repTilesA op j).map (fun t => (2, handle 3, t)) ++ (repTilesB op j).map fun t => (2, handle 3, t)

theorem exists_ok {ε α : Type} {x : Except ε α} (h : x.toBool = true) : ∃ p, x = .ok p := by
  cases x with
  | ok p => exact ⟨p, rfl⟩
  | error e => cases h

theorem staged_one : StagedOk boundTo [(2, handle 3, 0)] := by
  refine ⟨by decide, by decide +kernel, fun x hx => ?_⟩
  have : x = (2, handle 3, 0) := List.mem_singleton.1 hx
  subst this
  exact ⟨by decide +kernel, by decide +kernel⟩

/-- Two repetitions of the N-sweep, streamed, staged and dense, and staged and sparse, of one FP8 tensor of one element. -/
theorem witness_MatrixMultiplies : ∀ n ∈ [0, 16, 32], (withCfg n).iss = none ∧ guardOn (withCfg n).core 0 = true ∧
    OperandOk (withCfg n) 2 (handle 3) (pairFmts (cfgPair (withCfg n).core.mx.cfg)).1 ∧
    OperandOk (withCfg n) 2 (handle 3) (pairFmts (cfgPair (withCfg n).core.mx.cfg)).2 ∧
    RowsOk (withCfg n) 4 (if cfgKSweep (withCfg n).core.mx.cfg then [0] else (List.range 2).map fun j => 768 * j) 0 ∧
    stageBusy (withCfg n).core.mx (withCfg n).clock = false ∧ TokenRoom (withCfg n) 4 ∧
    cfgStreamed (withCfg n).core.mx.cfg = (n == 16) ∧ cfgExact (withCfg n).core.mx.cfg = (n == 0) ∧
    StagedOk (withCfg n) [(2, handle 3, 0)] ∧
    Clear (gathered (withCfg n) (withCfg n).core (opened (.mma 1 ⟨0, 2, 2, 4, 4⟩) 3 (withCfg n))) := by
  intro n hn
  simp only [List.mem_cons, List.not_mem_nil, or_false] at hn
  have hs : ∀ m, StagedOk (withCfg m) [(2, handle 3, 0)] := fun _ => staged_one
  have hr : ∀ m, RowsOk (withCfg m) 4 ((List.range 2).map fun j => 768 * j) 0 := fun m => rows_ok m _ (by decide)
  rcases hn with rfl | rfl | rfl <;>
    exact ⟨rfl, rfl, operand_ok _ _ _ _ rfl (by decide +kernel) (by decide +kernel) (by decide +kernel),
      operand_ok _ _ _ _ rfl (by decide +kernel) (by decide +kernel) (by decide +kernel), hr _, rfl,
      by decide, rfl, rfl, hs _, clear_iff rfl⟩

/-- The tiles those repetitions read are the one tile of the tensor. -/
theorem witness_MatrixMultiplies_needs : distinctNeeds (needsOf (newMOp 0 (.mma false) none 0 boundTo 0 2 (handle 3) (handle 3) 0 []) 2) =
    [(2, handle 3, 0)] := by decide +kernel

theorem witness_MatrixDrainsAndFills : (withCfg 0).iss = none ∧ guardOn (withCfg 0).core 0 = true ∧ RowsOk (withCfg 0) 4 [0] 0 ∧
    stageBusy (withCfg 0).core.mx (withCfg 0).clock = false ∧ Bound (withCfg 0) 1 (handle 1) ∧ InWorld (withCfg 0) (handle 1) ∧
    2 ≤ dRank (desc 1) ∧ TokenRoom (withCfg 0) 4 ∧ dEtype (desc 1) ≤ 4 ∧
    Bound (withCfg 1) 3 (handle 8) ∧ takeS (withCfg 0).core 2 false = some (7, (withCfg 0).core) ∧
    Clear (gathered (withCfg 0) (withCfg 0).core (opened (.mdrn ⟨0, 1, 9, 4, 4⟩) 3 (withCfg 0))) ∧
    Clear (gathered (withCfg 0) (withCfg 0).core (opened (.mfill ⟨0, 2, 0, 4, 0⟩) 3 (withCfg 0))) := by
  refine ⟨rfl, rfl, rows_ok 0 _ (by decide), rfl, ⟨rfl, fun _ ho => absurd ho (List.not_mem_nil (a := _))⟩,
    fun k => absurd k (by decide +kernel), by decide +kernel, by decide, by decide +kernel,
    ⟨rfl, fun _ ho => absurd ho (List.not_mem_nil (a := _))⟩, rfl, clear_iff rfl, clear_iff rfl⟩

/-- An INT32 tensor serves an INT8 drain. -/
theorem witness_MatrixDrainsAndFills_int : cfgPair (1 : BitVec 7) = 1 ∧ 5 ≤ dEtype (desc 7) ∧ dEtype (desc 7) ≤ 7 ∧ dWorld (desc 7) = false := by
  decide +kernel

theorem witness_MatrixControl : boundTo.iss = none ∧ guardOn boundTo.core 0 = true ∧ (∀ k ∈ boundTo.core.mx.ops, k.held = true ∧ k.run = []) ∧
    drains boundTo.core = [] ∧ takeB boundTo.core (.imm 0x78) = some (0x78, boundTo.core) ∧ (0x78 : Word).toNat < 128 ∧ (0x78 : Word).toNat % 16 < 9 ∧
    Room boundTo 7 ∧ takeV boundTo.core 2 false = some (Vector.replicate 64 0x100, boundTo.core) ∧ Bound boundTo 3 (handle 8) ∧
    dEtype (desc 8) = 8 ∧ (∀ k ∈ boundTo.core.mx.ops, ∀ r ∈ k.run, ((3 : Fin 16), !dCbact (desc 8)) ∉ r.caps) ∧
    Clear (gathered boundTo boundTo.core (opened (.mcfg ⟨0, 0, ⟨0, false⟩, .imm 0x78⟩) 3 boundTo)) ∧
    Clear (gathered boundTo boundTo.core (opened (.mldcb ⟨0, 3, 2, 0, 0⟩) 3 boundTo)) ∧
    Clear (lands (.mstat ⟨0, 3, ⟨0, false⟩, .reg 0 false⟩) 3 boundTo boundTo.core (result boundTo 3 1 (.s 3) (.w 0) allOnes none)) := by
  refine ⟨rfl, rfl, fun _ h => absurd h (List.not_mem_nil (a := _)), rfl, rfl, by decide, by decide, bound_room 7, rfl, bound_h 3 _ rfl,
    by decide +kernel, fun _ h => absurd h (List.not_mem_nil (a := _)), clear_iff rfl, clear_iff rfl, clear_iff rfl⟩

/-- The scale tile that is staged, and the same tile once it is not. -/
def unstaged : State := { boundTo with core := { boundTo.core with mem := { boundTo.core.mem with opbuf := [] } } }

theorem exists_triple {α β γ : Type} {x : α × β × γ} {c : γ} (h : x.2.2 = c) : ∃ a b, x = (a, b, c) := ⟨x.1, x.2.1, by rw [← h]⟩

theorem witness_ScaleLoads : boundTo.iss = none ∧ guardOn boundTo.core 0 = true ∧ Bound boundTo 1 (handle 1) ∧ InWorld boundTo (handle 1) ∧
    dEtype (desc 1) = 1 ∧ 2 ≤ dRank (desc 1) ∧ (∀ b : Bool, tilesOf (scalePlaces (handle 1) b) = [0]) ∧
    boundTo.core.unstaged (desc 1) [0] = [] ∧ InTurn boundTo (dClass (desc 1)) ∧
    unstaged.core.unstaged (desc 1) [0] = [0] ∧ unstaged.tileErr (desc 1) 0 = none ∧ unstaged.pinRoom (unstaged.pinnable (desc 1) [0]) = true ∧
    HoldOver unstaged 7 ∧
    (∃ r tiles, (gathered unstaged unstaged.core (opened (.scld ⟨0, 1, 1, 0, 0⟩) 7 unstaged)).readTiles (desc 1) [0] = (r, tiles, none)) ∧
    Clear (takes (.scld ⟨0, 1, 1, 0, 0⟩) 7 boundTo boundTo.core fun m => m) := by
  refine ⟨rfl, rfl, bound_h 1 _ rfl, bound_world _ (by decide +kernel), by decide +kernel, by decide +kernel, by decide +kernel,
    by decide +kernel, by decide +kernel, by decide +kernel, by decide +kernel, by decide +kernel, ⟨_, rfl, rfl, rfl⟩, exists_triple (by decide +kernel), clear_iff rfl⟩

/-- a5 is a linear address of class 7 that no page covers yet, a6 the claimed half IHI, a7 a device address of this device's tables;
both halves are claimed and ILO is active. -/
def copying : State := { boundTo with core := { boundTo.core with
  regs := { boundTo.core.regs with
    a := ((boundTo.core.regs.a.set 5 0x7000000000030000).set 6 0x0000FFFFFFFF0000).set 7 0x00003FFFFFFFFFF8 }
  claim := { boundTo.core.claim with ilo := true, ihi := true } } }

theorem copy_room (c1 : Bool) : CopyRoom copying c1 7 false := by cases c1 <;> exact ⟨by decide, by decide, by simp⟩

/-- An engine whose counted barrier is bound. -/
def counting : State := { copying with core := copying.core.modEng false fun e => { e with counted := some ⟨0, 0⟩ } }

theorem witness_PlainCopies : copying.iss = none ∧ guardOn copying.core 0 = true ∧ (∀ c1 : Bool, CopyRoom copying c1 7 false) ∧
    CopyRoom counting false 7 true ∧
    ReadOk copying.core (copying.core.regs.a.get 1) (64 + 4) 1 true ∧ WriteOk copying.core (copying.core.regs.a.get 5) 64 1 true ∧
    ReadOk copying.core (copying.core.regs.a.get 6) 65536 1 true ∧ WriteOk copying.core (copying.core.regs.a.get 6) 65536 1 true ∧
    LocalOk copying.core (copying.core.regs.a.get 2) (64 + 4) 1 ∧ LocalOk copying.core (copying.core.regs.a.get 2) 0 1 ∧
    ReadOk copying.core (copying.core.regs.a.get 1) 1 1 false ∧ WriteOk copying.core (copying.core.regs.a.get 5) 1 1 false ∧
    (4 : BitVec 3).toNat % 4 ≠ 3 ∧
    xposeCols 0x00020F01 * xposeWidth 0x00020F01 ≤ xposePitch 0x00020F01 ∧
    takeS copying.core 2 false = some (7, copying.core) ∧ 64 % 2 ^ ((3 : BitVec 3).toNat % 4) = 0 ∧
    InWorld copying (handle 8) ∧ Bound copying 3 (handle 8) ∧ (dEtype (desc 8) = 8 → 6 % 2 = 0) ∧
    ∀ c1 : Bool, Clear (copies (.cpy c1 ⟨0, 5, 1, 7, 2, some 64⟩) c1 copying copying.core 7 false
      (following copying [5, 7]) (.cpy 0x7000000000030000 0x5000000000010000 64 true)) := by
  refine ⟨rfl, rfl, copy_room, ⟨by decide, by decide, by decide⟩, ⟨⟨by decide, by decide⟩, by decide, by decide⟩,
    ⟨⟨⟨by decide, by decide⟩, by decide, by decide⟩, by decide⟩, ⟨⟨by decide, by decide⟩, by decide, by decide⟩,
    ⟨⟨⟨by decide, by decide⟩, by decide, by decide⟩, by decide⟩, ⟨⟨by decide, by decide⟩, by decide +kernel⟩, ⟨⟨by decide, by decide⟩, by decide⟩,
    ⟨⟨by decide, by decide⟩, by decide, by decide⟩, ⟨⟨⟨by decide, by decide⟩, by decide, by decide⟩, by decide⟩, by decide, by decide, rfl,
    by decide, fun k => absurd k (by decide +kernel), ⟨rfl, fun _ ho => absurd ho (List.not_mem_nil (a := _))⟩, fun _ => rfl, ?_⟩
  intro c1
  cases c1 <;> exact clear_iff rfl

/-- Level 5 with the highest RANK; an engine with an open batch and 15 closed ones. -/
def batching : State := { copying with core := copying.core.modEng true fun e =>
  { e with open_ := ⟨[3], [3], BStat.ok⟩, closed := List.replicate 15 Batch.empty } }

theorem witness_CopySequencing : batching.iss = none ∧ guardOn batching.core 0 = true ∧
    takeB batching.core (.imm 64) = some (64, batching.core) ∧ (0xD00000005 : Word).toNat < 2 ^ 36 ∧
    (bit (0xD00000005 : Word).toNat 35 = true → (0xD00000005 : Word).toNat / 2 ^ 32 % 8 < 6) ∧
    (∃ x c, takeS batching.core 2 false = some (x, c) ∧ x.toNat < 2 ^ 36 ∧ bit x.toNat 35 = false) ∧
    CopyRoom batching true 7 false ∧ (∀ r, r < 6 → ∃ l ∈ (batching.core.eng true).nest.toList, l.rank.toNat = r) ∧
    LocalOk batching.core (batching.core.regs.a.get 2) 1 1 ∧ ReadOk batching.core (batching.core.regs.a.get 1) 64 1 true ∧
    WriteOk batching.core (batching.core.regs.a.get 5) 64 1 true ∧ WriteOk batching.core (address batching.core ⟨0, 0, 5, 7, 0, none⟩) 8 8 false ∧
    ((batching.core.eng true).open_.ids ≠ [] ∧ (batching.core.eng true).closed.length < 16) ∧ (batching.core.eng false).open_.ids = [] ∧
    Clear (gathered batching (batching.core.modEng true closeBatch) (opened (.cbclose true ⟨0⟩) (cslot true) batching)) := by
  refine ⟨rfl, rfl, rfl, by decide, by decide, ⟨7, batching.core, rfl, by decide, by decide⟩, ⟨by decide, by decide, by decide⟩, by decide,
    ⟨⟨by decide, by decide⟩, by decide +kernel⟩, ⟨⟨by decide, by decide⟩, by decide, by decide⟩,
    ⟨⟨⟨by decide, by decide⟩, by decide, by decide⟩, by decide⟩, ⟨⟨⟨by decide, by decide⟩, by decide, by decide⟩, by decide⟩,
    ⟨by decide, by decide⟩, rfl, clear_iff rfl⟩

/-- The largest length of a peer transfer, and its highest destination. -/
def allScratch : State := { copying with core := { copying.core with
  csr := { copying.core.csr with bankrole := 0x5555555555555555 }, regs := { copying.core.regs with a := copying.core.regs.a.set 2 0x6000000000000000 } } }

theorem allScratch_local : allScratch.core.badLocal 0 2097152 = none := by
  have h : ∀ b, b < 32 → allScratch.core.role b = 1 := by decide
  simp only [Core.badLocal, Option.map_eq_none_iff]
  have : ∀ n i, i + n ≤ 2097152 → findFrom (fun i => !allScratch.core.isScratch (0 + i)) n i = none := by
    intro n
    induction n with
    | zero => intro i _; rfl
    | succ n ih =>
      intro i hi
      have : allScratch.core.isScratch (0 + i) = true := by
        simp only [Core.isScratch, Bool.and_eq_true, decide_eq_true_eq, beq_iff_eq]
        exact ⟨by omega, h _ (by omega)⟩
      simp only [findFrom, this, Bool.not_true, Bool.false_eq_true, ↓reduceIte]
      exact ih _ (by omega)
  exact this _ 0 (by omega)

theorem witness_SpecialCopies : copying.iss = none ∧ guardOn copying.core 0 = true ∧ (∀ c1 : Bool, CopyRoom copying c1 7 false) ∧
    ReadOk copying.core (copying.core.regs.a.get 1) 64 1 true ∧ LocalOk copying.core (copying.core.regs.a.get 2) 8 8 ∧ 64 % 8 = 0 ∧
    ReadOk copying.core (copying.core.regs.a.get 1) (64 * 2 ^ (6 : BitVec 3).toNat) 1 true ∧
    ReadOk copying.core (copying.core.regs.a.get 5) (64 * 2 ^ (6 : BitVec 3).toNat) 1 true ∧ LocalOk copying.core (BitVec.ofNat 64 0x1FFF8) 8 8 ∧
    ReadOk copying.core (copying.core.regs.a.get 1) 1 1 false ∧ WriteOk copying.core (copying.core.regs.a.get 5) 1 32 true ∧
    (LocalOk allScratch.core (allScratch.core.regs.a.get 2) 2097152 1 ∧ (allScratch.core.regs.a.get 7).toNat < 2 ^ 46 ∧
      (allScratch.core.regs.a.get 7).toNat % 8 = 0 ∧ 2097152 % 8 = 0) ∧
    ReadOk copying.core (address copying.core ⟨0, 0, 1, 7, 0, none⟩) 64 64 false ∧
    ∀ c1 : Bool, Clear (copies (.cdisp c1 ⟨0, 0, 1, 7, 0, none⟩) c1 copying copying.core 7 false (following copying [5]) (.cdisp 0x5000000000010000)) := by
  refine ⟨rfl, rfl, copy_room, ⟨⟨by decide, by decide⟩, by decide, by decide⟩, ⟨⟨by decide, by decide⟩, by decide +kernel⟩, by decide,
    ⟨⟨by decide, by decide⟩, by decide, by decide⟩, ⟨⟨by decide, by decide⟩, by decide, by decide⟩, ⟨⟨by decide, by decide⟩, by decide +kernel⟩,
    ⟨⟨by decide, by decide⟩, by decide, by decide⟩, ⟨⟨⟨by decide, by decide⟩, by decide, by decide⟩, by decide⟩,
    ⟨⟨⟨by decide, by decide⟩, allScratch_local⟩, by decide, by decide, by decide⟩, ⟨⟨by decide, by decide⟩, by decide, by decide⟩, ?_⟩
  intro c1
  cases c1 <;> exact clear_iff rfl

/-- A barrier of this core at the first SCRATCH byte 0x10. -/
def barred : State := { copying with core := { copying.core with regs := { copying.core.regs with a := copying.core.regs.a.set 8 0x10 } } }

theorem bar_ok : BarrierOk barred (barred.core.regs.a.get 8) ⟨0, 0x10⟩ := ⟨by decide, by decide⟩

theorem witness_BarrierMessages : barred.iss = none ∧ guardOn barred.core 0 = true ∧ takeB barred.core (.imm 65535) = some (65535, barred.core) ∧
    takeB barred.core (.reg 0 false) = some (0, barred.core) ∧ takeB barred.core (.imm 0x80000000) = some (0xFFFFFFFF80000000, barred.core) ∧
    BarrierOk { barred with core := barred.core } (barred.core.regs.a.get 8) ⟨0, 0x10⟩ ∧
    (1 ≤ (65535 : Word).toNat ∧ (65535 : Word).toNat ≤ 65535) ∧ (0 : Word).toNat ≤ 65535 ∧
    (-2 ^ 31 ≤ (0xFFFFFFFF80000000 : Word).toInt ∧ (0xFFFFFFFF80000000 : Word).toInt < 2 ^ 31) ∧
    ∀ c1 : Bool, Clear (messages (.binit c1 ⟨0, 0, ⟨8, false⟩, .imm 65535⟩) c1 barred barred.core ⟨0, 0x10⟩ [] (.binit 65535)) := by
  refine ⟨rfl, rfl, rfl, rfl, rfl, bar_ok, by decide, by decide, by decide, ?_⟩
  intro c1
  cases c1 <;> exact clear_iff rfl

/-- A set of two points, the first visited; the second is due after two deferrals. -/
def touring (counts : List Nat) (ready : List Nat) (visited : List Nat) : State := { copying with core := { copying.core with
  tum := { copying.core.tum with set := some ⟨2, 1, 0, 0, 0x100, Vector.replicate 16 none, visited, [], ready, counts, false⟩, arrived := true, passDone := true } } }

theorem witness_TumblerOperations : copying.iss = none ∧ guardOn copying.core 0 = true ∧ Room copying 7 ∧ copying.entries true < 64 ∧
    wellFormed (copying.core.regs.a.get 1) 32 ∧ Reach copying false [0x10000] [page] ∧ (∀ p ∈ copying.core.ops, ∀ h f l, p.kind ≠ .tbind h f l) ∧
    setSettled copying ∧ copying.core.tum.set = none ∧
    (∃ s t, s = touring [0, 2] [] [0] ∧ s.core.tum.set = some t ∧ mapOk s.core t = true ∧ nextWord t = some (1 + 2 ^ 16) ∧ duePoints t ≠ []) ∧
    (∃ s t, s = touring [0, 1] [1] [0] ∧ s.core.tum.set = some t ∧ mapOk s.core t = true ∧ nextWord t = some 1 ∧ s.core.tum.arrived = true) ∧
    (∃ s t, s = touring [0, 0] [] [0, 1] ∧ s.core.tum.set = some t ∧ nextWord t = some (2 ^ 63)) ∧
    (∃ s t, s = touring [0, 0] [] [0] ∧ takeS s.core 0 false = some (0, s.core) ∧ s.core.tum.set = some t ∧ mapOk s.core t = true ∧
      (0 : Word).toNat % 65536 < t.count) ∧
    takeB copying.core (.imm 0) = some (0, copying.core) ∧ Bound copying 1 (handle 1) ∧ InWorld copying (handle 1) ∧
    Clear (lands (.wnext true ⟨0, 3, ⟨0, false⟩, .reg 0 false⟩) (cslot true) copying copying.core
      (result copying (cslot true) 4 (.s 3) (.w (BitVec.ofNat 64 (2 ^ 63))) allOnes none)) ∧
    Clear (lands (.wresq false ⟨0, 3, ⟨1, false⟩, .imm 0⟩) (cslot false) copying copying.core
      (result copying (cslot false) 4 (.s 3) (.w 0) allOnes none)) := by
  refine ⟨rfl, rfl, ⟨by decide, by decide⟩, by decide, ⟨by decide, by decide⟩, ⟨by decide, rfl, rfl, trivial⟩,
    fun _ ho => absurd ho (List.not_mem_nil (a := _)), fun _ ho => absurd ho (List.not_mem_nil (a := _)), rfl,
    ⟨_, _, rfl, rfl, by decide, by decide, by decide⟩, ⟨_, _, rfl, rfl, by decide, by decide, rfl⟩, ⟨_, _, rfl, rfl, by decide⟩,
    ⟨_, _, rfl, rfl, rfl, by decide, by decide⟩, rfl, ⟨rfl, fun _ ho => absurd ho (List.not_mem_nil (a := _))⟩,
    fun k => absurd k (by decide +kernel), clear_iff rfl, clear_iff rfl⟩

/-- The tiny device at the last bundle but one of ILO, with two bundles after it of which the second ends a body. -/
def inHalf : State := { copying with core := { copying.core with
  pc := 0xFFFFFFFE0000
  mem := { copying.core.mem with ihClean := [0], ih := [⟨0x40 + 25, 0x80⟩] }
  regs := { copying.core.regs with a := copying.core.regs.a.set 9 0x7000FFFFFFFE0040 } } }

theorem witness_ControlTransfers : inHalf.iss = none ∧ guardOn inHalf.core 0 = true ∧ wellFormed (inHalf.core.regs.a.get 9) 32 ∧
    target inHalf.core (.long 0xFFFFFFFF) = 0xFFFFFFFDFFE0 ∧ target inHalf.core (.short 0x1FF) = 0xFFFFFFFE3FE0 ∧
    ihOffset inHalf.core.pc.toNat = some 0 ∧ ihOffset (target inHalf.core (.long 0x800)).toNat = some 65536 ∧
    decide (65536 ≤ 0) ≠ decide (65536 ≤ 65536) ∧ (∀ k ∈ inHalf.core.eng0.queue ++ inHalf.core.eng1.queue, writesHalf true k = false) ∧
    Clear (gathered inHalf inHalf.core (opened .nop 0 inHalf)) ∧
    Clear (gathered inHalf inHalf.core { opened (.call ⟨0, 9, .short 0x1FF⟩) 6 inHalf with
      next := some 0, lands := [result inHalf 6 1 (.a 9) (.w 0) allOnes none] }) ∧
    Clear (gathered inHalf inHalf.core { opened (.swapi ⟨0, 0, .long 0x800⟩) 6 inHalf with next := some 0, swap := true }) := by
  refine ⟨rfl, rfl, ⟨by decide, by decide⟩, by decide, by decide, by decide, by decide, by decide, fun _ h => absurd h (List.not_mem_nil (a := _)),
    clear_iff rfl, clear_iff rfl, clear_iff rfl⟩

def bodyBundle : BitVec 256 := BitVec.ofNat 256 (2 ^ 207)

theorem body_captured : inHalf.capture 32 (inHalf.core.pc + 32) [] = .body [0, bodyBundle] := by decide +kernel

theorem body_plain : ([0, bodyBundle].all fun x => !opensLoop x.toNat) = true := by decide +kernel

/-- A NEST of the largest count and one of none; a LOOP over a body of two bundles. -/
theorem witness_Loops : inHalf.iss = none ∧ guardOn inHalf.core 0 = true ∧ takeS inHalf.core 0 false = some (0, inHalf.core) ∧
    (∃ n : NReg, (5 : Fin 16).val = n.val) ∧ ((0 : Word) + immediate (.long 0x7FFFFFFF)).toInt < 2 ^ 32 ∧ ((0 : Word) + immediate (.short 0 false)).toInt ≤ 0 ∧
    inHalf.capture 32 (inHalf.core.pc + 32) [] = .body [0, bodyBundle] ∧ (∀ x ∈ [0, bodyBundle], opensLoop x.toNat = false) ∧
    hasTwice ((5 : NReg) :: inHalf.core.loopSt.pending) = false ∧ inHalf.core.loopSt.dead = false ∧
    Clear (gathered inHalf inHalf.core (opened (.nest ⟨0, 5, ⟨0, false⟩, .long 0x7FFFFFFF⟩) 6 inHalf)) ∧
    Clear (gathered inHalf inHalf.core { opened (.loop ⟨0, 5, ⟨0, false⟩, .short 0 false⟩) 6 inHalf with skip := 2 }) := by
  refine ⟨rfl, rfl, rfl, ⟨5, rfl⟩, by decide, by decide, body_captured,
    fun x h => by simpa using List.all_eq_true.1 body_plain x h, rfl, rfl, clear_iff rfl, clear_iff rfl⟩

/-- Two levels over a body of two bundles: before its end, at its end with the outer level to go, and at its end with none. -/
theorem witness_Loops_next : ∃ l : LoopState, l.levels = [0, 5] ∧ l.levels ≠ [] ∧ l.levels.Nodup ∧ l.body.length = 2 ∧
    l.start.toNat ≤ (0x1000 : BitVec 48).toNat ∧ ((0x1000 : BitVec 48).toNat - l.start.toNat) / 32 + 1 < l.body.length ∧
    ((0x1020 : BitVec 48).toNat - l.start.toNat) / 32 + 1 = l.body.length ∧
    (l.levels = [0] ++ 5 :: [] ∧ (∀ m ∈ [(0 : NReg)], (l.n.get m).toNat ≤ 1) ∧ 1 < (l.n.get 5).toNat) ∧
    ∃ d : LoopState, d.levels = [0, 5] ∧ d.body.length = 2 ∧ ∀ m ∈ d.levels, (d.n.get m).toNat ≤ 1 :=
  ⟨{ LoopState.reset with levels := [0, 5], body := [0, bodyBundle], start := 0x1000, n := LoopState.reset.n.set 5 2 },
    rfl, by decide, by decide, rfl, by decide, by decide, by decide, ⟨rfl, by decide, by decide⟩,
    { LoopState.reset with levels := [0, 5], body := [0, bodyBundle], start := 0x1000 }, rfl, rfl, by decide⟩

theorem witness_TaskControl : inHalf.iss = none ∧ guardOn inHalf.core 0 = true ∧
    Clear (gathered inHalf inHalf.core { opened (.trap ⟨0, 0, ⟨0, false⟩, .long 0xFFFFFFFF⟩) 6 inHalf with
      post := [⟨0x01, 0xFFFFFFFF, some 6, false, none, false⟩] }) ∧
    Clear (gathered inHalf inHalf.core { opened (.rft ⟨0⟩) 6 inHalf with rft := true }) ∧
    Clear (gathered inHalf inHalf.core { opened (.yield ⟨0⟩) 6 inHalf with leave := none }) ∧
    Clear (gathered inHalf { inHalf.core with wdcount := 0 } (opened (.hbeat ⟨0⟩) 6 inHalf)) :=
  ⟨rfl, rfl, clear_iff rfl, clear_iff rfl, clear_iff rfl, clear_iff rfl⟩

/-- A secure task that claims banks 0 and 1: its CSRWs, BANKROLE's of bank 1 among them. -/
def secured : State := withCsr (fun c => { c with sec := true }) inHalf

theorem witness_ControlRegisters : secured.iss = none ∧ guardOn secured.core 0 = true ∧ takeC secured.core (.imm 0xFFFFFFFF) = some (BitVec.allOnes 64, secured.core) ∧
    takeC secured.core (.reg 2) = some (7, secured.core) ∧ secured.core.csr.sec = true ∧
    (let w : Word := 0xFFFF555500000001
     changedBanks secured.core.csr.bankrole w = [1] ∧ (∀ n ∈ changedBanks secured.core.csr.bankrole w, secured.core.bankClaimed n = true) ∧
      drainWaits secured (changedBanks secured.core.csr.bankrole w) = false) ∧
    Clear (lands (.csrr ⟨0, .reg 3, 0x035⟩) 6 secured secured.core (result secured 6 1 (.s 3) (.w 1) allOnes none)) ∧
    Clear (gathered secured secured.core { opened (.qcfg ⟨0, 3, ⟨0, false⟩, .short 3 false⟩) 0 secured with qmode := some 0xC0 }) ∧
    Clear (gathered secured secured.core { opened (.qmodeWrite ⟨0, .imm 0xFFFFFFFF⟩) 6 secured with qmode := some 0x0000FFFEFFFFFFFC }) ∧
    Clear (gathered secured secured.core { opened (.worldWrite ⟨0, .reg 2⟩) 6 secured with csrw := some (0x035, 7) }) ∧
    Clear (gathered secured secured.core { opened (.bankroleWrite ⟨0, .reg 2⟩) 6 secured with drain := some 2, csrw := some (0x003, 0xFFFF555500000001) }) ∧
    (∀ x ∈ writeMasks, ∃ o : FCS, o.n.toNat = x.1 ∧ o.g = 0 ∧ o.s = .imm 0xFFFFFFFF) ∧
    Clear (gathered secured { secured.core with csr := { secured.core.csr with quota := 512 } } (opened (.csrw ⟨0, .imm 0xFFFFFFFF, 0x005⟩) 6 secured)) := by
  refine ⟨rfl, rfl, congrArg (fun w => some (w, secured.core)) (by decide : (0xFFFFFFFF : BitVec 32).signExtend 64 = BitVec.allOnes 64), rfl, rfl,
    ⟨by decide, by decide, by decide⟩, clear_iff rfl, clear_iff rfl, clear_iff rfl, clear_iff rfl, clear_iff rfl, ?_, clear_iff rfl⟩
  intro x hx
  exact ⟨⟨0, .imm 0xFFFFFFFF, BitVec.ofNat 10 x.1⟩, by revert x; decide, rfl, rfl⟩

/-- A barrier whose phase is 1 with its poison bit set, and a task of a level-1 domain instance that has completed its superstep. -/
def record : TaskRec := ⟨0, 0, 0, 0, 0, 0, 0, 0, 0, 0, 0, 0, 0xFFFFFFFF05, 0, 0, 0, 0, 0, 0, [], []⟩
def task : Task := ⟨0, 0, 0, record, .running 0, some 0, 0, false, 0, 0, 0, none⟩
def member : State := { barred with
  sched := ⟨[task], [], [⟨instKey 0 0 1 5, 1, 1, 0, 0, false, some 0⟩], 1⟩
  core := { barred.core with
    csr := { barred.core.csr with domn := 0xFFFFFFFF05 }
    arrived := some 1
    released := true
    mem := { barred.core.mem with sram := [⟨0x14, 1⟩, ⟨0x15, 2⟩] }
    mon := some ⟨0x10000, 0x20000, 5⟩ } }

theorem witness_Waits : member.iss = none ∧ guardOn member.core 0 = true ∧ member.core.regs.k.get 7 = ⟨0, none⟩ ∧
    (∃ p : PReg, p.val = (7 : BitVec 4).toNat % 8) ∧ BarrierOk member (member.core.regs.a.get 8) ⟨0, 0x10⟩ ∧
    (∃ n, member.barRead ⟨0, 0x10⟩ = some n ∧ n.testBit 32 ≠ (7 : BitVec 4).getLsbD 3 ∧ n.testBit 41 = true) ∧
    (∀ d ∈ (0 : CoreId) :: ((member.barSrcs.find? fun x => x.bar == ⟨0, 0x10⟩).map (·.last)).getD [], scopeIncludes 0 member.core.id d = true) ∧
    wellFormed (member.core.regs.a.get 1) 8 ∧ Reach member false [0x10000] [page] ∧ HomeOk member (linear member (member.core.regs.a.get 1) [page]) ∧
    (∀ m, member.core.mon = some m → m.addr.toNat = 0x10000 → m.was ≠ member.monWord member.core.csr.sec 0x20000) ∧
    (∀ i ∈ classAfter member.core ((member.core.regs.a.get 1).toNat / 2 ^ 60), member.core.isOpen i = false) ∧
    (∀ r, scopeRecord member (0x20000 / 128) = some r → scopeIncludes 4 member.core.id r.core = true) ∧
    (((closeOn member.core true).eng true).closed.length ≤ 0 ∧ ((closeOn member.core true).eng true).acc.err = none) ∧
    (∃ p : PReg, ((11 : BitVec 32) + 1).toNat % 16 ≠ 0 → p.val = ((11 : BitVec 32) + 1).toNat % 16 - 1) ∧
    ((domnOf member.core.csr.domn 1).isSome = true ∧ ∃ i, member.instOf 1 = some i ∧ i.lost = false ∧
      (i.cluster = none ∨ i.cluster = some (clusterOf member.core.id)) ∧ member.countWrong 1 i = false ∧ member.core.arrived = some 1 ∧
      member.core.released = true) ∧
    Clear (gathered member member.core { opened (.waitb ⟨0, 0, 0, 8, 7, none⟩) 6 member with lands := [flagged member 7 true] }) ∧
    Clear (gathered member member.core (opened (.waitmon ⟨0, 4, 0, 1, 15, none⟩) 6 member)) ∧
    Clear (gathered member member.core { opened (.cbwait ⟨0, 0, 0, 0, 8, some 12⟩) 6 member with lands := [flagged member 11 false] }) ∧
    Clear (gathered member member.core (opened (.ssync ⟨0, 1, 0, 0, 0, none⟩) 6 member)) := by
  refine ⟨rfl, rfl, rfl, ⟨7, rfl⟩, ⟨by decide, by decide⟩, ⟨0x20100000000, by decide +kernel, by decide, by decide⟩, by decide, ⟨by decide, by decide⟩,
    ⟨by decide, rfl, rfl, trivial⟩, ⟨by decide, by decide, by decide⟩, ?_, by decide, fun r h => absurd h (no_record rfl _ r), ⟨by decide, rfl⟩,
    ⟨11, fun _ => rfl⟩, ⟨by decide, _, rfl, rfl, .inr rfl, rfl, rfl, rfl⟩, clear_iff rfl, clear_iff rfl, clear_iff rfl, clear_iff rfl⟩
  rintro m ⟨⟩ _
  decide

theorem witness_OrderingOperations : member.iss = none ∧ guardOn member.core 0 = true ∧ wellFormed (member.core.regs.a.get 1) 64 ∧ Room member 7 ∧
    Reach member false (firstBytes ((member.core.regs.a.get 1).toNat % 2 ^ 48) 192) [page] ∧
    ((some 0 : Option (BitVec 32)).map fun v => v.setWidth 16).getD 0xFFFF = (0 : BitVec 16) ∧
    ((none : Option (BitVec 32)).map fun v => v.setWidth 16).getD 0xFFFF ≠ (0 : BitVec 16) ∧
    Clear (issues (.spawn ⟨0, 0, 7, 1, 0, none⟩) 6 member member.core (leaving member 6 (some 7) 5 [] (.spawn (linear member 0x10000 [page])))) ∧
    Clear (issues (.fence ⟨0, 0, 0, 0, 0, none⟩) 6 member member.core (leaving member 6 none 0 [] (.fence 0xFFFF))) ∧
    Clear (issues (.irqh ⟨0, 0, ⟨0, false⟩, .long 5⟩) 6 member member.core (leaving member 6 none 0 [] (.irqh 5))) := by
  refine ⟨rfl, rfl, ⟨by decide, by decide⟩, ⟨by decide, by decide⟩, ?_, by decide, by decide,
    clear_iff rfl, clear_iff rfl, clear_iff rfl⟩
  have : firstBytes ((member.core.regs.a.get 1).toNat % 2 ^ 48) 192 = [0x10000] := by decide
  rw [this]
  exact ⟨by decide, rfl, rfl, trivial⟩

theorem witness_DecodeEncodeRoundTrip : ∃ (i : Instr) (e : Enc), i.wf = true ∧ encode i = some e := ⟨.nop, _, rfl, rfl⟩

/-- A bundle of two operations, one with a second write of s1, and the zero bundle. -/
def twoOps : Nat := Claims.wordBundle 0 0b000001_0000_0001_0010_0011_0_0 none 0 + Claims.wordBundle 7 0b001001_0000_0010_0000_000000 none 0
def twoWritesOf : Nat := Claims.wordBundle 0 0b000001_0000_0001_0010_0011_0_0 none 0 + Claims.wordBundle 7 0b001001_0000_0001_0000_000000 none 0

/-- The core in focus at a claimed and clean line that holds a bundle, with nothing else to do. -/
def atBundle (n : Nat) : State := { inHalf with core := { inHalf.core with
  holds := []
  mem := { inHalf.core.mem with ihClean := [0], ih := wrNat [] 0 32 n } } }

theorem witness_StepRunsDecoded : (atBundle 0).bringUpRejected = false ∧ (∃ i l, { atBundle 0 with inputs := [.lenable 0] }.inputs = i :: l) ∧
    (∃ i, { atBundle 0 with host := { (atBundle 0).host with held := [⟨3, 0⟩] } }.nextEvent = some i) ∧
    (atBundle 0).inputs = [] ∧ (∀ n, (atBundle n).nextEvent = none) ∧ (atBundle 0).canIssue = true ∧ (atBundle 0).core.loopSt.levels = [] ∧
    (atBundle 0).core.publishing = false ∧ ihOffset (atBundle 0).core.pc.toNat = some 0 ∧ (atBundle 0).core.halfClaimed 0 = true ∧
    0 / 128 ∈ (atBundle 0).core.mem.ihClean := by
  refine ⟨rfl, ⟨_, _, rfl⟩, ⟨.interruptDelivery 3, by decide +kernel⟩, rfl, fun n => rfl, by decide, rfl, rfl, by decide, rfl, by decide⟩

theorem ok_of {ε α : Type} {x : Except ε α} {b : α} (h : x.toOption = some b) : x = .ok b := by
  cases x <;> simp_all [Except.toOption]

theorem error_of {x : Except Illegal Bundle} {r : Illegal} (h : (match x with | .ok _ => none | .error r => some r) = some r) : x = .error r := by
  cases x <;> simp_all

theorem witness_StepRunsDecoded_bundles : (atBundle 0).nextBundle = .go 0 ∧ decodeBundle 0 = .ok ⟨[.nop], false⟩ ∧
    (atBundle twoOps).nextBundle = .go twoOps ∧
    decodeBundle twoOps = .ok ⟨[.add ⟨0, 1, ⟨2, false⟩, .reg 3 false⟩, .pcnt ⟨0, 2, 0, 0⟩], false⟩ ∧
    (atBundle twoWritesOf).nextBundle = .go twoWritesOf ∧ decodeBundle twoWritesOf = .error ⟨false, 0, 7⟩ :=
  ⟨by decide +kernel, ok_of (by decide +kernel), by decide +kernel, ok_of (by decide +kernel), by decide +kernel, error_of (by decide +kernel)⟩

theorem witness_StepRunsDecoded_runs : ∃ t, execAll [.add ⟨0, 1, ⟨2, false⟩, .reg 3 false⟩, .pcnt ⟨0, 2, 0, 0⟩] (openBundle tiny false) = .next t :=
  ⟨_, rfl⟩

def flight (due : Nat) (d : Dest) (x : Val) : Flight := ⟨due, 0, 0, 0, d, x, allOnes, none, false⟩

theorem witness_StalledBundles : tiny.iss = none ∧ liveFlights tiny.core.flights ≤ 24 ∧
    (scalarGuard (.add ⟨1, 1, ⟨2, false⟩, .reg 3 false⟩) = some 1 ∧ guardOn tiny.core 1 = false) ∧
    (vectorGuard (.vadd false ⟨12, 1, ⟨2, false⟩, .reg 3 false⟩) = some 12 ∧ activeMask tiny.core 12 = 0) ∧
    (∃ g : State, g.issue.stall = some .hold ∧ g.issue.arrive = none) ∧
    ∃ g : State, g.issue.stall = none ∧ 24 < liveFlights (g.core.flights ++ g.issue.lands) :=
  ⟨rfl, by decide, ⟨rfl, rfl⟩, ⟨rfl, rfl⟩, ⟨{ tiny with iss := some { Issue.start tiny.core false with stall := some .hold } }, rfl, rfl⟩,
    { tiny with iss := some { Issue.start tiny.core false with lands := List.replicate 25 (flight 9 (.s 1) (.w 0)) } }, rfl, by decide⟩

theorem witness_CommittedBundles : ∃ (g : State) (k : Issue), g.iss = some k ∧ k.post = [] ∧ k.rft = false ∧ k.leave = none ∧ k.descs = [] ∧
    k.csrw = none ∧ k.qmode = none ∧ Memory.wf g.core.mem.sram = true ∧ k.curs = [] ∧ k.copies = [] ∧ k.next = none ∧ k.newLoop = none ∧
    g.core.loopSt.levels = [] ∧ (∃ (w : LocalWr) (i : Nat) (x : Byte), k.lwr = [w] ∧ w.bytes[i]? = some x) :=
  ⟨{ mapped with iss := some { Issue.start mapped.core false with lwr := [⟨0x100, [1]⟩] } }, _, rfl, rfl, rfl, rfl, rfl, rfl, rfl, by decide, rfl, rfl, rfl,
    rfl, rfl, ⟨_, 0, 1, rfl, rfl⟩⟩

/-- The same of a taken transfer, a new loop, and a body that is skipped. -/
theorem witness_CommittedBundles_next : ∀ k ∈ [{ Issue.start tiny.core false with next := some 0x40 },
      { Issue.start tiny.core false with newLoop := some LoopState.reset }, { Issue.start tiny.core false with newLoop := some LoopState.reset, skip := 2 }],
    k.post = [] ∧ k.rft = false ∧ k.leave = none ∧ k.descs = [] ∧ k.csrw = none ∧ k.qmode = none ∧ (k.next.isSome = true ∨ k.newLoop.isSome = true) := by
  intro k hk
  simp only [List.mem_cons, List.not_mem_nil, or_false] at hk
  rcases hk with rfl | rfl | rfl <;> exact ⟨rfl, rfl, rfl, rfl, rfl, rfl, by decide⟩

theorem witness_SlotFrame : ∃ t, (encode .nop).isSome = true ∧ writesAtIssue .nop = false ∧ writesLocal .nop = false ∧ landsInWait .nop = false ∧
    movesHandle .nop = false ∧ writesMode .nop = false ∧ writesControl .nop = false ∧ tiny.iss = none ∧ exec .nop tiny = .next t ∧
    sQueue queued.core.csr.qmode 2 = false ∧ vQueue queued.core.csr.qmode 2 = false ∧ ¬trapRegister 0x00B ∧ ¬trapRegister 0x028 :=
  ⟨_, rfl, rfl, rfl, rfl, rfl, rfl, rfl, rfl, rfl, rfl, rfl, by simp [trapRegister], by simp [trapRegister]⟩

/-- Two conditions of one bundle; a handler that may be entered; an empty queue s1, an address that is not aligned, a non-secure task. -/
def trapping : State := withCsr (fun c => { c with qmode := 4, trapvec := 0x2001 }) mapped

theorem witness_BundleTraps : ∃ g : State, g.issue.stall = none ∧ lateStall g g.issue = none ∧
      g.issue.causes ++ overflowCauses g.core (g.issue.qmode.getD g.core.csr.qmode) g.issue.dests [] = [⟨0x18, 1, some 4, false, none, false⟩, ⟨0x11, 1, some 6, false, none, false⟩] :=
  ⟨{ tiny with iss := some { Issue.start tiny.core false with causes := [⟨0x18, 1, some 4, false, none, false⟩, ⟨0x11, 1, some 6, false, none, false⟩] } }, rfl, rfl, rfl⟩

theorem witness_BundleTraps_conditions : trapping.core.inHandler = false ∧ trapping.core.csr.trapvec.toNat % 2 = 1 ∧ trapping.iss = none ∧
    lateStall (openBundle trapping false) (openBundle trapping false).issue = none ∧ guardOn trapping.core 0 = true ∧
    sQueue trapping.core.csr.qmode 1 = true ∧ trapping.core.regs.s.get 1 = [] ∧ liveFlights trapping.core.flights ≤ 24 ∧
    sQueue trapping.core.csr.qmode 2 = false ∧ ¬wellFormed (address trapping.core ⟨0, 2, 1, 0, 3, some 4⟩) (2 ^ ((3 : BitVec 3).toNat % 4)) ∧
    takeC trapping.core (.reg 2) = some (7, trapping.core) ∧ trapping.core.csr.sec = false :=
  ⟨rfl, by decide, rfl, rfl, rfl, rfl, rfl, by decide, rfl, by rintro ⟨-, h⟩; revert h; decide, rfl, rfl⟩

theorem witness_TrapEntry : (∃ (s : State) (k : Cause), s.core.inHandler = true ∧ k.slot = some 6 ∧ k.hdr = false ∧ k.wait = some (.token 7)) ∧
    (∃ s : State, s.core.inHandler = false ∧ s.core.csr.trapvec.toNat % 2 = 0) ∧
    ∃ s : State, s.core.inHandler = false ∧ s.core.csr.trapvec.toNat % 2 = 1 ∧ (∀ r ∈ s.core.csr.replay.toList, r.word.toNat % 2 = 0) ∧
      ∃ f, (s.core.flights.filter fun f => !f.record)[23]? = some f :=
  ⟨⟨{ tiny with core := { tiny.core with inHandler := true } }, ⟨0x1F, 0, some 6, false, some (.token 7), false⟩, rfl, rfl, rfl, rfl⟩, ⟨tiny, rfl, rfl⟩,
    { trapping with core := { trapping.core with flights := List.replicate 24 (flight 9 (.v 1) (.v VReg.zero)) } }, rfl, by decide,
    by decide +kernel,
    flight 9 (.v 1) (.v VReg.zero), rfl⟩

theorem witness_ResultLanding : ∃ s : State, s.core.returning = false ∧ (∀ f ∈ s.core.flights, typed f) ∧
    (∃ f, landing s = [f] ∧ f.dest = .p 11 ∧ f.val = .w 5 ∧ f.mask = BitVec.allOnes 64 ∧ f.fev = none) ∧
    ∃ t : State, (∃ f, landing t = [f] ∧ f.dest = .a 3 ∧ f.val = .w 5) ∧ ∀ f ∈ landing t, f.dest ≠ .a 4 :=
  ⟨{ tiny with core := { tiny.core with flights := [flight 0 (.p 11) (.w 5), flight 1 (.v 3) (.v VReg.zero)] } }, rfl,
    by intro f hf; simp at hf; rcases hf with rfl | rfl <;> trivial, ⟨_, rfl, rfl, rfl, rfl, rfl⟩,
    { tiny with core := { tiny.core with flights := [flight 0 (.a 3) (.w 5)] } }, ⟨_, rfl, rfl, rfl⟩, by intro f hf; simp [landing, flight, tiny, State.reset] at hf; simp [hf]⟩

theorem witness_ResultLanding_return : ∃ s : State, s.core.returning = true ∧ s.core.flights = [] ∧ s.core.shadow = some LoopState.reset ∧
    replayOverflows s.core (s.core.csr.replay.toList.filterMap fun r => fromReplay r s.clock (BitVec.ofNat 48 s.core.csr.trappc.toNat)) = false ∧
    ∃ (r : Replay) (i : Fin 16), r.word.toNat % 2 = 1 ∧ field r.word.toNat 1 3 = 0 ∧ field r.word.toNat 4 4 = i.val :=
  ⟨{ tiny with core := { tiny.core with returning := true, shadow := some LoopState.reset } }, rfl, rfl, rfl, by decide +kernel,
    ⟨0xF1, VReg.zero, 0, 0⟩, 15, by decide, by decide, by decide⟩

theorem witness_StepKeepsMemoryForm : ∃ s t : State, Memory.wf s.store.bytes = true ∧ step s = .next t :=
  ⟨{ tiny with inputs := [.lenable 0], store := { tiny.store with bytes := [⟨5, 1⟩] } }, _, rfl, rfl⟩

theorem witness_StepKeepsLocalForm : ∃ s t : State, (∀ c ∈ everyContext s, LocalForm c) ∧ step s = .next t := by
  refine ⟨{ mapped with inputs := [.lenable 0] }, _, fun c hc => ?_, rfl⟩
  have : everyContext { mapped with inputs := [.lenable 0] } = [mapped.core] := rfl
  rw [this, List.mem_singleton] at hc
  subst hc
  exact ⟨rfl, rfl, rfl⟩

/-- The mapped device brought up: the links are up, device memory is open. -/
def hosted : State := { mapped with
  plat := { mapped.plat with hostLink := true, bringup := .done }
  host := { mapped.host with root0 := 0x1000, evsize := 6, lenable := true } }

theorem witness_RegisterWrites : (∃ off : BitVec 16, off.toNat % 8 = 0 ∧ off.toNat < 64) ∧
    (∀ x ∈ registerMasks, ∃ off : BitVec 16, off.toNat % 8 = 0 ∧ 64 ≤ off.toNat ∧ off.toNat = x.1) ∧
    (∃ x ∈ registerMasks, x.2.2 = true) ∧ (∃ x ∈ registerMasks, x.2.2 = false) ∧
    ((0x4000 : BitVec 16).toNat = 0x4000 ∧ 500 ≤ (500 : Word).toNat ∧ (500 : Word).toNat ≤ 2000 ∧ (500 : Word).toNat % 2 = 0 ∧ (1 : Word).toNat % 2 = 1) ∧
    (hosted.host.root0 ≠ 0 ∧ hosted.host.evsize.toNat % 32 = 6) ∧ mapped.host.root0 = 0 := by
  refine ⟨⟨0x38, by decide, by decide⟩, fun x hx => ⟨BitVec.ofNat 16 x.1, ?_⟩, ⟨(0x1008, 0x000FFFFFFFFFF000, true), by decide +kernel, rfl⟩,
    ⟨(0x1000, 0x000FFFFFFFFFF000, false), by decide +kernel, rfl⟩, by decide, ⟨by decide, rfl⟩, rfl⟩
  revert x; decide +kernel

/-- A withdrawal of page 0x10 of the non-secure space is taken; an engine has a copy of that space under way. -/
def going : Copy := ⟨5, 0, 0, 7, .cpy 0x20000 0x10000 64 false, none, false, [], true, 0, none, none, .start⟩
def midway : Copy := { going with
  kind := .cpy 0x20000 0x10000 4096 false
  prog := { CopyProgress.start with pos := 128, pages := ⟨[⟨false, 0x20000, 4096, 0x40000, true, false, 2⟩, ⟨false, 0x10000, 4096, 0x30000, true, false, 2⟩], []⟩ } }
def withdrawn (l : List Copy) : State := { hosted with
  host := { hosted.host with wdrs := [⟨false, false, 0x10, 1, []⟩] }
  core := hosted.core.modEng true fun e => { e with queue := l } }

theorem witness_Withdrawals : (bit (2 : Word).toNat 1 = true ∧ bit (1 : Word).toNat 1 = false ∧ bit (0x10003 : Word).toNat 1 = true) ∧
    (∃ w l, (withdrawn [midway]).host.wdrs = w :: l ∧ midway ∈ ((withdrawn [midway]).core.eng true).queue ∧ midway.started = true ∧
      midway.sec = w.space ∧ midway.commits = none ∧ midway.kind.delivering = none ∧ midway.prog.pages.xls ≠ [] ∧ midway.paused (withdrawn [midway]) true = false) ∧
    (∃ w l, (withdrawn [going]).host.wdrs = w :: l ∧ ((withdrawn [going]).core.eng true).inSpace w.space = true ∧ (withdrawn [going]).ackDue true = true) ∧
    (withdrawn []).withdrawalDue = true ∧ (hosted.regsOpen true = true ∧ hosted.regsOpen false = true ∧ mapped.regsOpen false = false) :=
  ⟨by decide, ⟨_, _, rfl, List.mem_cons_self, rfl, rfl, rfl, rfl, nofun, by decide +kernel⟩, ⟨_, _, rfl, rfl, rfl⟩, rfl, rfl, rfl, rfl⟩

/-- R206, R327: a copy that has done a page of 4 KiB and holds its translation stands at the boundary, and waits there. -/
theorem test_pauses : ({ midway with kind := .cpy 0x20000 0x10000 8192 false, prog := { midway.prog with pos := 4096 } } : Copy).paused
    (withdrawn []) true = true := by decide +kernel

/-- Stack 1 has a window of its tile tables and a pool, and an ENTGO of the entry at 0x100000 waits; page 0x30 is changing its bias. -/
def windowed (b : Bias) (cells : List Host.Cell) : State := { hosted with
  clock := 1 + Config.latency 9
  md := hosted.md.set 1 { hosted.md.toList.getD 1 default with mdreg := 0x200000100000, pool := 0x300000200000, biasst := 0x40008, entgo := [(0x100000, 0)] }
  store := { hosted.store with bytes := cells, bias := [(0x30, b)] } }

theorem no_handle (b : Bias) (cells : List Host.Cell) : ∀ c ∈ (windowed b cells).contexts, ¬ofStack 1 c := by
  have : (windowed b cells).contexts = [mapped.core] := rfl
  rw [this]
  rintro c hc ⟨x, h, -⟩
  rw [List.mem_singleton] at hc
  subst hc
  have h : some x ∈ List.replicate 16 none := h
  simp at h

theorem witness_MetadataWindows : Memory.wf (windowed .host []).store.bytes = true ∧ (∃ c ∈ boundTo.contexts, ofStack 0 c) ∧
    (∀ c ∈ (windowed .host []).contexts, ¬ofStack 1 c) ∧
    (∃ v : Word, let w := v &&& 0xFFFFFF7FFFFF0000
      let m := vat (windowed .host []).md 1
      (winBase w < winLimit m.pool ∧ winBase m.pool < winLimit w) ∧ ¬(winBase w < winLimit m.mdreg ∧ winBase m.mdreg < winLimit w)) ∧
    (∃ v : Word, let w := v &&& 0xFFFFFF7FFFFF0000
      let m := vat (windowed .host []).md 1
      ¬(winBase w < winLimit m.pool ∧ winBase m.pool < winLimit w) ∧ (winBase w < winLimit m.mdreg ∧ winBase m.mdreg < winLimit w)) ∧
    ((0 : Word).toNat % 2 = 0 ∧ (1 : Word).toNat % 2 = 1) ∧
    (let s := windowed .host []
     s.entgoDue 1 = some (0x100000, 0) ∧ (s.entryAt 0x100000).wlk = false ∧ (vat s.md 1).retired.length < 4096 ∧ (s.entryAt 0x100000).pin = 0) ∧
    (let s := windowed .host [⟨0x100000, 5⟩, ⟨0x100006, 1⟩, ⟨0x100008, 1⟩]
     Memory.wf s.store.bytes = true ∧ (s.entryAt 0x100000).wlk = false ∧ (s.entryAt 0x100000).size = 64 ∧ (s.entryAt 0x100000).pin = 1) := by
  refine ⟨rfl, ⟨boundTo.core, List.mem_cons_self, handle 1, ?_, ?_⟩, no_handle _ _, ⟨0x310000210000, by decide⟩, ⟨0x110000000000, by decide⟩, by decide, ?_, ?_⟩
  · have : boundTo.core.regs.h.get 1 = some (handle 1) := rfl
    rw [← this]
    exact Vector.mem_toList_iff.2 (Vector.getElem_mem _)
  · decide +kernel
  · exact ⟨rfl, by decide +kernel, by decide, by decide +kernel⟩
  · exact ⟨by decide, by decide +kernel, by decide +kernel, by decide +kernel⟩

theorem windowed_due (b : Bias) (h : ∃ a, b = .toHost 0 9 a ∨ b = .toDevice 0 9 a) : (windowed b []).biasDue 0x30 = true := by
  have h1 : 0 + 1 + Config.latency 9 ≤ (windowed b []).clock := Nat.le_of_eq (by show 0 + 1 + Config.latency 9 = 1 + Config.latency 9; omega)
  have h2 : (windowed b []).biasOf (4096 * 0x30) = some b := rfl
  obtain ⟨a, rfl | rfl⟩ := h <;> simp only [State.biasDue, h2, h1, decide_true, Bool.true_and] <;> rfl

/-- BIASREQ to and from the host: a page that is changing, one of the wanted bias, one to be changed; and a change that is due. -/
theorem witness_MetadataWindows_bias : (bit (0x30001 : Word).toNat 0 = true ∧ field (0x30001 : Word).toNat 12 27 = 0x30 ∧ bit (0x50000 : Word).toNat 0 = false) ∧
    (windowed (.toHost 0 9 0x40008) []).biasChanging (4096 * 0x30) = true ∧ (windowed .host []).biasChanging (4096 * 0x30) = false ∧
    (windowed .host []).hidden (4096 * 0x30) = false ∧ (windowed .host []).hostBiased (4096 * 0x30) = true ∧ (windowed .host []).hostBiased (4096 * 0x50) = false ∧
    (windowed .host []).hidden (4096 * 0x100) = true ∧ isMemory 0x40008 = true ∧ (windowed .host []).deadHome 0x40008 = false ∧
    ∀ b ∈ [Bias.toHost 0 9 0x40008, .toDevice 0 9 0x40008], (windowed b []).biasDue 0x30 = true ∧ (windowed b []).biasOf (4096 * 0x30) = some b := by
  refine ⟨by decide, rfl, rfl, by decide, rfl, rfl, by decide, by decide, rfl, ?_⟩
  intro b hb
  simp only [List.mem_cons, List.not_mem_nil, or_false] at hb
  rcases hb with rfl | rfl
  · exact ⟨windowed_due _ ⟨_, .inl rfl⟩, rfl⟩
  · exact ⟨windowed_due _ ⟨_, .inr rfl⟩, rfl⟩

/-- Accesses of up to two lines at 0x30040 and one to a metadata region; the line at 0x30080 poisoned; a host address. -/
theorem witness_HostAccesses : Memory.wf (windowed .host []).store.bytes = true ∧ hostReaches (windowed .host []) 0x30040 128 ∧
    (∀ l ∈ linesOf 0x30040 128, l ∉ (windowed .host []).store.poison) ∧
    (let s := { windowed .host [] with store := { (windowed .host []).store with poison := [0x30080 / 128] } }
     hostReaches s 0x30040 128 ∧ ∃ l ∈ linesOf 0x30040 128, l ∈ s.store.poison) ∧
    (∃ bs : List Byte, bs.length = 128) ∧
    (0x100040 ∈ hostLines 0x100040 64 ∧ (∀ b ∈ hostLines 0x100040 64, present b = true) ∧ (windowed .host []).hostBarred 0x100040 = true) ∧
    (windowed .host []).hostOpen = true ∧ isHost 0x100000000000 = true := by
  refine ⟨rfl, ⟨rfl, by decide +kernel⟩, by decide +kernel, ⟨⟨rfl, by decide +kernel⟩, 0x30080 / 128, by decide, by decide⟩, ⟨List.replicate 128 0, rfl⟩, by decide, rfl, by decide⟩

/-- A launch record of one task record at 0x4000 with an interrupt, its status line at 0x5000; the tables map the first 2 MiB; the task
record names no domain. -/
def launchBytes (lflags ntask status : Nat) : List Byte :=
  toBytes 64 (0x584E4C52 + 2 ^ 48 * lflags + 2 ^ 64 * 0x4000 + 2 ^ 128 * ntask + 2 ^ 256 * status)
def launching : State := { hosted with store := { hosted.store with bytes :=
  [⟨0x1000, 1⟩, ⟨0x1001, 0x20⟩, ⟨0x2000, 1⟩, ⟨0x2001, 0x30⟩, ⟨0x3000, 1⟩, ⟨0x3001, 1⟩] ++ (List.range 5).map fun i => ⟨0x4040 + i, 0xFF⟩ } }
def launchTask : TaskRec := ⟨0x4000, 0, 0, 0, 0, 0, 0, 0, 0, 0, 0, 0, 0xFFFFFFFFFF, 0, 0, 0, 0, 0, 0, [0, 0, 0, 0], [0, 0, 0, 0, 0, 0, 0, 0]⟩

theorem launch_length : (launchBytes 1 1 0x5000).length = 64 ∧ (launchBytes 2 1 0x5000).length = 64 := by decide +kernel
theorem launch_status : (launchOf (launchBytes 1 1 0x5000)).statusOk = true ∧ (launchOf (launchBytes 2 1 0x5000)).statusOk = true := by decide +kernel
theorem launch_form : (launchOf (launchBytes 1 1 0x5000)).formOk = true ∧ (launchOf (launchBytes 2 1 0x5000)).formOk = false := by decide +kernel
theorem launch_records : launching.launchRecords (launchOf (launchBytes 1 1 0x5000)) = some [launchTask] := by decide +kernel
theorem launch_fails : hosted.launchRecords (launchOf (launchBytes 1 1 0x5000)) = none := by decide +kernel
theorem launch_free : launching.launchWaits (launchOf (launchBytes 1 1 0x5000)) = false := by decide +kernel

/-- A taken launch, one with a bad record, one of a pool of 4,096 tasks, one whose LID is live, one with LFLAGS 2; and their ends. -/
def full : Sched := ⟨List.replicate 4096 task, [], [], 4096⟩
def ended : State := { hosted with
  sched := { hosted.sched with launches := [⟨0, true, 3, 0, 0x5000, 0⟩] }
  host := { hosted.host with held := [⟨3, 0⟩] } }

theorem full_takes : ∃ d, full.takeAll 0 0 [launchTask] = some d ∧ d.fits = false := by
  refine ⟨_, if_pos (by decide +kernel), ?_⟩
  decide +kernel

theorem witness_Launches : Memory.wf launching.store.bytes = true ∧ launching.hostOpen = true ∧ launching.host.lenable = true ∧
    (launching.host.pending.any Instr.isLaunch = false) ∧ hosted.launchWaits (launchOf (launchBytes 1 1 0x5000)) = false ∧
    (∃ d, launching.sched.takeAll 0 launching.clock [launchTask] = some d ∧ d.fits = true) ∧
    (∃ d, full.takeAll 0 0 [launchTask] = some d ∧ d.fits = false) ∧
    launching.sched.takeAll 0 launching.clock [{ launchTask with entry := 1 }] = none ∧
    (∀ l ∈ launching.sched.launches, l.lid ≠ 0) ∧ (∃ l ∈ ended.sched.launches, l.lid = 0) ∧
    (launching.deadHome 0x5000 = false ∧ launching.hidden 0x5000 = false ∧ launching.secureAddr 0x5000 = false ∧ 0x5000 / 128 ∉ launching.store.poison) ∧
    (([] : List Byte).length ≠ 64) ∧
    (∃ l, ended.sched.launches.find? (fun l => l.lid == 0) = some l ∧ ended.launchDone 0 = true ∧ l.irq = true ∧ l.win = 0 ∧ ∀ i ∈ hosted.host.held, i.vec ≠ l.vec) ∧
    ∃ i ∈ ended.host.held, i.vec = 3 ∧ i.due ≤ ended.clock :=
  ⟨by decide, rfl, rfl, rfl, by decide +kernel, ⟨_, if_pos (by decide +kernel), by decide +kernel⟩, full_takes, if_neg (by decide +kernel), fun _ h => absurd h (List.not_mem_nil (a := _)),
    ⟨_, List.mem_cons_self, rfl⟩, ⟨rfl, by decide, by decide, by decide⟩, by decide, ⟨_, rfl, rfl, rfl, rfl, fun _ h => absurd h (List.not_mem_nil (a := _))⟩,
    ⟨_, List.mem_cons_self, rfl, Nat.le_refl _⟩⟩

/-- A key of 4,096 bits and its signature of the byte 1 (RSASSA-PSS, SHA-512, MGF1 with SHA-512, a salt of 64 bytes), made by OpenSSL. -/
def signer : RsaKey := ⟨0xBB7DA7AE533B6D9EB3798B5532527CC06B141AD1B57E00A1ADEE031025CDA46C17EE2EA4CE39E0C3E0BEF062B6C8D4463C71C5C387ADAE6A648DF6841ED258AC98A17A57775819C0AA3D92C68E321E7D65E8225E386D573927B2BE6CFD6C98BC5BFD25A08062AA909C26BB88CECDB71494C5BA6BF8D2AD521517A0559C86098F92B5884CE0DA64C56CA985A2279AC7F9981D2E68A7E4C6E67EA07FB40ECD7041378BC4A878974BD58A7C92A9EF04F5E3B9030E8F26F4CEF57CB6B408BE9EA130CB42DE1C27BB58225AC95C606215C5F2AFC469E56EC7E38F838545EBEAFEB830A6E3CBF6B175BAAA9E2AFE5FC1DE3612D7A527E3119756046E337CAB4B9C5C2BA5B29886FE7EB0925B602333FC9CEC76246C51D54D443664F4C130E7A57A5726F6DF24CEA1D09990548953465C250065658DFAFA835F52D7EC4C0BCCA4230392C0EFAF6343B9200DB8684FD8FA4A9DCFFB24D51E5C324449CD1CAEC22D5F87E4E28CEBCC421604D5C4F3947102A47DA8899E52EB2D02A3C62128D20E824EE0A79F938A11403EBFB59E8B58FC28E06329F6A874304C7876D34E5FFFF8E0041B6C4D89E702B913697BCC096B8F177FB9BEA6F264913A1F900E417DACC100FF77C10F44E1C3739829AB5A0229B0FB16355055BB582C25F96396A504CB496C8BE3F140B64AD894085E2FB39CE83D2A0ADE28240FD83C5478C87FEC1A0694445009A5, 65537⟩
def signature : List Byte := toBytesBe 512 0x0439b66de9f69a5cb3adc033c8deca67d1e03a37ea26a4ebad206913df5c14e8ea8590eb374fe466097dc39637bedb614039ac8151b5025f1f00e3e9d54895623d8ab0967151e162738cbff414c988a74cb323c052f66eeac5172edd1f3112a74a0be425b2fc28a36cf2b2ddef5e8e4c99f47bfcf473e291e9bba3a49edc843b3de675bd63a5a46b3464416c5a735d20d54fc1562eb380c3c581605a48855f6b6497650db9b26640e81342f4113fba767672b1cc1be4474b3471249b89697cd993afa7f7dc2190099c9d2a13e2aa9fd16799d947a1d71eba0d9b53481e20efec22c9779683f14c5ef234d9635eb0751bd7d65504a89eea5636c97eb179bb517b522127c21b78e0cb528461ea920b42ccad8e3afe6a11e61fa8603800f446ebdf81f8f031f657e4fcebe74e1cc0811fb8cd5d7ce7981e52206fc2ef47069e70d669e5cbbb44a6c2dae8ec522437f4f1115e4e8fca588dad92626049014abcf5fea4ace17e6de3cd0f33db9f5c6710812f03344a1e3fcc207c68cdef14a98e381597c8c84b4ae2834056e1a4d72d89dc5f15fcb1451671f937a9ffec12fcf1cf240a4116296d59d94bd8c894efa9cdd24a4eff1de8aab8c0347fe3b00a429ec716d197495cc116f68df49d3a319a87da8de1d22756dd8d6d82904efc9bf5ec0c02ebccc8b65eecf6ffb76a9cb31d056d0a0093124db6ca5ba0b6d4bc48e9163408
theorem test_signature : rsaVerify signer [1] signature = true ∧ rsaVerify signer [2] signature = false := by decide +kernel

/-- FIPS 180-4, the digest of "abc". -/
theorem test_sha512 : ofBytesBe (sha512 [0x61, 0x62, 0x63]) =
    0xddaf35a193617abacc417349ae20413112e6fa4e89a97ea20a9eeee64b55d39a2192992a274fc1a836ba3c23a3feebbd454d4423643ce80e2a9ac94fa54ca49f := by decide +kernel

/-- Images that the signer has signed, of a version that the counter admits. -/
def images (n : Nat) : Firmware := ⟨List.replicate n ⟨[1], signature, 2⟩, signer, keyDigest signer, 2, none, true⟩

theorem signer_sized : (keySized signer.modulus && keySized signer.exponent) = true := by decide +kernel

theorem image_ok (n i : Nat) (h : i < n) : imageOk (images n) i = true := by
  have hs := signer_sized
  simp only [Bool.and_eq_true] at hs
  simp only [imageOk, images, keyOk, List.getElem?_replicate, h, if_true, test_signature.1, beq_self_eq_true, hs.1, hs.2]
  rfl

/-- A power period that is due and one that is not, with a die whose demand is 0; four images of which none is there, which are all
accepted, or of which two are; a key whose digest is not in the fuses. -/
theorem witness_PlatformSteps : (hosted.clock < (hosted.plat.periods + 1) * 4200 ∧ (hosted.plat.periods + 1) * 4200 ≤ ({ hosted with clock := 4200 } : State).clock ∧
      ([0, 0, 0, 0] : List Nat).getD 0 0 ≤ Config.grant [0, 0, 0, 0] hosted.plat.pcap.toNat 0) ∧
    (imageOk (images 0) 0 = false ∧ 0 < max 4 (images 0).images.length ∧ ∀ j, j < 0 → imageOk (images 0) j = true) ∧
    (∀ i, i < max 4 (images 4).images.length → imageOk (images 4) i = true) ∧
    (imageOk (images 2) 2 = false ∧ ∀ j, j < 2 → imageOk (images 2) j = true) ∧
    ∃ fw : Firmware, keyDigest fw.key ≠ fw.fuses := by
  refine ⟨⟨by decide, by decide, Nat.zero_le _⟩, ⟨rfl, by decide, fun j h => by omega⟩, fun i hi => image_ok 4 i ?_, ⟨rfl, fun j hj => image_ok 2 j hj⟩,
    { images 4 with fuses := [] }, by decide +kernel⟩
  simpa [images] using hi

/-- A core holds a line of stack 6; its base die is cut off, or the link to die 3, or a peer. -/
def linked : State := { hosted with
  plat := { hosted.plat with dieLinks := [(0, 1), (0, 2), (1, 3), (2, 3)], baseLinks := [0, 1, 2, 3, 4, 5, 6, 7] }
  core := { hosted.core with mem := { hosted.core.mem with icache := [6 * 2 ^ 36 / 128] } } }

theorem witness_LinkFailures : linked.plat.linkUp (.base 6) = true ∧ (linked.plat.cut (.base 6)).unreached.filter (fun a => !linked.plat.dead.contains a) = [.base 6] ∧
    linked.plat.linkUp (.die 0 1) = true ∧ (linked.plat.cut (.die 0 1)).unreached = [] ∧ (∀ x : Fin 12, Link.die 0 1 ≠ .peer x) ∧
    linked.core.stat = .running ∧ linked.deadCore linked.core.id = false ∧
    (∃ x ∈ linked.core.heldLines, { linked with plat := { linked.plat with dead := [.base 6] } }.deadHome (128 * x) = true) := by
  refine ⟨by decide +kernel, by decide +kernel, by decide +kernel, by decide +kernel, nofun, rfl, by decide, _, List.mem_cons_self, by decide +kernel⟩

/-- A link with a flit that fails its check, for what the configuration decodes; a flit that passes it, of any head and payload. -/
theorem witness_FlitsAndTransfers : ∀ flit : List Byte,
    ((Config.fec flit).length ≠ 256 → flitOk (Config.fec flit) = false) ∧
    ∀ (head : Nat) (payload : List Byte), payload.length = 236 →
      (let body := toBytes 2 head ++ payload
       Config.fec flit = body ++ toBytes 8 (Config.crc64 body).toNat ++ List.replicate 10 0) → flitOk (Config.fec flit) = true := by
  refine fun flit => ⟨fun h => by simp [flitOk, h], fun head payload hp h => ?_⟩
  have hb : (toBytes 2 head ++ payload).length = 238 := by rw [List.length_append, toBytes_length, hp]
  simp only [flitOk, h, Bool.and_eq_true, beq_iff_eq]
  refine ⟨by simp [hp, toBytes_length], ?_⟩
  rw [List.append_assoc, List.take_left' hb, List.drop_left' hb, List.take_left' toBytes_length, ofBytes_toBytes]
  exact BitVec.eq_of_toNat_eq (by simp; omega)

/-- A task with a grant for the scorecard of core 5 of device 9: its bytes at 0x200, its flag word at 0x300. -/
def granted : State := { mapped with core := { mapped.core with claim := { mapped.core.claim with grants := [⟨0x8009, 5, 0x200, 8, 0x300⟩] } } }
def transfer (off : BitVec 21) : PeerXfer := ⟨9, 5, 0, off, [1, 2], 63⟩

theorem witness_FlitsAndTransfers_grants : (granted.coreAt 0 = granted.core ∧ granted.core.id = 0 ∧ granted.core.stat = .running) ∧
    (∃ g, granted.core.claim.grants.find? (grantTakes granted.core (transfer 0x206)) = some g) ∧
    (∀ g ∈ (granted.coreAt 0).claim.grants, grantTakes (granted.coreAt 0) (transfer 0x207) g = false) := by
  refine ⟨⟨rfl, rfl, rfl⟩, Option.isSome_iff_exists.1 (by decide +kernel), by decide +kernel⟩

/-! Operations that are outstanding. -/

def acted (k : TokKind) : TokOp := ⟨5, 9, 0, 0, 0, some 4, 5, false, [], none, k⟩
def acting (poison : List Nat) (k : TokKind) : State := { mapped with
  clock := 1 + Config.latency 9
  store := { mapped.store with poison := poison }
  core := { mapped.core with ops := [acted k], holds := [⟨3, 9, 0, 4, [], false, none, none⟩] } }
def lin : Lin := ⟨0x10078, [page], false⟩

theorem after_latency (s : State) (h : s.clock = 1 + Config.latency 9) : decide (0 + 1 + Config.latency 9 ≤ s.clock) = true := by
  rw [h, Nat.zero_add]
  exact decide_eq_true (Nat.le_refl _)

theorem acting_due (l : List Nat) (k : TokKind) (h : (acting l k).kindReady (acted k) = true) : Performs (acting l k) (acted k) := by
  refine ⟨rfl, ?_, rfl, rfl, fun _ hl => absurd hl (List.not_mem_nil (a := _))⟩
  simp only [State.opDue, Bool.and_eq_true]
  exact ⟨⟨after_latency _ rfl, rfl⟩, h⟩

theorem lin_lies (l : List Nat) (k : TokKind) : Lies (acting l k) lin 8 0x20078 := ⟨page, rfl, rfl, by decide, rfl, rfl, by decide⟩

theorem witness_AccessesPerformed : ∀ k ∈ [TokKind.sld lin 3 2, .sst lin 8 7, .satom lin 0x03 0 7 2, .scas lin 0x03 0 0 7 2,
      .local [(.s 2, .w 7, BitVec.allOnes 64)]],
    Memory.wf (acting [] k).store.bytes = true ∧ Performs (acting [] k) (acted k) ∧ (acted k).k = some 4 ∧ Lies (acting [] k) lin 8 0x20078 ∧
      2 ^ ((3 : BitVec 3).toNat % 4) = 8 ∧ atomSize 0x03 ≤ 8 ∧ 0x20078 / 128 ∉ (acting [] k).store.poison := by
  intro k hk
  simp only [List.mem_cons, List.not_mem_nil, or_false] at hk
  rcases hk with rfl | rfl | rfl | rfl | rfl <;>
    exact ⟨rfl, acting_due _ _ rfl, rfl, lin_lies _ _, by decide, by decide, List.not_mem_nil⟩

/-- A load of a line that is lost, one of a poisoned line, and a store of the whole of one. -/
theorem witness_AccessesPerformed_errors :
    (let s := acting [0x20078 / 128] (.sld lin 3 2)
     Performs s (acted (.sld lin 3 2)) ∧ lin.xl lin.va = some page ∧ 0x20078 = page.paOf lin.va ∧ isReg 0x20078 = false ∧ s.deadHome 0x20078 = false ∧
      0x20078 / 128 ∈ s.store.poison) ∧
    (let s := { acting [] (.sld lin 3 2) with plat := { mapped.plat with dead := [.die 0] } }
     Performs s (acted (.sld lin 3 2)) ∧ s.deadHome 0x20078 = true) ∧
    (let a : Lin := ⟨0x10080, [page], false⟩
     Performs (acting [0x20080 / 128] (.sst a 128 7)) (acted (.sst a 128 7)) ∧ Lies (acting [0x20080 / 128] (.sst a 128 7)) a 128 0x20080) ∧
    (let s := acting [] (.sld lin 3 2)
     ∃ h ∈ s.core.holds, s.holdDue h = true) := by
  refine ⟨⟨acting_due _ _ rfl, rfl, rfl, rfl, rfl, List.mem_cons_self⟩, ⟨⟨rfl, ?_, rfl, rfl, fun _ hl => absurd hl (List.not_mem_nil (a := _))⟩, rfl⟩, ⟨acting_due _ _ rfl, ⟨page, rfl, rfl, by decide, rfl, rfl, by decide⟩⟩,
    ⟨_, List.mem_cons_self, ?_⟩⟩
  · simp only [State.opDue, Bool.and_eq_true]
    exact ⟨⟨after_latency _ rfl, rfl⟩, rfl⟩
  · simp only [State.holdDue, Bool.and_eq_true]
    exact ⟨⟨rfl, after_latency _ rfl⟩, rfl⟩

/-! Operations of the matrix unit, fetches and walks. -/

def rep : Rep := ⟨0, 0, 30, 36, [], Vector.replicate 128 0, Vector.replicate 96 0, 0, 0, [⟨0x40000, List.replicate 1024 none⟩], [], none⟩
def mop (k : MKind) (run : List Rep) : MOp := ⟨5, k, none, 0, 0, 0, 0, 1, run.length, 0, run, handle 1, handle 1, none, none, [], [], 9, false, false, none⟩
def multiplying (k : MKind) (run : List Rep) : State := { boundTo with
  clock := 36
  core := { boundTo.core with mx := { boundTo.core.mx with ops := [mop k run], loads := [⟨false, 30, 22, false, []⟩, ⟨true, 31, 23, false, []⟩] } } }

theorem mm_results : ∀ zero ∈ [true, false], ∃ rs, (tileResults (multiplying (.mma zero) [rep]).core.mx (mop (.mma zero) [rep]) rep 0 zero)[767]? = some rs := by
  intro zero hz
  have : 767 < (tileResults (multiplying (.mma zero) [rep]).core.mx (mop (.mma zero) [rep]) rep 0 zero).length := by
    simp only [tileResults, List.length_flatMap]
    have h1 : (rowsA (mop (.mma zero) [rep]) rep).length = 128 := by simp [rowsA]
    simp [h1, List.map_const']
  exact ⟨_, List.getElem?_eq_getElem this⟩

theorem witness_MatrixSteps : cellsWf 0 (multiplying (.mma true) []).core.mx.acc = true ∧
    (∃ o, (multiplying (.mma true) []).startable = some o ∧ cfgStreamed o.cfg = false ∧ cfgSparse o.cfg = false) ∧
    (∀ k ∈ [MKind.mma true, .mma false, .fill 7, .mdrn 3 true, .mdrn 0 false], ∃ o r, completing (multiplying k [rep]).core.mx 36 = some (o, r) ∧ o.kind = k ∧ r.bad = none ∧
      o.reps ≤ o.next ∧ ∀ q ∈ o.run, q.j = r.j) ∧
    (∃ o r, completing (multiplying (.mma true) [{ rep with bad := some ⟨0x1F, 0⟩ }]).core.mx 36 = some (o, r) ∧ r.bad ≠ none) := by
  refine ⟨rfl, ⟨_, rfl, rfl, rfl⟩, ?_, ⟨_, _, rfl, by simp⟩⟩
  intro k hk
  exact ⟨_, _, rfl, rfl, rfl, Nat.le_refl _, by simp [mop]⟩

/-- A core that waits for the bundle at 0x10000; pages with tables and without them. -/
def waitsAt : State := { hosted with core := { hosted.core with stall := some (.loopFetch 0x10000) } }

/-- The tile of handle 1, to be prefetched for point 1 and to be staged; with poison, its entry cannot be read. -/
def fetching (poison : List Nat) : State := { touring [0, 0] [] [] with
  clock := 1 + Config.latency 9
  store := { mapped.store with poison := poison }
  core := { (touring [0, 0] [] []).core with
    tum := { (touring [0, 0] [] []).core.tum with
      set := some ⟨2, 1, 0, 0, 0x100, Vector.replicate 16 (some (handle 1)), [], [], [], [0, 0], false⟩, inflight := [⟨1, 0, 9, 0⟩] }
    fetches := [⟨7, 9, 0, handle 1, 0⟩] } }

theorem fetch_desc : entryOf (handle 1).desc 0 = 0x40000 ∧ wordTile 0 = 0 ∧ stagedBytes (dEtype (handle 1).desc) = 2176 := by decide +kernel
theorem fetch_banks : (fetching []).core.banksOf 3 = [24, 25, 26, 27, 28, 29, 30, 31] := by decide +kernel
theorem fetch_reads : ∃ e, (fetching []).pinEntry (handle 1).desc 0 = .ok e ∧ e.size = 0 ∧
    (fetching []).tensorErr (handle 1).desc (frameAddr e) (64 * e.size) = none ∧ (fetching []).poisoned (frameAddr e) (64 * e.size) = false :=
  ⟨⟨0, 0, 0, 0, false, false, 0, 0⟩, ok_of (by decide +kernel), rfl, by decide +kernel, by decide +kernel⟩
theorem pin_error {x : Except Err Entry} {r : Err} (h : (match x with | .ok _ => none | .error r => some r) = some r) : x = .error r := by
  cases x <;> simp_all
theorem fetch_fails : (fetching [0x40000 / 128]).pinEntry (handle 1).desc 0 = .error ⟨0x1F, 0x40000⟩ := pin_error (by decide +kernel)
theorem walk_ok : ∃ x, launching.walk false 0x4000 = .ok x := ⟨⟨false, 0, 2097152, 0, false, false, 0⟩, by decide +kernel⟩

theorem stage_room (l : List Nat) : stageRoom (fetching l).core ⟨7, 9, 0, handle 1, 0⟩ = true := by
  have : ∀ m : List Nat, (fetching m).core = (fetching []).core := fun _ => rfl
  rw [this]; decide +kernel
theorem pin_room (l : List Nat) : (fetching l).pinRoom ((fetching l).pinnable (handle 1).desc [0]) = true := by
  have : (fetching l).store.bytes = [] := rfl
  simp only [State.pinRoom, State.entryAt, this]
  simp only [State.pinnable, List.map_cons, List.map_nil, fetch_desc.1]
  have h0 : (Entry.ofNat (rdNat ([] : List Host.Cell) 0x40000 16)).pin = 0 := by decide +kernel
  cases h : ((fetching l).tensorErr (handle 1).desc 0x40000 16).isNone <;> simp [h, h0]
theorem witness_FetchesAndWalks : (waitsAt.core.fetchWait = some 0x10000 ∧ waitsAt.fillDue 0x10000 = true) ∧
    (launching.walkFree false (0x4000 : BitVec 48).toNat = true ∧ findXl (vat launching.stlb (dieOf launching.core.id)) false (0x4000 : BitVec 48).toNat = none ∧
      ∃ x, launching.walk false 0x4000 = .ok x) ∧
    (hosted.walkFree false (0x4000 : BitVec 48).toNat = true ∧ hosted.walk false 0x4000 = .fail 0x1A) ∧
    (∀ l : List Nat, ∃ f q d, (fetching l).core.tum.inflight.find? (fun f => f.point == 1 && decide (f.since + 1 + Config.latency f.draw ≤ (fetching l).clock)) = some f ∧
      (fetching l).core.tum.set = some q ∧ wordDesc q f.word = some d ∧ 1 < q.counts.length) ∧
    ∀ l : List Nat, ∃ f, (fetching l).core.fetches.find? (fun f => f.id == 7 && (fetching l).fetchDue f) = some f := by
  refine ⟨⟨rfl, by decide +kernel⟩, ⟨by decide +kernel, rfl, walk_ok⟩, ⟨by decide +kernel, by decide +kernel⟩, fun l => ⟨⟨1, 0, 9, 0⟩, _, (handle 1).desc, ?_, rfl, rfl, by decide⟩,
    fun l => ⟨⟨7, 9, 0, handle 1, 0⟩, ?_⟩⟩
  · exact List.find?_cons_of_pos (by simp only [Bool.and_eq_true]; exact ⟨rfl, after_latency _ rfl⟩)
  · exact List.find?_cons_of_pos (by simp only [State.fetchDue, Bool.and_eq_true]; exact ⟨rfl, ⟨after_latency _ rfl, stage_room l⟩, pin_room l⟩)

/-! Copies, pushes, tile updates and barrier messages that are due. -/

def queuedCopy (k : CopyKind) (started : Bool) : Copy := ⟨5, 9, 0, 7, k, none, false, [], started, 0, none, none, .start⟩
def engaged (c1 : Bool) (k : CopyKind) (started : Bool) : State := { copying with
  clock := 1 + Config.latency 9
  core := { copying.core.modEng c1 fun e => { e with queue := [queuedCopy k started], failed := [4] } with walkFails := [(false, 0x900, 0x1A)] } }

theorem engaged_due (c1 : Bool) (k : CopyKind) (hd : k.delivering = none)
    (h : (dispTurn (engaged c1 k true) (queuedCopy k true) && outRoom (engaged c1 k true) (queuedCopy k true) &&
      !overtakes (engaged c1 k true) (queuedCopy k true) && !(queuedCopy k true).paused (engaged c1 k true) c1) = true) : Goes (engaged c1 k true) c1 (queuedCopy k true) := by
  simp only [Bool.and_eq_true] at h
  refine ⟨by cases c1 <;> rfl, by cases c1 <;> rfl, ?_, rfl⟩
  have hc : (queuedCopy k true).commits = none := rfl
  have hk : (queuedCopy k true).kind.delivering = none := hd
  simp only [copyDue, hc, hk, Bool.and_eq_true]
  exact ⟨⟨⟨⟨⟨⟨⟨rfl, after_latency _ (by cases c1 <;> rfl)⟩, by cases c1 <;> rfl⟩, by cases c1 <;> rfl⟩, h.1.1.1⟩, h.1.1.2⟩, h.1.2⟩, h.2⟩

def moved64 : CopyKind := .cpyl false 0x100 0x10000 64 false
def failing : CopyKind := .cpyl false 0x100 0x900000 64 false
def stamped : CopyKind := .cstamp 0x10000 3 [4]

theorem witness_CopyEngineSteps : ∀ c1 : Bool, Memory.wf (engaged c1 moved64 true).store.bytes = true ∧
    (∃ k, startableCopy (engaged c1 moved64 false) c1 = some k ∧ k ∈ ((engaged c1 moved64 false).core.eng c1).queue) ∧
    (Goes (engaged c1 failing true) c1 (queuedCopy failing true) ∧ (queuedCopy failing true).frozen (engaged c1 failing true) = false ∧
      dirtyLines (engaged c1 failing true).core = [] ∧ ihOffset ((0x900000 : Word).toNat % 2 ^ 48 + 0) = none ∧
      (engaged c1 failing true).probe false false ((0x900000 : Word).toNat % 2 ^ 48 + 0) = .fault 0x1A) ∧
    (Goes (engaged c1 stamped true) c1 (queuedCopy stamped true) ∧ dirtyLines (engaged c1 stamped true).core = [] ∧
      EngineAt (engaged c1 stamped true) [] false true ((0x10000 : Word).toNat % 2 ^ 48) 8 page 0x20000 ∧
      ∀ r ∈ (engaged c1 stamped true).store.scopes, r.line ≠ 0x20000 / 128) ∧
    ∃ s b l, (s = { copying with core := copying.core.modEng c1 fun e => { e with closed := [⟨[3], [], ⟨true, some ⟨0x1F, 7⟩⟩⟩] } }) ∧
      (s.core.eng c1).closed = b :: l ∧ b.pend = [] := by
  intro c1
  cases c1 <;>
    exact ⟨rfl, ⟨_, rfl, List.mem_cons_self⟩,
      ⟨engaged_due _ _ rfl (by decide +kernel), rfl, rfl, by decide, by decide +kernel⟩,
      ⟨engaged_due _ _ rfl (by decide +kernel), rfl, by unfold EngineAt Finds Good; decide +kernel, fun _ h => absurd h List.not_mem_nil⟩,
      ⟨_, _, _, rfl, rfl, rfl⟩⟩

/-- A second page, at the physical address 0x50000. -/
def page2 : Xl := ⟨false, 0x30000, 0x10000, 0x50000, true, true, 0⟩
def workCopy (k : CopyKind) (p : CopyProgress) : Copy := { queuedCopy k true with prog := p }
/-- A copy in the middle of its work, with so much of it done, over these bytes of memory. -/
def working (k : CopyKind) (p : CopyProgress) (bytes : List Host.Cell) : State :=
  let s := engaged false k true
  { s with
    store := { s.store with bytes := bytes }
    core := { s.core with
      eng0 := { s.core.eng0 with queue := [workCopy k p] }
      mem := { s.core.mem with tlb := [page, page2] } } }
def canWork (k : CopyKind) (p : CopyProgress) (bytes : List Host.Cell) : Bool :=
  p.owed.isEmpty && p.fail.isNone && k.delivering.isNone && !(workCopy k p).frozen (working k p bytes) &&
    (dispTurn (working k p bytes) (workCopy k p) && outRoom (working k p bytes) (workCopy k p) &&
      !overtakes (working k p bytes) (workCopy k p) && !(workCopy k p).paused (working k p bytes) false)

theorem works (k : CopyKind) (p : CopyProgress) (bytes : List Host.Cell) (h : canWork k p bytes = true) :
    Works (working k p bytes) false (workCopy k p) := by
  simp only [canWork, Bool.and_eq_true, List.isEmpty_iff, Option.isNone_iff_eq_none, Bool.not_eq_true'] at h
  obtain ⟨⟨⟨⟨ho, hf⟩, hd⟩, hz⟩, h⟩ := h
  refine ⟨⟨rfl, rfl, ?_, rfl⟩, rfl, rfl, ho, hf, hz, rfl, nofun, rfl, rfl, rfl⟩
  have hc : (workCopy k p).commits = none := rfl
  have hk : (workCopy k p).kind.delivering = none := hd
  simp only [copyDue, hc, hk, Bool.and_eq_true, Bool.not_eq_true']
  exact ⟨⟨⟨⟨⟨⟨⟨rfl, after_latency _ rfl⟩, rfl⟩, rfl⟩, h.1.1.1⟩, h.1.1.2⟩, h.1.2⟩, h.2⟩

def P : CopyProgress := CopyProgress.start
/-- The next piece of n bytes of a copy's two sides can be read and written. -/
def Piece (k : CopyKind) (g : CopyProgress) (src dst : Side) (n m : Nat) (p q : Spot) : Prop :=
  let s := working k g []
  Works s false (workCopy k g) ∧ g.pos < n ∧ p.serves s g.pages.xls false false src g.pos (pieceOf src dst g.pos n) ∧
    q.serves s (p.after g.pages.xls false src g.pos) false true dst g.pos m

/-- Copies of bytes: one of none; pieces from memory, from local memory and from the active half, to memory, to local memory and to the
other half; a verified one: a piece of which a part is held back, its sum read, which agrees or not, and the held bytes written. -/
theorem witness_CopyEngineSteps_bytes :
    Works (working (.cpy 0x30000 0x10000 0 false) P []) false (workCopy (.cpy 0x30000 0x10000 0 false) P) ∧
    (∀ pos ∈ [0, 256], Piece (.cpy 0x30010 0x10070 300 false) { P with pos := pos } (.lin 0x10070) (.lin 0x30010) 300 (min 128 (300 - pos))
      (.mem page (0x20070 + pos)) (.mem page2 (0x50010 + pos))) ∧
    Piece (.cpyl false 0x100 0x10000 64 false) P (.lin 0x10000) (.loc 0x100) 64 64 (.mem page 0x20000) (.loc 0x100) ∧
    Piece (.cpyl true 0x30000 0x100 64 false) P (.loc 0x100) (.lin 0x30000) 64 64 (.loc 0x100) (.mem page2 0x50000) ∧
    Piece (.cpy 0xFFFFFFFF0000 0xFFFFFFFE0000 64 false) P (.lin 0xFFFFFFFE0000) (.lin 0xFFFFFFFF0000) 64 64 (.half 0) (.half 0x10000) ∧
    Piece (.cpy 0x30010 0x10000 300 true) P (.lin 0x10000) (.lin 0x30010) 300 44 (.mem page 0x20000) (.mem page2 0x50010) ∧
    (∀ acc ∈ [300, 7], let g : CopyProgress := { P with pos := 300, acc := acc, held := List.replicate 256 9 }
      Works (working (.cpy 0x30010 0x10000 300 true) g []) false (workCopy (.cpy 0x30010 0x10000 300 true) g) ∧
      (Spot.mem page 0x2012C).serves (working (.cpy 0x30010 0x10000 300 true) g []) [] false false (.lin 0x10000) 300 4) ∧
    ∀ pos ∈ [301, 429], let g : CopyProgress := { P with pos := pos, held := List.replicate 256 9 }
      Works (working (.cpy 0x30010 0x10000 300 true) g []) false (workCopy (.cpy 0x30010 0x10000 300 true) g) ∧
      (Spot.mem page2 (0x5003C + (pos - 301))).serves (working (.cpy 0x30010 0x10000 300 true) g []) [] false true (.lin 0x30010)
        (44 + (pos - 301)) 128 := by
  refine ⟨works _ _ _ (by decide +kernel), fun pos hp => ?_, ?_, ?_, ?_, ?_, fun acc ha => ?_, fun pos hp => ?_⟩
  · simp only [List.mem_cons, List.not_mem_nil, or_false] at hp
    rcases hp with rfl | rfl <;>
      exact ⟨works _ _ _ (by decide +kernel), by decide, ⟨_, rfl, by unfold EngineAt Finds Good; decide +kernel⟩, ⟨_, rfl, by unfold EngineAt Finds Good; decide +kernel⟩⟩
  · exact ⟨works _ _ _ (by decide +kernel), by decide, ⟨_, rfl, by unfold EngineAt Finds Good; decide +kernel⟩, ⟨rfl, by decide, by decide +kernel, by decide +kernel⟩⟩
  · exact ⟨works _ _ _ (by decide +kernel), by decide, ⟨rfl, by decide, by decide +kernel, by decide +kernel⟩, ⟨_, rfl, by unfold EngineAt Finds Good; decide +kernel⟩⟩
  · exact ⟨works _ _ _ (by decide +kernel), by decide, ⟨_, rfl, by decide +kernel⟩, ⟨_, rfl, by decide +kernel⟩⟩
  · exact ⟨works _ _ _ (by decide +kernel), by decide, ⟨_, rfl, by unfold EngineAt Finds Good; decide +kernel⟩, ⟨_, rfl, by unfold EngineAt Finds Good; decide +kernel⟩⟩
  · simp only [List.mem_cons, List.not_mem_nil, or_false] at ha
    rcases ha with rfl | rfl <;> exact ⟨works _ _ _ (by decide +kernel), ⟨_, rfl, by unfold EngineAt Finds Good; decide +kernel⟩⟩
  · simp only [List.mem_cons, List.not_mem_nil, or_false] at hp
    rcases hp with rfl | rfl <;> exact ⟨works _ _ _ (by decide +kernel), ⟨_, rfl, by unfold EngineAt Finds Good; decide +kernel⟩⟩

/-- An engine's reach at an address, for a copy that holds nothing yet. -/
def At (k : CopyKind) (g : CopyProgress) (bytes : List Host.Cell) (held : List Xl) (w : Bool) (va n : Nat) (x : Xl) (pa : Nat) : Prop :=
  Works (working k g bytes) false (workCopy k g) ∧ EngineAt (working k g bytes) held false w va n x pa

theorem at_of {k : CopyKind} {g : CopyProgress} {bytes : List Host.Cell} {held : List Xl} {w : Bool} {va n : Nat} {x : Xl} {pa : Nat}
    (h : canWork k g bytes = true) (h1 : EngineAt (working k g bytes) held false w va n x pa) : At k g bytes held w va n x pa := ⟨works k g bytes h, h1⟩

/-- A fill in its middle and at its end; a fingerprint, a sum and a comparison, in the middle and at the end, with a good place for their
result; one that has found a difference. -/
theorem witness_CopyEngineSteps_results :
    (∀ pos ∈ [0, 128], At (.cfill 0x30000 7 8 160) { P with pos := pos } [] [] true (0x30000 + pos) (min 128 (160 - pos)) page2 (0x50000 + pos)) ∧
    (∀ pos ∈ [0, 128], ∀ k ∈ [CopyKind.cfp 0x100 0x10000 160, .csum 0x100 0x10000 160],
      At k { P with pos := pos } [] [] false (0x10000 + pos) (min 128 (160 - pos)) page (0x20000 + pos)) ∧
    (∀ pos ∈ [0, 64], ∀ acc ∈ [0, 5], let g : CopyProgress := { P with pos := pos, acc := acc }
      At (.ccmp 0x30000 0x10000 80 0x100) g [] [] false (0x30000 + pos) (min 64 (80 - pos)) page2 (0x50000 + pos) ∧
      EngineAt (working (.ccmp 0x30000 0x10000 80 0x100) g []) [page2] false false (0x10000 + pos) (min 64 (80 - pos)) page (0x20000 + pos)) ∧
    (working (.cfp 0x100 0x10000 160) P []).core.badLocal 0x100 8 = none := by
  refine ⟨fun pos hp => ?_, fun pos hp k hk => ?_, fun pos hp acc ha => ?_, by decide +kernel⟩ <;>
    simp only [List.mem_cons, List.not_mem_nil, or_false] at hp
  · rcases hp with rfl | rfl <;> exact at_of (by decide +kernel) (by unfold EngineAt Finds Good; decide +kernel)
  · simp only [List.mem_cons, List.not_mem_nil, or_false] at hk
    rcases hp with rfl | rfl <;> rcases hk with rfl | rfl <;> exact at_of (by decide +kernel) (by unfold EngineAt Finds Good; decide +kernel)
  · simp only [List.mem_cons, List.not_mem_nil, or_false] at ha
    rcases hp with rfl | rfl <;> rcases ha with rfl | rfl <;>
      exact ⟨at_of (by decide +kernel) (by unfold EngineAt Finds Good; decide +kernel), by unfold EngineAt Finds Good; decide +kernel⟩

/-- A transposition of three rows of four elements of two bytes, in its middle and at the end of its reading, and as it writes. -/
def turning : CopyKind := .cxpose 0x30000 0x10000 (BitVec.ofNat 32 (1 + 2 * 4 + 3 * 256 + 10 * 4096))
theorem witness_CopyEngineSteps_cxpose :
    (∀ pos ∈ [8, 16], At turning { P with pos := pos, held := List.replicate pos 5 } [] [] false (0x10000 + pos / 8 * 10) 8 page (0x20000 + pos / 8 * 10)) ∧
    At turning { P with pos := 24, held := List.replicate 24 5 } [] [] true 0x30000 24 page2 0x50000 := by
  refine ⟨fun pos hp => ?_, at_of (by decide +kernel) (by unfold EngineAt Finds Good; decide +kernel)⟩
  simp only [List.mem_cons, List.not_mem_nil, or_false] at hp
  rcases hp with rfl | rfl <;> exact at_of (by decide +kernel) (by unfold EngineAt Finds Good; decide +kernel)

/-- A copy out of a tensor that pins and reads its tile, and that writes a part and the rest of 128 elements; one into a tensor whose read
goes on, ends with an element to write, and ends with none. -/
theorem witness_CopyEngineSteps_tensors :
    Works (working (.cpytOut 0x30000 (handle 1) 1) P []) false (workCopy (.cpytOut 0x30000 (handle 1) 1) P) ∧
    (∃ st tiles, (working (.cpytOut 0x30000 (handle 1) 1) P []).readTiles (handle 1).desc (tilesOf (runPlaces (handle 1) 1)) = (st, tiles, none)) ∧
    (∀ pos ∈ [1, 129], At (.cpytOut 0x30000 (handle 1) 128) { P with pos := pos, held := List.replicate 256 7, pins := [⟨0, 0x40000, 0, 0⟩] } [] [] true
      (0x30000 + (pos - 1)) 128 page2 (0x50000 + (pos - 1))) ∧
    (∀ pos ∈ [0, 128], At (.cpytIn (handle 1) 0x10000 128) { P with pos := pos, held := List.replicate pos 7 } [] [] false
      (0x10000 + pos) 128 page (0x20000 + pos)) ∧
    groupByTile ((runPlaces (handle 1) 128).zip ((List.range 128).map fun i => BitVec.ofNat 32 (field (ofBytes (List.replicate 128 7 ++
      (List.range 128).map fun i => rd8 [] (0x20080 + i))) (16 * i) 16))) ≠ [] ∧
    At (.cpytIn { handle 1 with cursor := (handle 1).cursor.set 0 5 } 0x10000 1) P [] [] false 0x10000 2 page 0x20000 ∧
    groupByTile ((runPlaces { handle 1 with cursor := (handle 1).cursor.set 0 5 } 1).zip [(7 : BitVec 32)]) = [] := by
  refine ⟨works _ _ _ (by decide +kernel), exists_triple (by decide +kernel), fun pos hp => ?_, fun pos hp => ?_, by decide +kernel,
    at_of (by decide +kernel) (by unfold EngineAt Finds Good; decide +kernel), by decide +kernel⟩
  · simp only [List.mem_cons, List.not_mem_nil, or_false] at hp
    rcases hp with rfl | rfl <;> exact at_of (by decide +kernel) (by unfold EngineAt Finds Good; decide +kernel)
  · simp only [List.mem_cons, List.not_mem_nil, or_false] at hp
    rcases hp with rfl | rfl <;> exact at_of (by decide +kernel) (by unfold EngineAt Finds Good; decide +kernel)

/-- A packed stream at 0x20000: its header, and a body that is too short, has an unknown tag, has one bundle, has one byte too many. -/
def packed (body : List Byte) : List Host.Cell := wrBytes [] 0x20000 (toBytes 16 (0x584E4B42 + 2 ^ 32 + body.length * 2 ^ 64) ++ body)
def expanding (limit : Nat) : CopyKind := .cxpnd 0x30000 0x10000 limit
def begun (body : List Byte) : CopyProgress := { P with pos := 1, held := toBytes 16 (0x584E4B42 + 2 ^ 32 + body.length * 2 ^ 64) }
theorem witness_CopyEngineSteps_cxpnd :
    (∀ x ∈ [(1, packed [0, 0]), (0, packed [0, 0]), (1, []), (1, wrBytes [] 0x20000 (toBytes 16 0x584E4B42)), (1, wrBytes [] 0x20000 (toBytes 16 (0x584E4B42 + 2 ^ 64)))],
      At (expanding x.1) P x.2 [] false 0x10000 16 page 0x20000) ∧
    (∀ body ∈ [[], [0, 2], [1, 0, 5, 6], [1, 0, 5, 6, 7], [0, 0, 9]], Works (working (expanding 4) (begun body) (packed body)) false (workCopy (expanding 4) (begun body)) ∧
      (let h := ofBytes (begun body).held
       field h 0 32 = 0x584E4B42 ∧ field h 32 32 = 1 ∧ field h 64 32 = body.length) ∧
      EngineAt (working (expanding 4) (begun body) (packed body)) [] false false 0x10010 2 page 0x20010 ∧
      rdNat (packed body) 0x20010 2 = ofBytes (body.take 2)) ∧
    (∀ body ∈ [[1, 0, 5, 6, 7], [0, 0, 9]], EngineAt (working (expanding 4) (begun body) (packed body)) [] false false 0x10010 (2 + wordsOf (ofBytes (body.take 2))) page 0x20010 ∧
      (Spot.mem page2 0x50000).serves (working (expanding 4) (begun body) (packed body)) [page] false true (linear48 0x30000) 0 32) := by
  refine ⟨?_, ?_, ?_⟩
  · intro x hx
    simp only [List.mem_cons, List.not_mem_nil, or_false] at hx
    rcases hx with rfl | rfl | rfl | rfl | rfl <;> exact at_of (by decide +kernel) (by unfold EngineAt Finds Good; decide +kernel)
  · intro x hx
    simp only [List.mem_cons, List.not_mem_nil, or_false] at hx
    rcases hx with rfl | rfl | rfl | rfl | rfl <;>
      exact ⟨works _ _ _ (by decide +kernel), by decide +kernel, by unfold EngineAt Finds Good; decide +kernel, by decide +kernel⟩
  · intro x hx
    simp only [List.mem_cons, List.not_mem_nil, or_false] at hx
    rcases hx with rfl | rfl <;> exact ⟨by unfold EngineAt Finds Good; decide +kernel, _, rfl, by unfold EngineAt Finds Good; decide +kernel⟩

/-- A push to two cores, and to none. -/
theorem witness_CopyEngineSteps_cpush : (∀ cores ∈ [(0x020003 : BitVec 24), 0], At (.cpush 0x10005 cores none) P [] [] false 0x10005 1 page 0x20005) ∧
    coreSet 0x020003 ≠ [] ∧ (∀ c ∈ coreSet 0x020003, (working (.cpush 0x10005 0x020003 none) P []).deadCore c = false) ∧ coreSet 0 = [] ∧
    page.coh = 0 ∧ isDevice 0x20005 = true ∧ (working (.cpush 0x10005 0x020003 none) P []).hostBiased 0x20005 = false := by
  refine ⟨fun c hc => ?_, by decide +kernel, by decide +kernel, by decide +kernel, rfl, by decide, by decide +kernel⟩
  simp only [List.mem_cons, List.not_mem_nil, or_false] at hc
  rcases hc with rfl | rfl <;> exact at_of (by decide +kernel) (by unfold EngineAt Finds Good; decide +kernel)

/-- A transfer to a core of this device: it reads; and the core is dead, is idle, has no grant that takes it, and has one. -/
def toCore : CopyKind := .cpeer (BitVec.ofNat 64 (0x180 + 2 ^ 21 * 32 + 2 ^ 40 * 2)) 0x100 8
def allRead : CopyProgress := { P with pos := 8, held := List.replicate 8 6 }
def peering (dead : Bool) (grants : List Grant) (stat : CStat) : State :=
  let s := working toCore allRead []
  { s with
    plat := { s.plat with dead := if dead then [.die 1] else [] }
    after := [{ Core.reset 32 with stat := stat, csr := s.core.csr, claim := { s.core.claim with grants := grants } }] }
def peerGrant : Grant := ⟨0xC000, 0, 0x100, 0x200, 0x1000⟩
theorem peering_works (dead : Bool) (grants : List Grant) (stat : CStat) : Works (peering dead grants stat) false (workCopy toCore allRead) := by
  refine ⟨⟨rfl, rfl, ?_, rfl⟩, rfl, rfl, rfl, rfl, rfl, rfl, nofun, rfl, rfl, rfl⟩
  have hc : (workCopy toCore allRead).commits = none := rfl
  have hk : (workCopy toCore allRead).kind.delivering = none := rfl
  simp only [copyDue, hc, hk, Bool.and_eq_true]
  exact ⟨⟨⟨⟨⟨⟨⟨rfl, after_latency _ rfl⟩, rfl⟩, rfl⟩, rfl⟩, rfl⟩, rfl⟩, rfl⟩
def peered : PeerXfer := ⟨0, 0, 32, 0x180, List.replicate 8 6, 2⟩
theorem witness_CopyEngineSteps_cpeer : Works (working toCore P []) false (workCopy toCore P) ∧ (working toCore P []).core.badLocal 0x100 8 = none ∧
    badWordIn (working toCore P []).core 0x100 8 = none ∧
    (∀ dead stat grants, Works (peering dead grants stat) false (workCopy toCore allRead) ∧
      ((peering dead grants stat).cores.map (·.id)) = [0, 32] ∧ (peering dead grants stat).deadCore 32 = dead ∧
      (peering dead grants stat).plat.devnum = 0) ∧
    (peering false [] .idle).cores.all (fun c => c.stat != .saved) = true ∧
    (peering false [peerGrant] .running).cores.all (fun c => c.stat != .saved) = true ∧
    ((peering false [] .running).coreAt 32).claim.grants = [] ∧
    ((peering false [peerGrant] .running).coreAt 32).claim.grants.find? (grantTakes ((peering false [peerGrant] .running).coreAt 32) peered) = some peerGrant := by
  refine ⟨works _ _ _ (by decide +kernel), by decide +kernel, by decide +kernel, fun dead stat grants => ⟨peering_works _ _ _, rfl, ?_, rfl⟩, by decide +kernel,
    by decide +kernel, rfl, by decide +kernel⟩
  cases dead <;> rfl

/-- A walk of two levels; the last copy is emitted; a copy of the walk that has begun, the last one or not. -/
def walked : Vector NestLevel 6 := #v[⟨3, 256, 512, 1⟩, ⟨2, 768, 256, 0⟩, ⟨0, 0, 0, 2⟩, ⟨0, 0, 0, 3⟩, ⟨0, 0, 0, 4⟩, ⟨0, 0, 0, 5⟩]
def level : Fin 6 → NestLevel := fun r => walked.get (if r = 0 then 1 else if r = 1 then 0 else r)
def sub (pos : Nat) : SubCopy := ⟨.lin 0x30200, .lin 0x10000, 160, pos, .none, none, 3⟩
theorem witness_CopyEngineSteps_crun :
    prodOf (walked.toList.map fun l => max 1 l.bound.toNat) = 6 ∧ (walked.toList.map (·.rank)).Nodup ∧
    (∀ r, level r ∈ walked.toList ∧ (level r).rank.toNat = r.val) ∧
    walkOffset level (·.sstr) 5 = 1280 ∧ walkOffset level (·.dstr) 5 = 1280 ∧
    (∀ n ∈ [16, 160], let k : CopyKind := .crun 0 0x30000 0x10000 n walked
      let g : CopyProgress := { P with emit := 5 }
      At k g [] [] false 0x10500 (min 128 n) page 0x20500 ∧ (working k g []).engineLoad false ≤ 8 ∧
      (Spot.mem page2 0x50500).serves (working k g []) [page] false true (.lin 0x30500) 0 (min 128 n)) ∧
    ∀ pos ∈ [0, 128], let k : CopyKind := .crun 0 0x30000 0x10000 160 walked
      let g : CopyProgress := { P with emit := 6, subs := [sub pos] }
      At k g [] [] false (0x10000 + pos) (min 128 (160 - pos)) page (0x20000 + pos) ∧ nestTotal walked ≤ g.emit ∧
      (Spot.mem page2 (0x50200 + pos)).serves (working k g []) [page] false true (.lin 0x30200) pos (min 128 (160 - pos)) := by
  refine ⟨by decide +kernel, by decide +kernel, by decide +kernel, by decide +kernel, by decide +kernel, fun n hn => ?_, fun pos hp => ?_⟩
  · simp only [List.mem_cons, List.not_mem_nil, or_false] at hn
    rcases hn with rfl | rfl <;>
      exact ⟨at_of (by decide +kernel) (by unfold EngineAt Finds Good; decide +kernel), by decide +kernel, _, rfl, by unfold EngineAt Finds Good; decide +kernel⟩
  · simp only [List.mem_cons, List.not_mem_nil, or_false] at hp
    rcases hp with rfl | rfl <;>
      exact ⟨at_of (by decide +kernel) (by unfold EngineAt Finds Good; decide +kernel), by decide +kernel, _, rfl, by unfold EngineAt Finds Good; decide +kernel⟩

/-- A dispatch record of four tokens of 64 bytes, two choices each, three experts of two slots, and its memory with the first choice's
expert, the slots taken of expert 0, and the destination of expert 0. -/
def dispatching : CopyKind := .cdisp 0x17000
def dispRecord : List Byte := toBytes 8 0x10000 ++ toBytes 4 64 ++ toBytes 4 4 ++ toBytes 8 0x18000 ++ toBytes 8 0x18100 ++ toBytes 8 0x18200 ++ toBytes 4 2 ++
  toBytes 2 3 ++ toBytes 1 2 ++ [0] ++ toBytes 8 0x34000 ++ toBytes 8 0x18300
def choices (expert taken : Nat) : List Host.Cell :=
  wrBytes (wrBytes (wrBytes [] 0x28000 (toBytes 2 expert)) 0x28100 (toBytes 8 0x31000)) 0x28200 (toBytes 4 taken)
def choosing : CopyProgress := { P with pos := 1, held := dispRecord }
theorem witness_CopyEngineSteps_cdisp :
    (∀ bs ∈ [dispRecord, [], dispRecord.set 12 0], At dispatching P (wrBytes [] 0x27000 bs) [] false 0x17000 64 page 0x27000) ∧
    (DispRec.ofNat (ofBytes dispRecord)).ok = true ∧ (DispRec.ofNat (rdNat [] 0x27000 64)).ok = false ∧
    (let r := DispRec.ofNat (ofBytes (dispRecord.set 12 0))
     r.ok = true ∧ r.ntok * r.ksel = 0) ∧
    (let r := (DispRec.ofNat (ofBytes dispRecord)).plain
     r.src = 0x10000 ∧ r.rowb = 64 ∧ r.ntok = 4 ∧ r.eidx = 0x18000 ∧ r.buft = 0x18100 ∧ r.cnt = 0x18200 ∧ r.cap = 2 ∧ r.nexp = 3 ∧ r.ksel = 2 ∧
       r.rcnt = 0x18300 ∧ r.total = 8) ∧
    (∀ x ∈ [(0xFFFF, 0), (7, 0), (0, 1), (0, 2)],
      let s := working dispatching choosing (choices x.1 x.2)
      At dispatching choosing (choices x.1 x.2) [] false 0x18000 2 page 0x28000 ∧ s.engineLoad false ≤ 8 ∧ rdNat (choices x.1 x.2) 0x28000 2 = x.1 ∧
      Finds s [page] false false 0x10000 page ∧ EngineAt s [page] false true 0x18200 4 page 0x28200 ∧ rdNat (choices x.1 x.2) 0x28200 4 = x.2 ∧
      EngineAt s [page] false false 0x18100 8 page 0x28100 ∧ rdNat (choices x.1 x.2) 0x28100 8 = 0x31000 ∧ EngineAt s [page] false true 0x18300 4 page 0x28300) := by
  refine ⟨fun bs hb => ?_, by decide +kernel, by decide +kernel, by decide +kernel, by decide +kernel, fun x hx => ?_⟩
  · simp only [List.mem_cons, List.not_mem_nil, or_false] at hb
    rcases hb with rfl | rfl | rfl <;> exact at_of (by decide +kernel) (by unfold EngineAt Finds Good; decide +kernel)
  · simp only [List.mem_cons, List.not_mem_nil, or_false] at hx
    rcases hx with rfl | rfl | rfl | rfl <;>
      exact ⟨at_of (by decide +kernel) (by unfold EngineAt Finds Good; decide +kernel), by decide +kernel, by decide +kernel, by unfold Finds; decide +kernel,
        by unfold EngineAt Finds Good; decide +kernel, by decide +kernel, by unfold EngineAt Finds Good; decide +kernel, by decide +kernel,
        by unfold EngineAt Finds Good; decide +kernel⟩

/-- Rows in progress: one with its flag word to follow, one without, and one whose bytes are all written. -/
theorem witness_CopyEngineSteps_rows :
    (∀ flag ∈ [none, some (0x31040, 77)], let g : CopyProgress := { P with pos := 9, held := dispRecord, subs := [⟨.lin 0x31000, .lin 0x10000, 64, 0, .none, flag, 0⟩] }
      At dispatching g [] [] false 0x10000 64 page 0x20000 ∧ (DispRec.ofNat (ofBytes g.held)).plain.total < g.pos ∧
      (Spot.mem page2 0x51000).serves (working dispatching g []) [page] false true (.lin 0x31000) 0 64) ∧
    let g : CopyProgress := { P with pos := 9, held := dispRecord, subs := [⟨.lin 0x31000, .lin 0x10000, 64, 64, .none, some (0x31040, 77), 0⟩] }
    At dispatching g [] [] true 0x31040 8 page2 0x51040 := by
  refine ⟨fun f hf => ?_, at_of (by decide +kernel) (by unfold EngineAt Finds Good; decide +kernel)⟩
  simp only [List.mem_cons, List.not_mem_nil, or_false] at hf
  rcases hf with rfl | rfl <;>
    exact ⟨at_of (by decide +kernel) (by unfold EngineAt Finds Good; decide +kernel), by decide +kernel, _, rfl, by unfold EngineAt Finds Good; decide +kernel⟩

/-- A push to a core that holds its line, to one over its quota, to a stash window, and to one with a free way of bank 0. -/
def pushed (role : Word) (quota : BitVec 10) (lines : List CLine) : State := { mapped with
  clock := 1 + Config.latency 9
  pushes := [⟨5, 9, 0, 1, 4, false, 0, 0x20000 / 128, 0x10000⟩]
  core := { mapped.core with csr := { mapped.core.csr with quota := quota, bankrole := role, stashmap := 0x10001 }, mem := { mapped.core.mem with lines := lines } } }

theorem pushed_due (r : Word) (q : BitVec 10) (l : List CLine) : ∃ p, (pushed r q l).pushes.find? (fun x => x.id == p.id) = some p ∧ p.id = 5 ∧
    p.line = 0x20000 / 128 ∧ p.va = 0x10000 ∧ pushDue (pushed r q l) p = true ∧ p.dst = (pushed r q l).core.id ∧ (pushed r q l).core.stat ≠ .saved ∧ (pushed r q l).deadCore p.dst = false :=
  ⟨⟨5, 9, 0, 1, 4, false, 0, 0x20000 / 128, 0x10000⟩, rfl, rfl, rfl, rfl, after_latency _ rfl, rfl, nofun, rfl⟩

theorem witness_PushDeliveries : (holdsLine (0x20000 / 128) (pushed 0 1 [⟨0x20000 / 128, 0, 0, .s⟩]).core = true) ∧
    (holdsLine (0x20000 / 128) (pushed 0 0 []).core = false ∧ (pushed 0 0 []).core.csr.quota.toNat ≤ (pushed 0 0 []).core.csr.inuse.toNat) ∧
    (holdsLine (0x20000 / 128) (pushed 2 1 []).core = false ∧ (pushed 2 1 []).inStash (0x20000 / 128) = true) ∧
    (holdsLine (0x20000 / 128) (pushed 0 1 []).core = false ∧ (pushed 0 1 []).core.csr.inuse.toNat < (pushed 0 1 []).core.csr.quota.toNat ∧
      (pushed 0 1 []).inStash (0x20000 / 128) = false ∧
      ∃ b v, fillBank (pushed 0 1 []).core (0x20000 / 128) (fun l => l.st == .s || l.st == .e) = some (b, v)) ∧
    (let role : Word := 0x5555555555555555
     (pushed role 1 []).core.csr.inuse.toNat < (pushed role 1 []).core.csr.quota.toNat ∧ (pushed role 1 []).inStash (0x20000 / 128) = false ∧
      fillBank (pushed role 1 []).core (0x20000 / 128) (fun l => l.st == .s || l.st == .e) = none) :=
  ⟨by decide +kernel, ⟨rfl, by decide⟩, ⟨rfl, by decide +kernel⟩, ⟨rfl, by decide, by decide +kernel, 0, none, by decide +kernel⟩, ⟨by decide, by decide +kernel, by decide +kernel⟩⟩

/-- An update of the only tile of `desc 1`, of one element, or of none that is not zero; its pool is the 64 KiB at 0x200000, or is empty. -/
def update (x : BitVec 32) : Update := ⟨5, 9, 0, 0, 4, 0, 1, 0x40000, 0, desc 1, 0x10000, .inr 0x20000, [(0, x)]⟩
def committing (x : BitVec 32) (pool : Word) (cells : List Host.Cell) : State := { mapped with
  clock := 1 + Config.latency 9
  updates := [update x]
  md := mapped.md.set 0 { mapped.md.toList.getD 0 default with pool := pool }
  store := { mapped.store with bytes := cells } }

def sizeOf (x : BitVec 32) : Nat :=
  let c := contents (desc 1) 0 (mergeElems (List.replicate 1024 none) [(0, x)])
  let sz (t : Nat) : Nat := sizeUnder t (elemBits (dEtype (desc 1))) c.1 c.2
  sz (decideTag 0 0 false 0 sz)

theorem size_none : sizeOf 0 = 0 := by decide +kernel
theorem size_one : sizeOf 0x3F80 = 1 := by decide +kernel
theorem commit_entry : 0x40000 = entryOf (desc 1) 0 := by decide +kernel
theorem commit_free (x : BitVec 32) (pool : Word) (cells : List Host.Cell) : (committing x pool cells).tensorErr (desc 1) 0x40000 16 = none := by
  have h : dHome (desc 1) = 0 := by decide +kernel
  have hw : dWorld (desc 1) = false := by decide +kernel
  have ha : (committing x pool cells).secureAddr 0x40000 = false := rfl
  have hb : (committing x pool cells).secureAddr (0x40000 + 16 - 1) = false := rfl
  have hp : (committing x pool cells).plat.dead = [] := rfl
  simp only [State.tensorErr, h, hw, ha, hb, hp]
  rfl
theorem entry_empty : Entry.ofNat (rdNat [((0x40007, 0x20) : Host.Cell)] 0x40000 16) = ⟨0, 0, 0, 0, false, true, 0, 0⟩ := by decide +kernel
theorem entry_poisoned : Entry.ofNat (rdNat [((0x40007, 0x30) : Host.Cell)] 0x40000 16) = ⟨0, 0, 0, 0, true, true, 0, 0⟩ := by decide +kernel
theorem commit_due (x : BitVec 32) (pool : Word) (cells : List Host.Cell) (h : (Entry.ofNat (rdNat cells 0x40000 16)).wlk = true) :
    (committing x pool cells).commitDue (update x) = true := by
  simp only [State.commitDue, Bool.and_eq_true]
  refine ⟨after_latency _ rfl, ?_⟩
  have : (committing x pool cells).tensorErr (update x).desc (update x).entry 16 = none := commit_free x pool cells
  rw [this]
  have h1 : ((committing x pool cells).entryAt (update x).entry).wlk = true := h
  have h2 : dHome (update x).desc = 0 := by show dHome (desc 1) = 0; decide +kernel
  have h3 : (vat (committing x pool cells).md 0).retireFull = false := rfl
  simp only [h1, h2, h3]
  rfl

/-- A pool of one granule has a run at its only place; an empty pool has none. -/
theorem pool_run (draw : Nat) : ∃ m : MdWin, m = { mapped.md.toList.getD 0 default with pool := 0x210000200000 } ∧
    ∃ a, allocFrame m draw 1 = some a ∧ a < 2 ^ 48 := by
  refine ⟨_, rfl, ?_⟩
  simp only [allocFrame]
  generalize Config.poolPick draw = k
  have hw : winBase (0x210000200000 : Word) = 0x200000 ∧ winLimit (0x210000200000 : Word) = 0x210000 := by decide
  simp only [hw.1, hw.2]
  split
  · exact ⟨_, rfl, by have := Nat.mod_lt k (show 0 < (0x210000 - 0x200000) / 64 by decide); omega⟩
  · exact ⟨0x200000, List.find?_cons_of_pos (by decide), by decide⟩
theorem pool_none (draw : Nat) (m : MdWin) (h : winBase m.pool = 0 ∧ winLimit m.pool = 0) (hf : m.frames = []) : allocFrame m draw 1 = none := by
  have : ∀ a, runFree m a 1 = false := fun a => by simp [runFree, h.2]
  simp [allocFrame, this, hf]

theorem home_desc : dHome (desc 1) = 0 := by decide +kernel
theorem commit_pool (x : BitVec 32) (pool : Word) (cells : List Host.Cell) :
    vat (committing x pool cells).md 0 = { mapped.md.toList.getD 0 default with pool := pool } := rfl

theorem witness_PintleCommits : (∀ x : BitVec 32, ∀ pool : Word, ∀ cells ∈ [[((0x40007, 0x20) : Host.Cell)], [((0x40007, 0x30) : Host.Cell)]],
      Memory.wf (committing x pool cells).store.bytes = true ∧ (committing x pool cells).updateAt 0x40000 = some (update x) ∧
      (committing x pool cells).commitDue (update x) = true ∧ (update x).entry = entryOf (update x).desc (update x).tileNo ∧
      (committing x pool cells).tensorErr (update x).desc 0x40000 16 = none ∧ (committing x pool cells).poisoned 0x40000 16 = false ∧
      (update x).descPa = .inr 0x20000 ∧ rdNat (committing x pool cells).store.bytes 0x20000 8 = 0) ∧
    (Entry.ofNat (rdNat [((0x40007, 0x30) : Host.Cell)] 0x40000 16)).psn = true ∧
    Entry.ofNat (rdNat [((0x40007, 0x20) : Host.Cell)] 0x40000 16) = ⟨0, 0, 0, 0, false, true, 0, 0⟩ ∧
    sizeOf 0 = 0 ∧ sizeOf 0x3F80 = 1 ∧ dHome (desc 1) = 0 ∧
    (∀ x draw, ∃ a, allocFrame (vat (committing x 0x210000200000 []).md 0) draw 1 = some a ∧ a < 2 ^ 48) ∧
    ∀ x draw, allocFrame (vat (committing x 0 []).md 0) draw 1 = none := by
  refine ⟨?_, congrArg Entry.psn entry_poisoned, entry_empty, size_none, size_one, home_desc, fun x draw => ?_, fun x draw => ?_⟩
  · intro x pool cells hc
    simp only [List.mem_cons, List.not_mem_nil, or_false] at hc
    rcases hc with rfl | rfl
    · exact ⟨(by decide : Memory.wf [((0x40007, 0x20) : Host.Cell)] = true), rfl, commit_due _ _ _ (congrArg Entry.wlk entry_empty), commit_entry, commit_free _ _ _, rfl, rfl,
        by show rdNat [((0x40007, 0x20) : Host.Cell)] 0x20000 8 = 0; decide⟩
    · exact ⟨(by decide : Memory.wf [((0x40007, 0x30) : Host.Cell)] = true), rfl, commit_due _ _ _ (congrArg Entry.wlk entry_poisoned), commit_entry, commit_free _ _ _, rfl, rfl,
        by show rdNat [((0x40007, 0x30) : Host.Cell)] 0x20000 8 = 0; decide⟩
  · rw [commit_pool]
    obtain ⟨m, rfl, h⟩ := pool_run draw
    exact h
  · rw [commit_pool]
    exact pool_none _ _ (by decide) rfl

/-- An arrival of core 1 and one of core 2 at a barrier of quorum 2, with no bytes expected, and with bytes that have not come. -/
def arriving (expected : Byte) : State := { mapped with
  clock := 1 + Config.latency 9
  posts := [⟨5, 9, 0, 1, ⟨0, 0x10⟩, [], .arrive 1⟩, ⟨6, 9, 0, 2, ⟨0, 0x10⟩, [], .arrive 2⟩]
  core := { mapped.core with mem := { mapped.core.mem with sram := [⟨0x12, 2⟩] ++ if expected = 0 then [] else [⟨0x18, expected⟩] } } }

theorem arriving_due (e : Byte) : duePosts (arriving e) ⟨0, 0x10⟩ = (arriving e).posts := by
  have h1 : postReady (arriving e) ⟨5, 9, 0, 1, ⟨0, 0x10⟩, [], .arrive 1⟩ = true := by
    simp only [postReady, Bool.and_eq_true]; exact ⟨after_latency _ rfl, rfl⟩
  have h2 : postReady (arriving e) ⟨6, 9, 0, 2, ⟨0, 0x10⟩, [], .arrive 2⟩ = true := by
    simp only [postReady, Bool.and_eq_true]; exact ⟨after_latency _ rfl, rfl⟩
  have h : (arriving e).posts.filter (fun p => p.dst == ⟨0, 0x10⟩) = (arriving e).posts := by rfl
  simp only [duePosts, h]
  refine List.filter_eq_self.2 fun p hp => ?_
  simp only [arriving, List.mem_cons, List.not_mem_nil, or_false] at hp
  rcases hp with rfl | rfl
  · simp only [Bool.and_eq_true]; exact ⟨h1, rfl⟩
  · simp only [Bool.and_eq_true]; exact ⟨h2, rfl⟩

theorem arriving_fields : ∀ e ∈ [(0 : Byte), 1],
    let n := rdNat ([((0x12, 2) : Host.Cell)] ++ if e = 0 then [] else [(0x18, e)]) 0x10 16
    Memory.wf ([((0x12, 2) : Host.Cell)] ++ if e = 0 then [] else [(0x18, e)]) = true ∧ field n 16 16 = 2 ∧ field n 0 16 = 0 ∧ (field n 96 32 = field n 64 32 ↔ e = 0) := by decide +kernel

theorem witness_BarrierUpdates : ∀ e ∈ [(0 : Byte), 1], Memory.wf (arriving e).core.mem.sram = true ∧ (arriving e).barDue ⟨0, 0x10⟩ = true ∧
    (arriving e).barHome ⟨0, 0x10⟩ = some .live ∧ (arriving e).core.id = 0 ∧ (arriving e).core.stat = .running ∧
    (arriving e).before ++ (arriving e).after = [] ∧ (∀ p ∈ duePosts (arriving e) ⟨0, 0x10⟩, ∃ k, p.msg = .arrive k) ∧
    sumNat ((duePosts (arriving e) ⟨0, 0x10⟩).map fun p => p.msg.arrivals) = 3 := by
  intro e he
  have h := arriving_due e
  have hs : ((arriving e).coreAt 0).isScratch 0x10 = true := (by decide : mapped.core.isScratch 0x10 = true)
  have hi : (((arriving e).coreAt 0).stat != .idle) = true := rfl
  have hh : (arriving e).barHome ⟨0, 0x10⟩ = some .live := if_pos (by rw [hi]; exact hs)
  refine ⟨?_, ?_, hh, rfl, rfl, rfl, ?_, ?_⟩
  · exact (arriving_fields e he).1
  · have : (arriving e).barSrcs = [] := rfl
    simp only [State.barDue, this, h]
    rfl
  · rw [h]
    intro p hp
    simp only [arriving, List.mem_cons, List.not_mem_nil, or_false] at hp
    rcases hp with rfl | rfl <;> exact ⟨_, rfl⟩
  · rw [h]
    rfl

/-! Tasks. -/

/-- The member's task on its core, with another task of a state that may take a core. -/
def scheduled (st : CStat) (other : TState) : State := { mapped with
  sched := ⟨[task, { task with id := 1, st := other, prio := 3, record := launchTask, home := none }], [⟨0, false, 0, 0, 0x5000, 0⟩], [], 2⟩
  core := { mapped.core with stat := st, task := some 0 } }

theorem witness_Placements : ∃ t : Task, (scheduled .idle .ready).core.stat = .idle ∧ (scheduled .idle .ready).sched.task t.id = some t ∧ t.st = .ready ∧
    eligible (scheduled .idle .ready).sched t (scheduled .idle .ready).core.id = true ∧ (scheduled .idle .ready).deadCore (scheduled .idle .ready).core.id = false ∧
    t.ctx = none ∧ t.record.ipre = 0 := 
    ⟨{ task with id := 1, st := .ready, prio := 3, record := launchTask, home := none }, rfl, rfl, rfl, by decide +kernel, rfl, rfl, rfl⟩

/-- A core that has waited on its token for 4,096 clocks. -/
def waiting : State := { scheduled .running .ready with core := { (scheduled .running .ready).core with
  stall := some (.waitk 4), waited := 4096, readyAt := 0 } }

theorem witness_ParkingAndPreemption : (∃ t, waiting.parkFor = some t) ∧
    (∀ why ∈ [Leave.park 1, .preempt 1, .yield], (scheduled (.leaving why) .ready).core.stat = .leaving why ∧ saveReady (scheduled (.leaving why) .ready).core = true ∧
      (scheduled (.leaving why) .ready).taskOf (scheduled (.leaving why) .ready).core = some task) ∧
    ((scheduled .running .ready).core.task = some 0 ∧ ∃ t, (scheduled .running .ready).preemptFor = some t) := by
  refine ⟨Option.isSome_iff_exists.1 (by decide +kernel), ?_, rfl, Option.isSome_iff_exists.1 (by decide +kernel)⟩
  intro why hw
  exact ⟨rfl, rfl, rfl⟩

theorem witness_TaskEndings : (scheduled (.leaving .exit) .ready).taskOf (scheduled (.leaving .exit) .ready).core = some task ∧
    ((scheduled (.leaving .exit) .ready).exitReady = true ∧ ∀ k : Tok, ((scheduled (.leaving .exit) .ready).core.regs.k.get k).err = none) ∧
    (∀ code : BitVec 8, code ≠ 0x51 → haltReady (scheduled (.leaving (.halt code 0)) .ready).core code = true) ∧
    haltReady (scheduled (.leaving (.halt 0x51 0)) .ready).core 0x51 = true ∧
    (∀ code : BitVec 8, saveReady (scheduled (.leaving (.haltSave code 0)) .ready).core = true) ∧
    (∀ fired : Bool, ∀ vec : Word, ∃ s : State, s.taskOf s.core = some task ∧ s.core.stat = .running ∧ s.core.csr.wdwin ≠ 0 ∧ s.core.csr.wdwin.toNat ≤ s.core.wdcount ∧
      s.core.csr.wdfired = fired ∧ s.core.csr.trapvec = vec) := by
  refine ⟨rfl, ⟨rfl, by decide +kernel⟩, fun code h => ?_, by decide +kernel, fun _ => rfl, fun fired vec =>
    ⟨withCsr (fun c => { c with wdwin := 5, wdfired := fired, trapvec := vec }) { scheduled .running .ready with core := { (scheduled .running .ready).core with wdcount := 5 } },
      rfl, rfl, by show (5 : BitVec 32) ≠ 0; decide, by show (5 : BitVec 32).toNat ≤ 5; decide, rfl, rfl⟩⟩
  simp only [haltReady, Bool.and_eq_true, Bool.or_eq_true, bne_iff_ne]
  exact ⟨⟨rfl, rfl⟩, .inl h⟩

/-- A counter at 0x40 that has reached 2; an old ready task; the member's instance with one arrival expected and made. -/
def depending (st : TState) : Task := { task with id := 1, st := st, record := { launchTask with depAddr := 0x40, depVal := 2 }, home := none }
def pooled (t : Task) (clock : Nat) : State := { mapped with
  clock := clock
  sched := ⟨[task, t], [], [⟨instKey 0 0 1 5, 1, 1, 0, 0, false, some 0⟩], 2⟩
  store := { mapped.store with bytes := [⟨0x40, 2⟩] }
  core := { mapped.core with csr := { mapped.core.csr with domn := 0xFFFFFFFF05 }, arrived := some 1 } }

theorem witness_TaskStates : (∀ st clock, (pooled (depending st) clock).sched.task 1 = some (depending st)) ∧
    (pooled (depending .dependent) 0).dependenceHolds (depending .dependent) = true ∧ (pooled (depending .parked) 0).parkedReady (depending .parked) = true ∧
    ((depending .ready).st = .ready ∧ (depending .ready).aged = false ∧ (depending .ready).promo + 16384 * 1050 ≤ 17203200) ∧
    (depending .halted).record.doneAddr = 0 ∧
    ∃ i, (pooled (depending .ready) 0).sched.insts[0]? = some i ∧ (pooled (depending .ready) 0).superstepDue i = true ∧ task.inPool = true ∧ task.keys.contains i.key = true ∧
      (pooled (depending .ready) 0).core.task = some task.id ∧ (pooled (depending .ready) 0).taskOf (pooled (depending .ready) 0).core = some task ∧
      arrivedAt i.key.level (pooled (depending .ready) 0).core = true := by
  refine ⟨fun _ _ => rfl, by decide +kernel, by decide +kernel, ⟨rfl, rfl, by decide⟩, rfl, _, rfl, by decide +kernel, rfl, by decide +kernel, rfl, rfl, by decide +kernel⟩

/-! ### Further forms of the statements' hypotheses -/

/-- 2^31 to INT8 with OV 3 traps in lane 1, the first active one. -/
def converting : State := withRegs fun g => { g with v := g.v.set 2 [vlanes fun i => if i = 1 ∨ i = 5 then 0x4F000000 else 0], p := g.p.set 1 0x22 }
def trapCode : FI := ⟨2, 3, ⟨2, false⟩, .short 12 false⟩

theorem witness_VectorConversionResults_trap : converting.iss = none ∧ activeMask converting.core trapCode.g = 0x22 ∧ (0x22 : Word) ≠ 0 ∧
    (∃ a, takeV converting.core 2 false = some (a, converting.core) ∧ plane 0x22 1 = true ∧
      convert (numFmt 0) (numFmt 5) (cvtRm trapCode) (cvtOv trapCode) (vlane a 1).toNat = .trap ∧ ∀ j, j < 1 → plane 0x22 j ≠ true) ∧
    ∀ v1 : Bool, Clear (gathered converting converting.core (opened (.vcvt v1 trapCode 0x50) (vslot v1) converting)) := by
  refine ⟨rfl, rfl, by decide, ⟨_, rfl, by decide, by decide +kernel, by decide⟩, fun v1 => ?_⟩
  cases v1 <;> exact clear_iff rfl

/-- The watchdog of a task that waits to exit. -/
theorem witness_TaskEndings_leaving : (scheduled (.leaving .exit) .ready).core.mx.err = none ∧ (∀ fired : Bool, ∀ vec : Word, ∃ s : State, s.taskOf s.core = some task ∧
      s.core.stat = .leaving .exit ∧ s.core.csr.wdwin ≠ 0 ∧ s.core.csr.wdwin.toNat ≤ s.core.wdcount ∧ s.core.csr.wdfired = fired ∧ s.core.csr.trapvec = vec) := by
  refine ⟨rfl, fun fired vec =>
    ⟨withCsr (fun c => { c with wdwin := 5, wdfired := fired, trapvec := vec }) { scheduled (.leaving .exit) .ready with core := { (scheduled (.leaving .exit) .ready).core with wdcount := 5 } },
      rfl, rfl, by show (5 : BitVec 32) ≠ 0; decide, by show (5 : BitVec 32).toNat ≤ 5; decide, rfl, rfl⟩⟩

/-- Registers that are not open yet, and open ones, of the launch port and beyond it, at an aligned offset and at one that is not. -/
theorem witness_RegisterWrites_forms : (mapped.regsOpen false = false ∧ ∀ sec : Bool, hosted.regsOpen sec = true) ∧
    ((0x18 : BitVec 16).toNat < 64 ∧ (64 ≤ (0x1004 : BitVec 16).toNat ∧ (0x1004 : BitVec 16).toNat % 8 ≠ 0) ∧
      (64 ≤ (0x40 : BitVec 16).toNat ∧ (0x40 : BitVec 16).toNat % 8 = 0 ∧ (0x40 : BitVec 16).toNat < 4096) ∧ 4096 ≤ (0x2000 : BitVec 16).toNat) ∧
    mapped.hostOpen = false ∧ hosted.hostOpen = true := by
  refine ⟨⟨rfl, fun sec => by cases sec <;> rfl⟩, by decide, rfl, rfl⟩

/-- The loss of a link to a base die that leaves one more agent out of reach, with a line there that the core holds and no write has lost. -/
theorem witness_LinkFailures_held : ((linked.plat.cut (.base 6)).unreached.filter fun a => !linked.plat.unreached.contains a && !linked.plat.dead.contains a) ≠ [] ∧
    ∃ x ∈ linked.core.heldLines, x ∉ linked.store.lost := by
  refine ⟨by decide +kernel, _, List.mem_cons_self, by decide⟩

/-- A link with two flits that are not acknowledged, the older of which has failed so many times. -/
def sending (replays : Nat) : State := hosted.modLink 3 fun k => { k with up := true, out := [flitOf 0 1 [], flitOf 1 1 []], next := 2, replays := replays }

theorem flit_number (n : BitVec 10) (kind : Nat) (p : List Byte) : flitNumber (flitOf n kind p) = n := by
  have hl : (toBytes 2 (n.toNat + 1024 * kind)).length = 2 := toBytes_length
  simp only [flitNumber, flitOf, List.append_assoc]
  rw [List.take_left' hl, ofBytes_toBytes]
  exact BitVec.eq_of_toNat_eq (by simp; omega)

/-- Its two numbers are found, and no other; the ninth failure is the one after eight. -/
theorem witness_FlitsAndTransfers_answers : (∀ r, ((sending r).plat.links.get 3).up = true ∧ ((sending r).plat.links.get 3).replays = r) ∧
    (∀ r, ∀ n ∈ [(0 : BitVec 10), 1], ∃ i, (((sending r).plat.links.get 3).out.take 512).findIdx? (fun f => flitNumber f == n) = some i) ∧
    (∀ r, (((sending r).plat.links.get 3).out.take 512).findIdx? (fun f => flitNumber f == 2) = none) ∧
    field (4 * 1024 : Nat) 10 6 = 4 ∧ field (5 * 1024 : Nat) 10 6 = 5 := by
  have ho : ∀ r, ((sending r).plat.links.get 3).out = [flitOf 0 1 [], flitOf 1 1 []] := fun _ => rfl
  refine ⟨fun r => ⟨rfl, rfl⟩, fun r n hn => ?_, fun r => ?_, by decide, by decide⟩
  · rw [ho]
    simp only [List.mem_cons, List.not_mem_nil, or_false] at hn
    rcases hn with rfl | rfl
    · exact ⟨0, by simp [List.findIdx?_cons, flit_number]⟩
    · exact ⟨1, by simp [List.findIdx?_cons, flit_number]⟩
  · rw [ho]
    simp [List.findIdx?_cons, flit_number]

/-! Outstanding operations of the other kinds. -/

theorem acting_performs (k : TokKind) (h : (acting [] k).kindReady (acted k) = true) : Memory.wf (acting [] k).store.bytes = true ∧ Performs (acting [] k) (acted k) :=
  ⟨rfl, acting_due _ _ h⟩

/-- Accesses of that page. -/
def at_ (va : Nat) : Lin := ⟨va, [page], false⟩
theorem at_xl (va v : Nat) (h : 0x10000 ≤ v) (h2 : v < 0x20000) : (at_ va).xl v = some page := by
  have : (page.space == false && page.va ≤ v && v < page.va + page.size : Bool) = true := by
    simp only [page, Bool.and_eq_true]
    exact ⟨⟨rfl, decide_eq_true h⟩, decide_eq_true h2⟩
  simp only [Lin.xl, at_, findXl, List.find?_cons, this]
theorem at_byte (va v : Nat) (h : 0x10000 ≤ v) (h2 : v < 0x20000) : byteAt (at_ va) v = v + 0x10000 := by
  rw [byteAt, at_xl va v h h2]
  simp only [Xl.paOf, page]
  omega
theorem acting_live (k : TokKind) (pa : Nat) : (acting [] k).deadHome pa = false := by
  have hl : (acting [] k).store.lost = [] := rfl
  have hd : (acting [] k).plat.dead = [] := rfl
  simp [State.deadHome, hl, hd]
theorem acting_biased (k : TokKind) (pa : Nat) : (acting [] k).hostBiased pa = false := by
  have hb : (acting [] k).store.bias = [] := rfl
  simp [State.hostBiased, State.biasOf, hb]
theorem at_pieces (k : TokKind) (va : Nat) (ps : List (Nat × Nat)) (h : ∀ p ∈ ps, 0x10000 ≤ p.1 ∧ p.1 + p.2 < 0x20000) (h1 : ∀ p ∈ ps, isReg (p.1 + 0x10000) = false) :
    PiecesLie (acting [] k) (at_ va) ps := by
  intro p hp
  have hb := h p hp
  have hr := h1 p hp
  have : page.paOf p.1 = p.1 + 0x10000 := by simp only [Xl.paOf, page]; omega
  refine ⟨page, fun v h2 h3 => at_xl va v (by omega) (by omega), by decide, ?_, ?_, acting_live _ _, List.not_mem_nil⟩
  · rw [this]; omega
  · rw [this]; exact hr
theorem at_vlies (k : TokKind) (va : Nat) (act : Word) (h0 : va % 4 = 0) (h1 : 0x10000 ≤ va) (h2 : va + 256 < 0x20000)
    (hp : ∀ p ∈ vpieces va act, (0x10000 ≤ p.1 ∧ p.1 + p.2 < 0x20000) ∧ isReg (p.1 + 0x10000) = false) :
    VLies (acting [] k) (at_ va) act := by
  refine ⟨h0, at_pieces k va _ (fun p h => (hp p h).1) (fun p h => (hp p h).2), fun i j hi hj _ _ hne => ?_⟩
  rw [at_byte _ _ (by show 0x10000 ≤ va + 4 * i; omega) (by show va + 4 * i < _; omega), at_byte _ _ (by show 0x10000 ≤ va + 4 * j; omega) (by show va + 4 * j < _; omega)]
  omega

/-- Lanes 0, 1 and 63 of a vector that begins within a line; the first and the last lane of one of two whole lines. -/
theorem witness_AccessesPerformed_vectors : ∀ k ∈ [TokKind.vld (at_ 0x10044) 0x8000000000000003 3, .vldff (at_ 0x10044) 0x8000000000000003 3 7, .vst (at_ 0x10044) 0x8000000000000003 VReg.zero],
    Memory.wf (acting [] k).store.bytes = true ∧ Performs (acting [] k) (acted k) ∧ (at_ 0x10044).va % 4 = 0 ∧ VLies (acting [] k) (at_ 0x10044) 0x8000000000000003 := by
  intro k hk
  simp only [List.mem_cons, List.not_mem_nil, or_false] at hk
  have hv : ∀ k, VLies (acting [] k) (at_ 0x10044) 0x8000000000000003 := fun k => at_vlies k _ _ (by decide) (by decide) (by decide) (by decide +kernel)
  rcases hk with rfl | rfl | rfl <;> exact ⟨rfl, acting_due _ _ rfl, by decide, hv _⟩

/-- Pushes of a page that is DIR, to one core and to none; the deliveries of one that are all made. -/
theorem witness_AccessesPerformed_pushes : (∀ cores : BitVec 24, ∀ k ∈ [TokKind.sstp (at_ 0x10078) 7 cores, .vstp (at_ 0x10100) 0x8000000000000001 VReg.zero cores],
      Memory.wf (acting [] k).store.bytes = true ∧ Performs (acting [] k) (acted k) ∧ Pushable (acting [] k) (at_ 0x10078) 0x10078 ∧ Pushable (acting [] k) (at_ 0x10100) 0x10100 ∧
        Pushable (acting [] k) (at_ 0x10100) 0x10180 ∧ Lies (acting [] k) (at_ 0x10078) 8 0x20078 ∧ VLies (acting [] k) (at_ 0x10100) 0x8000000000000001 ∧
        ∀ c : CoreId, (acting [] k).deadCore c = false) ∧
    (at_ 0x10100).va % 256 = 0 ∧ coreSet 0 = [] ∧ coreSet 0x000103 ≠ [] ∧
    Performs (acting [] (.pushing [])) (acted (.pushing [])) := by
  have hv : ∀ k, VLies (acting [] k) (at_ 0x10100) 0x8000000000000001 := fun k => at_vlies k _ _ (by decide) (by decide) (by decide) (by decide +kernel)
  have hp : ∀ k va v, 0x10000 ≤ v → v < 0x20000 → isDevice (v + 0x10000) = true → Pushable (acting [] k) (at_ va) v := by
    intro k va v h1 h2 h3
    have : page.paOf v = v + 0x10000 := by simp only [Xl.paOf, page]; omega
    exact ⟨page, at_xl va v h1 h2, rfl, by rw [this]; exact h3, acting_biased _ _⟩
  refine ⟨fun cores k hk => ?_, by decide, by decide, by decide, acting_due _ _ rfl⟩
  simp only [List.mem_cons, List.not_mem_nil, or_false] at hk
  rcases hk with rfl | rfl <;>
    exact ⟨rfl, acting_due _ _ rfl, hp _ _ _ (by omega) (by omega) (by decide), hp _ _ _ (by omega) (by omega) (by decide), hp _ _ _ (by omega) (by omega) (by decide),
      ⟨page, rfl, rfl, by decide, rfl, rfl, by decide⟩, hv _, fun _ => rfl⟩

/-- The same device with a tensor bound, contents of memory and a pool. -/
def actingOn (cells : List Host.Cell) (d : Sched) (k : TokKind) : State := { acting [] k with
  store := { (acting [] k).store with bytes := cells }
  sched := d
  core := { (acting [] k).core with regs := boundTo.core.regs, csr := { (acting [] k).core.csr with launch := 0 } } }

theorem acting_on (cells : List Host.Cell) (d : Sched) (k : TokKind) (h : (actingOn cells d k).kindReady (acted k) = true) : Performs (actingOn cells d k) (acted k) := by
  refine ⟨rfl, ?_, rfl, rfl, fun _ hl => absurd hl (List.not_mem_nil (a := _))⟩
  simp only [State.opDue, Bool.and_eq_true]
  exact ⟨⟨after_latency _ rfl, rfl⟩, h⟩

def noTasks : Sched := ⟨[], [], [], 0⟩
/-- The bytes of `desc 1`, and those of `launchTask`, at the page's start. -/
def descCells : List Host.Cell := wrBytes [] 0x20000 (toBytes 128 (desc 1).toNat)
def taskCells : List Host.Cell := (List.range 5).map fun i => ⟨0x20040 + i, 0xFF⟩

/-- A VLDT of a tensor's tile, and its landing with its pin and without one; a VSTT of one element, and of none; a drained write of one
element and of none; write-backs that have all committed; a query; descriptors that are well formed and not. -/
theorem witness_AccessesPerformed_tensors : Memory.wf descCells = true ∧
    (let k : TokKind := .vldt (handle 1) true 1 3
     Performs (actingOn [] noTasks k) (acted k) ∧ tilesOf ((placesOf (handle 1) true 1).map (·.2.2)) = [0] ∧
      ∃ st tiles, (actingOn [] noTasks k).readTiles (handle 1).desc [0] = (st, tiles, none)) ∧
    (∀ pins ∈ [[], [⟨0, 0x40000, 0, 0⟩]], Performs (actingOn [] noTasks (.pinned 3 1 VReg.zero pins)) (acted (.pinned 3 1 VReg.zero pins))) ∧
    (∀ k ∈ [TokKind.vstt (handle 1) true 1 VReg.zero, .vstt (handle 1) true 2 VReg.zero, .drained (handle 1) [(some (0, 0), 7)], .drained (handle 1) [],
        .committing 0 []], Performs (actingOn [] noTasks k) (acted k)) ∧
    groupByTile (scatterLanes (handle 1) true 1 VReg.zero).1 ≠ [] ∧ groupByTile (scatterLanes (handle 1) true 2 VReg.zero).1 = [] ∧
    groupByTile [(some (0, 0), (7 : BitVec 32))] ≠ [] ∧ groupByTile ([] : List (Option (Nat × Nat) × BitVec 32)) = [] ∧
    (let k : TokKind := .tqry (handle 1) 2
     Performs (actingOn [] noTasks k) (acted k) ∧ locate (handle 1).desc (cursorAt (handle 1) 0) = some (0, 0) ∧
      (actingOn [] noTasks k).tensorErr (handle 1).desc (entryOf (handle 1).desc 0) 16 = none ∧ (actingOn [] noTasks k).poisoned (entryOf (handle 1).desc 0) 16 = false) ∧
    (let k : TokKind := .tbind 5 0x10000 (at_ 0x10000)
     (∀ cells ∈ [descCells, []], Performs (actingOn cells noTasks k) (acted k) ∧ Lies (actingOn cells noTasks k) (at_ 0x10000) 128 0x20000) ∧
      descOk (BitVec.ofNat 1024 (rdNat descCells 0x20000 128)) = true ∧ descOk (BitVec.ofNat 1024 (rdNat [] 0x20000 128)) = false) := by
  refine ⟨by decide +kernel, ⟨acting_on _ _ _ (by decide +kernel), by decide +kernel, exists_triple (by decide +kernel)⟩, fun pins hp => ?_, fun k hk => ?_, by decide +kernel, by decide +kernel,
    by decide +kernel, by decide +kernel, ⟨acting_on _ _ _ rfl, by decide +kernel, by decide +kernel, by decide +kernel⟩, fun cells hc => ?_, by decide +kernel, by decide +kernel⟩
  · exact acting_on _ _ _ rfl
  · simp only [List.mem_cons, List.not_mem_nil, or_false] at hk
    rcases hk with rfl | rfl | rfl | rfl | rfl <;> exact acting_on _ _ _ rfl
  · exact ⟨acting_on _ _ _ rfl, page, rfl, rfl, by decide, rfl, rfl, by decide⟩

/-- A record that is refused, one that finds its pool full, and one that is taken; a publication; an interrupt of a launch without a window. -/
theorem witness_AccessesPerformed_others : Memory.wf taskCells = true ∧
    (let k : TokKind := .spawn (at_ 0x10000)
     (∀ cells d, Performs (actingOn cells d k) (acted k)) ∧ PiecesLie (acting [] k) (at_ 0x10000) (linePieces 0x10000 192) ∧
      (let r (cells : List Host.Cell) : TaskRec := recordOf 0x10000 ((List.range 192).map fun i => rd8 cells (byteAt (at_ 0x10000) (0x10000 + i)))
       (r []).ok noTasks 0 false = false ∧ (r taskCells).ok noTasks 0 false = true ∧ noTasks.free (placeDie (r taskCells)).val ≠ 0 ∧
        (r taskCells).ok full 0 false = true ∧ full.free (placeDie (r taskCells)).val = 0)) ∧
    (∀ scope copied, Performs (actingOn [] noTasks (.pubc scope copied)) (acted (.pubc scope copied))) ∧
    (∀ code, Performs (actingOn [] ended.sched (.irqh code)) (acted (.irqh code))) ∧
    (∃ l, ended.sched.launches.find? (fun l => l.lid == 0) = some l ∧ l.win = 0 ∧ ∀ i ∈ (actingOn [] ended.sched (.irqh 0)).host.held, i.vec ≠ l.vec) := by
  refine ⟨by decide +kernel, ⟨fun cells d => acting_on _ _ _ rfl, at_pieces _ _ _ (by decide +kernel) (by decide +kernel), by decide +kernel, by decide +kernel, by decide +kernel,
    by decide +kernel, by decide +kernel⟩, fun _ _ => acting_on _ _ _ rfl, fun _ => acting_on _ _ _ rfl, _, rfl, rfl, fun _ h => absurd h List.not_mem_nil⟩

/-- An operation that has landed zeros and ends in error; a FENCE. -/
theorem witness_AccessesPerformed_ends : (let s := acting [] .ended
     let o : TokOp := { acted .ended with err := some ⟨0x1F, 0⟩ }
     let t : State := { s with core := { s.core with ops := [o] } }
     t.core.opOf o.id = some o ∧ t.opDue o = true) ∧
    ∀ mask, (acting [] (.fence mask)).core.opOf 5 = some (acted (.fence mask)) ∧ (acting [] (.fence mask)).opDue (acted (.fence mask)) = true ∧ (acted (.fence mask)).err = none := by
  refine ⟨⟨rfl, ?_⟩, fun mask => ⟨rfl, (acting_due [] _ rfl).2.1, rfl⟩⟩
  simp only [State.opDue, Bool.and_eq_true]
  exact ⟨⟨after_latency _ rfl, rfl⟩, rfl⟩

/-- A stream of two bundles, the first with an S slot, whose header gives so many. -/
def streamBody : List Byte := [1, 0, 5, 6, 7, 0, 0]
def streamBytes (n : Nat) : List Byte := toBytes 16 (0x584E4B42 + n * 2 ^ 32 + 7 * 2 ^ 64 + 100990991 * 2 ^ 96) ++ streamBody
/-- A task whose ENTRY is the start of the claimed ILO, with the stream at IPRE; one with a context area at 0x40000. -/
def preloading : Task := { task with id := 1, st := .ready, home := none, record := { launchTask with entry := 0xFFFFFFFE0000, ipre := 0x10000, flags := 4 } }
def savedHere : Core := { mapped.core with csr := { mapped.core.csr with qmode := 0xC }, claim := { mapped.core.claim with ctx := 0x40000, banks := 0 } }
def returning : Task := { preloading with home := some 0, ctx := some savedHere, record := { launchTask with ctx := 0x40000 } }
def placing (t : Task) (bs : List Byte) : State := { launching with
  store := { launching.store with bytes := wrBytes launching.store.bytes 0x20000 bs }
  sched := ⟨[t], [], [], 2⟩
  core := { launching.core with stat := .idle, task := none } }

/-- The stream fits its header, or has one bundle too few; the context area can be read, and no replay entry of it is valid. -/
theorem witness_Placements_forms : (∀ n ∈ [2, 3], (placing preloading (streamBytes n)).core.stat = .idle ∧
      eligible (placing preloading (streamBytes n)).sched preloading (placing preloading (streamBytes n)).core.id = true ∧
      (placing preloading (streamBytes n)).contextReadable preloading = true ∧ preloading.record.ipre ≠ 0 ∧ dirtyLines (placing preloading (streamBytes n)).core = [] ∧
      field (rdNat (placing preloading (streamBytes n)).store.bytes 0x20000 16) 64 32 = 7 ∧ rdBytes (placing preloading (streamBytes n)).store.bytes 0x20010 7 = streamBody ∧
      StreamAt (placing preloading (streamBytes n)) preloading.record.sec preloading.record.ipre.toNat (16 + 7) (fun _ => page) ∧
      (stream (rdNat (placing preloading (streamBytes n)).store.bytes 0x20000 16) streamBody).isSome = (n == 2)) ∧
    preloading.record.ilo = true ∧ preloading.record.entryHalf = some false ∧
    (placing returning []).contextReadable returning = true ∧ returning.ctx = some savedHere ∧
      eligible (placing returning []).sched returning (placing returning []).core.id = true ∧
      ∀ i, i < 24 → (savedReplay (placing returning []) savedHere i).word.toNat % 2 = 0 := by
  refine ⟨fun n hn => ?_, rfl, by decide +kernel, by decide +kernel, rfl, by decide +kernel, by decide +kernel⟩
  simp only [List.mem_cons, List.not_mem_nil, or_false] at hn
  rcases hn with rfl | rfl <;>
    exact ⟨rfl, by decide +kernel, by decide +kernel, by decide, rfl, by decide +kernel, by decide +kernel,
      by unfold StreamAt Good; decide +kernel, by decide +kernel⟩

/-- A result that lands after one of a later bundle has landed in this clock; exact records that outlive a return. -/
theorem witness_ResultLanding_order : ∃ (s : State) (f : Flight), s.core.returning = false ∧ landing s = [f] ∧ f.dest = .s 3 ∧ sQueue s.core.csr.qmode 3 = false ∧
    ∃ l ∈ s.core.landed, l.clock = s.clock ∧ l.dest = .s 3 ∧ f.issue < l.issue :=
  ⟨{ tiny with core := { tiny.core with flights := [flight 0 (.s 3) (.w 5)], landed := [⟨0, .s 3, 1, allOnes⟩] } }, _, rfl, rfl, rfl, rfl, _, List.mem_cons_self, rfl, rfl, by decide⟩
theorem witness_ResultLanding_records : ∃ s : State, s.core.returning = true ∧ s.core.flights ≠ [] ∧ (∀ f ∈ s.core.flights, f.record = true ∧ s.clock < f.due) ∧ exactSince s.core.mx = false :=
  ⟨{ tiny with core := { tiny.core with returning := true, flights := [{ flight 5 (.s 3) (.w 5) with record := true }] } }, rfl, nofun, by decide, rfl⟩

/-- A SWAPI whose target, in the other half, issues now. -/
theorem witness_StepRunsDecoded_swap : (atBundle 0).core.loopSt.swap = none ∧ (atBundle 0).core.stall = none ∧
    ∃ s : State, s.core.loopSt.swap = some s.core.pc ∧ s.nextEvent = none ∧ s.canIssue = true ∧ iloBase + 65536 ≤ s.core.pc.toNat :=
  ⟨rfl, rfl, { atBundle 0 with core := { (atBundle 0).core with pc := 0xFFFFFFFF0000, loopSt := { (atBundle 0).core.loopSt with swap := some 0xFFFFFFFF0000 } } }, rfl, rfl, by decide, by decide⟩

/-- A copy that goes on to a page that faults. -/
theorem witness_CopyEngineSteps_failing : (queuedCopy failing true).prog.pos < 64 ∧ (queuedCopy failing true).prog.owed = [] ∧ (queuedCopy failing true).prog.pins = [] ∧
    (0x900000 : Word).toNat % 2 ^ 48 + (queuedCopy failing true).prog.pos < 2 ^ 48 ∧ findXl (queuedCopy failing true).prog.pages.xls (queuedCopy failing true).sec 0x900000 = none :=
  ⟨by decide, rfl, rfl, by decide, rfl⟩

/-- No acquire and no fence outstanding; a page that faults, and lanes beyond the linear space. -/
theorem witness_Unheld : (∀ cls ∈ [0, 5, 6], Unheld mapped cls ∧ Unheld partly cls ∧ Unheld copying cls) ∧ partly.probe partly.core.csr.sec false 0x20000 = .fault 0x1A ∧
    (wellFormed (address partly.core ⟨1, 9, 3, 0, 7, some 4⟩) 4 ∧ laneFirsts (2 ^ 48 - 4) 3 = [2 ^ 48 - 4] ++ [2 ^ 48]) := by
  refine ⟨by decide +kernel, by decide +kernel, ⟨by decide, by decide⟩, by decide +kernel⟩

/-- A policy write of a tensor whose page is mapped, and of a handle that is not bound. -/
theorem witness_SlotFrame_policies : (∃ h x, boundTo.core.regs.h.get 1 = some h ∧ boundTo.core.tlbFind boundTo.core.csr.sec (h.addr.toNat % 2 ^ 48) = some x) ∧
    dirtyLines boundTo.core = [] ∧ (∀ h, boundTo.core.regs.h.get 9 = some h → boundTo.core.tlbFind boundTo.core.csr.sec (h.addr.toNat % 2 ^ 48) = none) ∧
    Memory.wf boundTo.store.bytes = true ∧ (∀ h : Fin 16, (encode (.tset false ⟨0, h, ⟨0, false⟩, .imm 5⟩)).isSome = true) :=
  ⟨⟨handle 1, page, rfl, by decide +kernel⟩, rfl, fun h hh => absurd (show boundTo.core.regs.h.get 9 = none from by decide +kernel) (by rw [hh]; nofun), rfl, by decide⟩

/-- A Tumbler at the end of its pass, with no point at its limit, and nothing to wait for. -/
theorem witness_TumblerOperations_nothing : ∃ s t, s = touring [0, 1] [1] [0] ∧ s.core.tum.set = some t ∧ mapOk s.core t = true ∧ nextWord t = some 1 ∧
    s.core.tum.passDone = true ∧ duePoints t = [] ∧ s.core.tum.awaits = false := ⟨_, _, rfl, rfl, by decide, by decide, rfl, by decide, rfl⟩

/-- A bundle that traps with a batch closed. -/
theorem witness_BundleTraps_closes : ∃ g : State, g.issue.stall = none ∧ lateStall g g.issue = none ∧ g.issue.closes = [true] ∧ g.issue.causes ≠ [] :=
  ⟨{ tiny with iss := some { Issue.start tiny.core false with closes := [true], causes := [⟨0x30, 0, some 6, false, none, false⟩] } }, rfl, rfl, rfl, nofun⟩

/-- Two writes of one bundle that meet at 0x101; the last of it stands, and bytes before and behind it are the first's. -/
theorem witness_CommittedBundles_writes : ∃ (g : State) (k : Issue), g.iss = some k ∧ k.reads = [] ∧ Memory.wf g.core.mem.sram = true ∧
    (∃ (pre post : List LocalWr) (w : LocalWr), k.lwr = pre ++ w :: post ∧ pre ≠ [] ∧ w.bytes[0]? = some 2 ∧ w.off = 0x101) ∧
    ∃ (post : List LocalWr) (w : LocalWr), k.lwr = [] ++ w :: post ∧ w.bytes[0]? = some 1 ∧ post ≠ [] ∧
      ∀ v ∈ post, w.off + 0 < v.off ∨ v.off + v.bytes.length ≤ w.off + 0 :=
  ⟨{ mapped with iss := some { Issue.start mapped.core false with lwr := [⟨0x100, [1, 1, 1]⟩, ⟨0x101, [2]⟩] } }, _, rfl, rfl, by decide,
    ⟨[_], [], _, rfl, nofun, rfl, rfl⟩, [_], _, rfl, rfl, nofun, by decide⟩

/-- A core that has written a byte of a SELFINV line issues a BANKROLE write; a scale load. -/
def writtenHere : State := { mapped with core := { mapped.core with
  mem := { mapped.core.mem with lines := [⟨0x20000 / 128, 0, 0, .d 7 1 1 0 0⟩] } } }
theorem witness_SlotFrame_through : (∀ i ∈ [Instr.bankroleWrite ⟨0, .reg 0⟩, .stashmapWrite ⟨0, .reg 0⟩], (encode i).isSome = true ∧ writesThrough i = true ∧
      readsAtIssue i = false) ∧
    Memory.wf writtenHere.store.bytes = true ∧ dirtyLines writtenHere.core ≠ [] ∧ dirtyLines mapped.core = [] ∧
    (∀ l ∈ dirtyLines writtenHere.core, l.line ≠ 0x30000 / 128) ∧
    (∃ x, boundTo.core.regs.h.get 1 = some x ∧ tilesOf (scalePlaces x false) = [0] ∧ entryOf x.desc 0 = 0x40000) := by
  refine ⟨by decide, rfl, by decide +kernel, rfl, by decide +kernel, _, rfl, by decide +kernel, by decide +kernel⟩

/-- A page at IPRE that is changing its bias. -/
def turningPage : State := { placing preloading [] with store := { (placing preloading []).store with bias := [(0x20, .toHost 0 9 0x40008)] } }
theorem witness_Placements_loading : turningPage.core.stat = .idle ∧ eligible turningPage.sched preloading turningPage.core.id = true ∧
    turningPage.contextReadable preloading = true ∧ preloading.ctx = none ∧ preloading.record.ipre ≠ 0 ∧ preloading.record.ipre.toNat < 2 ^ 48 ∧
    ihOffset preloading.record.ipre.toNat = none ∧
    ∃ x, turningPage.probe preloading.record.sec false preloading.record.ipre.toNat = .ok x ∧ turningPage.biasChanging (x.paOf preloading.record.ipre.toNat) = true := by
  refine ⟨rfl, by decide +kernel, by decide +kernel, rfl, by decide, by decide, by decide, page, by decide +kernel, rfl⟩

/-- A stream that crosses a line. -/
theorem witness_Placements_lines : StreamAt (placing preloading []) false 0x10070 40 fun _ => page := by unfold StreamAt Good; decide +kernel

/-- An expiry that found the core leaving, taken once its task runs again. -/
theorem witness_TaskEndings_alarm : ∃ s : State, s.taskOf s.core = some task ∧ watchdogDue s.core = false ∧ s.core.alarm = true ∧ s.core.stat = .running ∧
    s.core.inHandler = false ∧ s.core.csr.trapvec.toNat % 2 = 1 :=
  ⟨withCsr (fun c => { c with trapvec := 0x2001 }) { scheduled .running .ready with core := { (scheduled .running .ready).core with alarm := true } },
    rfl, by decide, rfl, rfl, rfl, by decide⟩

/-- A superstep that completes while the member whose SSYNC has arrived runs its handler. -/
theorem witness_TaskStates_kept : ∃ s : State, (∃ i, s.sched.insts[0]? = some i ∧ s.superstepDue i = true ∧ task.keys.contains i.key = true ∧
    s.core.kept = some (i.key.level, false)) ∧ s.core.task = some task.id ∧ s.taskOf s.core = some task :=
  let s := pooled (depending .ready) 0
  ⟨{ s with core := { s.core with kept := some (1, false) } }, ⟨_, rfl, by decide +kernel, by decide +kernel, by decide +kernel⟩, rfl, rfl⟩

/-! ### The manual's own words and worked examples -/

/-- The encodings the manual prints beside its examples, with the extension words and headers it gives. -/
theorem test_manual_words_scalar : reads 0 [(0x7C0D14, none, 0, .cmplt ⟨0, 3, 4, .reg 5, 0⟩), (0xBC0D0B, none, 0, .sld ⟨0, 3, 4, 1, 3, none⟩),
    (0xC0090B, some 8, 0, .sst ⟨0, 2, 4, 1, 3, some 8⟩), (0xD4149B, some 0x70, 0, .satom ⟨0, 5, 2, 3, 3, some 0x70⟩), (0xDC08C8, some 0x00010E, 0, .sstp ⟨0, 2, 3, 1, 0, some 0x00010E⟩)] = true := by
  decide +kernel
theorem test_manual_words_vector : reads 1 [(0x100C64, none, 0, .vfma false ⟨0, 3, ⟨1, false⟩, .reg 9 false⟩), (0x6C0861, none, 0, .vcmpf false ⟨0, 2, 1, .reg 8, 1⟩),
    (0xBC8A43, none, 0, .vgath false ⟨2, 2, 9, 0, 3, none⟩), (0xC80C83, none, 0, .vldt false ⟨0, 3, 2, 0, 3, none⟩), (0x780840, some 0x30, 0, .vcvt false ⟨0, 2, ⟨1, false⟩, .short 0 false⟩ 0x30),
    (0xAC1148, none, 0, .vld false ⟨0, 4, 5, 1, 0, none⟩)] = true := by decide +kernel
theorem test_manual_words_matrix : reads 3 [(0x180000, some 0x11, 0, .mcfg ⟨0, 0, ⟨0, false⟩, .imm 0x11⟩), (0x040488, none, 0, .mma 0 ⟨0, 1, 2, 1, 0⟩), (0x08048B, none, 0, .mmaz 0 ⟨0, 1, 2, 1, 3⟩),
    (0x0C0C8A, none, 0, .mdrn ⟨0, 3, 2, 1, 2⟩), (0x101410, none, 0, .mfill ⟨0, 5, 0, 2, 0⟩), (0x140010, none, 0, .mzero ⟨0, 0, 0, 2, 0⟩), (0x1C0004, none, 0, .msync ⟨0, 0, 0, 0, 4⟩),
    (0x201A40, none, 0, .mldcb ⟨0, 6, 9, 0, 0⟩), (0x241C00, none, 0, .mstat ⟨0, 7, ⟨0, false⟩, .reg 0 false⟩)] = true := by decide +kernel
theorem test_manual_words_auxiliary : reads 7 [(0x040C48, none, 0, .pand ⟨0, 3, 1, 8⟩), (0x1C1010, none, 0, .pset ⟨0, 4, 0, 16⟩), (0x241480, none, 0, .pcnt ⟨0, 5, 2, 0⟩), (0x2C0441, none, 0, .pshl ⟨0, 1, 1, 1⟩),
    (0x301440, none, 0, .scld ⟨0, 5, 1, 0, 0⟩), (0x340000, none, 0, .sczero ⟨0, 0, 0, 0, 0⟩)] = true := by decide +kernel
theorem test_manual_words_copy : reads 4 [(0x040C88, some 4096, 0, .cpy false ⟨0, 3, 2, 1, 0, some 4096⟩), (0x0820C8, some 4096, 0, .cpyl false ⟨0, 8, 3, 1, 0, some 4096⟩),
    (0x14048C, none, 0, .cnest false ⟨0, 1, ⟨2, false⟩, .reg 3 false⟩), (0x1820D1, some 256, 0, .crun false ⟨0, 8, 3, 2, 1, some 256⟩), (0x240480, some 4096, 0, .cfp false ⟨0, 1, 2, 0, 0, some 4096⟩),
    (0x280C8E, some 0x100040, 0, .ccmp false ⟨0, 3, 2, 1, 6, some 0x100040⟩), (0x3400C8, some 0x0002FF, 0, .cpush false ⟨0, 0, 3, 1, 0, some 0x0002FF⟩), (0x381C88, some 4096, 0, .cpeer false ⟨0, 7, 2, 1, 0, some 4096⟩),
    (0x3C0198, none, 0, .cdisp false ⟨0, 0, 6, 3, 0, none⟩), (0x1C0250, none, 0, .cstamp false ⟨0, 0, 9, 2, 0, none⟩), (0x200000, none, 0, .cbclose false ⟨0⟩),
    (0x400140, some 4, 0, .binit false ⟨0, 0, ⟨5, false⟩, .imm 4⟩), (0x440140, some 1, 0, .barrive false ⟨0, 0, ⟨5, false⟩, .imm 1⟩), (0x480150, none, 0, .bexpect false ⟨0, 0, ⟨5, false⟩, .reg 4 false⟩)] = true := by
  decide +kernel
theorem test_manual_words_tumbler : reads 5 [(0x301510, some 64, 0, .cxpnd true ⟨0, 5, 4, 2, 0, some 64⟩), (0x4C0040, none, 0, .wset true ⟨0, 0, 1, 0, 0, none⟩), (0x501800, none, 0, .wnext true ⟨0, 6, ⟨0, false⟩, .reg 0 false⟩),
    (0x540180, none, 0, .wdone true ⟨0, 0, ⟨6, false⟩, .reg 0 false⟩), (0x58084C, none, 0, .wresq true ⟨0, 2, ⟨1, false⟩, .reg 3 false⟩), (0x680E00, none, 0, .tbind true ⟨0, 3, 8, 0, 0, none⟩),
    (0x6C0854, none, 0, .tcur true ⟨0, 2, ⟨1, false⟩, .reg 5 false⟩), (0x700810, none, 0, .tadv true ⟨0, 2, ⟨0, false⟩, .short 4 false⟩), (0x60084C, none, 0, .tlock true ⟨0, 2, ⟨1, false⟩, .reg 3 false⟩),
    (0x5C084C, none, 0, .tset true ⟨0, 2, ⟨1, false⟩, .reg 3 false⟩), (0x641088, none, 0, .tqry true ⟨0, 4, 2, 1, 0, none⟩)] = true := by decide +kernel
theorem test_manual_words_control : reads 6 [(0x581034, none, 0, .csrr ⟨0, .reg 4, 0x034⟩), (0x280200, none, 0, .waitk ⟨0, 0, 2, 0, 0, none⟩), (0x2C085B, none, 0, .waitb ⟨0, 1, 0, 5, 11, none⟩),
    (0x300008, none, 0, .cbwait ⟨0, 0, 0, 0, 8, none⟩), (0x341870, none, 0, .monarm ⟨0, 3, 0, 7, 0, none⟩), (0x38187A, none, 0, .waitmon ⟨0, 3, 0, 7, 10, none⟩), (0x3C0800, none, 0, .ssync ⟨0, 1, 0, 0, 0, none⟩),
    (0x500000, some 3, 0, .fence ⟨0, 0, 0, 0, 0, some 3⟩), (0x540800, none, 0, .pubc ⟨0, 1, 0, 0, 0, none⟩)] = true := by decide +kernel

/-- What an operation alone in its bundle puts in flight: the clock it lands, its destination and its value. -/
def flies (i : Instr) (s : State) : List (Nat × Dest × Val) := match exec i s with
  | .next t => t.core.flights.map fun f => (f.due, f.dest, f.val)
  | _ => []
def having (r : Fin 16) (x : Word) : State := withRegs fun g => { g with s := g.s.set r [x] }
def lanes (f : Nat → Lane) : State := withRegs fun g => { g with v := g.v.set 1 [vlanes f] }
def lanesIn (l : List (Nat × Dest × Val)) (n : Nat) : Option (List Lane) := match l with
  | [(_, _, .v x)] => some ((List.range n).map (vlane x))
  | _ => none

/-- Example of CLZ: 47. -/
theorem test_clz : flies (.clz ⟨0, 2, ⟨9, false⟩, .reg 0 false⟩) (having 9 0x0000000000010000) = [(1, .s 2, .w 47)] := by decide +kernel
/-- Example of SFCVT: FP32 300.0 gives E4M3 0x79. -/
theorem test_sfcvt : flies (.sfcvt ⟨0, 6, ⟨1, false⟩, .short 8 false⟩) (having 1 0x43960000) = [(3, .s 6, .w 0x79)] := by decide +kernel
/-- Example of SFMUL: 0x3F00_0000 halves. -/
theorem test_sfmul_halves : flies (.sfmul ⟨0, 5, ⟨5, false⟩, .imm 0x3F000000⟩) (having 5 0x40400000) = [(3, .s 5, .w 0x3FC00000)] := by decide +kernel
/-- Example of SFCMPLT: negative and non-zero; -0.0 is not below 0. -/
theorem test_sfcmplt : flies (.sfcmplt ⟨0, 2, 1, .reg 0, 0⟩) (having 1 0x80000001) = [(2, .p 2, .w 0xFFFFFFFFFFFFFFFF)] ∧
    flies (.sfcmplt ⟨0, 2, 1, .reg 0, 0⟩) (having 1 0x80000000) = [(2, .p 2, .w 0)] := by decide +kernel
/-- Example of the guard: MUL where bit 0 of p1 is 0 does nothing; its product lands 3 clocks later where it is 1. -/
theorem test_mul_guard : flies (.mul ⟨2, 3, ⟨3, false⟩, .reg 3 false⟩) (having 3 7) = [] ∧ flies (.mul ⟨0, 3, ⟨3, false⟩, .reg 3 false⟩) (having 3 7) = [(3, .s 3, .w 49)] := by
  decide +kernel
/-- Example of VEXP2: 0.5 gives 0x3FB5_04F3 and 1.0 exactly 2.0. -/
theorem test_vexp2 : lanesIn (flies (.vexp2 false ⟨0, 2, ⟨1, false⟩, .reg 0 false⟩) (lanes fun i => if i = 0 then 0x3F000000 else 0x3F800000)) 2 = some [0x3FB504F3, 0x40000000] := by
  decide +kernel
/-- Example of VPACK and VUNPK. -/
theorem test_vpack : (lanesIn (flies (.vpack false ⟨0, 2, ⟨1, false⟩, .reg 1 false⟩) (lanes fun i => if i = 0 then 0x3F800001 else 0xC0000000)) 1) = some [0xC0003F80] := by decide +kernel
theorem test_vunpk : (lanesIn (flies (.vunpk false ⟨0, 2, ⟨1, false⟩, .reg 0 false⟩) (lanes fun _ => 0xC0003F80)) 2) = some [0x3F800000, 0xC0000000] := by decide +kernel
/-- Example of PSET. -/
theorem test_pset : flies (.pset ⟨0, 4, 0, 16⟩) tiny = [(1, .p 4, .w 0x000000000000FFFF)] := by decide +kernel
/-- The manual's gather with bank conflicts: lanes 0 to 7 name 3 words of bank 16 and 2 of bank 17. -/
def gatherOffsets (i : Nat) : Nat := [0x100000, 0x100004, 0x100008, 0x100100, 0x110000, 0x110000, 0x110040, 0x110044].getD i 0
/-- The records of the manual's freeze: results due in clocks 3 and 4, frozen at the end of clock 2. -/
def frozenExample : State := withCsr (fun c => { c with qmode := 0x400 }) { tiny with
  clock := 2
  core := { tiny.core with flights := [⟨3, 0, 0, 0x0C0, .s 5, .w 1, allOnes, none, false⟩, ⟨4, 1, 0, 0x0E0, .s 6, .w 9, allOnes, none, false⟩] } }
def gathering (waited : Nat) : State := { tiny with
  core := { tiny.core with
    bankWait := waited
    csr := { tiny.core.csr with bankrole := 0x0000000500000000 }
    claim := { tiny.core.claim with banks := 0x30000 }
    regs := { tiny.core.regs with p := tiny.core.regs.p.set 1 0xFF, v := tiny.core.regs.v.set 9 [vlanes fun i => BitVec.ofNat 32 (gatherOffsets i)] }
    mem := { tiny.core.mem with sram := [⟨0x100000, 0x11⟩, ⟨0x100004, 0x12⟩, ⟨0x100008, 0x13⟩, ⟨0x100100, 0x14⟩, ⟨0x110000, 0x21⟩, ⟨0x110040, 0x22⟩, ⟨0x110044, 0x23⟩] } } }
def gather : Instr := .vgath false ⟨2, 2, 9, 0, 3, none⟩
theorem test_vgath_stalls : flies gather (gathering 0) = [] ∧ flies gather (gathering 1) = [] := by decide +kernel
theorem test_vgath_lands : lanesIn ((flies gather (gathering 2)).take 1) 8 = some [0x11, 0x12, 0x13, 0x14, 0x21, 0x21, 0x22, 0x23] ∧
    (flies gather (gathering 2)).map (fun x => (x.1, x.2.1)) = [(8, .v 2), (8, .p 3)] ∧ ((flies gather (gathering 2)).drop 1).map (·.2.2) = [.w 0xFF] := by decide +kernel
theorem test_freeze : ((freezeCore frozenExample.core 2 0).csr.replay.toList.take 3).map (·.word) = [1 + 16 * 5 + 256 + 4096 * 1, 1 + 16 * 6 + 4096 * 2, 0] := by decide +kernel
/-- The manual's shape record: destination offsets in ascending order, and the matching source offsets. -/
theorem test_nest : (List.range 6).map (nestOffsets (((Vector.replicate 6 ⟨1, 0, 0, 0⟩).set 0 ⟨3, 256, 512, 1⟩).set 1 ⟨2, 768, 256, 0⟩ |> fun v =>
      (((v.set 2 ⟨1, 0, 0, 2⟩).set 3 ⟨1, 0, 0, 3⟩).set 4 ⟨1, 0, 0, 4⟩).set 5 ⟨1, 0, 0, 5⟩)) =
    [(0, 0), (768, 256), (256, 512), (1024, 768), (512, 1024), (1280, 1280)] := by decide +kernel

/-- R43, R60: an operation with G 13 to 15 that its immediate does not fit is a header condition; a second write of a register counts where
its slot is itself in error. -/
theorem test_bundle_conditions : (match decodeBundle (Claims.wordBundle 0 0b010110_1101_0001_0010_0000_00 (some 5) 0) with
      | .error r => r.hdr && r.reason == 1
      | .ok _ => false) = true ∧
    (match decodeBundle (Claims.wordBundle 1 0b000001_0000_0011_0001_0010_00 none 0 + Claims.wordBundle 2 0b000001_1101_0011_0001_0010_00 none 0) with
      | .error r => !r.hdr && r.slot == 1 && r.reason == 7
      | .ok _ => false) = true := by decide +kernel

end Sys2Proof.Tests
end

section
/-! PROOFS. The state after reset: every core of it, whichever its number, is `Core.reset`, so what the manual says of the cores is
said once of that. -/

namespace Sys2Proof.Machine

/-! ### The cores of reset -/

theorem reset_cores_length : State.reset.cores.length = 128 := by
  simp [State.cores, State.reset, otherCores]

/-- The core in focus is `Core.reset 0`, and the others are `Core.reset` of the numbers 1 to 127. -/
theorem exists_eq_coreReset_of_mem_reset_cores {c : Core} (hc : c ∈ State.reset.cores) : ∃ n, c = Core.reset n := by
  have hc : c = Core.reset 0 ∨ c ∈ otherCores := List.mem_cons.mp hc
  rcases hc with focus | other
  · exact ⟨0, focus⟩
  · obtain ⟨i, -, hi⟩ := List.mem_map.mp other
    exact ⟨_, hi.symm⟩

/-- R40: every replay entry of reset is empty, its VALID bit with it. -/
theorem csrReset_replay_word {r : Replay} (hr : r ∈ Csr.reset.replay.toList) : r.word = 0 := by
  have hr : r ∈ List.replicate 24 Replay.empty := by simpa [Csr.reset] using hr
  rw [List.eq_of_mem_replicate hr]
  rfl

/-- Settles O38: each core is `Core.reset` of some number, and the values are those `Core.reset` and the device's parts are built with. -/
theorem resetState : Obligations.ResetState := by
  unfold Obligations.ResetState
  refine ⟨reset_cores_length, fun c hc => ?cores, ?device⟩
  case cores =>
    obtain ⟨n, rfl⟩ := exists_eq_coreReset_of_mem_reset_cores hc
    exact ⟨rfl, rfl, rfl, rfl, rfl, rfl, rfl, rfl, rfl, rfl, rfl, rfl,
      fun r hr => csrReset_replay_word hr, rfl, rfl, rfl, rfl, rfl⟩
  case device => exact ⟨rfl, rfl, rfl, rfl, rfl, rfl, rfl, rfl⟩

end Sys2Proof.Machine
end
